-- ==== Sys2Proof/Word.lean ====
section
/-! DEFINITION. The word types of the block (spec/00_scope.md R10 to R14; spec/20_memory.md R63). -/

namespace Sys2Proof

/-- A byte of LMEM: a nibble, a codeword or a decoded nibble is held in one (R63). -/
abbrev Byte := BitVec 8

/-- A LoRa symbol as LMEM stores it: an unsigned 16-bit value (R63). -/
abbrev Symbol := BitVec 16

/-- A 32-bit register or operand word. A binary32 value is held by its encoding (R14). -/
abbrev Word := BitVec 32

/-- A complex sample: the binary32 encodings of I and Q (R12, R63). -/
structure Sample where
  i : Word
  q : Word
  deriving DecidableEq, Repr, Inhabited

/-- The detector's four results (spec/45_detector.md R262 to R264), held by the registers DMAX, DPOW, DAVG and DFIX
(spec/10_state.md R32 to R35): DMAX uses 12 bits, the others are binary32 encodings. -/
structure Detection where
  maxIndex : BitVec 12
  power    : Word
  powerAvg : Word
  fIndex   : Word
  deriving DecidableEq, Repr, Inhabited

end Sys2Proof
end

