-- ==== Sys2Proof/Syntax.lean ====
section
/-! DEFINITION. The commands of the block: one constructor per row of spec/opcode_table.json
(spec/30_encoding.md R92, R93, R99). Fields and operand words are the unsigned integers R94 reads from them;
SETAMPL's operand is a binary32 encoding. -/

namespace Sys2Proof

/-- A command, with the immediate fields of its header word and its operand words. -/
inductive Instr where
  /-- NOP (R120) -/
  | nop
  /-- HALT (R121) -/
  | halt
  /-- SETCFG (R122): the header fields SF, PPM and OVSM1 -/
  | setcfg (sf ppm ovsm1 : Nat)
  /-- SETAMPL (R123) -/
  | setampl (ampl : Word)
  /-- SETPHASE (R124) -/
  | setphase (p : Nat)
  /-- CLRSTAT (R126) -/
  | clrstat
  /-- GRAY (R150) -/
  | gray (dst src count : Nat)
  /-- IGRAY (R151) -/
  | igray (dst src count : Nat)
  /-- SYMRX (R152) -/
  | symrx (dst src count : Nat)
  /-- SYMTX (R153) -/
  | symtx (dst src count : Nat)
  /-- FENC.RAW (R175) -/
  | fencRaw (dst src count : Nat)
  /-- FENC.P54 (R176) -/
  | fencP54 (dst src count : Nat)
  /-- FENC.P64 (R177) -/
  | fencP64 (dst src count : Nat)
  /-- FENC.H74 (R178) -/
  | fencH74 (dst src count : Nat)
  /-- FENC.H84 (R179) -/
  | fencH84 (dst src count : Nat)
  /-- FDEC.RAW (R180) -/
  | fdecRaw (dst src count : Nat)
  /-- FDEC.P54 (R181) -/
  | fdecP54 (dst src count : Nat)
  /-- FDEC.P64 (R182) -/
  | fdecP64 (dst src count : Nat)
  /-- FDEC.H74 (R183) -/
  | fdecH74 (dst src count : Nat)
  /-- FDEC.H84 (R184) -/
  | fdecH84 (dst src count : Nat)
  /-- WHITEN (R198): the header field RDD; the operand words DST, SRC, COUNT and BITOFS -/
  | whiten (rdd dst src count bitofs : Nat)
  /-- WHITEN.C (R199) -/
  | whitenC (rdd dst src count bitofs : Nat)
  /-- ILV (R214) -/
  | ilv (rdd dst src ncw : Nat)
  /-- DILV (R215) -/
  | dilv (rdd dst src nsym : Nat)
  /-- CHIRP.UP (R236): the header field FBIN; the operand words DST and LEN -/
  | chirpUp (fbin dst len : Nat)
  /-- CHIRP.DN (R237) -/
  | chirpDn (fbin dst len : Nat)
  /-- MIX (R243) -/
  | mix (dst srca srcb count : Nat)
  /-- MIX.C (R244) -/
  | mixC (dst srca srcb count : Nat)
  /-- DETECT (R266): its first operand word is ignored -/
  | detect (ignored src : Nat)
  /-- DETECT.S (R267) -/
  | detectS (dst src : Nat)
  deriving DecidableEq, Repr

end Sys2Proof
end

