-- ==== Sys2Proof/WellFormed.lean ====
section
/-! DEFINITION. Which commands have an encoding: every field and operand word fits the bits that
spec/30_encoding.md R92 to R94 give it. Whether a value is LEGAL (R95) is checked when the command executes. -/

namespace Sys2Proof

/-- `v` fits an unsigned field of `width` bits (R94). -/
def fits (width v : Nat) : Bool := decide (v < 2 ^ width)

/-- Every one of the values fits a 32-bit operand word (R91). -/
def fitWords (vs : List Nat) : Bool := vs.all (fits 32)

/-- The command's fields fit their places in the header word (R93) and its operands their words (R92). -/
def Instr.wellFormed : Instr → Bool
  | .nop => true
  | .halt => true
  | .setcfg sf ppm ovsm1 => fits 4 sf && fits 4 ppm && fits 8 ovsm1
  | .setampl _ => true
  | .setphase p => fits 32 p
  | .clrstat => true
  | .gray dst src count => fitWords [dst, src, count]
  | .igray dst src count => fitWords [dst, src, count]
  | .symrx dst src count => fitWords [dst, src, count]
  | .symtx dst src count => fitWords [dst, src, count]
  | .fencRaw dst src count => fitWords [dst, src, count]
  | .fencP54 dst src count => fitWords [dst, src, count]
  | .fencP64 dst src count => fitWords [dst, src, count]
  | .fencH74 dst src count => fitWords [dst, src, count]
  | .fencH84 dst src count => fitWords [dst, src, count]
  | .fdecRaw dst src count => fitWords [dst, src, count]
  | .fdecP54 dst src count => fitWords [dst, src, count]
  | .fdecP64 dst src count => fitWords [dst, src, count]
  | .fdecH74 dst src count => fitWords [dst, src, count]
  | .fdecH84 dst src count => fitWords [dst, src, count]
  | .whiten rdd dst src count bitofs => fits 3 rdd && fitWords [dst, src, count, bitofs]
  | .whitenC rdd dst src count bitofs => fits 3 rdd && fitWords [dst, src, count, bitofs]
  | .ilv rdd dst src ncw => fits 3 rdd && fitWords [dst, src, ncw]
  | .dilv rdd dst src nsym => fits 3 rdd && fitWords [dst, src, nsym]
  | .chirpUp fbin dst len => fits 12 fbin && fitWords [dst, len]
  | .chirpDn fbin dst len => fits 12 fbin && fitWords [dst, len]
  | .mix dst srca srcb count => fitWords [dst, srca, srcb, count]
  | .mixC dst srca srcb count => fitWords [dst, srca, srcb, count]
  | .detect ignored src => fitWords [ignored, src]
  | .detectS dst src => fitWords [dst, src]

end Sys2Proof
end

