-- ==== Sys2Proof/Decode.lean ====
section
/-! DEFINITION. The command encoding (spec/30_encoding.md R90 to R99): decoding bytes, and encoding a command. -/

namespace Sys2Proof

/-- `v[lo+width-1 : lo]`, the field of `v` of `width` bits from bit `lo` up, as an unsigned integer (spec/00_scope.md R10). -/
def bits (v lo width : Nat) : Nat := v / 2 ^ lo % 2 ^ width

/-- The unsigned integer whose little-endian bytes are given, the lowest address first (spec/20_memory.md R62). -/
def leNat : List Byte → Nat
  | [] => 0
  | b :: bs => b.toNat + 256 * leNat bs

/-- The `n` little-endian bytes of `v`, the lowest address first; higher bits are dropped (spec/00_scope.md R12). -/
def leBytes : Nat → Nat → List Byte
  | 0, _ => []
  | n + 1, v => BitVec.ofNat 8 v :: leBytes n (v / 256)

/-- Why bytes are no command (R97, R98). -/
inductive Reject where
  /-- fewer bytes than the command has: E_FETCH at the end of LMEM -/
  | truncated
  /-- the opcode is not defined (R96): E_ILLEGAL -/
  | undefinedOpcode
  /-- a defined opcode with a reserved header bit set (R93): E_RESERVED -/
  | reservedBit
  /-- FENC or FDEC with RDD 5 to 7: it matches no row of the table (spec/41_bitcodes.md R186): E_RANGE -/
  | noVariant
  deriving DecidableEq, Repr

/-- OPC, the opcode of a header word (R91). -/
def opcode (h : Nat) : Nat := bits h 0 8

/-- The length in words that an opcode fixes; none where the opcode is not defined (R92, R96). -/
def opcodeLength : Nat → Option Nat
  | 0x00 => some 1
  | 0x01 => some 1
  | 0x02 => some 1
  | 0x03 => some 2
  | 0x04 => some 2
  | 0x05 => some 1
  | 0x10 => some 3
  | 0x11 => some 5
  | 0x20 => some 3
  | 0x30 => some 4
  | 0x40 => some 4
  | 0x41 => some 4
  | 0x50 => some 4
  | 0x51 => some 4
  | 0x60 => some 5
  | _ => none

/-- The reserved header bits of a defined opcode, as (lowest bit, width) pairs (R93). -/
def reservedFields : Nat → List (Nat × Nat)
  | 0x02 => [(24, 8)]
  | 0x10 => [(9, 3), (24, 8)]
  | 0x11 => [(9, 23)]
  | 0x20 => [(9, 23)]
  | 0x30 => [(10, 22)]
  | 0x40 => [(11, 21)]
  | 0x41 => [(11, 21)]
  | 0x50 => [(11, 21)]
  | 0x51 => [(11, 21)]
  | 0x60 => [(12, 20)]
  | _ => [(8, 24)]

/-- Every reserved bit of the header is 0 (R91, R93). -/
def reservedClear (h : Nat) : Bool :=
  (reservedFields (opcode h)).all fun f => bits h f.1 f.2 == 0

/-- The command's length from its header alone, rejecting in the order of R97 steps 2 to 4. -/
def headerLength (h : Nat) : Except Reject Nat :=
  match opcodeLength (opcode h) with
  | none => .error .undefinedOpcode
  | some n => if reservedClear h then .ok n else .error .reservedBit

/-- The FENC variant that RDD selects (spec/41_bitcodes.md R175 to R179, R186). -/
def fencVariant (rdd dst src count : Nat) : Except Reject Instr :=
  match rdd with
  | 0 => .ok (.fencRaw dst src count)
  | 1 => .ok (.fencP54 dst src count)
  | 2 => .ok (.fencP64 dst src count)
  | 3 => .ok (.fencH74 dst src count)
  | 4 => .ok (.fencH84 dst src count)
  | _ => .error .noVariant

/-- The FDEC variant that RDD selects (spec/41_bitcodes.md R180 to R184, R186). -/
def fdecVariant (rdd dst src count : Nat) : Except Reject Instr :=
  match rdd with
  | 0 => .ok (.fdecRaw dst src count)
  | 1 => .ok (.fdecP54 dst src count)
  | 2 => .ok (.fdecP64 dst src count)
  | 3 => .ok (.fdecH74 dst src count)
  | 4 => .ok (.fdecH84 dst src count)
  | _ => .error .noVariant

/-- The command that a header word and its operand words stand for (R92 to R94, R99). The header has passed
`headerLength`, so a flag of one bit takes only the values 0 and 1. -/
def decodeWords (h : Nat) (ops : List Nat) : Except Reject Instr :=
  let w1 := ops.getD 0 0
  let w2 := ops.getD 1 0
  let w3 := ops.getD 2 0
  let w4 := ops.getD 3 0
  match opcode h with
  | 0x00 => .ok .nop
  | 0x01 => .ok .halt
  | 0x02 => .ok (.setcfg (bits h 8 4) (bits h 12 4) (bits h 16 8))
  | 0x03 => .ok (.setampl (BitVec.ofNat 32 w1))
  | 0x04 => .ok (.setphase w1)
  | 0x05 => .ok .clrstat
  | 0x10 => if bits h 8 1 = 0 then .ok (.chirpUp (bits h 12 12) w1 w2) else .ok (.chirpDn (bits h 12 12) w1 w2)
  | 0x11 => if bits h 8 1 = 0 then .ok (.mix w1 w2 w3 w4) else .ok (.mixC w1 w2 w3 w4)
  | 0x20 => if bits h 8 1 = 0 then .ok (.detect w1 w2) else .ok (.detectS w1 w2)
  | 0x30 =>
    if bits h 9 1 = 0 then
      if bits h 8 1 = 0 then .ok (.gray w1 w2 w3) else .ok (.igray w1 w2 w3)
    else
      if bits h 8 1 = 0 then .ok (.symrx w1 w2 w3) else .ok (.symtx w1 w2 w3)
  | 0x40 => fencVariant (bits h 8 3) w1 w2 w3
  | 0x41 => fdecVariant (bits h 8 3) w1 w2 w3
  | 0x50 => .ok (.ilv (bits h 8 3) w1 w2 w3)
  | 0x51 => .ok (.dilv (bits h 8 3) w1 w2 w3)
  | 0x60 =>
    if bits h 11 1 = 0 then .ok (.whiten (bits h 8 3) w1 w2 w3 w4) else .ok (.whitenC (bits h 8 3) w1 w2 w3 w4)
  | _ => .error .undefinedOpcode

/-- The 32-bit word of index `i` in the bytes (R90). -/
def wordAt (bs : List Byte) (i : Nat) : Nat := leNat ((bs.drop (4 * i)).take 4)

/-- Decoding bytes that begin at a command's header, total on any bytes (R90, R97). -/
def decode (bs : List Byte) : Except Reject Instr :=
  if bs.length < 4 then .error .truncated
  else
    match headerLength (wordAt bs 0) with
    | .error r => .error r
    | .ok n =>
      if bs.length < 4 * n then .error .truncated
      else decodeWords (wordAt bs 0) ((List.range (n - 1)).map fun i => wordAt bs (i + 1))

/-- The decoder on an instruction whose bits are `w`, numbered as spec/opcode_table.json numbers them: bit 0 is the
least significant bit of the header word, and later words count on from it. -/
def decodeTableWord (nbits w : Nat) : Option Instr :=
  match decode (leBytes 20 (w % 2 ^ nbits)) with
  | .ok i => some i
  | .error _ => none

/-- A header word with an opcode and its fields, each at its lowest bit (R91, R93). -/
def header (opc : Nat) (fields : List (Nat × Nat)) : Nat :=
  fields.foldr (fun f acc => f.2 * 2 ^ f.1 + acc) opc

/-- The words of a well-formed command, the header first (R92, R93, R99). -/
def encode : Instr → List Nat
  | .nop => [header 0x00 []]
  | .halt => [header 0x01 []]
  | .setcfg sf ppm ovsm1 => [header 0x02 [(8, sf), (12, ppm), (16, ovsm1)]]
  | .setampl ampl => [header 0x03 [], ampl.toNat]
  | .setphase p => [header 0x04 [], p]
  | .clrstat => [header 0x05 []]
  | .gray dst src count => [header 0x30 [(8, 0), (9, 0)], dst, src, count]
  | .igray dst src count => [header 0x30 [(8, 1), (9, 0)], dst, src, count]
  | .symrx dst src count => [header 0x30 [(8, 0), (9, 1)], dst, src, count]
  | .symtx dst src count => [header 0x30 [(8, 1), (9, 1)], dst, src, count]
  | .fencRaw dst src count => [header 0x40 [(8, 0)], dst, src, count]
  | .fencP54 dst src count => [header 0x40 [(8, 1)], dst, src, count]
  | .fencP64 dst src count => [header 0x40 [(8, 2)], dst, src, count]
  | .fencH74 dst src count => [header 0x40 [(8, 3)], dst, src, count]
  | .fencH84 dst src count => [header 0x40 [(8, 4)], dst, src, count]
  | .fdecRaw dst src count => [header 0x41 [(8, 0)], dst, src, count]
  | .fdecP54 dst src count => [header 0x41 [(8, 1)], dst, src, count]
  | .fdecP64 dst src count => [header 0x41 [(8, 2)], dst, src, count]
  | .fdecH74 dst src count => [header 0x41 [(8, 3)], dst, src, count]
  | .fdecH84 dst src count => [header 0x41 [(8, 4)], dst, src, count]
  | .whiten rdd dst src count bitofs => [header 0x60 [(8, rdd), (11, 0)], dst, src, count, bitofs]
  | .whitenC rdd dst src count bitofs => [header 0x60 [(8, rdd), (11, 1)], dst, src, count, bitofs]
  | .ilv rdd dst src ncw => [header 0x50 [(8, rdd)], dst, src, ncw]
  | .dilv rdd dst src nsym => [header 0x51 [(8, rdd)], dst, src, nsym]
  | .chirpUp fbin dst len => [header 0x10 [(8, 0), (12, fbin)], dst, len]
  | .chirpDn fbin dst len => [header 0x10 [(8, 1), (12, fbin)], dst, len]
  | .mix dst srca srcb count => [header 0x11 [(8, 0)], dst, srca, srcb, count]
  | .mixC dst srca srcb count => [header 0x11 [(8, 1)], dst, srca, srcb, count]
  | .detect ignored src => [header 0x20 [(8, 0)], ignored, src]
  | .detectS dst src => [header 0x20 [(8, 1)], dst, src]

/-- The bytes of a command as LMEM holds them: its words in order, each little-endian (R90; spec/20_memory.md R62). -/
def encodeBytes (i : Instr) : List Byte := (encode i).flatMap (leBytes 4)

end Sys2Proof
end

