-- ==== Sys2Proof/Config.lean ====
section
/-! DEFINITION. What an implementation of the block fixes (spec/00_scope.md R9, R15), and the model's free values. -/

namespace Sys2Proof

/-- The numerics record NUM (R15): the block has either the reference instance (spec/44_chirp.md R233, R242;
spec/45_detector.md R263) or functions of its own, which are Config's opaque constants held within NUM_TOL of the
reference. Notes/assumptions 3 and 12. -/
inductive NumKind where
  /-- the reference instance -/
  | reference
  /-- functions of its own, each result of which is within `tol`·2^-149 of a finite result of the reference: the
  accuracy NUM_TOL (R15), which the spec leaves OPEN; every difference of binary32 values is a multiple of 2^-149 -/
  | implementation (tol : Nat)
  deriving DecidableEq, Repr

/-- The implementation parameters the spec leaves OPEN (R9). They stand in the machine's state, where no step changes
them, so that a statement about every state holds for every implementation. -/
structure Params where
  /-- LMEM_BYTES, which the register LSIZE shows (spec/10_state.md R40) -/
  lmemBytes : Nat
  /-- REG_BASE (spec/20_memory.md R61) -/
  regBase   : Nat
  /-- LMEM_BASE (spec/20_memory.md R61) -/
  lmemBase  : Nat
  /-- P64_G4 (spec/41_bitcodes.md R163) -/
  p64g4     : BitVec 4
  /-- P64_G5 (spec/41_bitcodes.md R163) -/
  p64g5     : BitVec 4
  /-- H74_BAD (spec/41_bitcodes.md R173) -/
  h74Bad    : Bool
  /-- NUM and NUM_TOL (R15) -/
  num       : NumKind
  deriving DecidableEq, Repr

/-- The legal parameters (R9): LMEM_BYTES is a multiple of 8 from 64 to 2^31. -/
def Params.legal (p : Params) : Bool :=
  p.lmemBytes % 8 == 0 && decide (64 ≤ p.lmemBytes) && decide (p.lmemBytes ≤ 2 ^ 31)

namespace Config

/-- The parameters the reset state is written with. DESIGN CHOICE: LMEM_BYTES 0x2000 (the size of
spec/95_test_vectors.md), the two bases and the reference numerics (notes/assumptions 2, 3, 4); the P64 groups and
H74_BAD are the spec's defaults (R9; notes/assumptions 5). -/
def defaults : Params where
  lmemBytes := 0x2000
  regBase   := 0x40000000
  lmemBase  := 0x40010000
  p64g4     := 0b0111
  p64g5     := 0b1110
  h74Bad    := false
  num       := .reference

/-- FREE VALUE: `NUM.cis` of an implementation that is not the reference (R15): amplitude, P, U. -/
opaque cis : Word → Nat → Nat → Sample

/-- FREE VALUE: `NUM.cmul` of an implementation that is not the reference (R15). -/
opaque cmul : Sample → Sample → Sample

/-- FREE VALUE: `NUM.detect` of an implementation that is not the reference (R15). -/
opaque detect : List Sample → Detection

/-- FREE VALUE: whether a destination byte of an aborted command holds the value the command would have written
(spec/70_reset_and_hazards.md R332; spec/93_implementation_defined.md I7): the number of the abort, the address. -/
opaque abortWrites : Nat → Nat → Bool

end Config

end Sys2Proof
end

