-- ==== Sys2Proof/Machine/State.lean ====
section
/-! DEFINITION. The state of the block: everything spec/10_state.md R46 lists, the implementation parameters
(spec/00_scope.md R9), and the model's own record of the host's moves. INVENTORY.md, State, names the rule of each. -/

namespace Sys2Proof.Machine

/-- The sequencer's mode (R42). -/
inductive Mode where
  | idle
  | run
  deriving DecidableEq, Repr

/-- The values STATUS.ERRCODE takes (spec/60_exceptions.md R301). -/
inductive ErrCode where
  | none
  | fetch
  | illegal
  | reserved
  | noCfg
  | cfg
  | range
  | align
  | bounds
  deriving DecidableEq, Repr

/-- CFG (R27): VALID, SF, PPM and OVSM1; the other bits read 0. -/
structure Cfg where
  valid : Bool
  sf    : BitVec 4
  ppm   : BitVec 4
  ovsm1 : BitVec 8
  deriving DecidableEq, Repr

/-- The whitener (R38, R39): two 64-bit LFSRs, and WIDX, which names the one that supplies the next key byte
(false is R0, true is R1). -/
structure Whitener where
  r0   : BitVec 64
  r1   : BitVec 64
  widx : Bool
  deriving DecidableEq, Repr

/-- LMEM (spec/20_memory.md R60): the bytes written since the hardware reset, as (address, byte) pairs with
strictly rising addresses. A byte that is not listed has no value (R77; notes/assumptions 1). -/
abbrev Memory := List Host.Cell

/-- The widths the host may use (spec/20_memory.md R66). -/
inductive AccessSize where
  | byte
  | half
  | word
  deriving DecidableEq, Repr

/-- One move of an agent (spec/00_scope.md R18; spec/70_reset_and_hazards.md R346). MODEL's own: notes/assumptions 6. -/
inductive Turn where
  /-- the sequencer moves: it runs one command, or nothing while it is idle -/
  | sequencer
  /-- the host reads at a platform address -/
  | read (size : AccessSize) (addr : Nat)
  /-- the host writes at a platform address -/
  | write (size : AccessSize) (addr : Nat) (value : Word)
  /-- the host writes CTRL with SRST = 1 while the command at CPC is in its perform phase (R331, R332) -/
  | abortingReset
  /-- the platform applies a hardware reset (R330) -/
  | hardwareReset
  deriving DecidableEq, Repr

/-- The state of the block. -/
structure State where
  /-- R42; STATUS.BUSY is 1 exactly in `run` -/
  mode     : Mode
  /-- CTRL.IE (R22) -/
  ie       : Bool
  /-- STATUS.DONE (R26) -/
  done     : Bool
  /-- STATUS.ERR (R26) -/
  err      : Bool
  /-- STATUS.ERRCODE (R26, R301) -/
  errCode  : ErrCode
  /-- CPC (R28) -/
  cpc      : Word
  /-- ERRPC (R29) -/
  errPc    : Word
  /-- CFG (R27) -/
  cfg      : Cfg
  /-- AMPL (R30), a binary32 encoding -/
  ampl     : Word
  /-- PHASE (R31): the accumulator P, bits [27:0] -/
  phase    : BitVec 28
  /-- DMAX, DPOW, DAVG and DFIX (R32 to R35) -/
  det      : Detection
  /-- FERR (R36) -/
  ferr     : Word
  /-- FBAD (R37) -/
  fbad     : Word
  /-- R0, R1 and WIDX (R38, R39) -/
  wh       : Whitener
  /-- LMEM (R60) -/
  lmem     : Memory
  /-- the implementation parameters (R9), LSIZE among them (R40); constant -/
  params   : Params
  /-- MODEL's own: the moves to come; when none is listed the sequencer moves (notes/assumptions 6) -/
  turns    : List Turn
  /-- MODEL's own: what the last host read returned (notes/assumptions 6) -/
  hostData : Option Word
  /-- MODEL's own: how many commands an SRST has aborted; it indexes the free values of R332 (notes/assumptions 9) -/
  aborts   : Nat
  deriving DecidableEq, Repr

/-- Why a step can fault. -/
inductive Fault where
  /-- A fetch, a command or the host reads an LMEM byte that nobody has written since the hardware reset
  (spec/20_memory.md R77; spec/93_implementation_defined.md I6: "fault"). Raised by `Memory.readBytes`. SAFE: the
  hardware goes on with an unspecified value. -/
  | unwrittenByte (addr : Nat)
  deriving DecidableEq, Repr

/-- Why a step can be refused: host actions to which the spec gives no move. -/
inductive Refusal where
  /-- An instruction that has no meaning yet; no arm of `exec` answers it. SAFE. -/
  | notModelled (mnemonic : String)
  /-- The host accesses LMEM while STATUS.BUSY = 1 (spec/70_reset_and_hazards.md R340: "A model gives the host no LMEM
  move while BUSY = 1"). Raised by `hostRead` and `hostWrite`. SAFE. -/
  | hostLmemWhileBusy
  /-- A host access of a width or alignment outside spec/20_memory.md R66 ("a model gives it no move (refused)").
  Raised by `hostRead` and `hostWrite`. SAFE. -/
  | hostAccessShape
  /-- A host access to a platform address in neither window (spec/70_reset_and_hazards.md R346: "An action not listed
  has no move in a model"). Raised by `hostRead` and `hostWrite`. SAFE. -/
  | hostAddressUnmapped
  deriving DecidableEq, Repr

/-- What a step or a command answers. -/
abbrev Outcome := Host.Outcome State Fault Refusal

/-- The machine after a hardware reset (R47; spec/70_reset_and_hazards.md R330): the parameters are those of
`Config.defaults`, and the host has no move listed. -/
def State.reset : State where
  mode     := .idle
  ie       := false
  done     := false
  err      := false
  errCode  := .none
  cpc      := 0
  errPc    := 0
  cfg      := { valid := false, sf := 0, ppm := 0, ovsm1 := 0 }
  ampl     := 0x3F800000
  phase    := 0
  det      := { maxIndex := 0, power := 0, powerAvg := 0, fIndex := 0 }
  ferr     := 0
  fbad     := 0
  wh       := { r0 := 0x6572D100E85C2EFF, r1 := 0xE85C2EFFFFFFFFFF, widx := false }
  lmem     := []
  params   := Config.defaults
  turns    := []
  hostData := none
  aborts   := 0

end Sys2Proof.Machine
end

