-- ==== Sys2Proof/Machine/Ops.lean ====
section
/-! DEFINITION. The shared operations over memory and registers: LMEM reads and writes, raising an error, completing a
command, the resets, and the shape every command's rule has (spec/40_control.md, template). -/

namespace Sys2Proof.Machine

/-! LMEM (spec/20_memory.md) -/

/-- The addresses of the entries rise strictly: the one form in which a memory is written down. -/
def Memory.wf : Memory → Bool
  | [] => true
  | [_] => true
  | c :: d :: m => decide (c.1 < d.1) && Memory.wf (d :: m)

/-- The byte of LMEM at `a`, none where nobody has written it since the hardware reset (R77). -/
def Memory.readByte : Memory → Nat → Option Byte
  | [], _ => none
  | c :: m, a => if c.1 = a then some c.2 else Memory.readByte m a

/-- The `n` bytes from address `a` up. An unwritten byte has no value: reading it faults (R77). -/
def Memory.readBytes (m : Memory) (a : Nat) : Nat → Except Fault (List Byte)
  | 0 => .ok []
  | n + 1 =>
    match Memory.readByte m a with
    | none => .error (.unwrittenByte a)
    | some b =>
      match Memory.readBytes m (a + 1) n with
      | .error f => .error f
      | .ok bs => .ok (b :: bs)

/-- MemRead(a, n): the little-endian unsigned integer in `n` bytes (spec/00_scope.md R12). -/
def Memory.read (m : Memory) (a n : Nat) : Except Fault Nat :=
  match m.readBytes a n with
  | .error f => .error f
  | .ok bs => .ok (leNat bs)

/-- The entries of the bytes `bs` at addresses from `a` up. -/
def cellsAt (a : Nat) : List Byte → Memory
  | [] => []
  | b :: bs => (a, b) :: cellsAt (a + 1) bs

/-- Writing the bytes `bs` at the addresses from `a` up; every other byte stays (R70: a command writes one region). -/
def Memory.writeBytes (m : Memory) (a : Nat) (bs : List Byte) : Memory :=
  m.filter (fun c => decide (c.1 < a)) ++ cellsAt a bs ++ m.filter (fun c => decide (a + bs.length ≤ c.1))

/-- MemWrite(a, n, v): `v` modulo 2^(8n) into `n` bytes, little-endian (spec/00_scope.md R12). -/
def Memory.write (m : Memory) (a n v : Nat) : Memory := m.writeBytes a (leBytes n v)

/-! Errors, completion and resets -/

/-- `raise E_X` (spec/60_exceptions.md R302, R304): ERR and ERRCODE are set, ERRPC takes CPC, the sequencer stops;
nothing else changes, and CPC still addresses the faulting command. -/
def raise (e : ErrCode) (s : State) : State :=
  { s with err := true, errCode := e, errPc := s.cpc, mode := .idle }

/-- The return from an error, the host's part of spec/60_exceptions.md R309 step 3: writing 1 to STATUS.ERR clears ERR
and ERRCODE (spec/10_state.md R26). The GO that follows is `acceptGo`. -/
def clearError (s : State) : State := { s with err := false, errCode := .none }

/-- An accepted GO (spec/10_state.md R23, R42): DONE is cleared and the sequencer runs from CPC. -/
def acceptGo (s : State) : State := { s with done := false, mode := .run }

/-- The advance after a command of `len` words (spec/10_state.md R28; spec/60_exceptions.md R300). -/
def advance (len : Nat) (s : State) : State := { s with cpc := s.cpc + BitVec.ofNat 32 (4 * len) }

/-- The soft reset (spec/70_reset_and_hazards.md R331): every register takes its R47 value and LMEM is kept. The
parameters and the model's own fields are no registers. -/
def softReset (s : State) : State :=
  { State.reset with
    lmem := s.lmem, params := s.params, turns := s.turns, hostData := s.hostData, aborts := s.aborts }

/-- The hardware reset (spec/70_reset_and_hazards.md R330): as the soft reset, and no LMEM byte has a value (R77). -/
def hardwareReset (s : State) : State := { softReset s with lmem := [] }

/-! The shape of a command's rule (spec/40_control.md, template; spec/00_scope.md R13) -/

/-- One check of a command's check phase: what must hold, and the error raised where it does not. -/
structure Check where
  holds : Bool
  err   : ErrCode
  deriving DecidableEq, Repr

/-- The error of the first check that fails, in the written order (spec/00_scope.md R13; spec/60_exceptions.md R305). -/
def firstFailure : List Check → Option ErrCode
  | [] => none
  | c :: cs => if c.holds then firstFailure cs else some c.err

/-- A command of `len` words: its check phase, then its perform phase and the CPC advance (spec/60_exceptions.md
R300, R303). A failed check raises its error with no other effect. The perform phase can only fault, by reading an
unwritten byte. -/
def command (len : Nat) (checks : List Check) (perform : State → Except Fault State) (s : State) : Outcome :=
  match firstFailure checks with
  | some e => .next (raise e s)
  | none =>
    match perform s with
    | .error f => .fault f
    | .ok t => .next (advance len t)

end Sys2Proof.Machine
end

