-- ==== Sys2Proof/Machine/Operands.lean ====
section
/-! DEFINITION. The operand forms: the values derived from CFG (spec/10_state.md R27), the checks a command makes
(spec/60_exceptions.md R301), and arrays of the elements of spec/20_memory.md R63. -/

namespace Sys2Proof.Machine

/-! Derived configuration values (spec/10_state.md R27; spec/00_scope.md R8) -/

/-- CFG.N = 2^SF -/
def Cfg.n (c : Cfg) : Nat := 2 ^ c.sf.toNat

/-- CFG.OVS = OVSM1 + 1 -/
def Cfg.ovs (c : Cfg) : Nat := c.ovsm1.toNat + 1

/-- CFG.NN = N·OVS -/
def Cfg.nn (c : Cfg) : Nat := c.n * c.ovs

/-- CFG.U = N·OVS², the phase modulus (spec/00_scope.md R8) -/
def Cfg.u (c : Cfg) : Nat := c.n * c.ovs ^ 2

/-! Checks -/

/-- CFG.VALID = 1, else E_NOCFG -/
def cfgValid (s : State) : Check := ⟨s.cfg.valid, .noCfg⟩

/-- A value is in its legal range, else E_RANGE (spec/30_encoding.md R95) -/
def inRange (holds : Bool) : Check := ⟨holds, .range⟩

/-- RDD ≤ 4, else E_RANGE (spec/30_encoding.md R95) -/
def rddLegal (rdd : Nat) : Check := inRange (decide (rdd ≤ 4))

/-- The operand address is a multiple of its element's alignment, else E_ALIGN (spec/20_memory.md R64) -/
def aligned (a alignment : Nat) : Check := ⟨decide (a % alignment = 0), .align⟩

/-- The region [a, a+len) lies in LMEM, else E_BOUNDS; an empty region is not checked (spec/20_memory.md R65) -/
def inBounds (s : State) (a len : Nat) : Check := ⟨decide (len = 0 ∨ a + len ≤ s.params.lmemBytes), .bounds⟩

/-! Arrays of elements (spec/20_memory.md R62, R63) -/

/-- `count` byte elements from `a` -/
def loadU8s (m : Memory) (a count : Nat) : Except Fault (List Byte) := m.readBytes a count

/-- `count` u16 elements from `a` -/
def loadU16s (m : Memory) (a : Nat) : Nat → Except Fault (List Symbol)
  | 0 => .ok []
  | n + 1 =>
    match m.read a 2 with
    | .error f => .error f
    | .ok v =>
      match loadU16s m (a + 2) n with
      | .error f => .error f
      | .ok vs => .ok (BitVec.ofNat 16 v :: vs)

/-- LdSample(a): I at a, Q at a+4 (spec/00_scope.md R12) -/
def loadSample (m : Memory) (a : Nat) : Except Fault Sample :=
  match m.read a 4 with
  | .error f => .error f
  | .ok i =>
    match m.read (a + 4) 4 with
    | .error f => .error f
    | .ok q => .ok ⟨BitVec.ofNat 32 i, BitVec.ofNat 32 q⟩

/-- `count` samples from `a` -/
def loadSamples (m : Memory) (a : Nat) : Nat → Except Fault (List Sample)
  | 0 => .ok []
  | n + 1 =>
    match loadSample m a with
    | .error f => .error f
    | .ok x =>
      match loadSamples m (a + 8) n with
      | .error f => .error f
      | .ok xs => .ok (x :: xs)

/-- The bytes of a u16 element -/
def symbolBytes (v : Symbol) : List Byte := leBytes 2 v.toNat

/-- The bytes of a 32-bit element -/
def wordBytes (v : Word) : List Byte := leBytes 4 v.toNat

/-- The bytes of a sample: I, then Q -/
def sampleBytes (x : Sample) : List Byte := wordBytes x.i ++ wordBytes x.q

/-- Storing byte elements from `a` up -/
def storeU8s (a : Nat) (vs : List Byte) (s : State) : State := { s with lmem := s.lmem.writeBytes a vs }

/-- Storing u16 elements from `a` up -/
def storeU16s (a : Nat) (vs : List Symbol) (s : State) : State := storeU8s a (vs.flatMap symbolBytes) s

/-- Storing samples from `a` up -/
def storeSamples (a : Nat) (xs : List Sample) (s : State) : State := storeU8s a (xs.flatMap sampleBytes) s

end Sys2Proof.Machine
end

