-- ==== Sys2Proof/Machine/Flags.lean ====
section
/-! DEFINITION. Flags, counters and the words the host reads of them (spec/10_state.md R21 to R40;
spec/60_exceptions.md R301; spec/41_bitcodes.md R169). -/

namespace Sys2Proof.Machine

/-- The number of an error code (spec/60_exceptions.md R301). -/
def ErrCode.code : ErrCode → Nat
  | .none => 0
  | .fetch => 1
  | .illegal => 2
  | .reserved => 3
  | .noCfg => 4
  | .cfg => 5
  | .range => 6
  | .align => 7
  | .bounds => 8

/-- A counter plus `n`, saturating at 2^32 - 1 (spec/10_state.md R36, R37). -/
def satAdd (counter : Word) (n : Nat) : Word := BitVec.ofNat 32 (min (counter.toNat + n) (2 ^ 32 - 1))

/-- The output signal IRQ = IE & (DONE | ERR) (spec/10_state.md R24, R45). -/
def State.irq (s : State) : Bool := s.ie && (s.done || s.err)

/-- A bit as a 32-bit word. -/
def bitWord (b : Bool) : Word := if b then 1 else 0

/-- CTRL as it reads: GO and SRST read 0 (spec/10_state.md R22). -/
def State.ctrlWord (s : State) : Word := bitWord s.ie <<< 1

/-- STATUS as it reads (spec/10_state.md R26). -/
def State.statusWord (s : State) : Word :=
  bitWord (s.mode == .run) ||| bitWord s.done <<< 1 ||| bitWord s.err <<< 2 ||| BitVec.ofNat 32 s.errCode.code <<< 8

/-- CFG as it reads (spec/10_state.md R27). -/
def Cfg.word (c : Cfg) : Word :=
  c.sf.setWidth 32 ||| c.ppm.setWidth 32 <<< 4 ||| c.ovsm1.setWidth 32 <<< 8 ||| bitWord c.valid <<< 31

/-- What a decoder answers for one codeword: the nibble, `error` and `bad` (spec/41_bitcodes.md R167). -/
structure Nibble where
  d     : BitVec 4
  error : Bool
  bad   : Bool
  deriving DecidableEq, Repr

/-- The FDEC output byte: the nibble in [3:0], error in bit 4, bad in bit 5, bits [7:6] zero (spec/41_bitcodes.md R169). -/
def Nibble.byte (x : Nibble) : Byte :=
  x.d.setWidth 8 ||| (if x.error then 0x10 else 0) ||| (if x.bad then 0x20 else 0)

/-- FDEC's counters: the codewords with `error` go to FERR and those with `bad` to FBAD (spec/41_bitcodes.md R169). -/
def countOutcomes (xs : List Nibble) (s : State) : State :=
  { s with ferr := satAdd s.ferr (xs.countP (·.error)), fbad := satAdd s.fbad (xs.countP (·.bad)) }

end Sys2Proof.Machine
end

