-- ==== Sys2Proof/Machine/Control.lean ====
section
/-! DEFINITION. The control commands (spec/40_control.md). -/

namespace Sys2Proof.Machine

/-- NOP (R120): nothing but the CPC advance. -/
def execNop (s : State) : Outcome := command 1 [] .ok s

/-- HALT (R121): CPC moves past it, DONE is set, and the sequencer stops. -/
def execHalt (s : State) : Outcome := command 1 [] (fun s => .ok { s with done := true, mode := .idle }) s

/-- The effective symbol width: the field value 0 selects SF (R125). -/
def effectivePpm (sf ppm : Nat) : Nat := if ppm = 0 then sf else ppm

/-- SETCFG (R122): CFG takes SF, the effective PPM and OVSM1; VALID is set, and P becomes 0. -/
def execSetcfg (sf ppm ovsm1 : Nat) (s : State) : Outcome :=
  command 1 [⟨decide (7 ≤ sf ∧ sf ≤ 12), .cfg⟩, ⟨decide (ppm ≤ sf), .cfg⟩]
    (fun s => .ok
      { s with
        cfg := ⟨true, BitVec.ofNat 4 sf, BitVec.ofNat 4 (effectivePpm sf ppm), BitVec.ofNat 8 ovsm1⟩
        phase := 0 })
    s

/-- The binary32 exponent field is 0xFF: an infinity or a NaN (R123). -/
def nonFinite (w : Word) : Bool := (w >>> 23).setWidth 8 == 0xFF#8

/-- SETAMPL (R123): AMPL takes the operand, which must be finite. -/
def execSetampl (ampl : Word) (s : State) : Outcome :=
  command 2 [inRange (!nonFinite ampl)] (fun s => .ok { s with ampl := ampl }) s

/-- SETPHASE (R124): P takes the operand, which must be below U. -/
def execSetphase (p : Nat) (s : State) : Outcome :=
  command 2 [cfgValid s, inRange (decide (p < s.cfg.u))] (fun s => .ok { s with phase := BitVec.ofNat 28 p }) s

/-- CLRSTAT (R126): FERR and FBAD become 0. -/
def execClrstat (s : State) : Outcome := command 1 [] (fun s => .ok { s with ferr := 0, fbad := 0 }) s

end Sys2Proof.Machine
end

