-- ==== Sys2Proof/Machine/Float.lean ====
section
/-! DEFINITION. IEEE 754 binary32 (spec/00_scope.md R14; spec/44_chirp.md R241, R242): every finite value is an integer
multiple of 2^-149, so sums are exact integers, products are exact multiples of 2^-298, and one rounding ends each
operation. -/

namespace Sys2Proof.Machine

/-- The canonical quiet NaN (R242). -/
def f32NaN : Word := 0x7FC00000

/-- −∞ (spec/45_detector.md R263). -/
def f32NegInf : Word := 0xFF800000

/-- The sign bit. -/
def f32Sign (w : Word) : Bool := w.getLsbD 31

/-- The encoding without its sign bit. -/
def f32Mag (w : Word) : Nat := w.toNat % 2 ^ 31

/-- A NaN: the exponent field is all ones and the fraction is not 0. -/
def f32IsNaN (w : Word) : Bool := decide (0x7F800000 < f32Mag w)

/-- An infinity. -/
def f32IsInf (w : Word) : Bool := decide (f32Mag w = 0x7F800000)

/-- The magnitude of a finite value in units of 2^-149; subnormals are kept (R242). -/
def f32Units (w : Word) : Nat :=
  let e := f32Mag w / 2 ^ 23
  let f := f32Mag w % 2 ^ 23
  if e = 0 then f else (f + 2 ^ 23) * 2 ^ (e - 1)

/-- A finite value in units of 2^-149. -/
def f32Value (w : Word) : Int := if f32Sign w then -(f32Units w : Int) else (f32Units w : Int)

/-- `n / d` rounded to the nearest integer, ties to even. -/
def roundTiesEven (n d : Nat) : Nat :=
  let q := n / d
  let r := n % d
  if 2 * r < d then q else if d < 2 * r then q + 1 else if q % 2 = 0 then q else q + 1

/-- The encoding of the magnitude n·2^(-k) rounded to binary32, ties to even; ∞ on overflow (spec/00_scope.md R14).
The quantum is 2^q with q = max(⌊log2 value⌋ - 23, -149); the encoding (q + 149)·2^23 + m counts the quanta m of a
normal value from its hidden bit, of a subnormal value from 0, and a carry of m moves to the next binade. -/
def roundMag (n k : Nat) : Nat :=
  if n = 0 then 0
  else
    let q : Int := max ((Nat.log2 n : Int) - (k : Int) - 23) (-149)
    let shift : Int := (k : Int) + q
    let m := if 0 ≤ shift then roundTiesEven n (2 ^ shift.toNat) else n * 2 ^ (-shift).toNat
    min 0x7F800000 ((q + 149).toNat * 2 ^ 23 + m)

/-- A magnitude encoding with a sign. -/
def withSign (neg : Bool) (mag : Nat) : Word := BitVec.ofNat 32 ((if neg then 2 ^ 31 else 0) + mag)

/-- rnd32 of the exact value v·2^(-k) (spec/00_scope.md R14); an exact 0 gives +0.0 (R233). -/
def rnd32 (v : Int) (k : Nat) : Word := withSign (decide (v < 0)) (roundMag v.natAbs k)

/-- Flipping the sign bit (R241). -/
def f32Neg (w : Word) : Word := w ^^^ 0x80000000

/-- The binary32 product (R242). -/
def f32Mul (x y : Word) : Word :=
  let neg := f32Sign x ^^ f32Sign y
  if f32IsNaN x || f32IsNaN y then f32NaN
  else if f32IsInf x || f32IsInf y then
    if f32Mag x = 0 ∨ f32Mag y = 0 then f32NaN else withSign neg 0x7F800000
  else withSign neg (roundMag (f32Units x * f32Units y) 298)

/-- The binary32 sum (R242). An exact sum of 0 is -0.0 only where both operands are -0.0. -/
def f32Add (x y : Word) : Word :=
  if f32IsNaN x || f32IsNaN y then f32NaN
  else if f32IsInf x && f32IsInf y then if f32Sign x = f32Sign y then x else f32NaN
  else if f32IsInf x then x
  else if f32IsInf y then y
  else
    let v := f32Value x + f32Value y
    if v = 0 then withSign (f32Sign x && f32Sign y) 0 else rnd32 v 149

/-- The binary32 difference (R242). -/
def f32Sub (x y : Word) : Word := f32Add x (f32Neg y)

/-- A NaN becomes the canonical one (R242). -/
def f32Canon (w : Word) : Word := if f32IsNaN w then f32NaN else w

/-- The complex conjugate of a sample (R241). -/
def Sample.conj (x : Sample) : Sample := ⟨x.i, f32Neg x.q⟩

/-- The reference instance of NUM.cmul: four products, a difference and a sum, in this order (R242). -/
def cmulReference (x y : Sample) : Sample :=
  let t1 := f32Mul x.i y.i
  let t2 := f32Mul x.q y.q
  let t3 := f32Mul x.i y.q
  let t4 := f32Mul x.q y.i
  ⟨f32Canon (f32Sub t1 t2), f32Canon (f32Add t3 t4)⟩

end Sys2Proof.Machine
end

