-- ==== Sys2Proof/Machine/Enclosure.lean ====
section
/-! DEFINITION. Enclosures of real numbers: the exact reals of the reference numerics (spec/44_chirp.md R233,
spec/45_detector.md R262) are first looked for as intervals with rational ends, at a precision that is raised a few
times; an interval that holds no rounding boundary decides the answer, and Exact.lean decides every other case
(notes/assumptions 10). At precision p an end `v` stands for v·2^(-p);
every operation rounds its lower end down and its upper end up. -/

namespace Sys2Proof.Machine

/-- The reals from `lo` to `hi`, in units of 2^(-p). -/
structure Enclosure where
  lo : Int
  hi : Int
  deriving DecidableEq, Repr

/-- ⌈a/b⌉ for b > 0. -/
def ceilDiv (a b : Int) : Int := -((-a) / b)

/-- An integer. -/
def Enclosure.ofInt (p : Nat) (z : Int) : Enclosure := ⟨z * 2 ^ p, z * 2 ^ p⟩

/-- The sum. -/
def Enclosure.add (x y : Enclosure) : Enclosure := ⟨x.lo + y.lo, x.hi + y.hi⟩

/-- The negation. -/
def Enclosure.neg (x : Enclosure) : Enclosure := ⟨-x.hi, -x.lo⟩

/-- The difference. -/
def Enclosure.sub (x y : Enclosure) : Enclosure := x.add y.neg

/-- An integer multiple. -/
def Enclosure.scale (x : Enclosure) (z : Int) : Enclosure :=
  if 0 ≤ z then ⟨x.lo * z, x.hi * z⟩ else ⟨x.hi * z, x.lo * z⟩

/-- A quotient by a positive integer. -/
def Enclosure.divNat (x : Enclosure) (d : Nat) : Enclosure := ⟨x.lo / (d : Int), ceilDiv x.hi d⟩

/-- The product. -/
def Enclosure.mul (p : Nat) (x y : Enclosure) : Enclosure :=
  let a := x.lo * y.lo
  let b := x.lo * y.hi
  let c := x.hi * y.lo
  let d := x.hi * y.hi
  ⟨min (min a b) (min c d) / 2 ^ p, ceilDiv (max (max a b) (max c d)) (2 ^ p)⟩

/-- The quotient by an enclosure of positive reals. -/
def Enclosure.div (p : Nat) (x y : Enclosure) : Enclosure :=
  ⟨if 0 ≤ x.lo then x.lo * 2 ^ p / y.hi else x.lo * 2 ^ p / y.lo,
    if 0 ≤ x.hi then ceilDiv (x.hi * 2 ^ p) y.lo else ceilDiv (x.hi * 2 ^ p) y.hi⟩

/-- The enclosure widened by `e` on both sides. -/
def Enclosure.widen (x : Enclosure) (e : Int) : Enclosure := ⟨x.lo - e, x.hi + e⟩

/-- ⌊√n⌋, one bit of the root at a time, from bit `k - 1` down. -/
def sqrtBits (n : Nat) : Nat → Nat → Nat
  | 0, r => r
  | k + 1, r => sqrtBits n k (if (r + 2 ^ k) * (r + 2 ^ k) ≤ n then r + 2 ^ k else r)

/-- ⌊√n⌋ -/
def floorSqrt (n : Nat) : Nat := sqrtBits n (Nat.log2 n / 2 + 1) 0

/-- The square root of an enclosure of non-negative reals. -/
def Enclosure.sqrt (p : Nat) (x : Enclosure) : Enclosure :=
  ⟨(floorSqrt (x.lo.toNat * 2 ^ p) : Int), (floorSqrt (x.hi.toNat * 2 ^ p) : Int) + 1⟩

/-- Σ of `terms` terms of an alternating or a positive series; `term` is the running power, `next` makes the following
power, and `weight k` the divisor of term k. The last running power is returned for the remainder. -/
def seriesSum (alternating : Bool) (next : Enclosure → Enclosure) (weight : Nat → Nat) :
    Nat → Nat → Enclosure → Enclosure → Enclosure × Enclosure
  | 0, _, power, acc => (acc, power)
  | terms + 1, k, power, acc =>
    let t := power.divNat (weight k)
    let acc := if alternating && k % 2 == 1 then acc.sub t else acc.add t
    seriesSum alternating next weight terms (k + 1) (next power) acc

/-- arctan(1/n) for n ≥ 5: Σ (-1)^k / (n^(2k+1)·(2k+1)); the remainder is at most the first power left out. -/
def arctanInv (p n : Nat) : Enclosure :=
  let r := seriesSum true (fun x => x.divNat (n * n)) (fun k => 2 * k + 1) (p / 4 + 2) 0
    ((Enclosure.ofInt p 1).divNat n) ⟨0, 0⟩
  r.1.widen r.2.hi

/-- π = 16·arctan(1/5) - 4·arctan(1/239). -/
def piEnclosure (p : Nat) : Enclosure := ((arctanInv p 5).scale 16).sub ((arctanInv p 239).scale 4)

/-- Σ of the Taylor terms x^(2k+b)/(2k+b)! with alternating sign, for 0 ≤ x < 1 and b = 0 (cosine) or 1 (sine): the
running term is divided by its two new factors, and the remainder is at most the first term left out. -/
def taylorSum (p b : Nat) (x2 : Enclosure) : Nat → Nat → Enclosure → Enclosure → Enclosure
  | 0, _, term, acc => acc.widen term.hi
  | terms + 1, k, term, acc =>
    let acc := if k % 2 == 1 then acc.sub term else acc.add term
    taylorSum p b x2 terms (k + 1) ((term.mul p x2).divNat ((2 * k + b + 1) * (2 * k + b + 2))) acc

/-- cos x for 0 ≤ x < 1. -/
def cosSeries (p : Nat) (x : Enclosure) : Enclosure :=
  taylorSum p 0 (x.mul p x) (p / 8 + 8) 0 (Enclosure.ofInt p 1) ⟨0, 0⟩

/-- sin x for 0 ≤ x < 1. -/
def sinSeries (p : Nat) (x : Enclosure) : Enclosure :=
  taylorSum p 1 (x.mul p x) (p / 8 + 8) 0 x ⟨0, 0⟩

/-- cos of (π/2)·r/u for 0 ≤ r ≤ u, through an angle of at most π/4. -/
def cosQuarter (p r u : Nat) : Enclosure :=
  if 2 * r ≤ u then cosSeries p (((piEnclosure p).scale r).divNat (2 * u))
  else sinSeries p (((piEnclosure p).scale ((u - r : Nat) : Int)).divNat (2 * u))

/-- cos(2π·n/u): the quarter turn picks the sign and the reflection. -/
def cosTurn (p n u : Nat) : Enclosure :=
  let r := 4 * (n % u) % u
  match 4 * (n % u) / u with
  | 0 => cosQuarter p r u
  | 1 => (cosQuarter p (u - r) u).neg
  | 2 => (cosQuarter p r u).neg
  | _ => cosQuarter p (u - r) u

/-- Σ z^(2k+1)/(2k+1) twice, which is ln((1+z)/(1-z)), for 0 ≤ z ≤ 1/3; the remainder is at most twice the first power
left out. -/
def lnSeries (p : Nat) (z : Enclosure) : Enclosure :=
  let r := seriesSum false (fun x => x.mul p (z.mul p z)) (fun k => 2 * k + 1) (p / 3 + 2) 0 z ⟨0, 0⟩
  (r.1.widen (2 * r.2.hi)).scale 2

/-- ln 2 -/
def ln2Enclosure (p : Nat) : Enclosure := lnSeries p ((Enclosure.ofInt p 1).divNat 3)

/-- ln 10 = 3·ln 2 + ln(5/4) -/
def ln10Enclosure (p : Nat) : Enclosure :=
  ((ln2Enclosure p).scale 3).add (lnSeries p ((Enclosure.ofInt p 1).divNat 9))

/-- ln n for n > 0: n = m·2^e with 1 ≤ m < 2, and ln m = ln((1+z)/(1-z)) with z = (n-2^e)/(n+2^e). -/
def lnNat (p n : Nat) : Enclosure :=
  let e := Nat.log2 n
  let z := (Enclosure.ofInt p ((n - 2 ^ e : Nat) : Int)).divNat (n + 2 ^ e)
  (lnSeries p z).add ((ln2Enclosure p).scale e)

/-- The precisions tried are 128, 256, 512 and so on. -/
def precision (level : Nat) : Nat := 128 * 2 ^ level

/-- rnd32 of a real from enclosures of it that `ends` rounds at each precision: the first of `fuel` precisions at which
both ends round alike decides, because rounding is monotone. Where none does, `exact` rounds the real. -/
def roundEnclosed (ends : Nat → Option (Word × Word)) (exact : Unit → Word) : Nat → Nat → Word
  | 0, _ => exact ()
  | fuel + 1, level =>
    match ends (precision level) with
    | none => roundEnclosed ends exact fuel (level + 1)
    | some (l, h) => if l = h then l else roundEnclosed ends exact fuel (level + 1)

/-- The sign of a real from an enclosure of it; where the enclosure holds 0, `exact` says it. -/
def signEnclosed (x : Enclosure) (exact : Unit → Int) : Int :=
  if 0 < x.lo then 1 else if x.hi < 0 then -1 else exact ()

end Sys2Proof.Machine
end

