-- ==== Sys2Proof/Machine/Exact.lean ====
section
/-! DEFINITION. Exact decisions on real algebraic numbers, for what no enclosure decides (spec/45_detector.md R262, R263;
spec/44_chirp.md R233): the sign of a real cyclotomic number, of a sum of square roots of such numbers, of a cosine less
a rational; and the rounding of a real that can be compared with every rational (notes/assumptions 10, 11). -/

namespace Sys2Proof.Machine

/-! Cyclotomic numbers. A number Σ c_m·ζ^m with ζ = e^(j·π/h), m < h, h a power of two and integers c_m is held as the
list of the c_m; ζ^h = -1. -/

/-- The sum. -/
def ringAdd (x y : List Int) : List Int := List.zipWith (· + ·) x y

/-- An integer multiple. -/
def ringScale (z : Int) (x : List Int) : List Int := x.map (z * ·)

/-- The difference. -/
def ringSub (x y : List Int) : List Int := ringAdd x (ringScale (-1) y)

/-- An integer, among the numbers of h coefficients. -/
def ringOfInt (h : Nat) (z : Int) : List Int := z :: List.replicate (h - 1) 0

/-- ζ times a number. -/
def ringShift (x : List Int) : List Int :=
  match x.getLast? with
  | none => []
  | some c => -c :: x.dropLast

/-- The product. -/
def ringMul (x y : List Int) : List Int :=
  x.foldr (fun c acc => ringAdd (ringScale c y) (ringShift acc)) (ringScale 0 y)

/-- A power. -/
def ringPow (x : List Int) : Nat → List Int
  | 0 => ringOfInt x.length 1
  | n + 1 => ringMul x (ringPow x n)

/-- The complex conjugate: ζ^(-m) = -ζ^(h-m). -/
def ringConj : List Int → List Int
  | [] => []
  | c :: cs => c :: (cs.map (- ·)).reverse

/-- The coefficients of the even powers. -/
def evens : List Int → List Int
  | [] => []
  | [c] => [c]
  | c :: _ :: cs => c :: evens cs

/-- The coefficients of the odd powers. -/
def odds (x : List Int) : List Int := evens x.tail

/-! Signs. A sign is 1, 0 or -1. -/

/-- The sign of a + b, from the signs of a and of b and, where those are opposite, the sign of a² - b². -/
def signOfSum (a b : Int) (squares : Unit → Int) : Int :=
  if b = 0 then a else if a = 0 then b else if a = b then a else a * squares ()

/-- The sign of a real number of 2^level coefficients. It is E + ζ·O, with E and O in the ring of ζ². E and ζ·O are real;
O·(1 + ζ²) is ζ·O times 2·cos(π/2^level), which is positive (and O = 0 at level 1); and (ζ·O)² = ζ²·O². -/
def ringSign : Nat → List Int → Int
  | 0, x => (x.headD 0).sign
  | level + 1, x =>
    let e := evens x
    let o := odds x
    signOfSum (ringSign level e) (ringSign level (ringAdd o (ringShift o))) fun _ =>
      ringSign level (ringSub (ringMul e e) (ringShift (ringMul o o)))

/-- The sign of a·√r + b·√l, for r and l not negative. -/
def rootSum2 (level : Nat) (a : Int) (r : List Int) (b : Int) (l : List Int) : Int :=
  signOfSum (a.sign * ringSign level r) (b.sign * ringSign level l) fun _ =>
    ringSign level (ringSub (ringScale (a * a) r) (ringScale (b * b) l))

/-- The sign of a·√r + b·√l + c·√m, for r, l and m not negative: (a·√r + b·√l)² - c²·m is q + 2ab·√(r·l). -/
def rootSum3 (level : Nat) (a : Int) (r : List Int) (b : Int) (l : List Int) (c : Int) (m : List Int) : Int :=
  signOfSum (rootSum2 level a r b l) (c.sign * ringSign level m) fun _ =>
    let q := ringSub (ringAdd (ringScale (a * a) r) (ringScale (b * b) l)) (ringScale (c * c) m)
    signOfSum (ringSign level q) (a.sign * b.sign * ringSign level r * ringSign level l) fun _ =>
      ringSign level (ringSub (ringMul q q) (ringScale (4 * a * a * b * b) (ringMul r l)))

/-! Cosines -/

/-- With cos φ = s/t and 0 < φ < π: `w` and `before` are t^(k-1)·sin(kφ)/sin φ for the present k and for k - 1, and
`turns` is ⌊kφ/π⌋. Each step raises k by one, and a half turn is passed where the sine changes its sign. -/
def halfTurns (s t : Int) : Nat → Int → Int → Nat → Nat × Int
  | 0, _, w, turns => (turns, w)
  | steps + 1, before, w, turns =>
    let next := 2 * s * w - t * t * before
    let passed : Bool := if turns % 2 = 0 then decide (next ≤ 0) else decide (0 ≤ next)
    halfTurns s t steps w next (if passed then turns + 1 else turns)

/-- The sign of cos(2π·n/u) - s/t, for u and t positive. The angle is brought into [0, π]; where |s| < t, it is then
compared with the φ of `halfTurns` by u·φ against u·(2π·n/u) = 2n·π. -/
def cosCompare (n u : Nat) (s t : Int) : Int :=
  let n := min (n % u) (u - n % u)
  if t < s then -1
  else if s < -t then 1
  else if s = t then (if n = 0 then 0 else -1)
  else if s = -t then (if 2 * n = u then 0 else 1)
  else
    let (turns, w) := halfTurns s t (u - 1) 0 1 0
    if 2 * n < turns then 1 else if turns < 2 * n then -1 else if w = 0 then 0 else 1

/-! Rounding -/

/-- The greatest w that extends `w` by the low `k` bits and has `holds w`, one bit at a time. -/
def greatestBits (holds : Nat → Bool) : Nat → Nat → Nat
  | 0, w => w
  | k + 1, w => greatestBits holds k (if holds (w + 2 ^ k) then w + 2 ^ k else w)

/-- rnd32 of the real x for which `compare p j` is the sign of x - p/2^j (spec/00_scope.md R14): the greatest finite
magnitude that is not above |x|, and then the midpoint to the next encoding decides, the even one at the midpoint
itself. The encoding after the greatest finite one is that of ∞, and its midpoint is 2^128 - 2^103. -/
def roundBy (compare : Int → Nat → Int) : Word :=
  let sign := compare 0 0
  if sign = 0 then 0
  else
    let above (units j : Nat) : Int := sign * compare (sign * units) j
    let units (w : Nat) : Nat := f32Units (BitVec.ofNat 32 w)
    let w := greatestBits (fun w => decide (w ≤ 0x7F7FFFFF) && decide (0 ≤ above (units w) 149)) 31 0
    let middle := above (units w + units (w + 1)) 150
    withSign (decide (sign < 0)) (if middle < 0 ∨ (middle = 0 ∧ w % 2 = 0) then w else w + 1)

end Sys2Proof.Machine
end

