-- ==== Sys2Proof/Machine/Numerics.lean ====
section
/-! DEFINITION. The numerics record NUM (spec/00_scope.md R15): its reference instance (spec/44_chirp.md R233, R242;
spec/45_detector.md R261 to R263), and an implementation's own functions, free but for NUM_TOL and the other limits the
spec states. -/

namespace Sys2Proof.Machine

/-! NUM.cis -/

/-- 2·cos(2π·n/u) where the cosine is rational, which is where 12·n/u is an integer and the value is 0, ±1/2 or ±1;
none where it is irrational. -/
def doubleCos (n u : Nat) : Option Int :=
  if 12 * (n % u) % u ≠ 0 then none
  else
    match 12 * (n % u) / u with
    | 0 => some 2
    | 2 => some 1
    | 3 => some 0
    | 4 => some (-1)
    | 6 => some (-2)
    | 8 => some (-1)
    | 9 => some 0
    | 10 => some 1
    | _ => none

/-- The two ends of an enclosure of a real, in units of 2^(-k), rounded to binary32. -/
def roundEnds (x : Enclosure) (k : Nat) : Word × Word := (rnd32 x.lo k, rnd32 x.hi k)

/-- rnd32(a·cos(2π·n/u)) (R233). -/
def scaledCos (a : Word) (n u : Nat) : Word :=
  match doubleCos n u with
  | some c => rnd32 (f32Value a * c) 150
  | none =>
    let v := f32Value a
    roundEnclosed (fun p => some (roundEnds ((cosTurn p n u).scale v) (149 + p)))
      (fun _ => roundBy fun p j =>
        if v = 0 then -p.sign else v.sign * cosCompare n u (v.sign * p * 2 ^ 149) (v.natAbs * 2 ^ j)) 6 0

/-- The reference instance of NUM.cis (R233); sin θ = cos(θ - π/2). -/
def cisReference (a : Word) (p u : Nat) : Sample := ⟨scaledCos a p u, scaledCos a (4 * p + 3 * u) (4 * u)⟩

/-! NUM.detect. The bins X[k] and their |X[k]|² are cyclotomic numbers (Exact.lean) of h = N/2 coefficients, with
ζ = e^(j·2π/N), so sums and products are exact. Inputs are integers in units of 2^-149. -/

/-- Adding c·ζ^e, where the list has N/2 entries. -/
def ringAddTerm (x : List Int) (e : Nat) (c : Int) : List Int :=
  let h := x.length
  let e := e % (2 * h)
  if e < h then x.modify e (· + c) else x.modify (e - h) (· - c)

/-- X[k] = Σ x[n]·e^(-j·2π·k·n/N), unnormalised, on samples (I, Q) in units of 2^-149 (R261); j = ζ^(N/4). -/
def dftBin (size : Nat) (xs : List (Int × Int)) (k : Nat) : List Int :=
  (xs.foldl (fun (acc : Nat × List Int) x =>
    let e := size - k * acc.1 % size
    (acc.1 + 1, ringAddTerm (ringAddTerm acc.2 e x.1) (e + size / 4) x.2))
    (0, List.replicate (size / 2) 0)).2

/-- |X|² (R262), in units of 2^-298. -/
def ringMag2 (x : List Int) : List Int := ringMul x (ringConj x)

/-- cos(2π·m/N) for m < N/2. -/
def cosTable (p size : Nat) : List Enclosure := (List.range (size / 2)).map fun m => cosTurn p m size

/-- The real value of a ring number that is its own conjugate: Σ c_m·cos(2π·m/N). -/
def ringValue (table : List Enclosure) (x : List Int) : Enclosure :=
  (List.zipWith (fun t c => t.scale c) table x).foldl Enclosure.add ⟨0, 0⟩

/-- The level of the ring of a DFT of `size` points: 2^level = size/2. -/
def ringLevel (size : Nat) : Nat := Nat.log2 (size / 2)

/-- x < y, on real ring numbers. -/
def ringLess (size : Nat) (x y : List Int) : Bool :=
  decide (x ≠ y) && decide (0 < ringSign (ringLevel size) (ringSub y x))

/-- A bin of the detector: its index, |X|², and the value of |X|² at the first precision. -/
structure Bin where
  index : Nat
  mag2  : List Int
  value : Enclosure
  deriving DecidableEq, Repr

/-- x.mag2 < y.mag2; disjoint enclosures decide at once. -/
def Bin.less (size : Nat) (x y : Bin) : Bool :=
  if x.value.hi < y.value.lo then true
  else if y.value.hi < x.value.lo then false
  else ringLess size x.mag2 y.mag2

/-- The N bins of N finite samples (R261). -/
def detectorBins (xs : List Sample) : List Bin :=
  let size := xs.length
  let ints := xs.map fun x => (f32Value x.i, f32Value x.q)
  let table := cosTable (precision 0) size
  (List.range size).map fun k =>
    let m := ringMag2 (dftBin size ints k)
    ⟨k, m, ringValue table m⟩

/-- The bin with the greatest |X|², the least index on a tie (R262). -/
def peakBin : List Bin → Bin
  | [] => ⟨0, [], ⟨0, 0⟩⟩
  | first :: rest => rest.foldl (fun best b => if best.less (rest.length + 1) b then b else best) first

/-- 10·log10(v) - 20·log10(N) rounded, for v a real ring number that is not negative, in units of 2^-298 (R262): −∞ for
v = 0, and +0.0 where v = N². The level is compared with p/2^j by (v/N²)^(10·2^j) against 10^p. -/
def decibels (size : Nat) (v : List Int) : Word :=
  let level := ringLevel size
  let unit : Nat := size * size * 2 ^ 298
  if signEnclosed (ringValue (cosTable (precision 0) size) v) (fun _ => ringSign level v) = 0 then f32NegInf
  else if v = ringOfInt (size / 2) unit then 0
  else
    roundEnclosed
      (fun p =>
        let x := ringValue (cosTable p size) v
        if x.lo ≤ 0 then none
        else
          let lnV : Enclosure := ⟨(lnNat p x.lo.toNat).lo, (lnNat p x.hi.toNat).hi⟩
          let ln := (lnV.sub ((ln2Enclosure p).scale ((p + 298 : Nat) : Int))).scale 10
          let db := (ln.sub ((lnNat p size).scale 20)).div p (ln10Enclosure p)
          some (roundEnds db p))
      (fun _ => roundBy fun p j =>
        ringSign level (ringSub (ringScale (10 ^ (-p).toNat) (ringPow v (10 * 2 ^ j)))
          (ringOfInt (size / 2) (unit ^ (10 * 2 ^ j) * 10 ^ p.toNat)))) 6 0

/-- 0.5·(right - left)/denom with denom = 2·√mid - right - left, rounded, from the squares of right and left; 0 where
denom = 0 (R262). At the peak denom is never negative; at a bin near a tie with it (R263) it can be. The result is
compared with p/2^j by 2^j·(right - left) against 2p·denom. -/
def fractionalBin (size : Nat) (left mid right : List Int) : Word :=
  let level := ringLevel size
  let root (p : Nat) (x : List Int) : Enclosure := (ringValue (cosTable p size) x).sqrt p
  let denom (p : Nat) : Enclosure := (((root p mid).scale 2).sub (root p right)).sub (root p left)
  if left = right then 0
  else
    let sign := signEnclosed (denom (precision 0)) fun _ => rootSum3 level (-1) right (-1) left 2 mid
    if sign = 0 then 0
    else
      roundEnclosed
        (fun p =>
          let d := (denom p).scale sign
          if d.lo ≤ 0 then none
          else some (roundEnds ((((root p right).sub (root p left)).scale sign).div p d) (p + 1)))
        (fun _ => roundBy fun p j =>
          sign * rootSum3 level (2 ^ j + 2 * p) right (2 * p - 2 ^ j) left (-(4 * p)) mid) 3 0

/-- The four results for the bin b of all the bins (R262). -/
def resultsAt (bins : List Bin) (b : Bin) : Detection :=
  let size := bins.length
  let mag2 (k : Nat) : List Int := (bins.getD k b).mag2
  let total := bins.foldl (fun acc x => ringAdd acc x.mag2) (List.replicate (size / 2) 0)
  ⟨BitVec.ofNat 12 b.index, decibels size b.mag2, decibels size (ringSub total b.mag2),
    fractionalBin size (mag2 ((b.index + size - 1) % size)) b.mag2 (mag2 ((b.index + 1) % size))⟩

/-- Some component of the samples is a NaN or an infinity. -/
def anyNonFinite (xs : List Sample) : Bool := xs.any fun x => nonFinite x.i || nonFinite x.q

/-- The reference instance of NUM.detect (R263). -/
def detectReference (xs : List Sample) : Detection :=
  if anyNonFinite xs then ⟨0, f32NaN, f32NaN, f32NaN⟩
  else resultsAt (detectorBins xs) (peakBin (detectorBins xs))

/-! NUM (R15). An implementation's functions are free; what the spec says of every block is kept: a finite result of the
reference is met within NUM_TOL (R15, R233, R263; spec/93_implementation_defined.md I13), so a chirp sample is finite
(spec/60_exceptions.md R318); a product's NaN is canonical (R318); and maxIndex is that of the reference or of a bin
near a tie with it (R263, I12). Notes/assumptions 12. -/

/-- v is r, or both are finite and differ by at most tol·2^-149. -/
def withinTol (tol : Nat) (r v : Word) : Bool :=
  r == v || (!nonFinite r && !nonFinite v && decide ((f32Value r - f32Value v).natAbs ≤ tol))

/-- An implementation's result v, held to a finite result r of the reference. -/
def heldTo (tol : Nat) (r v : Word) : Word := if nonFinite r || withinTol tol r v then v else r

/-- An implementation's sample, each component held to the reference's. -/
def sampleHeldTo (tol : Nat) (r v : Sample) : Sample := ⟨heldTo tol r.i v.i, heldTo tol r.q v.q⟩

/-- NUM.cis -/
def numCis (kind : NumKind) (a : Word) (p u : Nat) : Sample :=
  match kind with
  | .reference => cisReference a p u
  | .implementation tol => sampleHeldTo tol (cisReference a p u) (Config.cis a p u)

/-- NUM.cmul -/
def numCmul (kind : NumKind) (x y : Sample) : Sample :=
  match kind with
  | .reference => cmulReference x y
  | .implementation tol =>
    let v := Config.cmul x y
    sampleHeldTo tol (cmulReference x y) ⟨f32Canon v.i, f32Canon v.q⟩

/-- The bin an implementation picks: any whose power is within NUM_TOL of the peak's, or else the peak (R263, I12). -/
def nearPeak (tol : Nat) (bins : List Bin) (index : Nat) : Bin :=
  let size := bins.length
  let peak := peakBin bins
  let b := bins.getD (index % size) peak
  if withinTol tol (decibels size peak.mag2) (decibels size b.mag2) then b else peak

/-- NUM.detect. The power, powerAvg and fIndex of an implementation follow the bin it picks (I12). -/
def numDetect (kind : NumKind) (xs : List Sample) : Detection :=
  match kind with
  | .reference => detectReference xs
  | .implementation tol =>
    let v := Config.detect xs
    if anyNonFinite xs then { v with maxIndex := BitVec.ofNat 12 (v.maxIndex.toNat % xs.length) }
    else
      let bins := detectorBins xs
      let r := resultsAt bins (nearPeak tol bins v.maxIndex.toNat)
      ⟨r.maxIndex, heldTo tol r.power v.power, heldTo tol r.powerAvg v.powerAvg, heldTo tol r.fIndex v.fIndex⟩

end Sys2Proof.Machine
end

