-- ==== Sys2Proof/Machine/Chirp.lean ====
section
/-! DEFINITION. The chirp generator and the complex mixer, and their four commands (spec/44_chirp.md). -/

namespace Sys2Proof.Machine

/-- The direction of a chirp: D = +1 for an upchirp, -1 for a downchirp (R232). -/
inductive Direction where
  | up
  | down
  deriving DecidableEq, Repr

/-- D (R232). -/
def Direction.sign : Direction → Int
  | .up => 1
  | .down => -1

/-- k_i, the frequency of sample i in fStep units: c_i - NN/2 with c_i = (FBIN·OVS + i) mod NN (R232). -/
def chirpFrequency (c : Cfg) (fbin i : Nat) : Int := (((fbin * c.ovs + i) % c.nn : Nat) : Int) - ((c.nn / 2 : Nat) : Int)

/-- The phase after one sample: (P + D·k) mod U (R232). -/
def chirpStep (c : Cfg) (d : Direction) (fbin i p : Nat) : Nat :=
  (((p : Int) + d.sign * chirpFrequency c fbin i) % (c.u : Int)).toNat

/-- The phases of `len` samples from sample `i` on, starting from the phase `p` (R232). -/
def chirpPhases (c : Cfg) (d : Direction) (fbin : Nat) : Nat → Nat → Nat → List Nat
  | 0, _, _ => []
  | len + 1, i, p => chirpStep c d fbin i p :: chirpPhases c d fbin len (i + 1) (chirpStep c d fbin i p)

/-- The phase a chirp leaves in PHASE: that of its last sample, or the phase it began with where it has none (R234). -/
def chirpEnd (c : Cfg) (d : Direction) (fbin len p : Nat) : Nat := (chirpPhases c d fbin len 0 p).getLastD p

/-- The perform phase of a chirp: the samples to DST, the last phase to PHASE (R236, R237). -/
def chirpArray (d : Direction) (fbin dst len : Nat) (s : State) : Except Fault State :=
  let p := s.phase.toNat
  let samples := (chirpPhases s.cfg d fbin len 0 p).map fun q => numCis s.params.num s.ampl q s.cfg.u
  .ok { storeSamples dst samples s with phase := BitVec.ofNat 28 (chirpEnd s.cfg d fbin len p) }

/-- The checks of a chirp (R236). -/
def chirpChecks (fbin dst len : Nat) (s : State) : List Check :=
  [cfgValid s, inRange (decide (fbin < s.cfg.n)), inRange (decide (len ≤ s.cfg.nn)), aligned dst 8,
    inBounds s dst (8 * len)]

/-- CHIRP.UP (R236). -/
def execChirpUp (fbin dst len : Nat) (s : State) : Outcome :=
  command 3 (chirpChecks fbin dst len s) (chirpArray .up fbin dst len) s

/-- CHIRP.DN (R237). -/
def execChirpDn (fbin dst len : Nat) (s : State) : Outcome :=
  command 3 (chirpChecks fbin dst len s) (chirpArray .down fbin dst len) s

/-- The checks of MIX and MIX.C: the alignment of DST, SRCA and SRCB, then their bounds (R243). -/
def mixChecks (dst srca srcb count : Nat) (s : State) : List Check :=
  [aligned dst 8, aligned srca 8, aligned srcb 8,
    inBounds s dst (8 * count), inBounds s srca (8 * count), inBounds s srcb (8 * count)]

/-- The sample-wise product of two arrays, the second operand through `f`, reads before writes (R243, R244). -/
def mixArray (f : Sample → Sample) (dst srca srcb count : Nat) (s : State) : Except Fault State :=
  match loadSamples s.lmem srca count with
  | .error e => .error e
  | .ok xs =>
    match loadSamples s.lmem srcb count with
    | .error e => .error e
    | .ok ys => .ok (storeSamples dst (List.zipWith (fun x y => numCmul s.params.num x (f y)) xs ys) s)

/-- MIX (R243). -/
def execMix (dst srca srcb count : Nat) (s : State) : Outcome :=
  command 5 (mixChecks dst srca srcb count s) (mixArray id dst srca srcb count) s

/-- MIX.C (R244): the second operand is conjugated (R241). -/
def execMixC (dst srca srcb count : Nat) (s : State) : Outcome :=
  command 5 (mixChecks dst srca srcb count s) (mixArray Sample.conj dst srca srcb count) s

end Sys2Proof.Machine
end

