-- ==== Sys2Proof/Machine/Detect.lean ====
section
/-! DEFINITION. The detector's two commands (spec/45_detector.md). -/

namespace Sys2Proof.Machine

/-- detect_at (R264): N samples from SRC, the four results to DMAX, DPOW, DAVG and DFIX. -/
def detectAt (src : Nat) (s : State) : Except Fault State :=
  match loadSamples s.lmem src s.cfg.n with
  | .error e => .error e
  | .ok xs => .ok { s with det := numDetect s.params.num xs }

/-- The 16 bytes of a detector record (spec/20_memory.md R63). -/
def recordBytes (d : Detection) : List Byte :=
  leBytes 4 d.maxIndex.toNat ++ wordBytes d.power ++ wordBytes d.powerAvg ++ wordBytes d.fIndex

/-- detect_at, then the record to DST (R267). -/
def detectStore (dst src : Nat) (s : State) : Except Fault State :=
  match detectAt src s with
  | .error e => .error e
  | .ok t => .ok (storeU8s dst (recordBytes t.det) t)

/-- DETECT (R266): its first operand word is ignored. -/
def execDetect (_ignored src : Nat) (s : State) : Outcome :=
  command 3 [cfgValid s, aligned src 8, inBounds s src (8 * s.cfg.n)] (detectAt src) s

/-- DETECT.S (R267). -/
def execDetectS (dst src : Nat) (s : State) : Outcome :=
  command 3 [cfgValid s, aligned dst 4, aligned src 8, inBounds s dst 16, inBounds s src (8 * s.cfg.n)]
    (detectStore dst src) s

end Sys2Proof.Machine
end

