-- ==== Sys2Proof/Machine/Fec.lean ====
section
/-! DEFINITION. The forward error correction codes and their ten commands (spec/41_bitcodes.md R160 to R186). -/

namespace Sys2Proof.Machine

/-- parity(v) of a 4-bit value: the XOR of its bits (spec/00_scope.md R11). -/
def parity4 (v : BitVec 4) : Bool :=
  v.getLsbD 0 ^^ v.getLsbD 1 ^^ v.getLsbD 2 ^^ v.getLsbD 3

/-- The bit `b` at position `k` of a byte. -/
def bitAt (k : Nat) (b : Bool) : Byte := if b then 1#8 <<< k else 0

/-! Encoders (R160: data in bits [3:0], check bits above, zeros from bit W up) -/

/-- enc_raw (R161) -/
def encRaw (d : BitVec 4) : Byte := d.setWidth 8

/-- enc_p54 (R162) -/
def encP54 (d : BitVec 4) : Byte := encRaw d ||| bitAt 4 (parity4 d)

/-- enc_p64 (R163), with the groups P64_G4 and P64_G5 -/
def encP64 (g4 g5 d : BitVec 4) : Byte := encRaw d ||| bitAt 4 (parity4 (d &&& g4)) ||| bitAt 5 (parity4 (d &&& g5))

/-- enc_h74 (R164): b4 = d0⊕d1⊕d2, b5 = d1⊕d2⊕d3, b6 = d0⊕d1⊕d3 -/
def encH74 (d : BitVec 4) : Byte :=
  encRaw d ||| bitAt 4 (d.getLsbD 0 ^^ d.getLsbD 1 ^^ d.getLsbD 2)
    ||| bitAt 5 (d.getLsbD 1 ^^ d.getLsbD 2 ^^ d.getLsbD 3)
    ||| bitAt 6 (d.getLsbD 0 ^^ d.getLsbD 1 ^^ d.getLsbD 3)

/-- enc_h84 (R165): as enc_h74, and b7 = d0⊕d2⊕d3 -/
def encH84 (d : BitVec 4) : Byte := encH74 d ||| bitAt 7 (d.getLsbD 0 ^^ d.getLsbD 2 ^^ d.getLsbD 3)

/-! Decoders. The argument is the byte as read; a decoder looks only at the bits below its W (R167). -/

/-- dec_raw (R170) -/
def decRaw (c : Byte) : Nibble := ⟨c.setWidth 4, false, false⟩

/-- dec_p54 (R171) -/
def decP54 (c : Byte) : Nibble := ⟨c.setWidth 4, c.getLsbD 4 != parity4 (c.setWidth 4), false⟩

/-- dec_p64 (R172) -/
def decP64 (g4 g5 : BitVec 4) (c : Byte) : Nibble :=
  ⟨c.setWidth 4,
    (c.getLsbD 4 != parity4 (c.setWidth 4 &&& g4)) || (c.getLsbD 5 != parity4 (c.setWidth 4 &&& g5)), false⟩

/-- The syndrome s74 (R168): p0 the least significant bit. -/
def syndrome74 (c : Byte) : Nat :=
  let p0 := c.getLsbD 0 ^^ c.getLsbD 1 ^^ c.getLsbD 2 ^^ c.getLsbD 4
  let p1 := c.getLsbD 1 ^^ c.getLsbD 2 ^^ c.getLsbD 3 ^^ c.getLsbD 5
  let p2 := c.getLsbD 0 ^^ c.getLsbD 1 ^^ c.getLsbD 3 ^^ c.getLsbD 6
  p0.toNat + 2 * p1.toNat + 4 * p2.toNat

/-- The syndrome s84 (R168): s74 with p3 = b0⊕b2⊕b3⊕b7 above it. -/
def syndrome84 (c : Byte) : Nat :=
  let p3 := c.getLsbD 0 ^^ c.getLsbD 2 ^^ c.getLsbD 3 ^^ c.getLsbD 7
  syndrome74 c + 8 * p3.toNat

/-- dec_h74 (R173), with the parameter H74_BAD -/
def decH74 (h74Bad : Bool) (c : Byte) : Nibble :=
  let d := c.setWidth 4
  match syndrome74 c with
  | 0 => ⟨d, false, false⟩
  | 5 => ⟨d ^^^ 1, true, false⟩
  | 7 => ⟨d ^^^ 2, true, false⟩
  | 3 => ⟨d ^^^ 4, true, false⟩
  | 6 => ⟨d ^^^ 8, true, false⟩
  | _ => ⟨d, true, h74Bad⟩

/-- dec_h84 (R174) -/
def decH84 (c : Byte) : Nibble :=
  let d := c.setWidth 4
  match syndrome84 c with
  | 0x0 => ⟨d, false, false⟩
  | 0xD => ⟨d ^^^ 1, true, false⟩
  | 0x7 => ⟨d ^^^ 2, true, false⟩
  | 0xB => ⟨d ^^^ 4, true, false⟩
  | 0xE => ⟨d ^^^ 8, true, false⟩
  | 0x1 => ⟨d, true, false⟩
  | 0x2 => ⟨d, true, false⟩
  | 0x4 => ⟨d, true, false⟩
  | 0x8 => ⟨d, true, false⟩
  | _ => ⟨d, true, true⟩

/-! Commands. Each variant's RDD is legal (R186 is decoding's), so the common check is the two bounds. -/

/-- The common check after the RDD check: the bounds of DST, then of SRC. -/
def byteChecks (dst src count : Nat) (s : State) : List Check := [inBounds s dst count, inBounds s src count]

/-- Encoding the low nibble of each of the `count` bytes at SRC to DST (R160, R175), reads before writes. -/
def encodeArray (enc : BitVec 4 → Byte) (dst src count : Nat) (s : State) : Except Fault State :=
  match loadU8s s.lmem src count with
  | .error e => .error e
  | .ok bs => .ok (storeU8s dst (bs.map fun b => enc (b.setWidth 4)) s)

/-- Decoding the `count` bytes at SRC to DST, and counting the outcomes (R169, R180), reads before writes. -/
def decodeArray (dec : Byte → Nibble) (dst src count : Nat) (s : State) : Except Fault State :=
  match loadU8s s.lmem src count with
  | .error e => .error e
  | .ok bs => .ok (countOutcomes (bs.map dec) (storeU8s dst ((bs.map dec).map Nibble.byte) s))

/-- FENC.RAW (R175). -/
def execFencRaw (dst src count : Nat) (s : State) : Outcome :=
  command 4 (byteChecks dst src count s) (encodeArray encRaw dst src count) s

/-- FENC.P54 (R176). -/
def execFencP54 (dst src count : Nat) (s : State) : Outcome :=
  command 4 (byteChecks dst src count s) (encodeArray encP54 dst src count) s

/-- FENC.P64 (R177). -/
def execFencP64 (dst src count : Nat) (s : State) : Outcome :=
  command 4 (byteChecks dst src count s) (encodeArray (encP64 s.params.p64g4 s.params.p64g5) dst src count) s

/-- FENC.H74 (R178). -/
def execFencH74 (dst src count : Nat) (s : State) : Outcome :=
  command 4 (byteChecks dst src count s) (encodeArray encH74 dst src count) s

/-- FENC.H84 (R179). -/
def execFencH84 (dst src count : Nat) (s : State) : Outcome :=
  command 4 (byteChecks dst src count s) (encodeArray encH84 dst src count) s

/-- FDEC.RAW (R180). -/
def execFdecRaw (dst src count : Nat) (s : State) : Outcome :=
  command 4 (byteChecks dst src count s) (decodeArray decRaw dst src count) s

/-- FDEC.P54 (R181). -/
def execFdecP54 (dst src count : Nat) (s : State) : Outcome :=
  command 4 (byteChecks dst src count s) (decodeArray decP54 dst src count) s

/-- FDEC.P64 (R182). -/
def execFdecP64 (dst src count : Nat) (s : State) : Outcome :=
  command 4 (byteChecks dst src count s) (decodeArray (decP64 s.params.p64g4 s.params.p64g5) dst src count) s

/-- FDEC.H74 (R183). -/
def execFdecH74 (dst src count : Nat) (s : State) : Outcome :=
  command 4 (byteChecks dst src count s) (decodeArray (decH74 s.params.h74Bad) dst src count) s

/-- FDEC.H84 (R184). -/
def execFdecH84 (dst src count : Nat) (s : State) : Outcome :=
  command 4 (byteChecks dst src count s) (decodeArray decH84 dst src count) s

end Sys2Proof.Machine
end

