-- ==== Sys2Proof/Machine/Gray.lean ====
section
/-! DEFINITION. The Gray functions, the symbol mappings and their four commands (spec/41_bitcodes.md R140 to R153). -/

namespace Sys2Proof.Machine

/-- Gray encoding (R140). -/
def gray16 (n : Symbol) : Symbol := n ^^^ (n >>> 1)

/-- Inverse Gray (R141). -/
def igray16 (n : Symbol) : Symbol :=
  let n := n ^^^ (n >>> 8)
  let n := n ^^^ (n >>> 4)
  let n := n ^^^ (n >>> 2)
  n ^^^ (n >>> 1)

/-- The low `ppm` bits of a value (the mask 2^PPM - 1 of R143 and R144). -/
def lowBits (ppm v : Nat) : Nat := v % 2 ^ ppm

/-- Transmit mapping with sh = SF - PPM (R143). -/
def symtx (sf ppm : Nat) (s : Symbol) : Symbol :=
  igray16 (BitVec.ofNat 16 (lowBits ppm s.toNat)) <<< (sf - ppm)

/-- Receive mapping with sh = SF - PPM: round, shift, mask, Gray (R144). -/
def symrx (sf ppm : Nat) (s : Symbol) : Symbol :=
  let sh := sf - ppm
  gray16 (BitVec.ofNat 16 (lowBits ppm ((s.toNat + 2 ^ sh / 2) / 2 ^ sh)))

/-- The common check of the four commands: alignment of DST and SRC, then their bounds. -/
def symbolChecks (dst src count : Nat) (s : State) : List Check :=
  [aligned dst 2, aligned src 2, inBounds s dst (2 * count), inBounds s src (2 * count)]

/-- Applying `f` to the `count` symbols at SRC, the results to DST, reads before writes (spec/20_memory.md R70). -/
def mapSymbols (f : Symbol → Symbol) (dst src count : Nat) (s : State) : Except Fault State :=
  match loadU16s s.lmem src count with
  | .error e => .error e
  | .ok xs => .ok (storeU16s dst (xs.map f) s)

/-- GRAY (R150). -/
def execGray (dst src count : Nat) (s : State) : Outcome :=
  command 4 (symbolChecks dst src count s) (mapSymbols gray16 dst src count) s

/-- IGRAY (R151). -/
def execIgray (dst src count : Nat) (s : State) : Outcome :=
  command 4 (symbolChecks dst src count s) (mapSymbols igray16 dst src count) s

/-- SYMRX (R152). -/
def execSymrx (dst src count : Nat) (s : State) : Outcome :=
  command 4 (cfgValid s :: symbolChecks dst src count s)
    (mapSymbols (symrx s.cfg.sf.toNat s.cfg.ppm.toNat) dst src count) s

/-- SYMTX (R153). -/
def execSymtx (dst src count : Nat) (s : State) : Outcome :=
  command 4 (cfgValid s :: symbolChecks dst src count s)
    (mapSymbols (symtx s.cfg.sf.toNat s.cfg.ppm.toNat) dst src count) s

end Sys2Proof.Machine
end

