-- ==== Sys2Proof/Machine/Interleave.lean ====
section
/-! DEFINITION. The diagonal interleaver, the deinterleaver and their two commands (spec/43_interleaver.md). -/

namespace Sys2Proof.Machine

/-- The value whose bit m is `f m` for m < n, as an integer. -/
def bitSum (n : Nat) (f : Nat → Bool) : Nat :=
  (List.range n).foldl (fun acc m => acc + (f m).toNat * 2 ^ m) 0

/-- Symbol k of an interleaved block of P codewords: bit m is bit k of codeword (m+k) mod P (R211). -/
def interleaveSymbol (p k : Nat) (cw : List Byte) : Symbol :=
  BitVec.ofNat 16 (bitSum p fun m => (cw.getD ((m + k) % p) 0).getLsbD k)

/-- One codeword block to one symbol block of W symbols (R210, R211). -/
def interleaveBlock (w p : Nat) (cw : List Byte) : List Symbol :=
  (List.range w).map fun k => interleaveSymbol p k cw

/-- Codeword j of a deinterleaved block: bit k is bit (j-k) mod P of symbol k (R212). -/
def deinterleaveCodeword (w p j : Nat) (sym : List Symbol) : Byte :=
  BitVec.ofNat 8 (bitSum w fun k => (sym.getD k 0).getLsbD (((j : Int) - (k : Int)) % (p : Int)).toNat)

/-- One symbol block to one codeword block of P codewords (R210, R212). -/
def deinterleaveBlock (w p : Nat) (sym : List Symbol) : List Byte :=
  (List.range p).map fun j => deinterleaveCodeword w p j sym

/-- Applying `f` to the `nb` whole blocks of `size` elements, in order. -/
def mapBlocks {α β : Type} (f : List α → List β) (size : Nat) : Nat → List α → List β
  | 0, _ => []
  | nb + 1, xs => f (xs.take size) ++ mapBlocks f size nb (xs.drop size)

/-- The perform phase of ILV on `nb` whole blocks (R214), reads before writes. -/
def interleaveArray (w p nb dst src : Nat) (s : State) : Except Fault State :=
  match loadU8s s.lmem src (nb * p) with
  | .error e => .error e
  | .ok cw => .ok (storeU16s dst (mapBlocks (interleaveBlock w p) p nb cw) s)

/-- The perform phase of DILV on `nb` whole blocks (R215), reads before writes. -/
def deinterleaveArray (w p nb dst src : Nat) (s : State) : Except Fault State :=
  match loadU16s s.lmem src (nb * w) with
  | .error e => .error e
  | .ok sym => .ok (storeU8s dst (mapBlocks (deinterleaveBlock w p) w nb sym) s)

/-- ILV (R214). -/
def execIlv (rdd dst src ncw : Nat) (s : State) : Outcome :=
  let p := s.cfg.ppm.toNat
  let w := 4 + rdd
  let nb := ncw / p
  command 4
    [cfgValid s, rddLegal rdd, aligned dst 2, inBounds s dst (2 * nb * w), inBounds s src (nb * p)]
    (interleaveArray w p nb dst src) s

/-- DILV (R215). -/
def execDilv (rdd dst src nsym : Nat) (s : State) : Outcome :=
  let p := s.cfg.ppm.toNat
  let w := 4 + rdd
  let nb := nsym / w
  command 4
    [cfgValid s, rddLegal rdd, aligned src 2, inBounds s dst (nb * p), inBounds s src (2 * nb * w)]
    (deinterleaveArray w p nb dst src) s

end Sys2Proof.Machine
end

