-- ==== Sys2Proof/Machine/Whiten.lean ====
section
/-! DEFINITION. The whitening LFSR pair and its two commands (spec/42_whitening.md). -/

namespace Sys2Proof.Machine

/-- One step of a whitening register (R190). -/
def lfsrStep (r : BitVec 64) : BitVec 64 :=
  let top : BitVec 8 := ((r >>> 32) ^^^ (r >>> 24) ^^^ (r >>> 16) ^^^ r).setWidth 8
  (r >>> 8) ||| (top.setWidth 64 <<< 56)

/-- A fresh stream: the seed pair of RDD, and R0 first (R191, R196). -/
def seeds (rdd : Nat) : Whitener :=
  if rdd = 1 then ⟨0x05121100F8ECFEEF, 0xF8ECFEEFEFEFEFEF, false⟩
  else ⟨0x6572D100E85C2EFF, 0xE85C2EFFFFFFFFFF, false⟩

/-- The next key byte: the low byte of the selected register (R192). -/
def Whitener.key (w : Whitener) : Byte := if w.widx then w.r1.setWidth 8 else w.r0.setWidth 8

/-- The state after a key byte: the register that supplied it steps, and the other supplies the next (R192). -/
def Whitener.next (w : Whitener) : Whitener :=
  if w.widx then ⟨w.r0, lfsrStep w.r1, false⟩ else ⟨lfsrStep w.r0, w.r1, true⟩

/-- The state after `n` key bytes. -/
def Whitener.after : Nat → Whitener → Whitener
  | 0, w => w
  | n + 1, w => Whitener.after n w.next

/-- The next `n` key bytes. -/
def Whitener.keys : Nat → Whitener → List Byte
  | 0, _ => []
  | n + 1, w => w.key :: Whitener.keys n w.next

/-- Skipping `bitofs` key bytes (R194). The state repeats after every 510 key bytes, which "an implementation may
use to bound the skip loop" (R195; notes/assumptions 13). -/
def Whitener.skip (bitofs : Nat) (w : Whitener) : Whitener := Whitener.after (bitofs % 510) w

/-- The mask 2^W - 1 of the codeword width W = 4 + RDD (R193). -/
def keyMask (rdd : Nat) : Byte := BitVec.ofNat 8 (2 ^ (4 + rdd) - 1)

/-- Whitening a codeword array from the state `start` (R197). -/
def whitenArray (start : Whitener) (rdd dst src count bitofs : Nat) (s : State) : Except Fault State :=
  match loadU8s s.lmem src count with
  | .error e => .error e
  | .ok bs =>
    let w := start.skip bitofs
    let out := List.zipWith (fun b k => b ^^^ (k &&& keyMask rdd)) bs (w.keys count)
    .ok { storeU8s dst out s with wh := w.after count }

/-- The common check: RDD, then the bounds of DST and of SRC. -/
def whitenChecks (rdd dst src count : Nat) (s : State) : List Check :=
  [rddLegal rdd, inBounds s dst count, inBounds s src count]

/-- WHITEN (R198): from a fresh stream. -/
def execWhiten (rdd dst src count bitofs : Nat) (s : State) : Outcome :=
  command 5 (whitenChecks rdd dst src count s) (whitenArray (seeds rdd) rdd dst src count bitofs) s

/-- WHITEN.C (R199): from the current stream. -/
def execWhitenC (rdd dst src count bitofs : Nat) (s : State) : Outcome :=
  command 5 (whitenChecks rdd dst src count s) (whitenArray s.wh rdd dst src count bitofs) s

end Sys2Proof.Machine
end

