-- ==== Sys2Proof/Machine/Dispatch.lean ====
section
/-! DEFINITION. The meaning of every command, one arm per row of spec/opcode_table.json. -/

namespace Sys2Proof.Machine

def exec (i : Instr) (s : State) : Host.Outcome State Fault Refusal :=
  match i with
  | .nop => Sys2Proof.Machine.execNop s
  | .halt => Sys2Proof.Machine.execHalt s
  | .setcfg sf ppm ovsm1 => Sys2Proof.Machine.execSetcfg sf ppm ovsm1 s
  | .setampl ampl => Sys2Proof.Machine.execSetampl ampl s
  | .setphase p => Sys2Proof.Machine.execSetphase p s
  | .clrstat => Sys2Proof.Machine.execClrstat s
  | .gray dst src count => Sys2Proof.Machine.execGray dst src count s
  | .igray dst src count => Sys2Proof.Machine.execIgray dst src count s
  | .symrx dst src count => Sys2Proof.Machine.execSymrx dst src count s
  | .symtx dst src count => Sys2Proof.Machine.execSymtx dst src count s
  | .fencRaw dst src count => Sys2Proof.Machine.execFencRaw dst src count s
  | .fencP54 dst src count => Sys2Proof.Machine.execFencP54 dst src count s
  | .fencP64 dst src count => Sys2Proof.Machine.execFencP64 dst src count s
  | .fencH74 dst src count => Sys2Proof.Machine.execFencH74 dst src count s
  | .fencH84 dst src count => Sys2Proof.Machine.execFencH84 dst src count s
  | .fdecRaw dst src count => Sys2Proof.Machine.execFdecRaw dst src count s
  | .fdecP54 dst src count => Sys2Proof.Machine.execFdecP54 dst src count s
  | .fdecP64 dst src count => Sys2Proof.Machine.execFdecP64 dst src count s
  | .fdecH74 dst src count => Sys2Proof.Machine.execFdecH74 dst src count s
  | .fdecH84 dst src count => Sys2Proof.Machine.execFdecH84 dst src count s
  | .whiten rdd dst src count bitofs => Sys2Proof.Machine.execWhiten rdd dst src count bitofs s
  | .whitenC rdd dst src count bitofs => Sys2Proof.Machine.execWhitenC rdd dst src count bitofs s
  | .ilv rdd dst src ncw => Sys2Proof.Machine.execIlv rdd dst src ncw s
  | .dilv rdd dst src nsym => Sys2Proof.Machine.execDilv rdd dst src nsym s
  | .chirpUp fbin dst len => Sys2Proof.Machine.execChirpUp fbin dst len s
  | .chirpDn fbin dst len => Sys2Proof.Machine.execChirpDn fbin dst len s
  | .mix dst srca srcb count => Sys2Proof.Machine.execMix dst srca srcb count s
  | .mixC dst srca srcb count => Sys2Proof.Machine.execMixC dst srca srcb count s
  | .detect ignored src => Sys2Proof.Machine.execDetect ignored src s
  | .detectS dst src => Sys2Proof.Machine.execDetectS dst src s

end Sys2Proof.Machine
end

