-- ==== Sys2Proof/Machine/Fetch.lean ====
section
/-! DEFINITION. Fetching and decoding the command at CPC (spec/30_encoding.md R97; spec/60_exceptions.md R300). -/

namespace Sys2Proof.Machine

/-- What a fetch gives. -/
inductive Fetched where
  /-- a command of the table -/
  | command (i : Instr)
  /-- an error raised at decode, or by the rule of a command that matches no row (R97) -/
  | raises (e : ErrCode)
  /-- a byte of the command was never written (spec/20_memory.md R77) -/
  | faults (f : Fault)
  deriving DecidableEq, Repr

/-- The error each rejection raises (R98; spec/60_exceptions.md R301; spec/41_bitcodes.md R186). -/
def Reject.errCode : Reject → ErrCode
  | .truncated => .fetch
  | .undefinedOpcode => .illegal
  | .reservedBit => .reserved
  | .noVariant => .range

/-- The operand words of a command, `n` of them from `a` up. -/
def fetchWords (m : Memory) (a : Nat) : Nat → Except Fault (List Nat)
  | 0 => .ok []
  | n + 1 =>
    match m.read a 4 with
    | .error f => .error f
    | .ok w =>
      match fetchWords m (a + 4) n with
      | .error f => .error f
      | .ok ws => .ok (w :: ws)

/-- Steps 3 to 5 of R97, the header having been read. -/
def fetchOperands (s : State) (h : Nat) : Fetched :=
  match headerLength h with
  | .error r => .raises (Reject.errCode r)
  | .ok n =>
    if s.params.lmemBytes < s.cpc.toNat + 4 * n then .raises .fetch
    else
      match fetchWords s.lmem (s.cpc.toNat + 4) (n - 1) with
      | .error f => .faults f
      | .ok ws =>
        match decodeWords h ws with
        | .error r => .raises (Reject.errCode r)
        | .ok i => .command i

/-- The command at CPC, in the order of R97; addresses are unbounded integers. -/
def fetch (s : State) : Fetched :=
  if s.params.lmemBytes < s.cpc.toNat + 4 then .raises .fetch
  else
    match s.lmem.read s.cpc.toNat 4 with
    | .error f => .faults f
    | .ok h => fetchOperands s h

end Sys2Proof.Machine
end

