-- ==== Sys2Proof/Machine/HostPort.lean ====
section
/-! DEFINITION. What the host can do (spec/70_reset_and_hazards.md R346): the register window (spec/10_state.md R20 to
R40) and its LMEM window (spec/20_memory.md R61, R66, R67). -/

namespace Sys2Proof.Machine

/-- Where a platform address leads: a register offset, or an LMEM byte address. -/
inductive Target where
  | register (offset : Nat)
  | lmem (a : Nat)
  deriving DecidableEq, Repr

/-- The window a platform address lies in (R20; spec/20_memory.md R61); the register window first, should a platform
lay them over each other (notes/assumptions 4). -/
def locate (p : Params) (addr : Nat) : Option Target :=
  if p.regBase ≤ addr ∧ addr < p.regBase + 4096 then some (.register (addr - p.regBase))
  else if p.lmemBase ≤ addr ∧ addr < p.lmemBase + p.lmemBytes then some (.lmem (addr - p.lmemBase))
  else none

/-- The bytes of an access. -/
def AccessSize.bytes : AccessSize → Nat
  | .byte => 1
  | .half => 2
  | .word => 4

/-- ID_VALUE (R21). -/
def idValue : Word := 0x4C520100

/-- What a register offset reads (R20 to R40); a reserved offset reads 0. -/
def readRegister (offset : Nat) (s : State) : Word :=
  match offset with
  | 0x000 => idValue
  | 0x004 => s.ctrlWord
  | 0x008 => s.statusWord
  | 0x00C => s.cpc
  | 0x010 => s.errPc
  | 0x014 => s.cfg.word
  | 0x018 => s.ampl
  | 0x01C => s.phase.setWidth 32
  | 0x020 => s.det.maxIndex.setWidth 32
  | 0x024 => s.det.power
  | 0x028 => s.det.powerAvg
  | 0x02C => s.det.fIndex
  | 0x030 => s.ferr
  | 0x034 => s.fbad
  | 0x038 => s.wh.r0.setWidth 32
  | 0x03C => (s.wh.r0 >>> 32).setWidth 32
  | 0x040 => s.wh.r1.setWidth 32
  | 0x044 => (s.wh.r1 >>> 32).setWidth 32
  | 0x048 => bitWord s.wh.widx
  | 0x04C => BitVec.ofNat 32 s.params.lmemBytes
  | _ => 0

/-- A write of CTRL (R22, R23, R25): SRST acts and GO is then ignored; otherwise IE takes its new value first, and GO
is accepted only where BUSY = 0 and ERR = 0. -/
def writeCtrl (v : Word) (s : State) : State :=
  if v.getLsbD 2 then softReset s
  else
    let t := { s with ie := v.getLsbD 1 }
    if v.getLsbD 0 && t.mode == .idle && !t.err then acceptGo t else t

/-- A write of STATUS (R26): a 1 clears DONE, a 1 clears ERR and with it ERRCODE; no effect while BUSY = 1. -/
def writeStatus (v : Word) (s : State) : State :=
  if s.mode = .idle then
    let t := if v.getLsbD 1 then { s with done := false } else s
    if v.getLsbD 2 then clearError t else t
  else s

/-- A write of CPC (R28): bits [1:0] stay 0; ignored while BUSY = 1. -/
def writeCpc (v : Word) (s : State) : State :=
  if s.mode = .idle then { s with cpc := v &&& 0xFFFFFFFC } else s

/-- A host write of a register; a read-only or reserved one ignores it (R20). -/
def writeRegister (offset : Nat) (v : Word) (s : State) : State :=
  match offset with
  | 0x004 => writeCtrl v s
  | 0x008 => writeStatus v s
  | 0x00C => writeCpc v s
  | _ => s

/-- Why the host may not make an LMEM access of `n` bytes at `a` (spec/20_memory.md R66, R67;
spec/70_reset_and_hazards.md R340). -/
def lmemRefusal (s : State) (a n : Nat) : Option Refusal :=
  if s.mode = .run then some .hostLmemWhileBusy
  else if a % n ≠ 0 then some .hostAccessShape
  else if s.params.lmemBytes < a + n then some .hostAddressUnmapped
  else none

/-- A host read at a platform address; the value goes to `hostData`. -/
def hostRead (size : AccessSize) (addr : Nat) (s : State) : Outcome :=
  match locate s.params addr with
  | none => .refused .hostAddressUnmapped
  | some (.register offset) =>
    if size = .word ∧ offset % 4 = 0 then .next { s with hostData := some (readRegister offset s) }
    else .refused .hostAccessShape
  | some (.lmem a) =>
    match lmemRefusal s a size.bytes with
    | some r => .refused r
    | none =>
      match s.lmem.read a size.bytes with
      | .error f => .fault f
      | .ok v => .next { s with hostData := some (BitVec.ofNat 32 v) }

/-- A host write at a platform address. -/
def hostWrite (size : AccessSize) (addr : Nat) (v : Word) (s : State) : Outcome :=
  match locate s.params addr with
  | none => .refused .hostAddressUnmapped
  | some (.register offset) =>
    if size = .word ∧ offset % 4 = 0 then .next (writeRegister offset v s) else .refused .hostAccessShape
  | some (.lmem a) =>
    match lmemRefusal s a size.bytes with
    | some r => .refused r
    | none => .next { s with lmem := s.lmem.write a size.bytes v.toNat }

end Sys2Proof.Machine
end

