-- ==== Sys2Proof/Machine/Sequencer.lean ====
section
/-! DEFINITION. The sequencer's step (spec/60_exceptions.md R300), and one turn of either agent. -/

namespace Sys2Proof.Machine

/-- One step of the running sequencer: fetch, decode, and the command's rule (R300). -/
def runCommand (s : State) : Outcome :=
  match fetch s with
  | .raises e => .next (raise e s)
  | .faults f => .fault f
  | .command i => exec i s

/-- The sequencer's move: a command while the mode is RUN; nothing while it is IDLE, which only a GO leaves
(spec/70_reset_and_hazards.md R334; notes/assumptions 7). -/
def sequencerMove (s : State) : Outcome :=
  match s.mode with
  | .idle => .next s
  | .run => runCommand s

/-- LMEM after an abort: each byte the command would have changed holds its old value or the new one, as the free value
says, each byte for itself (spec/70_reset_and_hazards.md R332). An old byte without a value stays without one. -/
def blend (abort : Nat) (old new : Memory) : Memory :=
  new.filterMap fun c =>
    if Config.abortWrites abort c.1 then some c else (Memory.readByte old c.1).map fun b => (c.1, b)

/-- A SRST during the perform phase of the command at CPC (spec/70_reset_and_hazards.md R331, R332): every register is
reset, and the command's destination bytes are old or new. A command that raises an error has no destination bytes.
While idle it is a soft reset. -/
def abortingReset (s : State) : Outcome :=
  match s.mode with
  | .idle => .next (softReset s)
  | .run =>
    match runCommand s with
    | .next t => .next { softReset s with lmem := blend s.aborts s.lmem t.lmem, aborts := s.aborts + 1 }
    | .fault f => .fault f
    | .refused r => .refused r

/-- One turn (spec/70_reset_and_hazards.md R346). -/
def takeTurn (t : Turn) (s : State) : Outcome :=
  match t with
  | .sequencer => sequencerMove s
  | .read size addr => hostRead size addr s
  | .write size addr v => hostWrite size addr v s
  | .abortingReset => abortingReset s
  | .hardwareReset => .next (hardwareReset s)

/-- The 20 bytes of an instruction's bits, as LMEM stores them (R90), clipped to the end of LMEM. -/
def placeBytes (nbits w : Nat) (s : State) : Memory :=
  let a := s.cpc.toNat
  s.lmem.writeBytes a ((leBytes 20 (w % 2 ^ nbits)).take (s.params.lmemBytes - a))

end Sys2Proof.Machine
end

