-- ==== Sys2Proof/Machine/Step.lean ====
section
/-! DEFINITION. One step of the block with its host: the next turn of the list, or the sequencer's move where none is
listed (notes/assumptions 6). -/

namespace Sys2Proof.Machine

/-- One step. -/
def step (s : State) : Host.Outcome State Fault Refusal :=
  match s.turns with
  | [] => sequencerMove s
  | t :: rest => takeTurn t { s with turns := rest }

/-- `s` with an instruction's words stored at CPC, and the sequencer running with the next move, as after the host has
written the list and an accepted GO (spec/10_state.md R23; notes/assumptions 6). -/
def State.withFetchWord (s : State) (nbits w : Nat) : State :=
  { s with
    lmem := placeBytes nbits w s, mode := .run, done := false, err := false, errCode := .none, turns := [] }

end Sys2Proof.Machine
end

