-- ==== Sys2Proof/Safety.lean ====
section
/-! DEFINITION. What claims about the block are stated in: regions of LMEM, the stop at an error, the invariant of
every run, and how a run ends. -/

namespace Sys2Proof.Machine

/-! Regions -/

/-- Every byte of [a, a+len) has been written, so a read of it has a value (spec/20_memory.md R77). -/
abbrev Written (s : State) (a len : Nat) : Prop := ∀ i < len, (s.lmem.readByte (a + i)).isSome = true

/-- The region [a, a+len) fits LMEM; an empty region always does (spec/20_memory.md R65). -/
abbrev Fits (s : State) (a len : Nat) : Prop := len = 0 ∨ a + len ≤ s.params.lmemBytes

/-- The address x lies outside [a, a+len). -/
abbrev Outside (a len x : Nat) : Prop := x < a ∨ a + len ≤ x

/-- Every byte outside [a, a+len) reads in t as in s. -/
abbrev SameOutside (a len : Nat) (s t : State) : Prop := ∀ x, Outside a len x → t.lmem.readByte x = s.lmem.readByte x

/-- The stop at an error, field by field (spec/60_exceptions.md R302). -/
abbrev stopped (e : ErrCode) (s : State) : State :=
  { s with err := true, errCode := e, errPc := s.cpc, mode := .idle }

/-! What LMEM holds at an address (spec/00_scope.md R12; spec/20_memory.md R63) -/

/-- The byte b stands at a. -/
abbrev ByteAt (s : State) (a : Nat) (b : Byte) : Prop := s.lmem.readByte a = some b

/-- The u16 element x stands at a. -/
abbrev SymbolAt (s : State) (a : Nat) (x : Symbol) : Prop := s.lmem.read a 2 = .ok x.toNat

/-- The 32-bit element w stands at a. -/
abbrev WordAt (s : State) (a : Nat) (w : Word) : Prop := s.lmem.read a 4 = .ok w.toNat

/-- The sample x stands at a: I at a, Q at a+4. -/
abbrev SampleAt (s : State) (a : Nat) (x : Sample) : Prop := WordAt s a x.i ∧ WordAt s (a + 4) x.q

/-- The command i of `words` words completes in t: CPC moves past it, and nothing else changes but the bytes of
[dst, dst+len). -/
abbrev CompletesWriting (i : Instr) (s : State) (words dst len : Nat) (t : State) : Prop :=
  exec i s = .next t ∧ t = { s with lmem := t.lmem, cpc := s.cpc + BitVec.ofNat 32 (4 * words) } ∧
    SameOutside dst len s t

/-! Encoding, as spec/30_encoding.md R92, R93 and R96 list it -/

/-- The defined opcodes (R96). -/
def definedOpcodes : List Nat :=
  [0x00, 0x01, 0x02, 0x03, 0x04, 0x05, 0x10, 0x11, 0x20, 0x30, 0x40, 0x41, 0x50, 0x51, 0x60]

/-- The reserved header bits of a defined opcode, as a mask (R93). -/
def reservedMask : Nat → Word
  | 0x02 => 0xFF000000
  | 0x10 => 0xFF000E00
  | 0x11 => 0xFFFFFE00
  | 0x20 => 0xFFFFFE00
  | 0x30 => 0xFFFFFC00
  | 0x40 => 0xFFFFF800
  | 0x41 => 0xFFFFF800
  | 0x50 => 0xFFFFF800
  | 0x51 => 0xFFFFF800
  | 0x60 => 0xFFFFF000
  | _ => 0xFFFFFF00

/-! Real numbers (spec/00_scope.md R14, R15; spec/45_detector.md R261) -/

/-- w is the real x rounded to binary32 by roundTiesToEven: w is no NaN, has the sign of x (notes/assumptions 19), is
infinite exactly from 2^128 - 2^103 up, and otherwise no finite value is closer to x, and an equally close one stands
beside an even w. -/
def RoundsTo (x : ℝ) (w : Word) : Prop :=
  let real (v : Word) : ℝ := (f32Value v : ℝ) / 2 ^ 149
  f32IsNaN w = false ∧ (f32Sign w = true ↔ x < 0) ∧ (f32IsInf w = true ↔ (2 : ℝ) ^ 128 - 2 ^ 103 ≤ |x|) ∧
  (f32IsInf w = false → ∀ v : Word, nonFinite v = false →
    |x - real w| ≤ |x - real v| ∧ (|x - real w| = |x - real v| → real v = real w ∨ w.getLsbD 0 = false))

/-- X is the forward DFT of the samples, whose components are read as reals (R261). -/
abbrev IsDft (xs : List Sample) (X : Nat → ℂ) : Prop :=
  ∀ k, X k = ∑ n ∈ Finset.range xs.length,
    (((f32Value (xs.getD n default).i : ℂ) + Complex.I * (f32Value (xs.getD n default).q : ℂ)) / 2 ^ 149) *
      Complex.exp (-(2 * Real.pi * Complex.I * k * n / xs.length))

/-- Every component of the samples is finite. -/
abbrev AllFinite (xs : List Sample) : Prop := ∀ x ∈ xs, nonFinite x.i = false ∧ nonFinite x.q = false

/-- Where r is finite, v is finite too and differs from it by at most tol·2^-149 (R15). -/
abbrev MeetsWithin (tol : Nat) (r v : Word) : Prop :=
  nonFinite r = false → nonFinite v = false ∧ (f32Value r - f32Value v).natAbs ≤ tol

/-! Reset -/

/-- Every register at its value of spec/10_state.md R47; LMEM, the parameters and the model's own fields stay. -/
abbrev resetRegisters (s : State) : State :=
  { s with
    mode := .idle, ie := false, done := false, err := false, errCode := .none, cpc := 0, errPc := 0
    cfg := ⟨false, 0, 0, 0⟩, ampl := 0x3F800000, phase := 0, det := ⟨0, 0, 0, 0⟩, ferr := 0, fbad := 0
    wh := ⟨0x6572D100E85C2EFF, 0xE85C2EFFFFFFFFFF, false⟩ }

/-! The invariant of every run -/

/-- CFG is as no SETCFG has left it, or a legal configuration (spec/10_state.md R27). -/
def cfgLegal (c : Cfg) : Bool :=
  if c.valid then
    decide (7 ≤ c.sf.toNat) && decide (c.sf.toNat ≤ 12) && decide (1 ≤ c.ppm.toNat) && decide (c.ppm.toNat ≤ c.sf.toNat)
  else c.sf == 0 && c.ppm == 0 && c.ovsm1 == 0

/-- 0 ≤ P < U once configured, and P = 0 before (spec/10_state.md R31, R47). -/
def phaseLegal (s : State) : Bool :=
  if s.cfg.valid then decide (s.phase.toNat < 2 ^ s.cfg.sf.toNat * (s.cfg.ovsm1.toNat + 1) ^ 2) else s.phase == 0

/-- DONE and ERR are never both 1, both are 0 while BUSY, and ERRCODE is 0 exactly when ERR is 0
(spec/10_state.md R26; spec/60_exceptions.md R301, R308). -/
def flagsLegal (s : State) : Bool :=
  !(s.done && s.err) && (s.mode == .idle || (!s.done && !s.err)) && (s.err == (s.errCode != .none))

/-- CPC and ERRPC are 4-aligned (spec/10_state.md R28, R29). -/
def pointersAligned (s : State) : Bool := s.cpc.toNat % 4 == 0 && s.errPc.toNat % 4 == 0

/-- AMPL is finite (spec/10_state.md R30). -/
def amplFinite (s : State) : Bool := s.ampl.toNat / 2 ^ 23 % 2 ^ 8 != 255

/-- LMEM keeps its canonical form and lists addresses below LMEM_BYTES only (spec/20_memory.md R60). -/
def memoryLegal (s : State) : Bool := s.lmem.wf && s.lmem.all fun c => decide (c.1 < s.params.lmemBytes)

/-- The invariant of every run. -/
def invariant (s : State) : Bool :=
  s.params.legal && cfgLegal s.cfg && phaseLegal s && flagsLegal s && pointersAligned s && amplFinite s && memoryLegal s

/-- A value that a whitening register can take: on the orbit of one of its two seeds (spec/42_whitening.md R195). -/
def onOrbits (normalSeed rdd1Seed r : BitVec 64) : Prop :=
  ∃ n, r = lfsrStep^[n] normalSeed ∨ r = lfsrStep^[n] rdd1Seed

/-- R0 and R1 stand on the orbits of their seeds (spec/42_whitening.md R195; spec/10_state.md R38). -/
def whitenerOnOrbits (w : Whitener) : Prop :=
  onOrbits 0x6572D100E85C2EFF 0x05121100F8ECFEEF w.r0 ∧ onOrbits 0xE85C2EFFFFFFFFFF 0xF8ECFEEFEFEFEFEF w.r1

/-! The end of a run (spec/70_reset_and_hazards.md R347) -/

/-- A HALT ended the run. -/
def completed (s : State) : Bool := s.mode == .idle && s.done && !s.err

/-- An error ended the run. -/
def failed (s : State) : Bool := s.mode == .idle && s.err && s.errCode != .none && s.errPc == s.cpc

end Sys2Proof.Machine
end

