-- ==== Sys2Proof/Certificates/Slice0/Obligations.lean ====
section
/-! DEFINITION. The statements for the provers. OBLIGATIONS.json lists them in the same order; Tests/Slice0.lean shows
for each statement with hypotheses that a concrete state and concrete operands meet them. -/

section

open Sys2Proof Sys2Proof.Machine

/-! Encoding and decoding -/

/-- R92, R93, R94, R99: every well-formed command decodes to itself from its own bytes, whatever bytes follow. -/
def Obligations.DecodeOfEncodeGivesTheCommand : Prop :=
  ∀ (i : Instr) (rest : List Byte), i.wellFormed = true → decode (encodeBytes i ++ rest) = .ok i

/-- R91, R93, R99: bytes that decode to a command begin with exactly that command's encoding, so no two headers share
a meaning and no bit of a command is dropped. -/
def Obligations.DecodedBytesAreTheCommandsEncoding : Prop :=
  ∀ (bs : List Byte) (i : Instr), decode bs = .ok i →
    i.wellFormed = true ∧ bs.take (4 * (encode i).length) = encodeBytes i

/-- R102: the eight encoding examples, both ways. -/
def Obligations.SpecExamplesEncodeAndDecode : Prop :=
  ∀ p ∈ ([(.setcfg 7 0 0, [0x00000702]), (.setcfg 10 8 3, [0x00038A02]),
      (.chirpUp 5 0x1000 128, [0x00005010, 0x00001000, 0x00000080]),
      (.chirpDn 0 0x2000 32, [0x00000110, 0x00002000, 0x00000020]),
      (.fencH84 0x300 0x200 7, [0x00000440, 0x00000300, 0x00000200, 0x00000007]),
      (.whitenC 1 0x10 0x10 4 3, [0x00000960, 0x00000010, 0x00000010, 0x00000004, 0x00000003]),
      (.ilv 4 0x400 0x300 7, [0x00000450, 0x00000400, 0x00000300, 0x00000007]),
      (.setampl 0x3F000000, [0x00000003, 0x3F000000])] : List (Instr × List Nat)),
    encode p.1 = p.2 ∧ decode (p.2.flatMap (leBytes 4)) = .ok p.1

/-- R97 steps 1 to 4, R300: a running sequencer raises E_FETCH, E_ILLEGAL, E_RESERVED and E_FETCH in this order. -/
def Obligations.DecodeErrorsStopTheRunInOrder : Prop :=
  ∀ s : State, s.mode = .run → s.turns = [] →
    (s.params.lmemBytes < s.cpc.toNat + 4 → step s = .next (stopped .fetch s)) ∧
    ∀ h : Word, WordAt s s.cpc.toNat h → s.cpc.toNat + 4 ≤ s.params.lmemBytes →
      (h.toNat % 256 ∉ definedOpcodes → step s = .next (stopped .illegal s)) ∧
      (h.toNat % 256 ∈ definedOpcodes → h &&& reservedMask (h.toNat % 256) ≠ 0 →
        step s = .next (stopped .reserved s)) ∧
      (∀ n, opcodeLength (h.toNat % 256) = some n → h &&& reservedMask (h.toNat % 256) = 0 →
        s.params.lmemBytes < s.cpc.toNat + 4 * n → step s = .next (stopped .fetch s))

/-- R186: FENC and FDEC with RDD 5, 6 or 7 match no row, raise E_RANGE and have no effect. -/
def Obligations.FencFdecWithIllegalRddRaiseRange : Prop :=
  ∀ (s : State) (opc rdd : Nat), opc = 0x40 ∨ opc = 0x41 → 5 ≤ rdd → rdd ≤ 7 →
    (∀ ops, decodeWords (opc + 256 * rdd) ops = .error .noVariant) ∧
    (s.mode = .run → s.turns = [] → s.cpc.toNat + 16 ≤ s.params.lmemBytes → Written s s.cpc.toNat 16 →
      s.lmem.read s.cpc.toNat 4 = .ok (opc + 256 * rdd) → step s = .next (stopped .range s))

/-! The machine -/

/-- R300: where the bytes at CPC decode to a command, a step of the running sequencer is that command's rule. A turn of
the model's list is taken off it first (notes/assumptions 6). -/
def Obligations.StepRunsTheDecodedCommand : Prop :=
  ∀ (s : State) (n : Nat) (bs : List Byte) (i : Instr), s.mode = .run →
    s.cpc.toNat + n ≤ s.params.lmemBytes → s.lmem.readBytes s.cpc.toNat n = .ok bs → decode bs = .ok i →
    (s.turns = [] → step s = exec i s) ∧
    ∀ rest, s.turns = .sequencer :: rest → step s = exec i { s with turns := rest }

/-- R121, R300, R302, R303: a command that goes on either stops at an error with no other effect, or completes: CPC
moves past it, and only HALT sets DONE and stops. It never sets an error flag, and it writes no ERRPC. -/
def Obligations.CommandsCompleteHaltOrStopPrecisely : Prop :=
  ∀ (i : Instr) (s t : State), exec i s = .next t →
    (∃ e, e ≠ .none ∧ t = stopped e s) ∨
    (t.cpc = s.cpc + BitVec.ofNat 32 (4 * (encode i).length) ∧ t.ie = s.ie ∧ t.err = s.err ∧ t.errCode = s.errCode ∧
      t.errPc = s.errPc ∧ t.turns = s.turns ∧ t.hostData = s.hostData ∧ t.aborts = s.aborts ∧
      (if i = .halt then t.mode = .idle ∧ t.done = true else t.mode = s.mode ∧ t.done = s.done))

/-- R303, R306: no command is refused, a fault is always the read of an unwritten byte (R77), and where all of LMEM has
been written every command goes on. -/
def Obligations.CommandsFaultOnlyOnUnwrittenBytes : Prop :=
  ∀ (i : Instr) (s : State),
    (∀ r, exec i s ≠ .refused r) ∧
    (∀ f, exec i s = .fault f → ∃ a, f = .unwrittenByte a ∧ s.lmem.readByte a = none) ∧
    (Written s 0 s.params.lmemBytes → ∃ t, exec i s = .next t)

/-- R343: every step of a run stops it or raises CPC by a command's length, so a run ends after at most LMEM_BYTES/4
commands and one more step. A run that reads an unwritten byte ends there (R77; notes/assumptions 1). -/
def Obligations.EveryRunTerminates : Prop :=
  ∀ s : State, s.turns = [] → s.params.lmemBytes ≤ 2 ^ 31 →
    (∀ t, s.mode = .run → step s = .next t →
      t.mode = .idle ∨ ∃ n, 1 ≤ n ∧ n ≤ 5 ∧ t.cpc.toNat = s.cpc.toNat + 4 * n) ∧
    ((∃ f, Sys2Proof.core.run (s.params.lmemBytes / 4 + 1) s = .fault f) ∨
      ∃ t : State, Sys2Proof.core.run (s.params.lmemBytes / 4 + 1) s = .next t ∧ t.mode = .idle)

/-- R26, R27, R28, R29, R30, R31, R60: a step of either agent keeps the configuration legal, 0 ≤ P < U, DONE and ERR
exclusive and both 0 while BUSY, ERRCODE 0 exactly without ERR, CPC and ERRPC aligned, AMPL finite, and LMEM in its
canonical form below LMEM_BYTES. -/
def Obligations.StepKeepsTheInvariant : Prop :=
  ∀ s t : State, invariant s = true → step s = .next t → invariant t = true

/-- The reset state has the invariant. It rests on the model's choice of LMEM_BYTES (notes/assumptions 2). -/
def Obligations.ResetMeetsTheInvariant : Prop := invariant State.reset = true

/-- R9, R40: no step changes the implementation parameters, so LSIZE is constant. -/
def Obligations.ParametersNeverChange : Prop :=
  ∀ s t : State, step s = .next t → t.params = s.params

/-- R195: R0 and R1 stand on the orbits of their seeds at reset, and no step leaves them. -/
def Obligations.WhitenerStaysOnTheSeedOrbits : Prop :=
  whitenerOnOrbits State.reset.wh ∧
    ∀ s t : State, whitenerOnOrbits s.wh → step s = .next t → whitenerOnOrbits t.wh

/-- R334, R317: only an accepted GO leaves IDLE; any other step of an idle block leaves it idle. -/
def Obligations.OnlyAnAcceptedGoStartsTheSequencer : Prop :=
  ∀ s t : State, s.mode = .idle → step s = .next t → t.mode = .run →
    s.err = false ∧ ∃ (v : Word) (rest : List Turn), s.turns = .write .word (s.params.regBase + 4) v :: rest ∧
      v.getLsbD 0 = true ∧ v.getLsbD 2 = false ∧
      t = { s with turns := rest, ie := v.getLsbD 1, done := false, mode := .run }

/-! The host (a move stands at the head of the model's list of turns: notes/assumptions 6) -/

/-- R22, R23: a write of CTRL without SRST writes IE; with GO it starts a run where BUSY = 0 and ERR = 0, and is
otherwise ignored. -/
def Obligations.CtrlWriteSetsIeAndGoStartsOrIsIgnored : Prop :=
  ∀ (s : State) (v : Word) (rest : List Turn), s.turns = .write .word (s.params.regBase + 4) v :: rest →
    v.getLsbD 2 = false →
    (v.getLsbD 0 = true → s.mode = .idle → s.err = false →
      step s = .next { s with turns := rest, ie := v.getLsbD 1, done := false, mode := .run }) ∧
    (v.getLsbD 0 = true → s.mode = .run ∨ s.err = true →
      step s = .next { s with turns := rest, ie := v.getLsbD 1 }) ∧
    (v.getLsbD 0 = false → step s = .next { s with turns := rest, ie := v.getLsbD 1 })

/-- R25, R47, R330, R331: SRST (whatever other bit is written, busy or idle) gives every register its reset value and
keeps LMEM; a hardware reset does the same and leaves no LMEM byte a value; the reset state has these values. The model's
own: that the IE bit of a write with SRST is dropped (notes/assumptions 8), and that a hardware reset keeps the
implementation parameters and the model's own fields (notes/assumptions 17). -/
def Obligations.ResetsGiveEveryRegisterItsResetValue : Prop :=
  (∀ (s : State) (v : Word) (rest : List Turn), s.turns = .write .word (s.params.regBase + 4) v :: rest →
    v.getLsbD 2 = true → step s = .next (resetRegisters { s with turns := rest })) ∧
  (∀ (s : State) (rest : List Turn), s.turns = .hardwareReset :: rest →
    step s = .next { resetRegisters s with turns := rest, lmem := [] }) ∧
  State.reset = { resetRegisters State.reset with lmem := [], turns := [] }

/-- R331, R332: after an SRST that aborts the command at CPC every register has its reset value, and every LMEM byte
holds its old value or the one the command would have written; so a byte the command would not change is unchanged.
An SRST while idle changes no LMEM byte. -/
def Obligations.AbortedCommandLeavesOldOrNewBytes : Prop :=
  ∀ (s : State) (rest : List Turn), s.turns = .abortingReset :: rest →
    (s.mode = .idle → step s = .next (resetRegisters { s with turns := rest })) ∧
    (∀ u, s.mode = .run → s.lmem.wf = true → runCommand { s with turns := rest } = .next u →
      ∃ t, step s = .next t ∧
        t = { resetRegisters s with turns := rest, lmem := t.lmem, aborts := s.aborts + 1 } ∧
        ∀ a, t.lmem.readByte a = s.lmem.readByte a ∨ t.lmem.readByte a = u.lmem.readByte a)

/-- R26, R28: a write of STATUS clears the flags it names while idle, a write of CPC drops bits [1:0] while idle, and
neither has an effect while BUSY. -/
def Obligations.StatusAndCpcWritesActOnlyWhileIdle : Prop :=
  ∀ (s : State) (v : Word) (rest : List Turn),
    (s.turns = .write .word (s.params.regBase + 8) v :: rest →
      (s.mode = .idle → step s = .next
        { s with
          turns := rest
          done := s.done && !v.getLsbD 1
          err := s.err && !v.getLsbD 2
          errCode := if v.getLsbD 2 then .none else s.errCode }) ∧
      (s.mode = .run → step s = .next { s with turns := rest })) ∧
    (s.turns = .write .word (s.params.regBase + 0xC) v :: rest →
      (s.mode = .idle → ∃ t, step s = .next t ∧ t = { s with turns := rest, cpc := t.cpc } ∧
        t.cpc.toNat = v.toNat / 4 * 4) ∧
      (s.mode = .run → step s = .next { s with turns := rest }))

/-- R20 to R40: what each register reads, as a number made of its fields, and that a read changes nothing; reserved
offsets read 0; a write at any other offset than CTRL, STATUS and CPC is ignored. -/
def Obligations.HostReadsTheRegisterMap : Prop :=
  ∀ (s : State) (rest : List Turn),
    (∀ p ∈ ([(0x000, 0x4C520100), (0x004, 2 * s.ie.toNat),
        (0x008, (if s.mode = .run then 1 else 0) + 2 * s.done.toNat + 4 * s.err.toNat + 256 * s.errCode.code),
        (0x00C, s.cpc.toNat), (0x010, s.errPc.toNat),
        (0x014, s.cfg.sf.toNat + 16 * s.cfg.ppm.toNat + 256 * s.cfg.ovsm1.toNat + 2 ^ 31 * s.cfg.valid.toNat),
        (0x018, s.ampl.toNat), (0x01C, s.phase.toNat), (0x020, s.det.maxIndex.toNat), (0x024, s.det.power.toNat),
        (0x028, s.det.powerAvg.toNat), (0x02C, s.det.fIndex.toNat), (0x030, s.ferr.toNat), (0x034, s.fbad.toNat),
        (0x038, s.wh.r0.toNat % 2 ^ 32), (0x03C, s.wh.r0.toNat / 2 ^ 32), (0x040, s.wh.r1.toNat % 2 ^ 32),
        (0x044, s.wh.r1.toNat / 2 ^ 32), (0x048, s.wh.widx.toNat), (0x04C, s.params.lmemBytes)] : List (Nat × Nat)),
      s.turns = .read .word (s.params.regBase + p.1) :: rest →
        step s = .next { s with turns := rest, hostData := some (BitVec.ofNat 32 p.2) }) ∧
    (∀ offset, 0x50 ≤ offset → offset < 0x1000 → offset % 4 = 0 →
      s.turns = .read .word (s.params.regBase + offset) :: rest →
        step s = .next { s with turns := rest, hostData := some 0 }) ∧
    (∀ offset v, offset < 0x1000 → offset % 4 = 0 → offset ∉ [0x4, 0x8, 0xC] →
      s.turns = .write .word (s.params.regBase + offset) v :: rest → step s = .next { s with turns := rest })

/-- R61, R62, R66, R67: while idle, an aligned host write stores its bytes little-endian and changes no other byte, and
the same access then reads the value written. -/
def Obligations.HostReadsBackWhatItWrites : Prop :=
  ∀ (s : State) (size : AccessSize) (a : Nat) (v : Word) (rest : List Turn), s.mode = .idle →
    s.turns = .write size (s.params.lmemBase + a) v :: .read size (s.params.lmemBase + a) :: rest →
    a % size.bytes = 0 → a + size.bytes ≤ s.params.lmemBytes →
    Outside s.params.regBase 4096 (s.params.lmemBase + a) →
    ∃ t, step s = .next t ∧
      t = { s with lmem := t.lmem, turns := .read size (s.params.lmemBase + a) :: rest } ∧
      SameOutside a size.bytes s t ∧
      (∀ k < size.bytes, ByteAt t (a + k) (BitVec.ofNat 8 (v.toNat / 256 ^ k))) ∧
      step t = .next
        { t with turns := rest, hostData := some (BitVec.ofNat 32 (v.toNat % 256 ^ size.bytes)) }

/-- R66, R67, R340, R346: the host has no LMEM move while BUSY, none that is misaligned, no register move that is not
an aligned word, and none outside the two windows. The model's own: which accesses have no move, and the name each is
refused by (notes/assumptions 21); that the register window comes first where a platform lays it over LMEM, and that
alignment is judged on the offset in the window (notes/assumptions 4). -/
def Obligations.HostMovesOutsideTheContractAreRefused : Prop :=
  ∀ (s : State) (size : AccessSize) (addr : Nat) (v : Word) (rest : List Turn),
    s.turns = .read size addr :: rest ∨ s.turns = .write size addr v :: rest →
    (Outside s.params.regBase 4096 addr → ¬ Outside s.params.lmemBase s.params.lmemBytes addr →
      (s.mode = .run → step s = .refused .hostLmemWhileBusy) ∧
      (s.mode = .idle → (addr - s.params.lmemBase) % size.bytes ≠ 0 → step s = .refused .hostAccessShape)) ∧
    (¬ Outside s.params.regBase 4096 addr → size ≠ .word ∨ (addr - s.params.regBase) % 4 ≠ 0 →
      step s = .refused .hostAccessShape) ∧
    (Outside s.params.regBase 4096 addr → Outside s.params.lmemBase s.params.lmemBytes addr →
      step s = .refused .hostAddressUnmapped)

/-- R309: after an error the host clears ERR and writes GO: ERRCODE is 0 again, ERRPC keeps the address, and the run
resumes at CPC, which still addresses the failed command. -/
def Obligations.HostReturnsFromAnError : Prop :=
  ∀ (s : State) (v : Word) (rest : List Turn), s.mode = .idle → s.err = true →
    s.turns = .write .word (s.params.regBase + 8) 4 :: .write .word (s.params.regBase + 4) v :: rest →
    v.getLsbD 0 = true → v.getLsbD 2 = false →
    Sys2Proof.core.run 2 s = .next
      { s with turns := rest, err := false, errCode := .none, done := false, ie := v.getLsbD 1, mode := .run }

/-- R24, R302, R307: IRQ is the level IE & (DONE | ERR); it is IE after a HALT and after an error, and low after the
host has cleared both flags. -/
def Obligations.InterruptLevelFollowsDoneAndErr : Prop :=
  ∀ s : State, s.irq = (s.ie && (s.done || s.err)) ∧ (∀ e, (stopped e s).irq = s.ie) ∧
    (∀ t, exec .halt s = .next t → t.irq = s.ie) ∧
    ∀ rest, s.mode = .idle → s.turns = .write .word (s.params.regBase + 8) 6 :: rest →
      ∃ t, step s = .next t ∧ t.irq = false

/-! Control commands -/

/-- R120, R121, R126: NOP only advances, HALT advances and stops with DONE, CLRSTAT clears the two counters. -/
def Obligations.NopHaltAndClrstatComplete : Prop :=
  ∀ s : State,
    exec .nop s = .next { s with cpc := s.cpc + 4 } ∧
    exec .halt s = .next { s with cpc := s.cpc + 4, done := true, mode := .idle } ∧
    exec .clrstat s = .next { s with cpc := s.cpc + 4, ferr := 0, fbad := 0 }

/-- R122, R125: SETCFG with 7 ≤ SF ≤ 12 and PPM ≤ SF sets CFG, the effective PPM for the field 0 being SF, and sets P
to 0; any other raises E_CFG and leaves everything else. -/
def Obligations.SetcfgConfiguresOrRaisesCfg : Prop :=
  ∀ (s : State) (sf ppm ovsm1 : Nat), Instr.wellFormed (.setcfg sf ppm ovsm1) = true →
    (7 ≤ sf → sf ≤ 12 → ppm ≤ sf → ∃ t, exec (.setcfg sf ppm ovsm1) s = .next t ∧
      t = { s with cfg := t.cfg, phase := 0, cpc := s.cpc + 4 } ∧ t.cfg.valid = true ∧ t.cfg.sf.toNat = sf ∧
      t.cfg.ppm.toNat = (if ppm = 0 then sf else ppm) ∧ t.cfg.ovsm1.toNat = ovsm1) ∧
    (sf < 7 ∨ 12 < sf ∨ sf < ppm → exec (.setcfg sf ppm ovsm1) s = .next (stopped .cfg s))

/-- R123, R124: SETAMPL takes a finite encoding, and SETPHASE, once configured, a value below U; any other raises the
error named. -/
def Obligations.SetamplAndSetphaseSetOrRaise : Prop :=
  ∀ (s : State) (w : Word) (p : Nat),
    (w.toNat / 2 ^ 23 % 256 ≠ 255 → exec (.setampl w) s = .next { s with ampl := w, cpc := s.cpc + 8 }) ∧
    (w.toNat / 2 ^ 23 % 256 = 255 → exec (.setampl w) s = .next (stopped .range s)) ∧
    (s.cfg.valid = false → exec (.setphase p) s = .next (stopped .noCfg s)) ∧
    (s.cfg.valid = true → 2 ^ s.cfg.sf.toNat * (s.cfg.ovsm1.toNat + 1) ^ 2 ≤ p →
      exec (.setphase p) s = .next (stopped .range s)) ∧
    (s.cfg.valid = true → s.cfg.sf.toNat ≤ 12 → p < 2 ^ s.cfg.sf.toNat * (s.cfg.ovsm1.toNat + 1) ^ 2 →
      ∃ t, exec (.setphase p) s = .next t ∧ t = { s with phase := t.phase, cpc := s.cpc + 8 } ∧ t.phase.toNat = p)

/-! Gray commands -/

/-- R140, R141, R143, R144, R150 to R153: the four commands map each of the COUNT symbols at SRC, as it stood before,
to DST, and change nothing else but CPC; SYMRX and SYMTX need a configuration. -/
def Obligations.SymbolCommandsMapEverySymbol : Prop :=
  ∀ (s : State) (dst src count : Nat), dst % 2 = 0 → src % 2 = 0 → Fits s dst (2 * count) → Fits s src (2 * count) →
    Written s src (2 * count) →
    let sh : Nat := s.cfg.sf.toNat - s.cfg.ppm.toNat
    let maps (f : Symbol → Symbol) (t : State) : Prop :=
      ∀ k < count, ∃ x, SymbolAt s (src + 2 * k) x ∧ SymbolAt t (dst + 2 * k) (f x)
    (∃ t, CompletesWriting (.gray dst src count) s 4 dst (2 * count) t ∧ maps (fun x => x ^^^ (x >>> 1)) t) ∧
    (∃ t, CompletesWriting (.igray dst src count) s 4 dst (2 * count) t ∧ maps igray16 t) ∧
    (s.cfg.valid = true →
      (∃ t, CompletesWriting (.symrx dst src count) s 4 dst (2 * count) t ∧ maps (fun x =>
        gray16 (BitVec.ofNat 16 ((x.toNat + 2 ^ sh / 2) / 2 ^ sh % 2 ^ s.cfg.ppm.toNat))) t) ∧
      (∃ t, CompletesWriting (.symtx dst src count) s 4 dst (2 * count) t ∧ maps (fun x =>
        BitVec.ofNat 16 ((igray16 (BitVec.ofNat 16 (x.toNat % 2 ^ s.cfg.ppm.toNat))).toNat * 2 ^ sh)) t))

/-- R64, R65, R150 to R153, R305: the errors of the four commands, in their order. -/
def Obligations.SymbolCommandsRaiseTheirErrors : Prop :=
  ∀ (s : State) (dst src count : Nat),
    (s.cfg.valid = false → ∀ i ∈ [Instr.symrx dst src count, .symtx dst src count],
      exec i s = .next (stopped .noCfg s)) ∧
    ∀ i ∈ [Instr.gray dst src count, .igray dst src count, .symrx dst src count, .symtx dst src count],
      s.cfg.valid = true ∨ i = .gray dst src count ∨ i = .igray dst src count →
      (dst % 2 ≠ 0 ∨ src % 2 ≠ 0 → exec i s = .next (stopped .align s)) ∧
      (dst % 2 = 0 → src % 2 = 0 → ¬ (Fits s dst (2 * count) ∧ Fits s src (2 * count)) →
        exec i s = .next (stopped .bounds s))

/-- R142: the two Gray functions are inverse to each other, neither widens a value, and 0 is fixed. -/
def Obligations.GrayFunctionsAreInverse : Prop :=
  (∀ n : Symbol, igray16 (gray16 n) = n ∧ gray16 (igray16 n) = n) ∧
  (∀ (n : Symbol) (k : Nat), n.toNat < 2 ^ k → (gray16 n).toNat < 2 ^ k ∧ (igray16 n).toNat < 2 ^ k) ∧
  igray16 0 = 0 ∧ gray16 0 = 0

/-- R145: the receive mapping undoes the transmit mapping. -/
def Obligations.SymrxUndoesSymtx : Prop :=
  ∀ (sf ppm : Nat) (x : Symbol), 7 ≤ sf → sf ≤ 12 → 1 ≤ ppm → ppm ≤ sf → x.toNat < 2 ^ ppm →
    symrx sf ppm (symtx sf ppm x) = x

/-! FEC commands -/

/-- R160, R175 to R179: the five encoders write the codeword of the low nibble of each of the COUNT bytes at SRC, as it
stood before, to DST, and change nothing else but CPC. -/
def Obligations.FencWritesEveryCodeword : Prop :=
  ∀ (s : State) (dst src count : Nat), Fits s dst count → Fits s src count → Written s src count →
    ∀ p ∈ ([(.fencRaw dst src count, encRaw), (.fencP54 dst src count, encP54),
        (.fencP64 dst src count, encP64 s.params.p64g4 s.params.p64g5), (.fencH74 dst src count, encH74),
        (.fencH84 dst src count, encH84)] : List (Instr × (BitVec 4 → Byte))),
      ∃ t, CompletesWriting p.1 s 4 dst count t ∧
        ∀ k < count, ∃ b, ByteAt s (src + k) b ∧ ByteAt t (dst + k) (p.2 (BitVec.ofNat 4 (b.toNat % 16)))

/-- R169, R180 to R184: the five decoders write nibble, error and bad of each of the COUNT bytes at SRC, as it stood
before, to DST, add the outcomes to FERR and FBAD, which saturate, and change nothing else but CPC. -/
def Obligations.FdecWritesEveryNibbleAndCounts : Prop :=
  ∀ (s : State) (dst src count : Nat), Fits s dst count → Fits s src count → Written s src count →
    ∀ p ∈ ([(.fdecRaw dst src count, decRaw), (.fdecP54 dst src count, decP54),
        (.fdecP64 dst src count, decP64 s.params.p64g4 s.params.p64g5),
        (.fdecH74 dst src count, decH74 s.params.h74Bad), (.fdecH84 dst src count, decH84)] :
        List (Instr × (Byte → Nibble))),
      ∃ (t : State) (bs : List Byte), bs.length = count ∧ (∀ k < count, s.lmem.readByte (src + k) = bs[k]?) ∧
        exec p.1 s = .next t ∧
        t = { s with lmem := t.lmem, ferr := t.ferr, fbad := t.fbad, cpc := s.cpc + 16 } ∧
        t.ferr.toNat = min (s.ferr.toNat + bs.countP (fun b => (p.2 b).error)) (2 ^ 32 - 1) ∧
        t.fbad.toNat = min (s.fbad.toNat + bs.countP (fun b => (p.2 b).bad)) (2 ^ 32 - 1) ∧
        SameOutside dst count s t ∧
        ∀ k < count, ∃ b, ByteAt s (src + k) b ∧ ByteAt t (dst + k)
          (BitVec.ofNat 8 ((p.2 b).d.toNat + 16 * (p.2 b).error.toNat + 32 * (p.2 b).bad.toNat))

/-- R166: the encoder tables, with the default groups of parity(6,4). -/
def Obligations.EncoderTablesAreTheSpecs : Prop :=
  let nibbles := (List.range 16).map (BitVec.ofNat 4)
  nibbles.map encRaw = [0x00, 0x01, 0x02, 0x03, 0x04, 0x05, 0x06, 0x07, 0x08, 0x09, 0x0A, 0x0B, 0x0C, 0x0D, 0x0E, 0x0F] ∧
  nibbles.map encP54 = [0x00, 0x11, 0x12, 0x03, 0x14, 0x05, 0x06, 0x17, 0x18, 0x09, 0x0A, 0x1B, 0x0C, 0x1D, 0x1E, 0x0F] ∧
  nibbles.map (encP64 0b0111 0b1110) =
    [0x00, 0x11, 0x32, 0x23, 0x34, 0x25, 0x06, 0x17, 0x28, 0x39, 0x1A, 0x0B, 0x1C, 0x0D, 0x2E, 0x3F] ∧
  nibbles.map encH74 = [0x00, 0x51, 0x72, 0x23, 0x34, 0x65, 0x46, 0x17, 0x68, 0x39, 0x1A, 0x4B, 0x5C, 0x0D, 0x2E, 0x7F] ∧
  nibbles.map encH84 = [0x00, 0xD1, 0x72, 0xA3, 0xB4, 0x65, 0xC6, 0x17, 0xE8, 0x39, 0x9A, 0x4B, 0x5C, 0x8D, 0x2E, 0xFF]

/-- R163: encP64 for every pair of groups. R167, R168, R170 to R174: each decoder on every byte: it looks only at the bits
below its W; nibble, error and bad are those of its parities or of its syndrome, for every pair of groups and either
H74_BAD. R185: clean decoding; for Hamming(8,4) the correction of single and the detection of double flips; the
detection of single flips by the parity codes (for (6,4) with groups that together cover the four data bits, R163); the
correction of single flips by Hamming(7,4). -/
def Obligations.CodesDecodeBySyndromeAndCorrectFlips : Prop :=
  let parity (v g : BitVec 4) : Bool := (v.getLsbD 0 && g.getLsbD 0) ^^ (v.getLsbD 1 && g.getLsbD 1) ^^
    (v.getLsbD 2 && g.getLsbD 2) ^^ (v.getLsbD 3 && g.getLsbD 3)
  (∀ d g4 g5 : BitVec 4, encP64 g4 g5 d =
    BitVec.ofNat 8 (d.toNat + 16 * (parity d g4).toNat + 32 * (parity d g5).toNat)) ∧
  (∀ (c : Byte) (g4 g5 : BitVec 4) (hb : Bool),
    let b (k : Nat) : Bool := c.getLsbD k
    let d : BitVec 4 := BitVec.ofNat 4 (c.toNat % 16)
    let s74 : Nat := (b 0 ^^ b 1 ^^ b 2 ^^ b 4).toNat + 2 * (b 1 ^^ b 2 ^^ b 3 ^^ b 5).toNat +
      4 * (b 0 ^^ b 1 ^^ b 3 ^^ b 6).toNat
    let s84 : Nat := s74 + 8 * (b 0 ^^ b 2 ^^ b 3 ^^ b 7).toNat
    decRaw c = decRaw (c &&& 0x0F) ∧ decP54 c = decP54 (c &&& 0x1F) ∧ decP64 g4 g5 c = decP64 g4 g5 (c &&& 0x3F) ∧
    decH74 hb c = decH74 hb (c &&& 0x7F) ∧
    decRaw c = ⟨d, false, false⟩ ∧
    decP54 c = ⟨d, b 4 ^^ (b 0 ^^ b 1 ^^ b 2 ^^ b 3), false⟩ ∧
    decP64 g4 g5 c = ⟨d, (b 4 ^^ parity d g4) || (b 5 ^^ parity d g5), false⟩ ∧
    decH74 hb c = ⟨d ^^^ (if s74 = 5 then 1 else if s74 = 7 then 2 else if s74 = 3 then 4 else if s74 = 6 then 8 else 0),
      decide (s74 ≠ 0), hb && decide (s74 ∈ [1, 2, 4])⟩ ∧
    decH84 c = ⟨d ^^^ (if s84 = 0xD then 1 else if s84 = 0x7 then 2 else if s84 = 0xB then 4 else if s84 = 0xE then 8
        else 0),
      decide (s84 ≠ 0), decide (s84 ∈ [3, 5, 6, 9, 0xA, 0xC, 0xF])⟩) ∧
  (∀ (d g4 g5 : BitVec 4) (hb : Bool), decRaw (encRaw d) = ⟨d, false, false⟩ ∧ decP54 (encP54 d) = ⟨d, false, false⟩ ∧
    decP64 g4 g5 (encP64 g4 g5 d) = ⟨d, false, false⟩ ∧ decH74 hb (encH74 d) = ⟨d, false, false⟩ ∧
    decH84 (encH84 d) = ⟨d, false, false⟩) ∧
  (∀ (d : BitVec 4), ∀ k < 8, decH84 (encH84 d ^^^ (1#8 <<< k)) = ⟨d, true, false⟩) ∧
  (∀ (d : BitVec 4), ∀ k < 8, ∀ l < 8, k ≠ l → (decH84 (encH84 d ^^^ (1#8 <<< k) ^^^ (1#8 <<< l))).bad = true) ∧
  (∀ (d : BitVec 4), ∀ k < 5, (decP54 (encP54 d ^^^ (1#8 <<< k))).error = true) ∧
  (∀ (d g4 g5 : BitVec 4), g4 ||| g5 = 0b1111 → ∀ k < 6,
    (decP64 g4 g5 (encP64 g4 g5 d ^^^ (1#8 <<< k))).error = true) ∧
  (∀ (d : BitVec 4) (hb : Bool), ∀ k < 7, (decH74 hb (encH74 d ^^^ (1#8 <<< k))).d = d ∧
    (decH74 hb (encH74 d ^^^ (1#8 <<< k))).error = true)

/-- R65, R175 to R184, R198, R199: a region that does not fit raises E_BOUNDS, in WHITEN after E_RANGE for RDD > 4. -/
def Obligations.ByteCommandsRaiseTheirErrors : Prop :=
  ∀ (s : State) (rdd dst src count bitofs : Nat),
    (4 < rdd → ∀ i ∈ [Instr.whiten rdd dst src count bitofs, .whitenC rdd dst src count bitofs],
      exec i s = .next (stopped .range s)) ∧
    (¬ (Fits s dst count ∧ Fits s src count) →
      (∀ i ∈ [Instr.fencRaw dst src count, .fencP54 dst src count, .fencP64 dst src count, .fencH74 dst src count,
          .fencH84 dst src count, .fdecRaw dst src count, .fdecP54 dst src count, .fdecP64 dst src count,
          .fdecH74 dst src count, .fdecH84 dst src count], exec i s = .next (stopped .bounds s)) ∧
      (rdd ≤ 4 → ∀ i ∈ [Instr.whiten rdd dst src count bitofs, .whitenC rdd dst src count bitofs],
        exec i s = .next (stopped .bounds s)))

/-! Whitening -/

/-- R190, R191, R192: a register's step shifts in the XOR of four of its bytes; key n of a stream that starts with R0
comes from R0 for even n and from R1 for odd n, each stepped once for every key it has supplied; R196: a fresh stream
starts with R0 at the seeds of its RDD. -/
def Obligations.KeyBytesAlternateBetweenTheRegisters : Prop :=
  (∀ (r : BitVec 64) (k : Nat), k < 64 → (lfsrStep r).getLsbD k =
    if k < 56 then r.getLsbD (k + 8)
    else r.getLsbD (k - 24) ^^ r.getLsbD (k - 32) ^^ r.getLsbD (k - 40) ^^ r.getLsbD (k - 56)) ∧
  (∀ rdd ≤ 4, (seeds rdd).widx = false ∧
    (seeds rdd).r0 = (if rdd = 1 then 0x05121100F8ECFEEF#64 else 0x6572D100E85C2EFF#64) ∧
    (seeds rdd).r1 = (if rdd = 1 then 0xF8ECFEEFEFEFEFEF#64 else 0xE85C2EFFFFFFFFFF#64)) ∧
  ∀ (w : Whitener) (n : Nat), w.widx = false →
    w.after n = ⟨lfsrStep^[(n + 1) / 2] w.r0, lfsrStep^[n / 2] w.r1, decide (n % 2 = 1)⟩ ∧
    (w.after n).key = BitVec.ofNat 8
      ((if n % 2 = 0 then (lfsrStep^[n / 2] w.r0).toNat else (lfsrStep^[n / 2] w.r1).toNat) % 256)

/-- R193 to R199: WHITEN starts a fresh stream and WHITEN.C goes on with the current one; BITOFS keys are skipped, then
each of the COUNT bytes at SRC, as it stood before, is XORed with the next key below 2^(4+RDD) and stored at DST; the
stream stands BITOFS + COUNT keys further; nothing else changes but CPC. -/
def Obligations.WhitenXorsTheKeyStream : Prop :=
  ∀ (s : State) (rdd dst src count bitofs : Nat), rdd ≤ 4 → Fits s dst count → Fits s src count →
    Written s src count →
    ∀ p ∈ ([(.whiten rdd dst src count bitofs, seeds rdd), (.whitenC rdd dst src count bitofs, s.wh)] :
        List (Instr × Whitener)),
      ∃ t, exec p.1 s = .next t ∧
        t = { s with lmem := t.lmem, wh := p.2.after (bitofs + count), cpc := s.cpc + 20 } ∧
        SameOutside dst count s t ∧
        ∀ k < count, ∃ b, ByteAt s (src + k) b ∧ ByteAt t (dst + k)
          (b ^^^ BitVec.ofNat 8 ((p.2.after (bitofs + k)).key.toNat % 2 ^ (4 + rdd)))

/-- R195: each seed returns after 255 steps and after no fewer, so no earlier state repeats; R202: the key streams. -/
def Obligations.SeedsHavePeriod255AndTheSpecsKeyStreams : Prop :=
  (∀ r ∈ [0x6572D100E85C2EFF#64, 0xE85C2EFFFFFFFFFF#64, 0x05121100F8ECFEEF#64, 0xF8ECFEEFEFEFEFEF#64],
    lfsrStep^[255] r = r ∧ ∀ n, 0 < n → n < 255 → lfsrStep^[n] r ≠ r) ∧
  Whitener.keys 32 (seeds 0) =
    [0xFF, 0xFF, 0x2E, 0xFF, 0x5C, 0xFF, 0xE8, 0xFF, 0x00, 0xFF, 0xD1, 0x2E, 0x72, 0x5C, 0x65, 0xE8,
      0x4B, 0x00, 0x17, 0xD1, 0xFF, 0x72, 0x2E, 0x65, 0x5C, 0x4B, 0xE8, 0x17, 0xD1, 0xFF, 0xA3, 0x2E] ∧
  Whitener.keys 32 (seeds 1) =
    [0xEF, 0xEF, 0xFE, 0xEF, 0xEC, 0xEF, 0xF8, 0xEF, 0x00, 0xEF, 0x11, 0xFE, 0x12, 0xEC, 0x05, 0xF8,
      0xFB, 0x00, 0x17, 0x11, 0xEF, 0x12, 0xFE, 0x05, 0xEC, 0xFB, 0xF8, 0x17, 0x11, 0xEF, 0x03, 0xFE]

/-- R200: whitening again, from the same stream state and with the same RDD, BITOFS and COUNT, gives back the input,
wherever the two runs put their outputs; WHITEN is its own inverse. -/
def Obligations.WhiteningTwiceGivesTheInputBack : Prop :=
  ∀ (s t u : State) (rdd mid src dst count bitofs : Nat), rdd ≤ 4 → Fits s mid count → Fits s src count →
    Fits s dst count →
    (exec (.whiten rdd mid src count bitofs) s = .next t → exec (.whiten rdd dst mid count bitofs) t = .next u →
      ∀ k < count, u.lmem.readByte (dst + k) = s.lmem.readByte (src + k)) ∧
    (exec (.whitenC rdd mid src count bitofs) s = .next t →
      exec (.whitenC rdd dst mid count bitofs) { t with wh := s.wh } = .next u →
      ∀ k < count, u.lmem.readByte (dst + k) = s.lmem.readByte (src + k))

/-- R194, R199: whitening an array in place in two pieces, the second with WHITEN.C and no offset, leaves the bytes and
the stream that one WHITEN of the whole array leaves. -/
def Obligations.WhiteningInTwoPiecesIsWhiteningTheWhole : Prop :=
  ∀ (s t u w : State) (rdd a m n bitofs : Nat), rdd ≤ 4 → Fits s a (m + n) →
    exec (.whiten rdd a a m bitofs) s = .next t → exec (.whitenC rdd (a + m) (a + m) n 0) t = .next u →
    exec (.whiten rdd a a (m + n) bitofs) s = .next w →
    u.wh = w.wh ∧ ∀ x, u.lmem.readByte x = w.lmem.readByte x

/-! Interleaving -/

/-- R211, R214: bit m of symbol k of block b is bit k of codeword (m + k) mod P of that block, for m < P, and 0 above;
codewords after the last whole block are not read; nothing else changes but CPC. -/
def Obligations.IlvPlacesEveryBit : Prop :=
  ∀ (s : State) (rdd dst src ncw : Nat), s.cfg.valid = true → rdd ≤ 4 → dst % 2 = 0 →
    let p : Nat := s.cfg.ppm.toNat
    let w : Nat := 4 + rdd
    let nb : Nat := ncw / p
    Fits s dst (2 * (nb * w)) → Fits s src (nb * p) → Written s src (nb * p) →
    ∃ t, CompletesWriting (.ilv rdd dst src ncw) s 4 dst (2 * (nb * w)) t ∧
      ∀ b < nb, ∀ k < w, ∃ y, SymbolAt t (dst + 2 * (b * w + k)) y ∧
        (∀ m < p, ∃ c, ByteAt s (src + (b * p + (m + k) % p)) c ∧ y.getLsbD m = c.getLsbD k) ∧
        ∀ m, p ≤ m → y.getLsbD m = false

/-- R212, R215: bit k of codeword j of block b is bit (j - k) mod P of symbol k of that block, for k < 4 + RDD, and 0
above; symbols after the last whole block are not read; nothing else changes but CPC. -/
def Obligations.DilvPlacesEveryBit : Prop :=
  ∀ (s : State) (rdd dst src nsym : Nat), s.cfg.valid = true → rdd ≤ 4 → src % 2 = 0 →
    let p : Nat := s.cfg.ppm.toNat
    let w : Nat := 4 + rdd
    let nb : Nat := nsym / w
    Fits s dst (nb * p) → Fits s src (2 * (nb * w)) → Written s src (2 * (nb * w)) →
    ∃ t, CompletesWriting (.dilv rdd dst src nsym) s 4 dst (nb * p) t ∧
      ∀ b < nb, ∀ j < p, ∃ c, ByteAt t (dst + (b * p + j)) c ∧
        (∀ k < w, ∃ x, SymbolAt s (src + 2 * (b * w + k)) x ∧
          c.getLsbD k = x.getLsbD (((j : Int) - k) % p).toNat) ∧
        ∀ k, w ≤ k → c.getLsbD k = false

/-- R213: the two block functions are inverse to each other, up to the bits above W and above P. -/
def Obligations.BlockInterleavingRoundTrips : Prop :=
  ∀ (p rdd : Nat), 1 ≤ p → p ≤ 12 → rdd ≤ 4 →
    (∀ cw : List Byte, cw.length = p → deinterleaveBlock (4 + rdd) p (interleaveBlock (4 + rdd) p cw) =
      cw.map fun c => c &&& BitVec.ofNat 8 (2 ^ (4 + rdd) - 1)) ∧
    (∀ sym : List Symbol, sym.length = 4 + rdd → interleaveBlock (4 + rdd) p (deinterleaveBlock (4 + rdd) p sym) =
      sym.map fun x => x &&& BitVec.ofNat 16 (2 ^ p - 1))

/-- R213, R214, R215: ILV of whole blocks, then DILV of its output with the same configuration and RDD, gives back
every codeword without its bits above W, wherever the two commands put their outputs. -/
def Obligations.DilvUndoesIlv : Prop :=
  ∀ (s t u : State) (rdd mid src dst nb : Nat), s.cfg.valid = true → 1 ≤ s.cfg.ppm.toNat → rdd ≤ 4 → mid % 2 = 0 →
    Fits s mid (2 * (nb * (4 + rdd))) → Fits s src (nb * s.cfg.ppm.toNat) → Fits s dst (nb * s.cfg.ppm.toNat) →
    exec (.ilv rdd mid src (nb * s.cfg.ppm.toNat)) s = .next t → exec (.dilv rdd dst mid (nb * (4 + rdd))) t = .next u →
    ∀ k < nb * s.cfg.ppm.toNat, ∃ c, ByteAt s (src + k) c ∧
      ByteAt u (dst + k) (BitVec.ofNat 8 (c.toNat % 2 ^ (4 + rdd)))

/-- R214, R215, R305: the errors of ILV and DILV, in their order; a partial block is not checked. -/
def Obligations.InterleaverCommandsRaiseTheirErrors : Prop :=
  ∀ (s : State) (rdd dst src n : Nat),
    (s.cfg.valid = false → ∀ i ∈ [Instr.ilv rdd dst src n, .dilv rdd dst src n], exec i s = .next (stopped .noCfg s)) ∧
    (s.cfg.valid = true → 4 < rdd →
      ∀ i ∈ [Instr.ilv rdd dst src n, .dilv rdd dst src n], exec i s = .next (stopped .range s)) ∧
    (s.cfg.valid = true → rdd ≤ 4 → dst % 2 ≠ 0 → exec (.ilv rdd dst src n) s = .next (stopped .align s)) ∧
    (s.cfg.valid = true → rdd ≤ 4 → src % 2 ≠ 0 → exec (.dilv rdd dst src n) s = .next (stopped .align s)) ∧
    (s.cfg.valid = true → rdd ≤ 4 → dst % 2 = 0 →
      ¬ (Fits s dst (2 * (n / s.cfg.ppm.toNat * (4 + rdd))) ∧ Fits s src (n / s.cfg.ppm.toNat * s.cfg.ppm.toNat)) →
      exec (.ilv rdd dst src n) s = .next (stopped .bounds s)) ∧
    (s.cfg.valid = true → rdd ≤ 4 → src % 2 = 0 →
      ¬ (Fits s dst (n / (4 + rdd) * s.cfg.ppm.toNat) ∧ Fits s src (2 * (n / (4 + rdd) * (4 + rdd)))) →
      exec (.dilv rdd dst src n) s = .next (stopped .bounds s))

/-! Chirps and the mixer -/

/-- R232, R234, R236, R237: sample i of a chirp is NUM.cis at the phase (P + D·k) mod U, with
k = (FBIN·OVS + i) mod NN - NN/2 and D = 1 for CHIRP.UP, -1 for CHIRP.DN; PHASE holds the last phase, or keeps its value
for LEN = 0; nothing else changes but CPC. -/
def Obligations.ChirpsFollowThePhaseRecurrence : Prop :=
  ∀ (s : State) (fbin dst len : Nat), s.cfg.valid = true → s.cfg.sf.toNat ≤ 12 →
    let ovs : Nat := s.cfg.ovsm1.toNat + 1
    let nn : Nat := 2 ^ s.cfg.sf.toNat * ovs
    let u : Nat := 2 ^ s.cfg.sf.toNat * ovs ^ 2
    fbin < 2 ^ s.cfg.sf.toNat → len ≤ nn → dst % 8 = 0 → Fits s dst (8 * len) →
    ∀ p ∈ ([(.chirpUp fbin dst len, 1), (.chirpDn fbin dst len, -1)] : List (Instr × Int)),
      ∃ (t : State) (phase : Nat → Nat), phase 0 = s.phase.toNat ∧
        (∀ k < len, (phase (k + 1) : Int) =
          ((phase k : Int) + p.2 * (((fbin * ovs + k) % nn : Nat) - (nn / 2 : Nat))) % (u : Int)) ∧
        exec p.1 s = .next t ∧ t = { s with lmem := t.lmem, phase := t.phase, cpc := s.cpc + 12 } ∧
        t.phase.toNat = phase len ∧ SameOutside dst (8 * len) s t ∧
        ∀ k < len, SampleAt t (dst + 8 * k) (numCis s.params.num s.ampl (phase (k + 1)) u)

/-- R235: the band positions of a full chirp are a permutation of 0..NN-1, its frequencies add up to -NN/2, and it
changes P by -NN/2 mod U (CHIRP.UP) or NN/2 mod U (CHIRP.DN); with OVS = 1 both are N/2. -/
def Obligations.FullChirpShiftsThePhaseByHalfABand : Prop :=
  ∀ (s : State) (fbin dst : Nat), s.cfg.valid = true → 7 ≤ s.cfg.sf.toNat → s.cfg.sf.toNat ≤ 12 →
    let ovs : Nat := s.cfg.ovsm1.toNat + 1
    let n : Nat := 2 ^ s.cfg.sf.toNat
    let nn : Nat := n * ovs
    let u : Nat := n * ovs ^ 2
    fbin < n → s.phase.toNat < u → dst % 8 = 0 → dst + 8 * nn ≤ s.params.lmemBytes →
    ((List.range nn).map fun k => (fbin * ovs + k) % nn).Perm (List.range nn) ∧
    ((List.range nn).map (chirpFrequency s.cfg fbin)).sum = -((nn / 2 : Nat) : Int) ∧
    (∃ t, exec (.chirpUp fbin dst nn) s = .next t ∧
      (t.phase.toNat : Int) = ((s.phase.toNat : Int) - (nn / 2 : Nat)) % (u : Int) ∧
      (ovs = 1 → t.phase.toNat = (s.phase.toNat + n / 2) % n)) ∧
    (∃ t, exec (.chirpDn fbin dst nn) s = .next t ∧ t.phase.toNat = (s.phase.toNat + nn / 2) % u)

/-- R238: with OVS = 1 the phases of an upchirp at FBIN f and of a downchirp at FBIN 0 add up to
Pa + Pb + f·(i+1) mod N at sample i, and the difference to an upchirp at FBIN 0 is Pa - Pb + f·(i+1) mod N. -/
def Obligations.DechirpedPhaseIsAToneAtTheSymbolsBin : Prop :=
  ∀ (c : Cfg) (f pa pb k : Nat), c.ovsm1 = 0 → 7 ≤ c.sf.toNat → c.sf.toNat ≤ 12 → f < 2 ^ c.sf.toNat →
    k < 2 ^ c.sf.toNat →
    ∃ x y z : Nat, (chirpPhases c .up f (2 ^ c.sf.toNat) 0 pa)[k]? = some x ∧
      (chirpPhases c .down 0 (2 ^ c.sf.toNat) 0 pb)[k]? = some y ∧
      (chirpPhases c .up 0 (2 ^ c.sf.toNat) 0 pb)[k]? = some z ∧
      (x + y) % 2 ^ c.sf.toNat = (pa + pb + f * (k + 1)) % 2 ^ c.sf.toNat ∧
      ((x : Int) - z) % (2 ^ c.sf.toNat : Nat) = ((pa : Int) - pb + f * (k + 1)) % (2 ^ c.sf.toNat : Nat)

/-- R95, R236, R237, R305: the errors of the two chirp commands, in their order. -/
def Obligations.ChirpsRaiseTheirErrors : Prop :=
  ∀ (s : State) (fbin dst len : Nat), ∀ i ∈ [Instr.chirpUp fbin dst len, .chirpDn fbin dst len],
    let nn : Nat := 2 ^ s.cfg.sf.toNat * (s.cfg.ovsm1.toNat + 1)
    (s.cfg.valid = false → exec i s = .next (stopped .noCfg s)) ∧
    (s.cfg.valid = true → 2 ^ s.cfg.sf.toNat ≤ fbin ∨ nn < len → exec i s = .next (stopped .range s)) ∧
    (s.cfg.valid = true → fbin < 2 ^ s.cfg.sf.toNat → len ≤ nn → dst % 8 ≠ 0 →
      exec i s = .next (stopped .align s)) ∧
    (s.cfg.valid = true → fbin < 2 ^ s.cfg.sf.toNat → len ≤ nn → dst % 8 = 0 → ¬ Fits s dst (8 * len) →
      exec i s = .next (stopped .bounds s))

/-- R233: for every finite amplitude a and every phase P/U, the reference NUM.cis is a·cos(2π·P/U) and a·sin(2π·P/U), each
rounded once (R14; a negative real that rounds to 0 gives -0.0, the model's reading, notes/assumptions 19), and +0.0
where the real is 0; it is exact at the quarter turns: (a, 0), (0, a), (-a, 0) and (0, -a). R318: a chirp sample of any
NUM is finite. -/
def Obligations.ReferenceCisIsTheRoundedCosineAndSine : Prop :=
  (∀ (a : Word) (p u : Nat), nonFinite a = false → 0 < u →
    let amplitude : ℝ := (f32Value a : ℝ) / 2 ^ 149
    let angle : ℝ := 2 * Real.pi * p / u
    let y : Sample := numCis .reference a p u
    RoundsTo (amplitude * Real.cos angle) y.i ∧ RoundsTo (amplitude * Real.sin angle) y.q ∧
    (amplitude * Real.cos angle = 0 → y.i = 0) ∧ (amplitude * Real.sin angle = 0 → y.q = 0) ∧
    ∀ kind, nonFinite (numCis kind a p u).i = false ∧ nonFinite (numCis kind a p u).q = false) ∧
  (∀ (a : Word) (q : Nat), nonFinite a = false → 0 < q →
    (f32Mag a ≠ 0 → cisReference a 0 (4 * q) = ⟨a, 0⟩ ∧ cisReference a q (4 * q) = ⟨0, a⟩ ∧
      cisReference a (2 * q) (4 * q) = ⟨a ^^^ 0x80000000, 0⟩ ∧
      cisReference a (3 * q) (4 * q) = ⟨0, a ^^^ 0x80000000⟩) ∧
    (f32Mag a = 0 → ∀ p, cisReference a p (4 * q) = ⟨0, 0⟩))

/-- R14: rnd32 of v·2^(-k) is nearest: no finite binary32 value is closer, and of two equally close ones it takes the
one with the even encoding; it is infinite exactly from 2^128 - 2^103 up; its sign is that of v, also where a v that is
not 0 rounds to 0, which is the model's reading (notes/assumptions 19). -/
def Obligations.RoundingIsToNearestTiesToEven : Prop :=
  ∀ (v : Int) (k : Nat),
    f32IsNaN (rnd32 v k) = false ∧ f32Sign (rnd32 v k) = decide (v < 0) ∧
    (f32IsInf (rnd32 v k) = true ↔ (2 ^ 128 - 2 ^ 103) * 2 ^ k ≤ v.natAbs) ∧
    (f32IsInf (rnd32 v k) = false → ∀ w : Word, nonFinite w = false →
      (v * 2 ^ 149 - f32Value (rnd32 v k) * 2 ^ k).natAbs ≤ (v * 2 ^ 149 - f32Value w * 2 ^ k).natAbs ∧
      ((v * 2 ^ 149 - f32Value (rnd32 v k) * 2 ^ k).natAbs = (v * 2 ^ 149 - f32Value w * 2 ^ k).natAbs →
        f32Value w = f32Value (rnd32 v k) ∨ (rnd32 v k).getLsbD 0 = false))

/-- R14, R233: the enclosure that the reference NUM.cis rounds does enclose the cosine, at every precision. -/
def Obligations.CosineEnclosureContainsTheCosine : Prop :=
  ∀ p n u : Nat, 0 < u →
    ((cosTurn p n u).lo : ℝ) ≤ Real.cos (2 * Real.pi * n / u) * 2 ^ p ∧
    Real.cos (2 * Real.pi * n / u) * 2 ^ p ≤ ((cosTurn p n u).hi : ℝ)

/-- R241, R243, R244: MIX stores NUM.cmul of the COUNT sample pairs as they stood before, MIX.C that of the first with
the conjugate of the second; nothing else changes but CPC. A NaN of a product is the canonical one (R242). -/
def Obligations.MixMultipliesEverySamplePair : Prop :=
  (∀ (s : State) (dst srca srcb count : Nat), dst % 8 = 0 → srca % 8 = 0 → srcb % 8 = 0 → Fits s dst (8 * count) →
    Fits s srca (8 * count) → Fits s srcb (8 * count) → Written s srca (8 * count) → Written s srcb (8 * count) →
    ∀ p ∈ ([(.mix dst srca srcb count, fun y => y), (.mixC dst srca srcb count, fun y => ⟨y.i, y.q ^^^ 0x80000000⟩)] :
        List (Instr × (Sample → Sample))),
      ∃ t, CompletesWriting p.1 s 5 dst (8 * count) t ∧
        ∀ k < count, ∃ x y, SampleAt s (srca + 8 * k) x ∧ SampleAt s (srcb + 8 * k) y ∧
          SampleAt t (dst + 8 * k) (numCmul s.params.num x (p.2 y))) ∧
  ∀ (kind : NumKind) (x y : Sample) (w : Word), w = (numCmul kind x y).i ∨ w = (numCmul kind x y).q →
    f32IsNaN w = true → w = 0x7FC00000

/-- R64, R65, R243, R244: the errors of MIX and MIX.C, in their order. -/
def Obligations.MixRaisesItsErrors : Prop :=
  ∀ (s : State) (dst srca srcb count : Nat), ∀ i ∈ [Instr.mix dst srca srcb count, .mixC dst srca srcb count],
    (dst % 8 ≠ 0 ∨ srca % 8 ≠ 0 ∨ srcb % 8 ≠ 0 → exec i s = .next (stopped .align s)) ∧
    (dst % 8 = 0 → srca % 8 = 0 → srcb % 8 = 0 →
      ¬ (Fits s dst (8 * count) ∧ Fits s srca (8 * count) ∧ Fits s srcb (8 * count)) →
      exec i s = .next (stopped .bounds s))

/-- R242: the product, the sum and the difference of finite values are the exact ones rounded once, with the signs of
zeros that IEEE 754 gives (notes/assumptions 19), and what they are for infinities and NaNs; the reference NUM.cmul is
(canon(t1 - t2), canon(t3 + t4)). R15: a block's products and chirp samples are the reference's, or meet each finite
component of them within NUM_TOL (the form of NUM_TOL is the model's, notes/assumptions 12). R244: a finite sample times
its own conjugate has Q = +0.0 where xr·xi does not overflow and the canonical NaN where it does, and its I is not
negative. -/
def Obligations.ProductIsItsBinary32Operations : Prop :=
  (∀ x y : Word, nonFinite x = false → nonFinite y = false →
    let product : Int := f32Value x * f32Value y
    let sum : Int := f32Value x + f32Value y
    let difference : Int := f32Value x - f32Value y
    (product ≠ 0 → f32Mul x y = rnd32 product 298) ∧
    (product = 0 → f32Mul x y = if f32Sign x = f32Sign y then 0 else 0x80000000) ∧
    (sum ≠ 0 → f32Add x y = rnd32 sum 149) ∧
    (sum = 0 → f32Add x y = if f32Sign x = true ∧ f32Sign y = true then 0x80000000 else 0) ∧
    (difference ≠ 0 → f32Sub x y = rnd32 difference 149) ∧
    (difference = 0 → f32Sub x y = if f32Sign x = true ∧ f32Sign y = false then 0x80000000 else 0)) ∧
  (∀ x y : Word,
    (f32IsNaN x = true ∨ f32IsNaN y = true →
      ∀ w ∈ [f32Mul x y, f32Add x y, f32Sub x y], f32IsNaN w = true) ∧
    (f32IsInf x = true → f32Mag y = 0 → f32IsNaN (f32Mul x y) = true ∧ f32IsNaN (f32Mul y x) = true) ∧
    (f32IsInf x = true → f32IsNaN y = false → f32Mag y ≠ 0 →
      ∀ w ∈ [f32Mul x y, f32Mul y x], w = if f32Sign x = f32Sign y then 0x7F800000 else 0xFF800000) ∧
    (f32IsInf x = true → f32IsInf y = true →
      (f32Sign x = f32Sign y → f32Add x y = x ∧ f32IsNaN (f32Sub x y) = true) ∧
      (f32Sign x ≠ f32Sign y → f32IsNaN (f32Add x y) = true ∧ f32Sub x y = x)) ∧
    (f32IsInf x = true → nonFinite y = false → f32Add x y = x ∧ f32Add y x = x ∧ f32Sub x y = x ∧
      f32Sub y x = x ^^^ 0x80000000)) ∧
  (∀ x y : Sample,
    let canon (w : Word) : Word := if f32IsNaN w = true then 0x7FC00000 else w
    let re : Word := canon (f32Sub (f32Mul x.i y.i) (f32Mul x.q y.q))
    let im : Word := canon (f32Add (f32Mul x.i y.q) (f32Mul x.q y.i))
    numCmul .reference x y = ⟨re, im⟩ ∧ ∀ tol, MeetsWithin tol re (numCmul (.implementation tol) x y).i ∧
      MeetsWithin tol im (numCmul (.implementation tol) x y).q) ∧
  (∀ (a : Word) (p u tol : Nat), numCis .reference a p u = cisReference a p u ∧
    MeetsWithin tol (cisReference a p u).i (numCis (.implementation tol) a p u).i ∧
    MeetsWithin tol (cisReference a p u).q (numCis (.implementation tol) a p u).q) ∧
  (∀ x : Sample, nonFinite x.i = false → nonFinite x.q = false →
    let y : Sample := cmulReference x ⟨x.i, x.q ^^^ 0x80000000⟩
    (f32IsInf (f32Mul x.i x.q) = false → y.q = 0) ∧
    (f32IsInf (f32Mul x.i x.q) = true → y.q = 0x7FC00000) ∧
    f32Sign y.i = false)

/-! The detector -/

/-- R264, R266, R267, R63: DETECT reads the N samples at SRC and writes the four results to the result registers,
whatever its ignored operand word holds; DETECT.S also stores them as a record at DST; nothing else changes but CPC. -/
def Obligations.DetectWritesTheResultsAndTheRecord : Prop :=
  ∀ (s : State) (dst src : Nat), s.cfg.valid = true → src % 8 = 0 → Fits s src (8 * 2 ^ s.cfg.sf.toNat) →
    Written s src (8 * 2 ^ s.cfg.sf.toNat) →
    ∃ xs : List Sample, xs.length = 2 ^ s.cfg.sf.toNat ∧
      (∀ k < 2 ^ s.cfg.sf.toNat, ∃ x, xs[k]? = some x ∧ SampleAt s (src + 8 * k) x) ∧
      exec (.detect dst src) s = .next { s with det := numDetect s.params.num xs, cpc := s.cpc + 12 } ∧
      (dst % 4 = 0 → dst + 16 ≤ s.params.lmemBytes →
        ∃ t, exec (.detectS dst src) s = .next t ∧
          t = { s with lmem := t.lmem, det := numDetect s.params.num xs, cpc := s.cpc + 12 } ∧
          SameOutside dst 16 s t ∧ WordAt t dst (BitVec.ofNat 32 t.det.maxIndex.toNat) ∧
          WordAt t (dst + 4) t.det.power ∧ WordAt t (dst + 8) t.det.powerAvg ∧ WordAt t (dst + 12) t.det.fIndex)

/-- R266, R267, R305: the errors of DETECT and DETECT.S, in their order. -/
def Obligations.DetectRaisesItsErrors : Prop :=
  ∀ (s : State) (dst src : Nat),
    (s.cfg.valid = false → ∀ i ∈ [Instr.detect dst src, .detectS dst src], exec i s = .next (stopped .noCfg s)) ∧
    (s.cfg.valid = true → src % 8 ≠ 0 → exec (.detect dst src) s = .next (stopped .align s)) ∧
    (s.cfg.valid = true → src % 8 = 0 → s.params.lmemBytes < src + 8 * 2 ^ s.cfg.sf.toNat →
      exec (.detect dst src) s = .next (stopped .bounds s)) ∧
    (s.cfg.valid = true → dst % 4 ≠ 0 ∨ src % 8 ≠ 0 → exec (.detectS dst src) s = .next (stopped .align s)) ∧
    (s.cfg.valid = true → dst % 4 = 0 → src % 8 = 0 →
      s.params.lmemBytes < dst + 16 ∨ s.params.lmemBytes < src + 8 * 2 ^ s.cfg.sf.toNat →
      exec (.detectS dst src) s = .next (stopped .bounds s))

/-- R261: the ring number that the reference detector computes for bin k is the forward DFT: with ζ = e^(j·2π/N) its
coefficients c_m give Σ c_m·ζ^m = Σ x[n]·e^(-j·2π·k·n/N); R262: ringMag2 of it is |X[k]|²; ringLess orders the real ring
numbers (those that are their own conjugates) as their values; and for finite samples maxIndex is the least index of
the greatest |X[k]|². -/
def Obligations.ReferenceDetectorFindsThePeakOfTheDft : Prop :=
  let value (e : Nat) (x : List Int) : ℂ := ∑ m ∈ Finset.range (2 ^ e / 2),
    ((x.getD m 0 : Int) : ℂ) * Complex.exp (2 * Real.pi * Complex.I * m / (2 ^ e : ℂ))
  (∀ (e : Nat) (xs : List (Int × Int)) (k : Nat), 2 ≤ e → xs.length = 2 ^ e → k < 2 ^ e →
    let bin : ℂ := ∑ n ∈ Finset.range (2 ^ e),
      (((xs.getD n (0, 0)).1 : ℂ) + Complex.I * ((xs.getD n (0, 0)).2 : ℂ)) *
        Complex.exp (-(2 * Real.pi * Complex.I * k * n / (2 ^ e : ℂ)))
    value e (dftBin (2 ^ e) xs k) = bin ∧ value e (ringMag2 (dftBin (2 ^ e) xs k)) = (Complex.normSq bin : ℂ)) ∧
  (∀ (e : Nat) (x y : List Int), 2 ≤ e → x.length = 2 ^ e / 2 → y.length = 2 ^ e / 2 → ringConj x = x →
    ringConj y = y → (ringLess (2 ^ e) x y = true ↔ (value e x).re < (value e y).re)) ∧
  (∀ (e : Nat) (xs : List Sample) (X : Nat → ℂ), 7 ≤ e → e ≤ 12 → xs.length = 2 ^ e → AllFinite xs → IsDft xs X →
    let m : Nat := (numDetect .reference xs).maxIndex.toNat
    m < 2 ^ e ∧ (∀ k < 2 ^ e, Complex.normSq (X k) ≤ Complex.normSq (X m)) ∧
    ∀ k < m, Complex.normSq (X k) < Complex.normSq (X m))

/-- R32, R262, R263, R266: maxIndex is below N for every NUM; in the reference an input with a NaN or an infinity gives
(0, NaN, NaN, NaN) and an all-zero one (0, -∞, -∞, +0.0); for finite samples power, powerAvg and fIndex are R262's
formulas at maxIndex rounded once, with -∞ for the logarithm of 0 (a negative real that rounds to 0 gives -0.0, the
model's reading, notes/assumptions 19). R15, R263: a block that is not the reference picks a bin whose power is within
NUM_TOL of the peak's, and meets the finite results for that bin within NUM_TOL (the form of NUM_TOL and of a near tie is
the model's, notes/assumptions 12). -/
def Obligations.DetectorResultsFollowTheDft : Prop :=
  ∀ (e : Nat) (xs : List Sample) (X : Nat → ℂ), 7 ≤ e → e ≤ 12 → xs.length = 2 ^ e → IsDft xs X →
    let p (k : Nat) : ℝ := Complex.normSq (X k)
    let d : Detection := numDetect .reference xs
    let m : Nat := d.maxIndex.toNat
    let rest : ℝ := (∑ k ∈ Finset.range (2 ^ e), p k) - p m
    let level (v : ℝ) : ℝ := 10 * Real.logb 10 v - 20 * Real.logb 10 (2 ^ e)
    let left : ℝ := Real.sqrt (p ((m + 2 ^ e - 1) % 2 ^ e))
    let right : ℝ := Real.sqrt (p ((m + 1) % 2 ^ e))
    let denom : ℝ := 2 * Real.sqrt (p m) - right - left
    (∀ kind, (numDetect kind xs).maxIndex.toNat < 2 ^ e) ∧
    ((∃ x ∈ xs, nonFinite x.i = true ∨ nonFinite x.q = true) → d = ⟨0, 0x7FC00000, 0x7FC00000, 0x7FC00000⟩) ∧
    ((∀ x ∈ xs, f32Mag x.i = 0 ∧ f32Mag x.q = 0) → d = ⟨0, 0xFF800000, 0xFF800000, 0⟩) ∧
    (AllFinite xs →
      (p m = 0 → d.power = 0xFF800000) ∧ (p m ≠ 0 → RoundsTo (level (p m)) d.power) ∧
      (rest = 0 → d.powerAvg = 0xFF800000) ∧ (rest ≠ 0 → RoundsTo (level rest) d.powerAvg) ∧
      (denom = 0 → d.fIndex = 0) ∧ (denom ≠ 0 → RoundsTo ((1 / 2) * (right - left) / denom) d.fIndex) ∧
      ∀ tol, ∃ b ∈ detectorBins xs,
        let v : Detection := numDetect (.implementation tol) xs
        let r : Detection := resultsAt (detectorBins xs) b
        v.maxIndex.toNat = b.index ∧
        (r.power = d.power ∨ nonFinite d.power = false ∧ MeetsWithin tol d.power r.power) ∧
        MeetsWithin tol r.power v.power ∧ MeetsWithin tol r.powerAvg v.powerAvg ∧
        MeetsWithin tol r.fIndex v.fIndex)

/-! LMEM -/

/-- R12, R62: MemRead(a, n) is the little-endian sum of its bytes and faults exactly where one has no value (R77);
MemWrite(a, n, v) stores v modulo 2^(8n) and changes no other byte. -/
def Obligations.MemoryAccessesAreLittleEndian : Prop :=
  ∀ (m : Memory) (a n v : Nat),
    (m.read a n = .ok v ↔ (∀ k < n, (m.readByte (a + k)).isSome = true) ∧
      v = ∑ k ∈ Finset.range n, ((m.readByte (a + k)).getD 0).toNat * 256 ^ k) ∧
    (m.write a n v).read a n = .ok (v % 2 ^ (8 * n)) ∧
    ∀ x, Outside a n x → (m.write a n v).readByte x = m.readByte x

end
end

