-- ==== Sys2Proof/Laws/Memory.lean ====
section
/-! SUPPORT. What the operations over LMEM do: what a byte reads as after a write, which reads succeed and what they
give, and that every operation keeps the canonical form. -/

namespace Sys2Proof.Machine

/-! Reading one byte -/

@[simp] theorem readByte_nil (a : Nat) : Memory.readByte [] a = none := rfl

theorem readByte_cons (c : Host.Cell) (m : Memory) (a : Nat) :
    Memory.readByte (c :: m) a = if c.1 = a then some c.2 else Memory.readByte m a := rfl

theorem readByte_append (m m' : Memory) (a : Nat) :
    Memory.readByte (m ++ m') a = (Memory.readByte m a).or (Memory.readByte m' a) := by
  induction m with
  | nil => simp
  | cons c m ih =>
    rw [List.cons_append, readByte_cons, readByte_cons]
    split <;> simp [ih]

theorem readByte_cellsAt (bs : List Byte) (b a : Nat) :
    Memory.readByte (cellsAt b bs) a = if b ≤ a then bs[a - b]? else none := by
  induction bs generalizing b with
  | nil => simp [cellsAt]
  | cons x bs ih =>
    rw [cellsAt, readByte_cons, ih]
    by_cases h : b = a
    · subst h; simp
    · by_cases h' : b ≤ a
      · have e : a - b = (a - (b + 1)) + 1 := by omega
        have l : b + 1 ≤ a := by omega
        simp [h, h', l, e]
      · simp [h, h', show ¬ b + 1 ≤ a by omega]

theorem readByte_filter (keep : Nat → Bool) (m : Memory) (a : Nat) :
    Memory.readByte (m.filter fun c => keep c.1) a = if keep a then Memory.readByte m a else none := by
  induction m with
  | nil => simp
  | cons c m ih =>
    by_cases h : c.1 = a
    · subst h
      by_cases k : keep c.1 <;> simp [k, readByte_cons, ih]
    · by_cases k : keep c.1 <;> simp [k, readByte_cons, ih, h]

/-- A byte after a write: the written byte inside the region, the old one outside. -/
theorem readByte_writeBytes (m : Memory) (b : Nat) (bs : List Byte) (a : Nat) :
    (m.writeBytes b bs).readByte a = if b ≤ a ∧ a < b + bs.length then bs[a - b]? else m.readByte a := by
  have h1 := readByte_filter (fun x => decide (x < b)) m a
  have h2 := readByte_filter (fun x => decide (b + bs.length ≤ x)) m a
  rw [Memory.writeBytes, readByte_append, readByte_append, h1, h2, readByte_cellsAt]
  by_cases h : a < b
  · simp [h, show ¬ b ≤ a by omega, show ¬ b + bs.length ≤ a by omega]
  · by_cases h' : a < b + bs.length
    · have l : a - b < bs.length := by omega
      simp [h, show b ≤ a by omega, h', List.getElem?_eq_getElem l]
    · have l : bs.length ≤ a - b := by omega
      simp [h, h', show b + bs.length ≤ a by omega, show b ≤ a by omega, List.getElem?_eq_none l]

theorem readByte_writeBytes_outside (m : Memory) (b : Nat) (bs : List Byte) (a : Nat)
    (h : a < b ∨ b + bs.length ≤ a) : (m.writeBytes b bs).readByte a = m.readByte a := by
  rw [readByte_writeBytes, if_neg (by omega)]

theorem readByte_writeBytes_inside (m : Memory) (b : Nat) (bs : List Byte) (i : Nat) (h : i < bs.length) :
    (m.writeBytes b bs).readByte (b + i) = some bs[i] := by
  rw [readByte_writeBytes, if_pos (by omega), show b + i - b = i by omega, List.getElem?_eq_getElem h]

/-! Reading several bytes -/

/-- Which reads of `n` bytes succeed, and what they give. -/
theorem readBytes_eq_ok (m : Memory) (a n : Nat) (bs : List Byte) :
    m.readBytes a n = .ok bs ↔ bs.length = n ∧ ∀ i < n, m.readByte (a + i) = bs[i]? := by
  induction n generalizing a bs with
  | zero =>
    rw [Memory.readBytes]
    constructor
    · intro h; cases h; simp
    · rintro ⟨h, -⟩; rw [List.length_eq_zero_iff.mp h]
  | succ n ih =>
    rw [Memory.readBytes]
    constructor
    · intro h
      split at h
      · cases h
      · rename_i b hb
        split at h
        · cases h
        · rename_i rest hr
          cases h
          obtain ⟨hl, hi⟩ := (ih (a + 1) rest).mp hr
          refine ⟨by simp [hl], fun i hi' => ?_⟩
          cases i with
          | zero => simpa using hb
          | succ i => simpa [Nat.add_assoc, Nat.add_comm 1 i] using hi i (by omega)
    · rintro ⟨hl, hi⟩
      cases bs with
      | nil => simp at hl
      | cons b rest =>
        have hb : m.readByte a = some b := by simpa using hi 0 (by omega)
        have hr : m.readBytes (a + 1) n = .ok rest := by
          refine (ih (a + 1) rest).mpr ⟨by simpa using hl, fun i hi' => ?_⟩
          have := hi (i + 1) (by omega)
          simpa [Nat.add_assoc, Nat.add_comm 1 i] using this
        rw [hb]; simp only [hr]

/-- A read of several bytes succeeds where every byte has been written. -/
theorem readBytes_of_written (m : Memory) (a n : Nat) (h : ∀ i < n, (m.readByte (a + i)).isSome) :
    ∃ bs, m.readBytes a n = .ok bs := by
  refine ⟨(List.range n).map fun i => (m.readByte (a + i)).getD 0, (readBytes_eq_ok ..).mpr ⟨by simp, fun i hi => ?_⟩⟩
  obtain ⟨b, hb⟩ := Option.isSome_iff_exists.mp (h i hi)
  simp [hi, hb]

/-- The fault of a read names a byte of the region that was never written. -/
theorem readBytes_fault (m : Memory) (a n : Nat) (f : Fault) (h : m.readBytes a n = .error f) :
    ∃ i < n, f = .unwrittenByte (a + i) ∧ m.readByte (a + i) = none := by
  induction n generalizing a with
  | zero => cases h
  | succ n ih =>
    rw [Memory.readBytes] at h
    split at h
    · rename_i hb; cases h; exact ⟨0, by omega, rfl, hb⟩
    · split at h
      · rename_i f' hr
        cases h
        obtain ⟨i, hi, e, hn⟩ := ih (a + 1) hr
        exact ⟨i + 1, by omega, by rw [e]; congr 1; omega, by rw [← hn]; congr 1; omega⟩
      · cases h

/-- The bytes just written are the bytes read. -/
theorem readBytes_writeBytes (m : Memory) (a : Nat) (bs : List Byte) :
    (m.writeBytes a bs).readBytes a bs.length = .ok bs := by
  refine (readBytes_eq_ok ..).mpr ⟨rfl, fun i hi => ?_⟩
  rw [readByte_writeBytes_inside m a bs i hi, List.getElem?_eq_getElem hi]

/-- A read looks at nothing but the bytes of its region. -/
theorem readBytes_congr (m m' : Memory) (a n : Nat) (h : ∀ i < n, m.readByte (a + i) = m'.readByte (a + i)) :
    m.readBytes a n = m'.readBytes a n := by
  induction n generalizing a with
  | zero => rfl
  | succ n ih =>
    have h0 : m.readByte a = m'.readByte a := by simpa using h 0 (by omega)
    have hr : m.readBytes (a + 1) n = m'.readBytes (a + 1) n :=
      ih (a + 1) fun i hi => by
        have := h (i + 1) (by omega)
        simpa [Nat.add_assoc, Nat.add_comm 1 i] using this
    rw [Memory.readBytes, Memory.readBytes, h0, hr]

/-! The canonical form -/

theorem wf_iff_pairwise (m : Memory) : m.wf = true ↔ m.Pairwise (fun c d => c.1 < d.1) := by
  induction m with
  | nil => simp [Memory.wf]
  | cons c m ih =>
    cases m with
    | nil => simp [Memory.wf]
    | cons d m =>
      rw [Memory.wf, Bool.and_eq_true, decide_eq_true_eq, ih]
      rw [List.pairwise_cons (l := d :: m)]
      constructor
      · rintro ⟨h, hp⟩
        refine ⟨fun x hx => ?_, hp⟩
        rcases List.mem_cons.mp hx with rfl | hx
        · exact h
        · exact h.trans ((List.pairwise_cons.mp hp).1 x hx)
      · rintro ⟨h, hp⟩
        exact ⟨h d (by simp), hp⟩

theorem mem_cellsAt (bs : List Byte) (a : Nat) (c : Host.Cell) (h : c ∈ cellsAt a bs) :
    a ≤ c.1 ∧ c.1 < a + bs.length := by
  induction bs generalizing a with
  | nil => cases h
  | cons b bs ih =>
    rcases List.mem_cons.mp h with rfl | h
    · simp
    · have := ih (a + 1) h
      simp only [List.length_cons]
      omega

theorem cellsAt_pairwise (bs : List Byte) (a : Nat) : (cellsAt a bs).Pairwise (fun c d => c.1 < d.1) := by
  induction bs generalizing a with
  | nil => exact List.Pairwise.nil
  | cons b bs ih =>
    refine List.pairwise_cons.mpr ⟨fun c hc => ?_, ih (a + 1)⟩
    have := mem_cellsAt bs (a + 1) c hc
    show a < c.1
    omega

/-- A write keeps the canonical form. -/
theorem wf_writeBytes (m : Memory) (a : Nat) (bs : List Byte) (h : m.wf = true) : (m.writeBytes a bs).wf = true := by
  rw [wf_iff_pairwise] at *
  unfold Memory.writeBytes
  refine List.pairwise_append.mpr ⟨List.pairwise_append.mpr ⟨h.filter _, cellsAt_pairwise bs a, ?_⟩, h.filter _, ?_⟩
  · intro c hc d hd
    have h1 : c.1 < a := by simpa using (List.mem_filter.mp hc).2
    have := mem_cellsAt bs a d hd
    omega
  · intro c hc d hd
    have h2 : a + bs.length ≤ d.1 := by simpa using (List.mem_filter.mp hd).2
    rcases List.mem_append.mp hc with hc | hc
    · have h1 : c.1 < a := by simpa using (List.mem_filter.mp hc).2
      omega
    · have := mem_cellsAt bs a c hc
      omega

theorem wf_write (m : Memory) (a n v : Nat) (h : m.wf = true) : (m.write a n v).wf = true := wf_writeBytes m a _ h

theorem wf_reset : State.reset.lmem.wf = true := rfl

/-- A write lists an address of its region, or one that was listed. -/
theorem mem_writeBytes (m : Memory) (a : Nat) (bs : List Byte) (c : Host.Cell) (h : c ∈ m.writeBytes a bs) :
    (a ≤ c.1 ∧ c.1 < a + bs.length) ∨ c ∈ m := by
  unfold Memory.writeBytes at h
  rcases List.mem_append.mp h with h | h
  · rcases List.mem_append.mp h with h | h
    · exact .inr (List.mem_filter.mp h).1
    · exact .inl (mem_cellsAt bs a c h)
  · exact .inr (List.mem_filter.mp h).1

/-! Little-endian numbers -/

@[simp] theorem length_leBytes (n v : Nat) : (leBytes n v).length = n := by
  induction n generalizing v with
  | zero => rfl
  | succ n ih => simp [leBytes, ih]

/-- Reading back the bytes of a number gives it modulo 2^(8n). -/
theorem leNat_leBytes (n v : Nat) : leNat (leBytes n v) = v % 256 ^ n := by
  induction n generalizing v with
  | zero => simp [leBytes, leNat, Nat.mod_one]
  | succ n ih =>
    have h := Nat.mod_mul (x := v) (a := 256) (b := 256 ^ n)
    rw [leBytes, leNat, ih, BitVec.toNat_ofNat, pow_succ' 256 n]
    omega

/-- A number read back where it was written. -/
theorem read_write (m : Memory) (a n v : Nat) : (m.write a n v).read a n = .ok (v % 256 ^ n) := by
  have h := readBytes_writeBytes m a (leBytes n v)
  rw [length_leBytes] at h
  rw [Memory.read, Memory.write, h]
  simp only [leNat_leBytes]

@[simp] theorem length_symbolBytes (v : Symbol) : (symbolBytes v).length = 2 := length_leBytes ..
@[simp] theorem length_wordBytes (v : Word) : (wordBytes v).length = 4 := length_leBytes ..
@[simp] theorem length_sampleBytes (x : Sample) : (sampleBytes x).length = 8 := by simp [sampleBytes]

end Sys2Proof.Machine
end

