-- ==== Sys2Proof/Laws/Operands.lean ====
section
/-! SUPPORT. What loading and storing arrays of elements do. -/

namespace Sys2Proof.Machine

/-- Entry `i`, byte `j` of elements of `k` bytes each, laid out one after the other. -/
theorem getElem?_flatMap_uniform {α : Type} (f : α → List Byte) (k : Nat) (hf : ∀ x, (f x).length = k)
    (xs : List α) (i j : Nat) (hj : j < k) :
    (xs.flatMap f)[k * i + j]? = xs[i]?.bind fun x => (f x)[j]? := by
  induction xs generalizing i with
  | nil => simp
  | cons x xs ih =>
    rw [List.flatMap_cons]
    cases i with
    | zero => rw [List.getElem?_append_left (by simp [hf, hj])]; simp
    | succ i =>
      rw [List.getElem?_append_right (by rw [hf, Nat.mul_succ]; omega), hf,
        show k * (i + 1) + j - k = k * i + j by rw [Nat.mul_succ]; omega, ih]
      simp

theorem length_flatMap_uniform {α : Type} (f : α → List Byte) (k : Nat) (hf : ∀ x, (f x).length = k) (xs : List α) :
    (xs.flatMap f).length = k * xs.length := by
  induction xs with
  | nil => simp
  | cons x xs ih => rw [List.flatMap_cons, List.length_append, hf, ih, List.length_cons, Nat.mul_succ, Nat.add_comm]

/-- Element `i` of a stored array reads back as its bytes. -/
theorem readBytes_store {α : Type} (f : α → List Byte) (k : Nat) (hf : ∀ x, (f x).length = k) (m : Memory) (a : Nat)
    (xs : List α) (i : Nat) (hi : i < xs.length) :
    (m.writeBytes a (xs.flatMap f)).readBytes (a + k * i) k = .ok (f xs[i]) := by
  have hle : k * i + k ≤ k * xs.length := by
    rw [← Nat.mul_succ]; exact Nat.mul_le_mul_left k hi
  refine (readBytes_eq_ok ..).mpr ⟨hf _, fun j hj => ?_⟩
  rw [readByte_writeBytes, length_flatMap_uniform f k hf, if_pos (by omega),
    show a + k * i + j - a = k * i + j by omega, getElem?_flatMap_uniform f k hf xs i j hj,
    List.getElem?_eq_getElem hi]
  rfl

/-- A numeric read succeeds where every byte has been written. -/
theorem read_of_written (m : Memory) (a n : Nat) (h : ∀ i < n, (m.readByte (a + i)).isSome) :
    ∃ v, m.read a n = .ok v := by
  obtain ⟨bs, hb⟩ := readBytes_of_written m a n h
  exact ⟨leNat bs, by rw [Memory.read, hb]⟩

/-- What a successful load of symbols gives. -/
theorem loadU16s_ok (m : Memory) (a n : Nat) (vs : List Symbol) (h : loadU16s m a n = .ok vs) :
    vs.length = n ∧ ∀ i < n, ∃ v, m.read (a + 2 * i) 2 = .ok v ∧ vs[i]? = some (BitVec.ofNat 16 v) := by
  induction n generalizing a vs with
  | zero => rw [loadU16s] at h; cases h; simp
  | succ n ih =>
    rw [loadU16s] at h
    split at h
    · cases h
    · rename_i v hv
      split at h
      · cases h
      · rename_i rest hr
        cases h
        obtain ⟨hl, hi⟩ := ih (a + 2) rest hr
        refine ⟨by simp [hl], fun i hi' => ?_⟩
        cases i with
        | zero => exact ⟨v, by simpa using hv, by simp⟩
        | succ i =>
          obtain ⟨w, hw, hg⟩ := hi i (by omega)
          exact ⟨w, by rw [← hw]; congr 1; omega, by simpa using hg⟩

/-- A load of symbols succeeds where every byte has been written. -/
theorem loadU16s_of_written (m : Memory) (a n : Nat) (h : ∀ i < 2 * n, (m.readByte (a + i)).isSome) :
    ∃ vs, loadU16s m a n = .ok vs := by
  induction n generalizing a with
  | zero => exact ⟨[], rfl⟩
  | succ n ih =>
    obtain ⟨v, hv⟩ := read_of_written m a 2 fun i hi => h i (by omega)
    obtain ⟨vs, hvs⟩ := ih (a + 2) fun i hi => by
      have := h (i + 2) (by omega)
      rwa [show a + (i + 2) = a + 2 + i by omega] at this
    exact ⟨BitVec.ofNat 16 v :: vs, by rw [loadU16s, hv, hvs]⟩

/-- A load of symbols can only fault, on a byte of its region that was never written. -/
theorem loadU16s_fault (m : Memory) (a n : Nat) (f : Fault) (h : loadU16s m a n = .error f) :
    ∃ i < 2 * n, f = .unwrittenByte (a + i) ∧ m.readByte (a + i) = none := by
  induction n generalizing a with
  | zero => cases h
  | succ n ih =>
    rw [loadU16s] at h
    split at h
    · rename_i f' hf
      cases h
      rw [Memory.read] at hf
      split at hf
      · rename_i g hg
        cases hf
        obtain ⟨i, hi, e⟩ := readBytes_fault m a 2 _ hg
        exact ⟨i, by omega, e⟩
      · cases hf
    · split at h
      · rename_i f' hf
        cases h
        obtain ⟨i, hi, e, hn⟩ := ih (a + 2) hf
        exact ⟨i + 2, by omega, by rw [e]; congr 1; omega, by rw [← hn]; congr 1; omega⟩
      · cases h

/-- What a successful load of one sample gives. -/
theorem loadSample_ok (m : Memory) (a : Nat) (x : Sample) (h : loadSample m a = .ok x) :
    ∃ i q, m.read a 4 = .ok i ∧ m.read (a + 4) 4 = .ok q ∧ x = ⟨BitVec.ofNat 32 i, BitVec.ofNat 32 q⟩ := by
  rw [loadSample] at h
  split at h
  · cases h
  · rename_i i hi
    split at h
    · cases h
    · rename_i q hq
      cases h
      exact ⟨i, q, hi, hq, rfl⟩

/-- What a successful load of samples gives. -/
theorem loadSamples_ok (m : Memory) (a n : Nat) (xs : List Sample) (h : loadSamples m a n = .ok xs) :
    xs.length = n ∧ ∀ i < n, ∃ x, loadSample m (a + 8 * i) = .ok x ∧ xs[i]? = some x := by
  induction n generalizing a xs with
  | zero => rw [loadSamples] at h; cases h; simp
  | succ n ih =>
    rw [loadSamples] at h
    split at h
    · cases h
    · rename_i x hx
      split at h
      · cases h
      · rename_i rest hr
        cases h
        obtain ⟨hl, hi⟩ := ih (a + 8) rest hr
        refine ⟨by simp [hl], fun i hi' => ?_⟩
        cases i with
        | zero => exact ⟨x, by simpa using hx, by simp⟩
        | succ i =>
          obtain ⟨w, hw, hg⟩ := hi i (by omega)
          exact ⟨w, by rw [← hw]; congr 1; omega, by simpa using hg⟩

/-- A load of samples succeeds where every byte has been written. -/
theorem loadSamples_of_written (m : Memory) (a n : Nat) (h : ∀ i < 8 * n, (m.readByte (a + i)).isSome) :
    ∃ xs, loadSamples m a n = .ok xs := by
  induction n generalizing a with
  | zero => exact ⟨[], rfl⟩
  | succ n ih =>
    obtain ⟨v, hv⟩ := read_of_written m a 4 fun i hi => h i (by omega)
    obtain ⟨q, hq⟩ := read_of_written m (a + 4) 4 fun i hi => by
      have := h (i + 4) (by omega)
      rwa [show a + (i + 4) = a + 4 + i by omega] at this
    obtain ⟨xs, hxs⟩ := ih (a + 8) fun i hi => by
      have := h (i + 8) (by omega)
      rwa [show a + (i + 8) = a + 8 + i by omega] at this
    exact ⟨⟨BitVec.ofNat 32 v, BitVec.ofNat 32 q⟩ :: xs, by simp only [loadSamples, loadSample, hv, hq, hxs]⟩

/-- A numeric read can only fault, on a byte of its region that was never written. -/
theorem read_fault (m : Memory) (a n : Nat) (f : Fault) (h : m.read a n = .error f) :
    ∃ i < n, f = .unwrittenByte (a + i) ∧ m.readByte (a + i) = none := by
  rw [Memory.read] at h
  split at h
  · rename_i g hg; cases h; exact readBytes_fault m a n _ hg
  · cases h

/-- A load of samples can only fault, on a byte of its region that was never written. -/
theorem loadSamples_fault (m : Memory) (a n : Nat) (f : Fault) (h : loadSamples m a n = .error f) :
    ∃ i < 8 * n, f = .unwrittenByte (a + i) ∧ m.readByte (a + i) = none := by
  induction n generalizing a with
  | zero => cases h
  | succ n ih =>
    rw [loadSamples] at h
    split at h
    · rename_i f' hf
      cases h
      rw [loadSample] at hf
      split at hf
      · rename_i g hg
        cases hf
        obtain ⟨i, hi, e⟩ := read_fault m a 4 _ hg
        exact ⟨i, by omega, e⟩
      · split at hf
        · rename_i g hg
          cases hf
          obtain ⟨i, hi, e, hn⟩ := read_fault m (a + 4) 4 _ hg
          exact ⟨i + 4, by omega, by rw [e]; congr 1; omega, by rw [← hn]; congr 1; omega⟩
        · cases hf
    · split at h
      · rename_i f' hf
        cases h
        obtain ⟨i, hi, e, hn⟩ := ih (a + 8) hf
        exact ⟨i + 8, by omega, by rw [e]; congr 1; omega, by rw [← hn]; congr 1; omega⟩
      · cases h

end Sys2Proof.Machine
end

