-- ==== Sys2Proof/Laws/State.lean ====
section
/-! SUPPORT. What each update of the state does to each field. -/

namespace Sys2Proof.Machine

/-! `raise` -/

@[simp] theorem raise_mode (e : ErrCode) (s : State) : (raise e s).mode = .idle := rfl
@[simp] theorem raise_ie (e : ErrCode) (s : State) : (raise e s).ie = s.ie := rfl
@[simp] theorem raise_done (e : ErrCode) (s : State) : (raise e s).done = s.done := rfl
@[simp] theorem raise_err (e : ErrCode) (s : State) : (raise e s).err = true := rfl
@[simp] theorem raise_errCode (e : ErrCode) (s : State) : (raise e s).errCode = e := rfl
@[simp] theorem raise_cpc (e : ErrCode) (s : State) : (raise e s).cpc = s.cpc := rfl
@[simp] theorem raise_errPc (e : ErrCode) (s : State) : (raise e s).errPc = s.cpc := rfl
@[simp] theorem raise_cfg (e : ErrCode) (s : State) : (raise e s).cfg = s.cfg := rfl
@[simp] theorem raise_ampl (e : ErrCode) (s : State) : (raise e s).ampl = s.ampl := rfl
@[simp] theorem raise_phase (e : ErrCode) (s : State) : (raise e s).phase = s.phase := rfl
@[simp] theorem raise_det (e : ErrCode) (s : State) : (raise e s).det = s.det := rfl
@[simp] theorem raise_ferr (e : ErrCode) (s : State) : (raise e s).ferr = s.ferr := rfl
@[simp] theorem raise_fbad (e : ErrCode) (s : State) : (raise e s).fbad = s.fbad := rfl
@[simp] theorem raise_wh (e : ErrCode) (s : State) : (raise e s).wh = s.wh := rfl
@[simp] theorem raise_lmem (e : ErrCode) (s : State) : (raise e s).lmem = s.lmem := rfl
@[simp] theorem raise_params (e : ErrCode) (s : State) : (raise e s).params = s.params := rfl
@[simp] theorem raise_turns (e : ErrCode) (s : State) : (raise e s).turns = s.turns := rfl
@[simp] theorem raise_hostData (e : ErrCode) (s : State) : (raise e s).hostData = s.hostData := rfl
@[simp] theorem raise_aborts (e : ErrCode) (s : State) : (raise e s).aborts = s.aborts := rfl

/-! `clearError` -/

@[simp] theorem clearError_mode (s : State) : (clearError s).mode = s.mode := rfl
@[simp] theorem clearError_ie (s : State) : (clearError s).ie = s.ie := rfl
@[simp] theorem clearError_done (s : State) : (clearError s).done = s.done := rfl
@[simp] theorem clearError_err (s : State) : (clearError s).err = false := rfl
@[simp] theorem clearError_errCode (s : State) : (clearError s).errCode = .none := rfl
@[simp] theorem clearError_cpc (s : State) : (clearError s).cpc = s.cpc := rfl
@[simp] theorem clearError_errPc (s : State) : (clearError s).errPc = s.errPc := rfl
@[simp] theorem clearError_cfg (s : State) : (clearError s).cfg = s.cfg := rfl
@[simp] theorem clearError_ampl (s : State) : (clearError s).ampl = s.ampl := rfl
@[simp] theorem clearError_phase (s : State) : (clearError s).phase = s.phase := rfl
@[simp] theorem clearError_det (s : State) : (clearError s).det = s.det := rfl
@[simp] theorem clearError_ferr (s : State) : (clearError s).ferr = s.ferr := rfl
@[simp] theorem clearError_fbad (s : State) : (clearError s).fbad = s.fbad := rfl
@[simp] theorem clearError_wh (s : State) : (clearError s).wh = s.wh := rfl
@[simp] theorem clearError_lmem (s : State) : (clearError s).lmem = s.lmem := rfl
@[simp] theorem clearError_params (s : State) : (clearError s).params = s.params := rfl
@[simp] theorem clearError_turns (s : State) : (clearError s).turns = s.turns := rfl
@[simp] theorem clearError_hostData (s : State) : (clearError s).hostData = s.hostData := rfl
@[simp] theorem clearError_aborts (s : State) : (clearError s).aborts = s.aborts := rfl

/-! `acceptGo` -/

@[simp] theorem acceptGo_mode (s : State) : (acceptGo s).mode = .run := rfl
@[simp] theorem acceptGo_ie (s : State) : (acceptGo s).ie = s.ie := rfl
@[simp] theorem acceptGo_done (s : State) : (acceptGo s).done = false := rfl
@[simp] theorem acceptGo_err (s : State) : (acceptGo s).err = s.err := rfl
@[simp] theorem acceptGo_errCode (s : State) : (acceptGo s).errCode = s.errCode := rfl
@[simp] theorem acceptGo_cpc (s : State) : (acceptGo s).cpc = s.cpc := rfl
@[simp] theorem acceptGo_errPc (s : State) : (acceptGo s).errPc = s.errPc := rfl
@[simp] theorem acceptGo_cfg (s : State) : (acceptGo s).cfg = s.cfg := rfl
@[simp] theorem acceptGo_ampl (s : State) : (acceptGo s).ampl = s.ampl := rfl
@[simp] theorem acceptGo_phase (s : State) : (acceptGo s).phase = s.phase := rfl
@[simp] theorem acceptGo_det (s : State) : (acceptGo s).det = s.det := rfl
@[simp] theorem acceptGo_ferr (s : State) : (acceptGo s).ferr = s.ferr := rfl
@[simp] theorem acceptGo_fbad (s : State) : (acceptGo s).fbad = s.fbad := rfl
@[simp] theorem acceptGo_wh (s : State) : (acceptGo s).wh = s.wh := rfl
@[simp] theorem acceptGo_lmem (s : State) : (acceptGo s).lmem = s.lmem := rfl
@[simp] theorem acceptGo_params (s : State) : (acceptGo s).params = s.params := rfl
@[simp] theorem acceptGo_turns (s : State) : (acceptGo s).turns = s.turns := rfl
@[simp] theorem acceptGo_hostData (s : State) : (acceptGo s).hostData = s.hostData := rfl
@[simp] theorem acceptGo_aborts (s : State) : (acceptGo s).aborts = s.aborts := rfl

/-! `advance` -/

@[simp] theorem advance_mode (n : Nat) (s : State) : (advance n s).mode = s.mode := rfl
@[simp] theorem advance_ie (n : Nat) (s : State) : (advance n s).ie = s.ie := rfl
@[simp] theorem advance_done (n : Nat) (s : State) : (advance n s).done = s.done := rfl
@[simp] theorem advance_err (n : Nat) (s : State) : (advance n s).err = s.err := rfl
@[simp] theorem advance_errCode (n : Nat) (s : State) : (advance n s).errCode = s.errCode := rfl
@[simp] theorem advance_cpc (n : Nat) (s : State) : (advance n s).cpc = s.cpc + BitVec.ofNat 32 (4 * n) := rfl
@[simp] theorem advance_errPc (n : Nat) (s : State) : (advance n s).errPc = s.errPc := rfl
@[simp] theorem advance_cfg (n : Nat) (s : State) : (advance n s).cfg = s.cfg := rfl
@[simp] theorem advance_ampl (n : Nat) (s : State) : (advance n s).ampl = s.ampl := rfl
@[simp] theorem advance_phase (n : Nat) (s : State) : (advance n s).phase = s.phase := rfl
@[simp] theorem advance_det (n : Nat) (s : State) : (advance n s).det = s.det := rfl
@[simp] theorem advance_ferr (n : Nat) (s : State) : (advance n s).ferr = s.ferr := rfl
@[simp] theorem advance_fbad (n : Nat) (s : State) : (advance n s).fbad = s.fbad := rfl
@[simp] theorem advance_wh (n : Nat) (s : State) : (advance n s).wh = s.wh := rfl
@[simp] theorem advance_lmem (n : Nat) (s : State) : (advance n s).lmem = s.lmem := rfl
@[simp] theorem advance_params (n : Nat) (s : State) : (advance n s).params = s.params := rfl
@[simp] theorem advance_turns (n : Nat) (s : State) : (advance n s).turns = s.turns := rfl
@[simp] theorem advance_hostData (n : Nat) (s : State) : (advance n s).hostData = s.hostData := rfl
@[simp] theorem advance_aborts (n : Nat) (s : State) : (advance n s).aborts = s.aborts := rfl

/-! `storeU8s` -/

@[simp] theorem storeU8s_mode (a : Nat) (vs : List Byte) (s : State) : (storeU8s a vs s).mode = s.mode := rfl
@[simp] theorem storeU8s_ie (a : Nat) (vs : List Byte) (s : State) : (storeU8s a vs s).ie = s.ie := rfl
@[simp] theorem storeU8s_done (a : Nat) (vs : List Byte) (s : State) : (storeU8s a vs s).done = s.done := rfl
@[simp] theorem storeU8s_err (a : Nat) (vs : List Byte) (s : State) : (storeU8s a vs s).err = s.err := rfl
@[simp] theorem storeU8s_errCode (a : Nat) (vs : List Byte) (s : State) : (storeU8s a vs s).errCode = s.errCode := rfl
@[simp] theorem storeU8s_cpc (a : Nat) (vs : List Byte) (s : State) : (storeU8s a vs s).cpc = s.cpc := rfl
@[simp] theorem storeU8s_errPc (a : Nat) (vs : List Byte) (s : State) : (storeU8s a vs s).errPc = s.errPc := rfl
@[simp] theorem storeU8s_cfg (a : Nat) (vs : List Byte) (s : State) : (storeU8s a vs s).cfg = s.cfg := rfl
@[simp] theorem storeU8s_ampl (a : Nat) (vs : List Byte) (s : State) : (storeU8s a vs s).ampl = s.ampl := rfl
@[simp] theorem storeU8s_phase (a : Nat) (vs : List Byte) (s : State) : (storeU8s a vs s).phase = s.phase := rfl
@[simp] theorem storeU8s_det (a : Nat) (vs : List Byte) (s : State) : (storeU8s a vs s).det = s.det := rfl
@[simp] theorem storeU8s_ferr (a : Nat) (vs : List Byte) (s : State) : (storeU8s a vs s).ferr = s.ferr := rfl
@[simp] theorem storeU8s_fbad (a : Nat) (vs : List Byte) (s : State) : (storeU8s a vs s).fbad = s.fbad := rfl
@[simp] theorem storeU8s_wh (a : Nat) (vs : List Byte) (s : State) : (storeU8s a vs s).wh = s.wh := rfl
@[simp] theorem storeU8s_lmem (a : Nat) (vs : List Byte) (s : State) : (storeU8s a vs s).lmem = s.lmem.writeBytes a vs := rfl
@[simp] theorem storeU8s_params (a : Nat) (vs : List Byte) (s : State) : (storeU8s a vs s).params = s.params := rfl
@[simp] theorem storeU8s_turns (a : Nat) (vs : List Byte) (s : State) : (storeU8s a vs s).turns = s.turns := rfl
@[simp] theorem storeU8s_hostData (a : Nat) (vs : List Byte) (s : State) : (storeU8s a vs s).hostData = s.hostData := rfl
@[simp] theorem storeU8s_aborts (a : Nat) (vs : List Byte) (s : State) : (storeU8s a vs s).aborts = s.aborts := rfl

/-! `storeU16s` -/

@[simp] theorem storeU16s_mode (a : Nat) (vs : List Symbol) (s : State) : (storeU16s a vs s).mode = s.mode := rfl
@[simp] theorem storeU16s_ie (a : Nat) (vs : List Symbol) (s : State) : (storeU16s a vs s).ie = s.ie := rfl
@[simp] theorem storeU16s_done (a : Nat) (vs : List Symbol) (s : State) : (storeU16s a vs s).done = s.done := rfl
@[simp] theorem storeU16s_err (a : Nat) (vs : List Symbol) (s : State) : (storeU16s a vs s).err = s.err := rfl
@[simp] theorem storeU16s_errCode (a : Nat) (vs : List Symbol) (s : State) : (storeU16s a vs s).errCode = s.errCode := rfl
@[simp] theorem storeU16s_cpc (a : Nat) (vs : List Symbol) (s : State) : (storeU16s a vs s).cpc = s.cpc := rfl
@[simp] theorem storeU16s_errPc (a : Nat) (vs : List Symbol) (s : State) : (storeU16s a vs s).errPc = s.errPc := rfl
@[simp] theorem storeU16s_cfg (a : Nat) (vs : List Symbol) (s : State) : (storeU16s a vs s).cfg = s.cfg := rfl
@[simp] theorem storeU16s_ampl (a : Nat) (vs : List Symbol) (s : State) : (storeU16s a vs s).ampl = s.ampl := rfl
@[simp] theorem storeU16s_phase (a : Nat) (vs : List Symbol) (s : State) : (storeU16s a vs s).phase = s.phase := rfl
@[simp] theorem storeU16s_det (a : Nat) (vs : List Symbol) (s : State) : (storeU16s a vs s).det = s.det := rfl
@[simp] theorem storeU16s_ferr (a : Nat) (vs : List Symbol) (s : State) : (storeU16s a vs s).ferr = s.ferr := rfl
@[simp] theorem storeU16s_fbad (a : Nat) (vs : List Symbol) (s : State) : (storeU16s a vs s).fbad = s.fbad := rfl
@[simp] theorem storeU16s_wh (a : Nat) (vs : List Symbol) (s : State) : (storeU16s a vs s).wh = s.wh := rfl
@[simp] theorem storeU16s_lmem (a : Nat) (vs : List Symbol) (s : State) : (storeU16s a vs s).lmem = s.lmem.writeBytes a (vs.flatMap symbolBytes) := rfl
@[simp] theorem storeU16s_params (a : Nat) (vs : List Symbol) (s : State) : (storeU16s a vs s).params = s.params := rfl
@[simp] theorem storeU16s_turns (a : Nat) (vs : List Symbol) (s : State) : (storeU16s a vs s).turns = s.turns := rfl
@[simp] theorem storeU16s_hostData (a : Nat) (vs : List Symbol) (s : State) : (storeU16s a vs s).hostData = s.hostData := rfl
@[simp] theorem storeU16s_aborts (a : Nat) (vs : List Symbol) (s : State) : (storeU16s a vs s).aborts = s.aborts := rfl

/-! `storeSamples` -/

@[simp] theorem storeSamples_mode (a : Nat) (xs : List Sample) (s : State) : (storeSamples a xs s).mode = s.mode := rfl
@[simp] theorem storeSamples_ie (a : Nat) (xs : List Sample) (s : State) : (storeSamples a xs s).ie = s.ie := rfl
@[simp] theorem storeSamples_done (a : Nat) (xs : List Sample) (s : State) : (storeSamples a xs s).done = s.done := rfl
@[simp] theorem storeSamples_err (a : Nat) (xs : List Sample) (s : State) : (storeSamples a xs s).err = s.err := rfl
@[simp] theorem storeSamples_errCode (a : Nat) (xs : List Sample) (s : State) : (storeSamples a xs s).errCode = s.errCode := rfl
@[simp] theorem storeSamples_cpc (a : Nat) (xs : List Sample) (s : State) : (storeSamples a xs s).cpc = s.cpc := rfl
@[simp] theorem storeSamples_errPc (a : Nat) (xs : List Sample) (s : State) : (storeSamples a xs s).errPc = s.errPc := rfl
@[simp] theorem storeSamples_cfg (a : Nat) (xs : List Sample) (s : State) : (storeSamples a xs s).cfg = s.cfg := rfl
@[simp] theorem storeSamples_ampl (a : Nat) (xs : List Sample) (s : State) : (storeSamples a xs s).ampl = s.ampl := rfl
@[simp] theorem storeSamples_phase (a : Nat) (xs : List Sample) (s : State) : (storeSamples a xs s).phase = s.phase := rfl
@[simp] theorem storeSamples_det (a : Nat) (xs : List Sample) (s : State) : (storeSamples a xs s).det = s.det := rfl
@[simp] theorem storeSamples_ferr (a : Nat) (xs : List Sample) (s : State) : (storeSamples a xs s).ferr = s.ferr := rfl
@[simp] theorem storeSamples_fbad (a : Nat) (xs : List Sample) (s : State) : (storeSamples a xs s).fbad = s.fbad := rfl
@[simp] theorem storeSamples_wh (a : Nat) (xs : List Sample) (s : State) : (storeSamples a xs s).wh = s.wh := rfl
@[simp] theorem storeSamples_lmem (a : Nat) (xs : List Sample) (s : State) : (storeSamples a xs s).lmem = s.lmem.writeBytes a (xs.flatMap sampleBytes) := rfl
@[simp] theorem storeSamples_params (a : Nat) (xs : List Sample) (s : State) : (storeSamples a xs s).params = s.params := rfl
@[simp] theorem storeSamples_turns (a : Nat) (xs : List Sample) (s : State) : (storeSamples a xs s).turns = s.turns := rfl
@[simp] theorem storeSamples_hostData (a : Nat) (xs : List Sample) (s : State) : (storeSamples a xs s).hostData = s.hostData := rfl
@[simp] theorem storeSamples_aborts (a : Nat) (xs : List Sample) (s : State) : (storeSamples a xs s).aborts = s.aborts := rfl

/-! `countOutcomes` -/

@[simp] theorem countOutcomes_mode (xs : List Nibble) (s : State) : (countOutcomes xs s).mode = s.mode := rfl
@[simp] theorem countOutcomes_ie (xs : List Nibble) (s : State) : (countOutcomes xs s).ie = s.ie := rfl
@[simp] theorem countOutcomes_done (xs : List Nibble) (s : State) : (countOutcomes xs s).done = s.done := rfl
@[simp] theorem countOutcomes_err (xs : List Nibble) (s : State) : (countOutcomes xs s).err = s.err := rfl
@[simp] theorem countOutcomes_errCode (xs : List Nibble) (s : State) : (countOutcomes xs s).errCode = s.errCode := rfl
@[simp] theorem countOutcomes_cpc (xs : List Nibble) (s : State) : (countOutcomes xs s).cpc = s.cpc := rfl
@[simp] theorem countOutcomes_errPc (xs : List Nibble) (s : State) : (countOutcomes xs s).errPc = s.errPc := rfl
@[simp] theorem countOutcomes_cfg (xs : List Nibble) (s : State) : (countOutcomes xs s).cfg = s.cfg := rfl
@[simp] theorem countOutcomes_ampl (xs : List Nibble) (s : State) : (countOutcomes xs s).ampl = s.ampl := rfl
@[simp] theorem countOutcomes_phase (xs : List Nibble) (s : State) : (countOutcomes xs s).phase = s.phase := rfl
@[simp] theorem countOutcomes_det (xs : List Nibble) (s : State) : (countOutcomes xs s).det = s.det := rfl
@[simp] theorem countOutcomes_ferr (xs : List Nibble) (s : State) : (countOutcomes xs s).ferr = satAdd s.ferr (xs.countP (·.error)) := rfl
@[simp] theorem countOutcomes_fbad (xs : List Nibble) (s : State) : (countOutcomes xs s).fbad = satAdd s.fbad (xs.countP (·.bad)) := rfl
@[simp] theorem countOutcomes_wh (xs : List Nibble) (s : State) : (countOutcomes xs s).wh = s.wh := rfl
@[simp] theorem countOutcomes_lmem (xs : List Nibble) (s : State) : (countOutcomes xs s).lmem = s.lmem := rfl
@[simp] theorem countOutcomes_params (xs : List Nibble) (s : State) : (countOutcomes xs s).params = s.params := rfl
@[simp] theorem countOutcomes_turns (xs : List Nibble) (s : State) : (countOutcomes xs s).turns = s.turns := rfl
@[simp] theorem countOutcomes_hostData (xs : List Nibble) (s : State) : (countOutcomes xs s).hostData = s.hostData := rfl
@[simp] theorem countOutcomes_aborts (xs : List Nibble) (s : State) : (countOutcomes xs s).aborts = s.aborts := rfl

/-! `softReset` -/

@[simp] theorem softReset_mode (s : State) : (softReset s).mode = State.reset.mode := rfl
@[simp] theorem softReset_ie (s : State) : (softReset s).ie = State.reset.ie := rfl
@[simp] theorem softReset_done (s : State) : (softReset s).done = State.reset.done := rfl
@[simp] theorem softReset_err (s : State) : (softReset s).err = State.reset.err := rfl
@[simp] theorem softReset_errCode (s : State) : (softReset s).errCode = State.reset.errCode := rfl
@[simp] theorem softReset_cpc (s : State) : (softReset s).cpc = State.reset.cpc := rfl
@[simp] theorem softReset_errPc (s : State) : (softReset s).errPc = State.reset.errPc := rfl
@[simp] theorem softReset_cfg (s : State) : (softReset s).cfg = State.reset.cfg := rfl
@[simp] theorem softReset_ampl (s : State) : (softReset s).ampl = State.reset.ampl := rfl
@[simp] theorem softReset_phase (s : State) : (softReset s).phase = State.reset.phase := rfl
@[simp] theorem softReset_det (s : State) : (softReset s).det = State.reset.det := rfl
@[simp] theorem softReset_ferr (s : State) : (softReset s).ferr = State.reset.ferr := rfl
@[simp] theorem softReset_fbad (s : State) : (softReset s).fbad = State.reset.fbad := rfl
@[simp] theorem softReset_wh (s : State) : (softReset s).wh = State.reset.wh := rfl
@[simp] theorem softReset_lmem (s : State) : (softReset s).lmem = s.lmem := rfl
@[simp] theorem softReset_params (s : State) : (softReset s).params = s.params := rfl
@[simp] theorem softReset_turns (s : State) : (softReset s).turns = s.turns := rfl
@[simp] theorem softReset_hostData (s : State) : (softReset s).hostData = s.hostData := rfl
@[simp] theorem softReset_aborts (s : State) : (softReset s).aborts = s.aborts := rfl

/-! `hardwareReset` -/

@[simp] theorem hardwareReset_mode (s : State) : (hardwareReset s).mode = State.reset.mode := rfl
@[simp] theorem hardwareReset_ie (s : State) : (hardwareReset s).ie = State.reset.ie := rfl
@[simp] theorem hardwareReset_done (s : State) : (hardwareReset s).done = State.reset.done := rfl
@[simp] theorem hardwareReset_err (s : State) : (hardwareReset s).err = State.reset.err := rfl
@[simp] theorem hardwareReset_errCode (s : State) : (hardwareReset s).errCode = State.reset.errCode := rfl
@[simp] theorem hardwareReset_cpc (s : State) : (hardwareReset s).cpc = State.reset.cpc := rfl
@[simp] theorem hardwareReset_errPc (s : State) : (hardwareReset s).errPc = State.reset.errPc := rfl
@[simp] theorem hardwareReset_cfg (s : State) : (hardwareReset s).cfg = State.reset.cfg := rfl
@[simp] theorem hardwareReset_ampl (s : State) : (hardwareReset s).ampl = State.reset.ampl := rfl
@[simp] theorem hardwareReset_phase (s : State) : (hardwareReset s).phase = State.reset.phase := rfl
@[simp] theorem hardwareReset_det (s : State) : (hardwareReset s).det = State.reset.det := rfl
@[simp] theorem hardwareReset_ferr (s : State) : (hardwareReset s).ferr = State.reset.ferr := rfl
@[simp] theorem hardwareReset_fbad (s : State) : (hardwareReset s).fbad = State.reset.fbad := rfl
@[simp] theorem hardwareReset_wh (s : State) : (hardwareReset s).wh = State.reset.wh := rfl
@[simp] theorem hardwareReset_lmem (s : State) : (hardwareReset s).lmem = [] := rfl
@[simp] theorem hardwareReset_params (s : State) : (hardwareReset s).params = s.params := rfl
@[simp] theorem hardwareReset_turns (s : State) : (hardwareReset s).turns = s.turns := rfl
@[simp] theorem hardwareReset_hostData (s : State) : (hardwareReset s).hostData = s.hostData := rfl
@[simp] theorem hardwareReset_aborts (s : State) : (hardwareReset s).aborts = s.aborts := rfl

end Sys2Proof.Machine
end

