-- ==== Sys2Proof/Laws/Commands.lean ====
section
/-! SUPPORT. What a command's rule, a fetch, a turn and a step can answer: cite these instead of unfolding. -/

namespace Sys2Proof.Machine

@[simp] theorem firstFailure_nil : firstFailure [] = none := rfl

theorem firstFailure_cons (c : Check) (cs : List Check) :
    firstFailure (c :: cs) = if c.holds then firstFailure cs else some c.err := rfl

/-- The check phase passes exactly where every check holds. -/
theorem firstFailure_eq_none (cs : List Check) : firstFailure cs = none ↔ ∀ c ∈ cs, c.holds = true := by
  induction cs with
  | nil => simp
  | cons c cs ih =>
    rw [firstFailure_cons]
    by_cases h : c.holds <;> simp [h, ih]

/-- An error is that of a check which fails, and before which every check holds. -/
theorem firstFailure_eq_some (cs : List Check) (e : ErrCode) :
    firstFailure cs = some e ↔
      ∃ pre c post, cs = pre ++ c :: post ∧ (∀ d ∈ pre, d.holds = true) ∧ c.holds = false ∧ c.err = e := by
  induction cs with
  | nil => simp
  | cons c cs ih =>
    rw [firstFailure_cons]
    by_cases h : c.holds
    · rw [if_pos h, ih]
      constructor
      · rintro ⟨pre, d, post, rfl, hp, hd, he⟩
        exact ⟨c :: pre, d, post, rfl, by simpa [h] using hp, hd, he⟩
      · rintro ⟨pre, d, post, hs, hp, hd, he⟩
        cases pre with
        | nil => simp only [List.nil_append, List.cons.injEq] at hs; rw [← hs.1, h] at hd; cases hd
        | cons x pre =>
          simp only [List.cons_append, List.cons.injEq] at hs
          exact ⟨pre, d, post, hs.2, fun y hy => hp y (by simp [hy]), hd, he⟩
    · rw [if_neg h]
      constructor
      · intro he
        exact ⟨[], c, cs, rfl, by simp, by simpa using h, by simpa using he⟩
      · rintro ⟨pre, d, post, hs, hp, hd, he⟩
        cases pre with
        | nil => simp only [List.nil_append, List.cons.injEq] at hs; rw [hs.1, he]
        | cons x pre =>
          simp only [List.cons_append, List.cons.injEq] at hs
          exact absurd (hs.1 ▸ hp x (by simp)) h

/-- A command that answers a next state has raised the error of its first failing check, or has performed. -/
theorem command_next (len : Nat) (cs : List Check) (perform : State → Except Fault State) (s t : State) :
    command len cs perform s = .next t ↔
      (∃ e, firstFailure cs = some e ∧ t = raise e s) ∨
      (firstFailure cs = none ∧ ∃ u, perform s = .ok u ∧ t = advance len u) := by
  unfold command
  cases firstFailure cs with
  | some e => simp [eq_comm]
  | none => cases perform s <;> simp [eq_comm]

/-- A command faults exactly where its checks pass and its perform phase reads an unwritten byte. -/
theorem command_fault (len : Nat) (cs : List Check) (perform : State → Except Fault State) (s : State) (f : Fault) :
    command len cs perform s = .fault f ↔ firstFailure cs = none ∧ perform s = .error f := by
  unfold command
  cases firstFailure cs with
  | some e => simp
  | none => cases perform s <;> simp

/-- No command is refused. -/
theorem command_not_refused (len : Nat) (cs : List Check) (perform : State → Except Fault State) (s : State)
    (r : Refusal) : command len cs perform s ≠ .refused r := by
  unfold command
  cases firstFailure cs with
  | some e => simp
  | none => cases perform s <;> simp

/-- A command whose checks pass and whose perform phase succeeds completes. -/
theorem command_completes (len : Nat) (cs : List Check) (perform : State → Except Fault State) (s u : State)
    (hc : ∀ c ∈ cs, c.holds = true) (hp : perform s = .ok u) : command len cs perform s = .next (advance len u) := by
  rw [command, (firstFailure_eq_none cs).mpr hc, hp]

/-! Perform phases: a read, then a store of what the read gave. -/

theorem mapSymbols_ok (f : Symbol → Symbol) (dst src count : Nat) (s t : State) :
    mapSymbols f dst src count s = .ok t ↔
      ∃ xs, loadU16s s.lmem src count = .ok xs ∧ t = storeU16s dst (xs.map f) s := by
  unfold mapSymbols
  cases loadU16s s.lmem src count <;> simp [eq_comm]

theorem encodeArray_ok (enc : BitVec 4 → Byte) (dst src count : Nat) (s t : State) :
    encodeArray enc dst src count s = .ok t ↔
      ∃ bs, s.lmem.readBytes src count = .ok bs ∧ t = storeU8s dst (bs.map fun b => enc (b.setWidth 4)) s := by
  unfold encodeArray loadU8s
  cases s.lmem.readBytes src count <;> simp [eq_comm]

theorem decodeArray_ok (dec : Byte → Nibble) (dst src count : Nat) (s t : State) :
    decodeArray dec dst src count s = .ok t ↔
      ∃ bs, s.lmem.readBytes src count = .ok bs ∧
        t = countOutcomes (bs.map dec) (storeU8s dst ((bs.map dec).map Nibble.byte) s) := by
  unfold decodeArray loadU8s
  cases s.lmem.readBytes src count <;> simp [eq_comm]

theorem whitenArray_ok (w : Whitener) (rdd dst src count bitofs : Nat) (s t : State) :
    whitenArray w rdd dst src count bitofs s = .ok t ↔
      ∃ bs, s.lmem.readBytes src count = .ok bs ∧
        t = { storeU8s dst (List.zipWith (fun b k => b ^^^ (k &&& keyMask rdd)) bs ((w.skip bitofs).keys count)) s with
              wh := (w.skip bitofs).after count } := by
  unfold whitenArray loadU8s
  cases s.lmem.readBytes src count <;> simp [eq_comm]

theorem interleaveArray_ok (w p nb dst src : Nat) (s t : State) :
    interleaveArray w p nb dst src s = .ok t ↔
      ∃ cw, s.lmem.readBytes src (nb * p) = .ok cw ∧
        t = storeU16s dst (mapBlocks (interleaveBlock w p) p nb cw) s := by
  unfold interleaveArray loadU8s
  cases s.lmem.readBytes src (nb * p) <;> simp [eq_comm]

theorem deinterleaveArray_ok (w p nb dst src : Nat) (s t : State) :
    deinterleaveArray w p nb dst src s = .ok t ↔
      ∃ sym, loadU16s s.lmem src (nb * w) = .ok sym ∧
        t = storeU8s dst (mapBlocks (deinterleaveBlock w p) w nb sym) s := by
  unfold deinterleaveArray
  cases loadU16s s.lmem src (nb * w) <;> simp [eq_comm]

theorem mixArray_ok (f : Sample → Sample) (dst srca srcb count : Nat) (s t : State) :
    mixArray f dst srca srcb count s = .ok t ↔
      ∃ xs ys, loadSamples s.lmem srca count = .ok xs ∧ loadSamples s.lmem srcb count = .ok ys ∧
        t = storeSamples dst (List.zipWith (fun x y => numCmul s.params.num x (f y)) xs ys) s := by
  unfold mixArray
  cases loadSamples s.lmem srca count <;> cases loadSamples s.lmem srcb count <;> simp [eq_comm]

theorem detectAt_ok (src : Nat) (s t : State) :
    detectAt src s = .ok t ↔
      ∃ xs, loadSamples s.lmem src s.cfg.n = .ok xs ∧ t = { s with det := numDetect s.params.num xs } := by
  unfold detectAt
  cases loadSamples s.lmem src s.cfg.n <;> simp [eq_comm]

theorem detectStore_ok (dst src : Nat) (s t : State) :
    detectStore dst src s = .ok t ↔
      ∃ u, detectAt src s = .ok u ∧ t = storeU8s dst (recordBytes u.det) u := by
  unfold detectStore
  cases detectAt src s <;> simp [eq_comm]

/-- A chirp's perform phase always goes on: one sample per phase, and the last phase in PHASE. -/
theorem chirpArray_ok (d : Direction) (fbin dst len : Nat) (s : State) :
    chirpArray d fbin dst len s = .ok
      { storeSamples dst ((chirpPhases s.cfg d fbin len 0 s.phase.toNat).map fun q =>
          numCis s.params.num s.ampl q s.cfg.u) s with
        phase := BitVec.ofNat 28 (chirpEnd s.cfg d fbin len s.phase.toNat) } := rfl

@[simp] theorem length_keys (n : Nat) (w : Whitener) : (w.keys n).length = n := by
  induction n generalizing w with
  | zero => rfl
  | succ n ih => simp [Whitener.keys, ih]

@[simp] theorem length_chirpPhases (c : Cfg) (d : Direction) (fbin n i p : Nat) :
    (chirpPhases c d fbin n i p).length = n := by
  induction n generalizing i p with
  | zero => rfl
  | succ n ih => simp [chirpPhases, ih]

@[simp] theorem length_interleaveBlock (w p : Nat) (cw : List Byte) : (interleaveBlock w p cw).length = w := by
  simp [interleaveBlock]

@[simp] theorem length_deinterleaveBlock (w p : Nat) (sym : List Symbol) :
    (deinterleaveBlock w p sym).length = p := by
  simp [deinterleaveBlock]

theorem length_mapBlocks {α β : Type} (f : List α → List β) (k size nb : Nat) (hf : ∀ xs, (f xs).length = k)
    (xs : List α) : (mapBlocks f size nb xs).length = nb * k := by
  induction nb generalizing xs with
  | zero => simp [mapBlocks]
  | succ nb ih => rw [mapBlocks, List.length_append, hf, ih, Nat.succ_mul, Nat.add_comm]

@[simp] theorem length_recordBytes (d : Detection) : (recordBytes d).length = 16 := by
  simp [recordBytes]

/-! Fetching, turns and steps -/

/-- A running sequencer raises, faults, or runs the command it fetched. -/
theorem runCommand_cases (s : State) :
    (∃ e, fetch s = .raises e ∧ runCommand s = .next (raise e s)) ∨
    (∃ f, fetch s = .faults f ∧ runCommand s = .fault f) ∨
    (∃ i, fetch s = .command i ∧ runCommand s = exec i s) := by
  unfold runCommand
  cases fetch s with
  | raises e => exact .inl ⟨e, rfl, rfl⟩
  | faults f => exact .inr (.inl ⟨f, rfl, rfl⟩)
  | command i => exact .inr (.inr ⟨i, rfl, rfl⟩)

/-- What a fetch of a command says of the bytes at CPC. -/
theorem fetch_command (s : State) (i : Instr) (h : fetch s = .command i) :
    ∃ w n ws, s.cpc.toNat + 4 ≤ s.params.lmemBytes ∧ s.lmem.read s.cpc.toNat 4 = .ok w ∧ headerLength w = .ok n ∧
      s.cpc.toNat + 4 * n ≤ s.params.lmemBytes ∧ fetchWords s.lmem (s.cpc.toNat + 4) (n - 1) = .ok ws ∧
      decodeWords w ws = .ok i := by
  unfold fetch at h
  split at h
  · cases h
  · rename_i hb
    split at h
    · cases h
    · rename_i w hw
      unfold fetchOperands at h
      split at h
      · cases h
      · rename_i n hn
        split at h
        · cases h
        · rename_i hb'
          split at h
          · cases h
          · rename_i ws hws
            split at h
            · cases h
            · rename_i j hj
              cases h
              exact ⟨w, n, ws, by omega, hw, hn, by omega, hws, hj⟩

@[simp] theorem step_of_no_turns (s : State) (h : s.turns = []) : step s = sequencerMove s := by
  rw [step, h]

/-- What an aborting reset can do. -/
theorem abortingReset_next (s t : State) (h : abortingReset s = .next t) :
    (s.mode = .idle ∧ t = softReset s) ∨
    (s.mode = .run ∧ ∃ u, runCommand s = .next u ∧
      t = { softReset s with lmem := blend s.aborts s.lmem u.lmem, aborts := s.aborts + 1 }) := by
  unfold abortingReset at h
  split at h
  · cases h; exact .inl ⟨‹_›, rfl⟩
  · cases hr : runCommand s <;> rw [hr] at h <;> cases h
    exact .inr ⟨‹_›, _, rfl, rfl⟩

theorem step_of_turn (s : State) (t : Turn) (rest : List Turn) (h : s.turns = t :: rest) :
    step s = takeTurn t { s with turns := rest } := by
  rw [step, h]

@[simp] theorem sequencerMove_idle (s : State) (h : s.mode = .idle) : sequencerMove s = .next s := by
  rw [sequencerMove, h]

@[simp] theorem sequencerMove_run (s : State) (h : s.mode = .run) : sequencerMove s = runCommand s := by
  rw [sequencerMove, h]

/-- A host read changes nothing but the value it returns. -/
theorem hostRead_next (size : AccessSize) (addr : Nat) (s t : State) (h : hostRead size addr s = .next t) :
    ∃ v, t = { s with hostData := some v } := by
  unfold hostRead at h
  split at h
  · cases h
  · split at h
    · cases h; exact ⟨_, rfl⟩
    · cases h
  · split at h
    · cases h
    · split at h
      · cases h
      · cases h; exact ⟨_, rfl⟩

/-- A host write writes one register, or the bytes of an aligned region of LMEM while the block is idle. -/
theorem hostWrite_next (size : AccessSize) (addr : Nat) (v : Word) (s t : State)
    (h : hostWrite size addr v s = .next t) :
    (∃ offset, locate s.params addr = some (.register offset) ∧ offset % 4 = 0 ∧ size = .word ∧
      t = writeRegister offset v s) ∨
    (∃ a, locate s.params addr = some (.lmem a) ∧ s.mode = .idle ∧ a % size.bytes = 0 ∧
      a + size.bytes ≤ s.params.lmemBytes ∧ t = { s with lmem := s.lmem.write a size.bytes v.toNat }) := by
  unfold hostWrite at h
  split at h
  · cases h
  · rename_i offset ho
    split at h
    · rename_i hc; cases h; exact .inl ⟨offset, ho, hc.2, hc.1, rfl⟩
    · cases h
  · rename_i a ha
    split at h
    · cases h
    · rename_i hr
      cases h
      unfold lmemRefusal at hr
      split at hr
      · cases hr
      · rename_i hm
        split at hr
        · cases hr
        · split at hr
          · cases hr
          · refine .inr ⟨a, ha, ?_, by omega, by omega, rfl⟩
            cases hs : s.mode with
            | idle => rfl
            | run => exact absurd hs hm

/-- Only SRST, and an accepted GO with IE, come of a write of CTRL. -/
theorem writeCtrl_cases (v : Word) (s : State) :
    (v.getLsbD 2 = true ∧ writeCtrl v s = softReset s) ∨
    (v.getLsbD 2 = false ∧ v.getLsbD 0 = true ∧ s.mode = .idle ∧ s.err = false ∧
      writeCtrl v s = { s with ie := v.getLsbD 1, done := false, mode := .run }) ∨
    (v.getLsbD 2 = false ∧ ¬(v.getLsbD 0 = true ∧ s.mode = .idle ∧ s.err = false) ∧
      writeCtrl v s = { s with ie := v.getLsbD 1 }) := by
  by_cases h2 : v.getLsbD 2
  · exact .inl ⟨h2, by rw [writeCtrl, if_pos h2]⟩
  · by_cases h0 : v.getLsbD 0 = true ∧ s.mode = .idle ∧ s.err = false
    · refine .inr (.inl ⟨by simpa using h2, h0.1, h0.2.1, h0.2.2, ?_⟩)
      rw [writeCtrl, if_neg h2]
      exact if_pos (by simp only [h0.1, h0.2.1, h0.2.2]; rfl)
    · refine .inr (.inr ⟨by simpa using h2, h0, ?_⟩)
      rw [writeCtrl, if_neg h2]
      refine if_neg fun hc => h0 ?_
      simp only [Bool.and_eq_true, beq_iff_eq, Bool.not_eq_true'] at hc
      exact ⟨hc.1.1, hc.1.2, hc.2⟩

end Sys2Proof.Machine
end

