-- ==== Sys2Proof/Laws/Numerics.lean ====
section
/-! SUPPORT. What the operations of the numerics can do: rounding from enclosures, the sizes of ring numbers, and an
implementation's results under NUM_TOL. -/

namespace Sys2Proof.Machine

/-! Enclosures -/

/-- A rounding from enclosures is what both ends round to at one of the precisions, or the exact rounding. -/
theorem roundEnclosed_cases (ends : Nat → Option (Word × Word)) (exact : Unit → Word) (fuel level : Nat) :
    (∃ n, ends (precision n) = some (roundEnclosed ends exact fuel level, roundEnclosed ends exact fuel level)) ∨
      roundEnclosed ends exact fuel level = exact () := by
  induction fuel generalizing level with
  | zero => exact .inr rfl
  | succ fuel ih =>
    unfold roundEnclosed
    split
    · exact ih _
    · next h =>
      split
      · next e => exact .inl ⟨level, by rw [h, e]⟩
      · exact ih _

/-- A sign from an enclosure is that of a lower end above 0, of an upper end below 0, or the exact one. -/
theorem signEnclosed_cases (x : Enclosure) (exact : Unit → Int) :
    (0 < x.lo ∧ signEnclosed x exact = 1) ∨ (x.hi < 0 ∧ signEnclosed x exact = -1) ∨
      (x.lo ≤ 0 ∧ 0 ≤ x.hi ∧ signEnclosed x exact = exact ()) := by
  unfold signEnclosed
  split
  · exact .inl ⟨‹_›, rfl⟩
  · split
    · exact .inr (.inl ⟨‹_›, rfl⟩)
    · exact .inr (.inr ⟨by omega, by omega, rfl⟩)

/-! Ring numbers keep their number of coefficients. -/

@[simp] theorem ringScale_length (z : Int) (x : List Int) : (ringScale z x).length = x.length := by simp [ringScale]

@[simp] theorem ringAdd_length (x y : List Int) : (ringAdd x y).length = min x.length y.length := by simp [ringAdd]

@[simp] theorem ringSub_length (x y : List Int) : (ringSub x y).length = min x.length y.length := by simp [ringSub]

@[simp] theorem ringConj_length (x : List Int) : (ringConj x).length = x.length := by cases x <;> simp [ringConj]

@[simp] theorem ringShift_length (x : List Int) : (ringShift x).length = x.length := by
  unfold ringShift
  split
  · simp_all
  · next c h =>
    have : x ≠ [] := by rintro rfl; simp at h
    have := List.length_pos_iff.mpr this
    simp only [List.length_cons, List.length_dropLast]
    omega

@[simp] theorem ringMul_length (x y : List Int) : (ringMul x y).length = y.length := by
  unfold ringMul
  induction x with
  | nil => simp
  | cons c x ih => simp [ih]

@[simp] theorem ringOfInt_length (h : Nat) (z : Int) (pos : 0 < h) : (ringOfInt h z).length = h := by
  simp [ringOfInt]
  omega

/-! NUM and NUM_TOL -/

@[simp] theorem numCis_reference (a : Word) (p u : Nat) : numCis .reference a p u = cisReference a p u := rfl
@[simp] theorem numCmul_reference (x y : Sample) : numCmul .reference x y = cmulReference x y := rfl
@[simp] theorem numDetect_reference (xs : List Sample) : numDetect .reference xs = detectReference xs := rfl

/-- A result held to the reference meets it within the tolerance. -/
theorem heldTo_meetsWithin (tol : Nat) (r v : Word) : MeetsWithin tol r (heldTo tol r v) := by
  intro h
  unfold heldTo
  split
  · next c =>
    rcases Bool.or_eq_true _ _ |>.mp c with c | c
    · rw [h] at c; cases c
    · simp only [withinTol, Bool.or_eq_true, beq_iff_eq, Bool.and_eq_true, Bool.not_eq_true', decide_eq_true_eq] at c
      rcases c with rfl | ⟨⟨_, c⟩, d⟩
      · exact ⟨h, by simp⟩
      · exact ⟨c, d⟩
  · exact ⟨h, by simp⟩

/-- What a held result can be: the reference's, or the implementation's own, and this where the reference is not
finite. -/
theorem heldTo_cases (tol : Nat) (r v : Word) :
    (heldTo tol r v = v) ∨ (heldTo tol r v = r ∧ nonFinite r = false) := by
  unfold heldTo
  split
  · exact .inl rfl
  · next c => exact .inr ⟨rfl, by simp_all⟩

/-- The bin an implementation picks is one of the bins or the peak, and its power is the peak's or within the
tolerance. -/
theorem nearPeak_power (tol : Nat) (bins : List Bin) (index : Nat) :
    nearPeak tol bins index = peakBin bins ∨
      withinTol tol (decibels bins.length (peakBin bins).mag2)
        (decibels bins.length (nearPeak tol bins index).mag2) = true := by
  unfold nearPeak
  dsimp only
  split
  · exact .inr ‹_›
  · exact .inl rfl

end Sys2Proof.Machine
end

