-- ==== Sys2Proof/Laws/PerInstr.lean ====
section
/-! SUPPORT. Statements for all commands, proved command by command. -/

namespace Sys2Proof.Laws

/-- The words a command encodes to: as many as R92 gives its opcode (spec/30_encoding.md). -/
def EncodedLength.Statement (i : Instr) : Prop :=
  opcodeLength (opcode ((encode i).headD 0)) = some (encode i).length

/-- The statement from a command's words: the header's opcode, and the length R92 gives it. -/
theorem EncodedLength.of_words (i : Instr) (h opc : Nat) (rest : List Nat) (e : encode i = h :: rest)
    (ho : opcode h = opc) (hl : opcodeLength opc = some (rest.length + 1)) : EncodedLength.Statement i := by
  rw [EncodedLength.Statement, e, List.headD_cons, ho, hl, List.length_cons]

theorem EncodedLength.nop : EncodedLength.Statement .nop :=
  EncodedLength.of_words _ _ _ _ rfl rfl rfl

theorem EncodedLength.halt : EncodedLength.Statement .halt :=
  EncodedLength.of_words _ _ _ _ rfl rfl rfl

theorem EncodedLength.setcfg (sf ppm ovsm1 : Nat) : EncodedLength.Statement (.setcfg sf ppm ovsm1) :=
  EncodedLength.of_words _ _ 0x02 _ rfl (by simp only [header, List.foldr, opcode, bits]; omega) rfl

theorem EncodedLength.setampl (ampl : Word) : EncodedLength.Statement (.setampl ampl) :=
  EncodedLength.of_words _ _ _ _ rfl rfl rfl

theorem EncodedLength.setphase (p : Nat) : EncodedLength.Statement (.setphase p) :=
  EncodedLength.of_words _ _ _ _ rfl rfl rfl

theorem EncodedLength.clrstat : EncodedLength.Statement .clrstat :=
  EncodedLength.of_words _ _ _ _ rfl rfl rfl

theorem EncodedLength.gray (dst src count : Nat) : EncodedLength.Statement (.gray dst src count) :=
  EncodedLength.of_words _ _ _ _ rfl rfl rfl

theorem EncodedLength.igray (dst src count : Nat) : EncodedLength.Statement (.igray dst src count) :=
  EncodedLength.of_words _ _ _ _ rfl rfl rfl

theorem EncodedLength.symrx (dst src count : Nat) : EncodedLength.Statement (.symrx dst src count) :=
  EncodedLength.of_words _ _ _ _ rfl rfl rfl

theorem EncodedLength.symtx (dst src count : Nat) : EncodedLength.Statement (.symtx dst src count) :=
  EncodedLength.of_words _ _ _ _ rfl rfl rfl

theorem EncodedLength.fencRaw (dst src count : Nat) : EncodedLength.Statement (.fencRaw dst src count) :=
  EncodedLength.of_words _ _ _ _ rfl rfl rfl

theorem EncodedLength.fencP54 (dst src count : Nat) : EncodedLength.Statement (.fencP54 dst src count) :=
  EncodedLength.of_words _ _ _ _ rfl rfl rfl

theorem EncodedLength.fencP64 (dst src count : Nat) : EncodedLength.Statement (.fencP64 dst src count) :=
  EncodedLength.of_words _ _ _ _ rfl rfl rfl

theorem EncodedLength.fencH74 (dst src count : Nat) : EncodedLength.Statement (.fencH74 dst src count) :=
  EncodedLength.of_words _ _ _ _ rfl rfl rfl

theorem EncodedLength.fencH84 (dst src count : Nat) : EncodedLength.Statement (.fencH84 dst src count) :=
  EncodedLength.of_words _ _ _ _ rfl rfl rfl

theorem EncodedLength.fdecRaw (dst src count : Nat) : EncodedLength.Statement (.fdecRaw dst src count) :=
  EncodedLength.of_words _ _ _ _ rfl rfl rfl

theorem EncodedLength.fdecP54 (dst src count : Nat) : EncodedLength.Statement (.fdecP54 dst src count) :=
  EncodedLength.of_words _ _ _ _ rfl rfl rfl

theorem EncodedLength.fdecP64 (dst src count : Nat) : EncodedLength.Statement (.fdecP64 dst src count) :=
  EncodedLength.of_words _ _ _ _ rfl rfl rfl

theorem EncodedLength.fdecH74 (dst src count : Nat) : EncodedLength.Statement (.fdecH74 dst src count) :=
  EncodedLength.of_words _ _ _ _ rfl rfl rfl

theorem EncodedLength.fdecH84 (dst src count : Nat) : EncodedLength.Statement (.fdecH84 dst src count) :=
  EncodedLength.of_words _ _ _ _ rfl rfl rfl

theorem EncodedLength.whiten (rdd dst src count bitofs : Nat) : EncodedLength.Statement (.whiten rdd dst src count bitofs) :=
  EncodedLength.of_words _ _ 0x60 _ rfl (by simp only [header, List.foldr, opcode, bits]; omega) rfl

theorem EncodedLength.whitenC (rdd dst src count bitofs : Nat) : EncodedLength.Statement (.whitenC rdd dst src count bitofs) :=
  EncodedLength.of_words _ _ 0x60 _ rfl (by simp only [header, List.foldr, opcode, bits]; omega) rfl

theorem EncodedLength.ilv (rdd dst src ncw : Nat) : EncodedLength.Statement (.ilv rdd dst src ncw) :=
  EncodedLength.of_words _ _ 0x50 _ rfl (by simp only [header, List.foldr, opcode, bits]; omega) rfl

theorem EncodedLength.dilv (rdd dst src nsym : Nat) : EncodedLength.Statement (.dilv rdd dst src nsym) :=
  EncodedLength.of_words _ _ 0x51 _ rfl (by simp only [header, List.foldr, opcode, bits]; omega) rfl

theorem EncodedLength.chirpUp (fbin dst len : Nat) : EncodedLength.Statement (.chirpUp fbin dst len) :=
  EncodedLength.of_words _ _ 0x10 _ rfl (by simp only [header, List.foldr, opcode, bits]; omega) rfl

theorem EncodedLength.chirpDn (fbin dst len : Nat) : EncodedLength.Statement (.chirpDn fbin dst len) :=
  EncodedLength.of_words _ _ 0x10 _ rfl (by simp only [header, List.foldr, opcode, bits]; omega) rfl

theorem EncodedLength.mix (dst srca srcb count : Nat) : EncodedLength.Statement (.mix dst srca srcb count) :=
  EncodedLength.of_words _ _ _ _ rfl rfl rfl

theorem EncodedLength.mixC (dst srca srcb count : Nat) : EncodedLength.Statement (.mixC dst srca srcb count) :=
  EncodedLength.of_words _ _ _ _ rfl rfl rfl

theorem EncodedLength.detect (ignored src : Nat) : EncodedLength.Statement (.detect ignored src) :=
  EncodedLength.of_words _ _ _ _ rfl rfl rfl

theorem EncodedLength.detectS (dst src : Nat) : EncodedLength.Statement (.detectS dst src) :=
  EncodedLength.of_words _ _ _ _ rfl rfl rfl

end Sys2Proof.Laws
end

