-- ==== Sys2Proof/Laws/Whiten.lean ====
section
/-! SUPPORT. The period of the whitener: 255 steps bring every register back, so 510 key bytes bring every whitener
back, which is why skipping BITOFS mod 510 keys is skipping BITOFS keys (spec/42_whitening.md R195). -/

namespace Sys2Proof.Machine

@[simp] theorem after_zero (w : Whitener) : w.after 0 = w := rfl

theorem after_succ (n : Nat) (w : Whitener) : w.after (n + 1) = w.next.after n := rfl

theorem after_add (m n : Nat) (w : Whitener) : w.after (m + n) = (w.after m).after n := by
  induction m generalizing w with
  | zero => simp
  | succ m ih => rw [Nat.succ_add, after_succ, after_succ, ih]

/-- The step is linear over XOR. -/
theorem lfsrStep_xor (a b : BitVec 64) : lfsrStep (a ^^^ b) = lfsrStep a ^^^ lfsrStep b := by
  apply BitVec.eq_of_getLsbD_eq
  intro i hi
  simp only [lfsrStep, BitVec.getLsbD_or, BitVec.getLsbD_ushiftRight, BitVec.getLsbD_xor, BitVec.getLsbD_shiftLeft,
    BitVec.getLsbD_setWidth, hi, decide_true, Bool.true_and]
  by_cases h : i < 56
  · simp [h]
  · have h1 : a.getLsbD (8 + i) = false := BitVec.getLsbD_of_ge a _ (by omega)
    have h2 : b.getLsbD (8 + i) = false := BitVec.getLsbD_of_ge b _ (by omega)
    simp only [h, decide_false, Bool.not_false, Bool.true_and, h1, h2, Bool.xor_false, Bool.false_or]
    cases decide (i - 56 < 64) <;> cases decide (i - 56 < 8) <;>
      simp [Bool.xor_comm, Bool.xor_left_comm]

theorem lfsrStep_iterate_xor (n : Nat) (a b : BitVec 64) :
    lfsrStep^[n] (a ^^^ b) = lfsrStep^[n] a ^^^ lfsrStep^[n] b := by
  induction n generalizing a b with
  | zero => rfl
  | succ n ih => rw [Function.iterate_succ_apply, Function.iterate_succ_apply, Function.iterate_succ_apply,
      lfsrStep_xor, ih]

theorem lfsrStep_iterate_zero (n : Nat) : lfsrStep^[n] 0 = 0 := by
  induction n with
  | zero => rfl
  | succ n ih => rw [Function.iterate_succ_apply, show lfsrStep 0 = 0 by decide, ih]

/-- `n` steps, by recursion the kernel evaluates. -/
def lfsrSteps : Nat → BitVec 64 → BitVec 64
  | 0, r => r
  | n + 1, r => lfsrSteps n (lfsrStep r)

theorem lfsrSteps_eq (n : Nat) (r : BitVec 64) : lfsrSteps n r = lfsrStep^[n] r := by
  induction n generalizing r with
  | zero => rfl
  | succ n ih => rw [lfsrSteps, ih, Function.iterate_succ_apply]

theorem lfsr_period_basis : ∀ i < 64, lfsrSteps 255 (1#64 <<< i) = 1#64 <<< i := by decide +kernel

/-- A number as the XOR of its bits below `k`. -/
def bitsBelow (r : BitVec 64) : Nat → BitVec 64
  | 0 => 0
  | k + 1 => bitsBelow r k ^^^ (if r.getLsbD k then 1#64 <<< k else 0)

theorem getLsbD_bitsBelow (r : BitVec 64) (k i : Nat) (hk : k ≤ 64) :
    (bitsBelow r k).getLsbD i = (decide (i < k) && r.getLsbD i) := by
  induction k with
  | zero => simp [bitsBelow]
  | succ k ih =>
    have h1 : (if r.getLsbD k then 1#64 <<< k else 0).getLsbD i = (decide (i = k) && r.getLsbD k) := by
      by_cases hr : r.getLsbD k
      · rw [if_pos hr, BitVec.getLsbD_shiftLeft, BitVec.getLsbD_one, hr]
        by_cases h : i = k
        · subst h; simp; omega
        · by_cases h' : i < k
          · simp [h, h']
          · simp [h, show i - k ≠ 0 by omega]
      · rw [if_neg hr]; simp [hr]
    rw [bitsBelow, BitVec.getLsbD_xor, ih (by omega), h1]
    by_cases h : i = k
    · subst h; simp
    · by_cases h' : i < k
      · simp [h, h', show i < k + 1 by omega]
      · simp [h, h', show ¬ i < k + 1 by omega]

theorem bitsBelow_all (r : BitVec 64) : bitsBelow r 64 = r := by
  apply BitVec.eq_of_getLsbD_eq
  intro i hi
  rw [getLsbD_bitsBelow r 64 i (by omega)]
  simp [hi]

/-- 255 steps bring every register back (spec/42_whitening.md R195 says so of the seeds). -/
theorem lfsrStep_period (r : BitVec 64) : lfsrStep^[255] r = r := by
  have h : ∀ k ≤ 64, lfsrStep^[255] (bitsBelow r k) = bitsBelow r k := by
    intro k hk
    induction k with
    | zero => exact lfsrStep_iterate_zero 255
    | succ k ih =>
      rw [bitsBelow, lfsrStep_iterate_xor, ih (by omega)]
      congr 1
      split
      · rw [← lfsrSteps_eq]; exact lfsr_period_basis k (by omega)
      · exact lfsrStep_iterate_zero 255
  have := h 64 (by omega)
  rwa [bitsBelow_all] at this

/-- Two key bytes step each register once. -/
theorem after_two_mul (n : Nat) (w : Whitener) : w.after (2 * n) = ⟨lfsrStep^[n] w.r0, lfsrStep^[n] w.r1, w.widx⟩ := by
  induction n generalizing w with
  | zero => rfl
  | succ n ih =>
    rw [Nat.mul_succ, after_succ, after_succ, ih, Function.iterate_succ_apply, Function.iterate_succ_apply]
    obtain ⟨r0, r1, widx⟩ := w
    cases widx <;> rfl

/-- The whitener repeats after 510 key bytes. -/
theorem after_510 (w : Whitener) : w.after 510 = w := by
  rw [show 510 = 2 * 255 from rfl, after_two_mul, lfsrStep_period, lfsrStep_period]

/-- Skipping BITOFS mod 510 key bytes is skipping BITOFS key bytes (spec/42_whitening.md R194, R195). -/
theorem skip_eq_after (n : Nat) (w : Whitener) : w.skip n = w.after n := by
  have h : ∀ q, w.after (510 * q) = w := by
    intro q
    induction q with
    | zero => rfl
    | succ q ih => rw [Nat.mul_succ, after_add, ih, after_510]
  rw [Whitener.skip]
  conv_rhs => rw [← Nat.div_add_mod n 510, after_add, h]

/-- Key `i` of the keys to come. -/
theorem getElem?_keys (n i : Nat) (w : Whitener) (h : i < n) : (w.keys n)[i]? = some (w.after i).key := by
  induction n generalizing i w with
  | zero => omega
  | succ n ih =>
    rw [Whitener.keys]
    cases i with
    | zero => rfl
    | succ i => rw [List.getElem?_cons_succ, ih i w.next (by omega), after_succ]

end Sys2Proof.Machine
end

