-- ==== Sys2Proof/Machine/Assembly.lean ====
section
/-! DEFINITION. The assembler's side of the encoding (spec/30_encoding.md R100, R101): the text of a command, and the
pseudo-instructions. No step uses it. -/

namespace Sys2Proof.Machine

/-- A mnemonic and its operands, separated by commas (R100). -/
def asmLine (mnemonic : String) (operands : List Nat) : String :=
  if operands.isEmpty then mnemonic else mnemonic ++ " " ++ String.intercalate ", " (operands.map toString)

/-- The assembly line of a command, its numbers in decimal (R100). SETAMPL's operand is written as its encoding.
DETECT's first word is not written: the assembler writes 0 there. -/
def Instr.assembly : Instr → String
  | .nop => asmLine "NOP" []
  | .halt => asmLine "HALT" []
  | .setcfg sf ppm ovsm1 => asmLine "SETCFG" [sf, ppm, ovsm1 + 1]
  | .setampl ampl => asmLine "SETAMPL" [ampl.toNat]
  | .setphase p => asmLine "SETPHASE" [p]
  | .clrstat => asmLine "CLRSTAT" []
  | .gray dst src count => asmLine "GRAY" [dst, src, count]
  | .igray dst src count => asmLine "IGRAY" [dst, src, count]
  | .symrx dst src count => asmLine "SYMRX" [dst, src, count]
  | .symtx dst src count => asmLine "SYMTX" [dst, src, count]
  | .fencRaw dst src count => asmLine "FENC.RAW" [dst, src, count]
  | .fencP54 dst src count => asmLine "FENC.P54" [dst, src, count]
  | .fencP64 dst src count => asmLine "FENC.P64" [dst, src, count]
  | .fencH74 dst src count => asmLine "FENC.H74" [dst, src, count]
  | .fencH84 dst src count => asmLine "FENC.H84" [dst, src, count]
  | .fdecRaw dst src count => asmLine "FDEC.RAW" [dst, src, count]
  | .fdecP54 dst src count => asmLine "FDEC.P54" [dst, src, count]
  | .fdecP64 dst src count => asmLine "FDEC.P64" [dst, src, count]
  | .fdecH74 dst src count => asmLine "FDEC.H74" [dst, src, count]
  | .fdecH84 dst src count => asmLine "FDEC.H84" [dst, src, count]
  | .whiten rdd dst src count bitofs => asmLine "WHITEN" [rdd, dst, src, count, bitofs]
  | .whitenC rdd dst src count bitofs => asmLine "WHITEN.C" [rdd, dst, src, count, bitofs]
  | .ilv rdd dst src ncw => asmLine "ILV" [rdd, dst, src, ncw]
  | .dilv rdd dst src nsym => asmLine "DILV" [rdd, dst, src, nsym]
  | .chirpUp fbin dst len => asmLine "CHIRP.UP" [dst, len, fbin]
  | .chirpDn fbin dst len => asmLine "CHIRP.DN" [dst, len, fbin]
  | .mix dst srca srcb count => asmLine "MIX" [dst, srca, srcb, count]
  | .mixC dst srca srcb count => asmLine "MIX.C" [dst, srca, srcb, count]
  | .detect _ src => asmLine "DETECT" [src]
  | .detectS dst src => asmLine "DETECT.S" [dst, src]

/-- The pseudo-instructions (R101). -/
inductive Pseudo where
  | end_
  | upchirp (dst fbin : Nat)
  | preamble (dst : Nat)
  | syncchirp (dst nib : Nat)
  | dnchirp (dst : Nat)
  | qchirp (dst : Nat)
  | dewhiten (rdd dst src count bitofs : Nat)
  | fenc (rdd dst src count : Nat)
  | fdec (rdd dst src count : Nat)
  | dechirp (dst sig ref : Nat)
  deriving DecidableEq, Repr

/-- The command a pseudo-instruction expands to (R101). N and NN are those of the last SETCFG earlier in the list;
where the assembler has no such SETCFG, a pseudo-instruction that needs them is refused. FENC and FDEC are expanded for
RDD 0 to 4. -/
def Pseudo.expand (cfg : Option Cfg) : Pseudo → Option Instr
  | .end_ => some .halt
  | .upchirp dst fbin => cfg.map fun c => .chirpUp fbin dst c.nn
  | .preamble dst => cfg.map fun c => .chirpUp 0 dst c.nn
  | .syncchirp dst nib => cfg.map fun c => .chirpUp (8 * nib) dst c.nn
  | .dnchirp dst => cfg.map fun c => .chirpDn 0 dst c.nn
  | .qchirp dst => cfg.map fun c => .chirpDn 0 dst (c.nn / 4)
  | .dewhiten rdd dst src count bitofs => some (.whiten rdd dst src count bitofs)
  | .fenc rdd dst src count => (fencVariant rdd dst src count).toOption
  | .fdec rdd dst src count => (fdecVariant rdd dst src count).toOption
  | .dechirp dst sig ref => cfg.map fun c => .mix dst sig ref c.n

end Sys2Proof.Machine
end

