-- ==== Sys2Proof/Tests/Slice0.lean ====
section
/-! SUPPORT. The model's own tests. Expected values come from the spec: spec/30_encoding.md R99 and R102, the examples of
the command rules, and spec/95_test_vectors.md. The last part shows, for each statement of Obligations.lean with
hypotheses, a concrete state and concrete operands that meet them. -/

namespace Sys2Proof.Machine.Tests

/-! ## WellFormed: what each check refuses -/

theorem test_wellFormed_setcfg_sf : (Instr.setcfg 16 0 0).wellFormed = false := by decide
theorem test_wellFormed_setcfg_ppm : (Instr.setcfg 7 16 0).wellFormed = false := by decide
theorem test_wellFormed_setcfg_ovsm1 : (Instr.setcfg 7 0 256).wellFormed = false := by decide
theorem test_wellFormed_setphase : (Instr.setphase (2 ^ 32)).wellFormed = false := by decide
theorem test_wellFormed_symbol_commands : (Instr.gray (2 ^ 32) 0 0).wellFormed = false ∧
    (Instr.igray 0 (2 ^ 32) 0).wellFormed = false ∧ (Instr.symrx 0 0 (2 ^ 32)).wellFormed = false ∧
    (Instr.symtx 0 0 (2 ^ 32)).wellFormed = false := by decide
theorem test_wellFormed_fenc : (Instr.fencRaw (2 ^ 32) 0 0).wellFormed = false ∧
    (Instr.fencP54 0 (2 ^ 32) 0).wellFormed = false ∧ (Instr.fencP64 0 0 (2 ^ 32)).wellFormed = false ∧
    (Instr.fencH74 (2 ^ 32) 0 0).wellFormed = false ∧ (Instr.fencH84 0 0 (2 ^ 32)).wellFormed = false := by decide
theorem test_wellFormed_fdec : (Instr.fdecRaw (2 ^ 32) 0 0).wellFormed = false ∧
    (Instr.fdecP54 0 (2 ^ 32) 0).wellFormed = false ∧ (Instr.fdecP64 0 0 (2 ^ 32)).wellFormed = false ∧
    (Instr.fdecH74 (2 ^ 32) 0 0).wellFormed = false ∧ (Instr.fdecH84 0 0 (2 ^ 32)).wellFormed = false := by decide
theorem test_wellFormed_whiten : (Instr.whiten 8 0 0 0 0).wellFormed = false ∧
    (Instr.whiten 0 0 0 0 (2 ^ 32)).wellFormed = false ∧ (Instr.whitenC 8 0 0 0 0).wellFormed = false ∧
    (Instr.whitenC 0 (2 ^ 32) 0 0 0).wellFormed = false := by decide
theorem test_wellFormed_interleaver : (Instr.ilv 8 0 0 0).wellFormed = false ∧
    (Instr.ilv 0 0 0 (2 ^ 32)).wellFormed = false ∧ (Instr.dilv 8 0 0 0).wellFormed = false ∧
    (Instr.dilv 0 (2 ^ 32) 0 0).wellFormed = false := by decide
theorem test_wellFormed_chirp : (Instr.chirpUp 4096 0 0).wellFormed = false ∧
    (Instr.chirpUp 0 0 (2 ^ 32)).wellFormed = false ∧ (Instr.chirpDn 4096 0 0).wellFormed = false ∧
    (Instr.chirpDn 0 (2 ^ 32) 0).wellFormed = false := by decide
theorem test_wellFormed_mix_detect : (Instr.mix 0 0 0 (2 ^ 32)).wellFormed = false ∧
    (Instr.mixC (2 ^ 32) 0 0 0).wellFormed = false ∧ (Instr.detect (2 ^ 32) 0).wellFormed = false ∧
    (Instr.detectS 0 (2 ^ 32)).wellFormed = false := by decide

/-! ## Decoding: every constructor, from a word written out by R91 to R94; word 0 is the lowest 32 bits -/

theorem test_decode_nop : decodeTableWord 32 0x00000000 = some .nop := by decide
theorem test_decode_halt : decodeTableWord 32 0x00000001 = some .halt := by decide
/-- OVSM1 = 3 in [23:16], PPM = 8 in [15:12], SF = 10 in [11:8] (R102). -/
theorem test_decode_setcfg : decodeTableWord 32 0x00038A02 = some (.setcfg 10 8 3) := by decide
theorem test_decode_setampl : decodeTableWord 64 0x3F000000_00000003 = some (.setampl 0x3F000000) := by decide
theorem test_decode_setphase : decodeTableWord 64 0x0000007F_00000004 = some (.setphase 127) := by decide
theorem test_decode_clrstat : decodeTableWord 32 0x00000005 = some .clrstat := by decide
theorem test_decode_gray :
    decodeTableWord 128 0x00000003_00000002_00000001_00000030 = some (.gray 1 2 3) := by decide
/-- INV = 1 in bit 8. -/
theorem test_decode_igray :
    decodeTableWord 128 0x00000003_00000002_00000001_00000130 = some (.igray 1 2 3) := by decide
/-- MAP = 1 in bit 9. -/
theorem test_decode_symrx :
    decodeTableWord 128 0x00000008_00000400_00000500_00000230 = some (.symrx 0x500 0x400 8) := by decide
theorem test_decode_symtx :
    decodeTableWord 128 0x00000008_00000300_00000400_00000330 = some (.symtx 0x400 0x300 8) := by decide
theorem test_decode_fencRaw :
    decodeTableWord 128 0x00000003_00000002_00000001_00000040 = some (.fencRaw 1 2 3) := by decide
theorem test_decode_fencP54 :
    decodeTableWord 128 0x00000003_00000002_00000001_00000140 = some (.fencP54 1 2 3) := by decide
theorem test_decode_fencP64 :
    decodeTableWord 128 0x00000003_00000002_00000001_00000240 = some (.fencP64 1 2 3) := by decide
theorem test_decode_fencH74 :
    decodeTableWord 128 0x00000003_00000002_00000001_00000340 = some (.fencH74 1 2 3) := by decide
theorem test_decode_fencH84 :
    decodeTableWord 128 0x00000007_00000200_00000300_00000440 = some (.fencH84 0x300 0x200 7) := by decide
theorem test_decode_fdecRaw :
    decodeTableWord 128 0x00000003_00000002_00000001_00000041 = some (.fdecRaw 1 2 3) := by decide
theorem test_decode_fdecP54 :
    decodeTableWord 128 0x00000003_00000002_00000001_00000141 = some (.fdecP54 1 2 3) := by decide
theorem test_decode_fdecP64 :
    decodeTableWord 128 0x00000003_00000002_00000001_00000241 = some (.fdecP64 1 2 3) := by decide
theorem test_decode_fdecH74 :
    decodeTableWord 128 0x00000003_00000002_00000001_00000341 = some (.fdecH74 1 2 3) := by decide
theorem test_decode_fdecH84 :
    decodeTableWord 128 0x00000006_00000100_00000200_00000441 = some (.fdecH84 0x200 0x100 6) := by decide
theorem test_decode_whiten : decodeTableWord 160 0x00000004_00000003_00000002_00000001_00000360 =
    some (.whiten 3 1 2 3 4) := by decide
/-- CONT = 1 in bit 11, RDD = 1 in [10:8] (R102). -/
theorem test_decode_whitenC : decodeTableWord 160 0x00000003_00000004_00000010_00000010_00000960 =
    some (.whitenC 1 0x10 0x10 4 3) := by decide
theorem test_decode_ilv :
    decodeTableWord 128 0x00000007_00000300_00000400_00000450 = some (.ilv 4 0x400 0x300 7) := by decide
theorem test_decode_dilv :
    decodeTableWord 128 0x00000008_00000500_00000600_00000451 = some (.dilv 4 0x600 0x500 8) := by decide
/-- FBIN = 37 = 0x025 in [23:12] (P3). -/
theorem test_decode_chirpUp :
    decodeTableWord 96 0x00000080_00001000_00025010 = some (.chirpUp 37 0x1000 128) := by decide
theorem test_decode_chirpDn :
    decodeTableWord 96 0x00000020_00002000_00000110 = some (.chirpDn 0 0x2000 32) := by decide
theorem test_decode_mix : decodeTableWord 160 0x00000080_00001400_00001000_00001800_00000011 =
    some (.mix 0x1800 0x1000 0x1400 128) := by decide
theorem test_decode_mixC : decodeTableWord 160 0x00000004_00000003_00000002_00000001_00000111 =
    some (.mixC 1 2 3 4) := by decide
/-- w1 = 12345678 is legal and ignored (spec/95_test_vectors.md 2.9). -/
theorem test_decode_detect :
    decodeTableWord 96 0x00001000_12345678_00000020 = some (.detect 0x12345678 0x1000) := by decide
theorem test_decode_detectS :
    decodeTableWord 96 0x00001800_000000F0_00000120 = some (.detectS 0xF0 0x1800) := by decide

/-- spec/95_test_vectors.md 2.2 -/
theorem test_decode_rejects_by_name :
    decode (leBytes 4 0x00000006) = .error .undefinedOpcode ∧ decode (leBytes 4 0x000000FF) = .error .undefinedOpcode ∧
    decode (leBytes 4 0x00001001) = .error .reservedBit ∧ decode (leBytes 4 0x00000210) = .error .reservedBit ∧
    decode (leBytes 4 0x00000430) = .error .reservedBit ∧ decode (leBytes 4 0x00000840) = .error .reservedBit ∧
    decode (leBytes 4 0x01000002) = .error .reservedBit ∧ decode (leBytes 16 0x00000540) = .error .noVariant ∧
    decode (leBytes 8 0x00000040) = .error .truncated ∧ decode [0, 0, 0] = .error .truncated := ⟨rfl, rfl, rfl, rfl, rfl, rfl, rfl, rfl, rfl, rfl⟩

/-- R102. -/
theorem test_encode_examples : encode (.whitenC 1 0x10 0x10 4 3) = [0x960, 0x10, 0x10, 4, 3] ∧
    encode (.chirpUp 5 0x1000 128) = [0x5010, 0x1000, 0x80] := by decide

/-- R100, R101: `SYNCCHIRP dst, 1` after SETCFG 7, 0, 1 is `CHIRP.UP dst, 128, 8`, whose header is 0x00008010. -/
theorem test_assembly : (Pseudo.expand (some ⟨true, 7, 7, 0⟩) (.syncchirp 0x1000 1)).map encode =
      some [0x00008010, 0x1000, 128] ∧
    Pseudo.expand none (.syncchirp 0x1000 1) = none ∧ Instr.assembly (.setcfg 10 8 3) = "SETCFG 10, 8, 4" := by decide

/-! ## Single commands -/

/-- The next state of an outcome. -/
def next? : Outcome → Option State
  | .next s => some s
  | .fault _ => none
  | .refused _ => none

/-- A running block, configured for SF 7, PPM 7 and OVS 1, with bytes from 0x100 up. -/
def withBytes (bs : List Byte) : State :=
  { State.reset with mode := .run, cfg := ⟨true, 7, 7, 0⟩, lmem := cellsAt 0x100 bs }

/-- The `n` bytes from `a` up after a command. -/
def bytesAfter (i : Instr) (s : State) (a n : Nat) : Option (List (Option Byte)) :=
  (next? (exec i s)).map fun t => (List.range n).map fun k => Memory.readByte t.lmem (a + k)

/-- R120: at CPC = 0x40, NOP completes with CPC = 0x44. -/
theorem test_nop : (next? (exec .nop { withBytes [] with cpc := 0x40 })).map (fun t => (t.cpc, t.mode)) =
    some (0x44, .run) := by decide
/-- R121: HALT at 0x1C gives CPC = 0x20, BUSY = 0, DONE = 1. -/
theorem test_halt : (next? (exec .halt { withBytes [] with cpc := 0x1C })).map (fun t => (t.cpc, t.statusWord)) =
    some (0x20, 2) := by decide
/-- R122: SETCFG 9, 7, 2 gives CFG = 0x80000179. -/
theorem test_setcfg : (next? (exec (.setcfg 9 7 1) { withBytes [] with phase := 5 })).map
    (fun t => (t.cfg.word, t.phase)) = some (0x80000179, 0) := by decide
/-- SETCFG 7, 8, 1: E_CFG, CFG keeps its value (spec/95_test_vectors.md 2.1, 2.10). -/
theorem test_setcfg_error : (next? (exec (.setcfg 7 8 0) (withBytes []))).map
    (fun t => (t.statusWord, t.cfg.word)) = some (0x504, 0x80000077) := by decide
theorem test_setampl : (next? (exec (.setampl 0x80000000) (withBytes []))).map (·.ampl) = some 0x80000000 := by decide
theorem test_setampl_nan : (next? (exec (.setampl 0x7FC00001) (withBytes []))).map
    (fun t => (t.statusWord, t.ampl)) = some (0x604, 0x3F800000) := by decide
theorem test_setphase : (next? (exec (.setphase 127) (withBytes []))).map (·.phase) = some 127 := by decide
theorem test_setphase_error : (next? (exec (.setphase 128) (withBytes []))).map (·.statusWord) = some 0x604 := by decide
theorem test_clrstat : (next? (exec .clrstat { withBytes [] with ferr := 3, fbad := 1 })).map
    (fun t => (t.ferr, t.fbad)) = some (0, 0) := by decide

/-- R150: 0x1234 becomes 0x1B2E, and 0xFFFF becomes 0x8000. -/
theorem test_gray : bytesAfter (.gray 0x102 0x100 2) (withBytes [0x34, 0x12, 0xFF, 0xFF]) 0x100 6 =
    some [some 0x34, some 0x12, some 0x2E, some 0x1B, some 0x00, some 0x80] := by decide
/-- R151: 0x1234 becomes 0x1C27. -/
theorem test_igray : bytesAfter (.igray 0x100 0x100 1) (withBytes [0x34, 0x12]) 0x100 2 =
    some [some 0x27, some 0x1C] := by decide
/-- R152: SF 9, PPM 7: 21, 22, 509 and 510 give 7, 5, 0x40 and 0. -/
theorem test_symrx : [21, 22, 509, 510].map (symrx 9 7) = [7, 5, 0x40, 0] ∧ symrx 12 10 0xFFFF = 0 := by decide
/-- R153: SF 9, PPM 7: 5, 0x7F and 0x85 give 0x18, 0x154 and 0x18. -/
theorem test_symtx : [5, 0x7F, 0x85].map (symtx 9 7) = [0x18, 0x154, 0x18] ∧ symtx 7 7 5 = 6 := by decide
/-- spec/95_test_vectors.md 2.3: E_ALIGN for a DST of 0x101. -/
theorem test_gray_error : (next? (exec (.gray 0x101 0x200 1) (withBytes []))).map (·.statusWord) = some 0x704 := by decide

theorem test_fencRaw : bytesAfter (.fencRaw 0x101 0x100 1) (withBytes [0xA7]) 0x101 1 = some [some 0x07] := by decide
theorem test_fencP54 : bytesAfter (.fencP54 0x100 0x100 2) (withBytes [0x01, 0x03]) 0x100 2 =
    some [some 0x11, some 0x03] := by decide
theorem test_fencP64 : bytesAfter (.fencP64 0x100 0x100 2) (withBytes [0x01, 0x08]) 0x100 2 =
    some [some 0x11, some 0x28] := by decide
theorem test_fencH74 : bytesAfter (.fencH74 0x100 0x100 2) (withBytes [0x01, 0x0F]) 0x100 2 =
    some [some 0x51, some 0x7F] := by decide
theorem test_fencH84 : bytesAfter (.fencH84 0x100 0x100 2) (withBytes [0x01, 0xF5]) 0x100 2 =
    some [some 0xD1, some 0x65] := by decide
theorem test_fdecRaw : bytesAfter (.fdecRaw 0x100 0x100 1) (withBytes [0xF3]) 0x100 1 = some [some 0x03] := by decide
theorem test_fdecP54 : bytesAfter (.fdecP54 0x100 0x100 2) (withBytes [0x15, 0xE5]) 0x100 2 =
    some [some 0x15, some 0x05] := by decide
theorem test_fdecP64 : bytesAfter (.fdecP64 0x100 0x100 2) (withBytes [0x28, 0x29]) 0x100 2 =
    some [some 0x08, some 0x19] := by decide
theorem test_fdecH74 : bytesAfter (.fdecH74 0x100 0x100 3) (withBytes [0x0F, 0x40, 0x03]) 0x100 3 =
    some [some 0x1D, some 0x10, some 0x13] := by decide
/-- Program P5. -/
theorem test_fdecH84 : bytesAfter (.fdecH84 0x200 0x100 6) (withBytes [0xE8, 0xE9, 0xEB, 0x68, 0x0F, 0x00]) 0x200 6 =
    some [some 0x08, some 0x18, some 0x3B, some 0x18, some 0x3F, some 0x00] := by decide
theorem test_fdecH84_counters : (next? (exec (.fdecH84 0x200 0x100 6)
    { withBytes [0xE8, 0xE9, 0xEB, 0x68, 0x0F, 0x00] with ferr := 0xFFFFFFFE })).map (fun t => (t.ferr, t.fbad)) =
    some (0xFFFFFFFF, 2) := by decide

/-- R198. -/
theorem test_whiten : (next? (exec (.whiten 4 0x100 0x100 4 3) (withBytes [0x00, 0xD1, 0x72, 0xA3]))).map
    (fun t => (t.lmem, t.wh)) = some (cellsAt 0x100 [0xFF, 0x8D, 0x8D, 0x4B],
      ⟨0x2EFF174B6572D100, 0x72D100E85C2EFFFF, true⟩) := by decide
/-- spec/95_test_vectors.md 2.5: WHITEN 1. -/
theorem test_whiten_rdd1 : bytesAfter (.whiten 1 0x100 0x100 4 3) (withBytes [0x11, 0x12, 0x03, 0x14]) 0x100 4 =
    some [some 0x1E, some 0x1E, some 0x0C, some 0x0C] := by decide
/-- R199: after two key bytes of the normal stream. -/
theorem test_whitenC : (next? (exec (.whitenC 4 0x100 0x100 2 0)
    { withBytes [0x33, 0x44] with wh := (seeds 4).after 2 })).map (fun t => (t.lmem, t.wh)) =
    some (cellsAt 0x100 [0x1D, 0xBB], ⟨0x174B6572D100E85C, 0xD100E85C2EFFFFFF, false⟩) := by decide

/-- R214. -/
theorem test_ilv : bytesAfter (.ilv 4 0x200 0x100 7) (withBytes [0x00, 0xD1, 0x72, 0xA3, 0xB4, 0x65, 0xC6]) 0x200 16 =
    some ([0x2A, 0, 0x26, 0, 0x1C, 0, 0x00, 0, 0x31, 0, 0x71, 0, 0x4D, 0, 0x5A, 0].map some) := by decide +kernel
/-- R215: 0xFFAA is read as 0x2A. -/
theorem test_dilv : bytesAfter (.dilv 4 0x200 0x100 8)
    (withBytes [0xAA, 0xFF, 0, 0, 0, 0, 0, 0, 0, 0, 0, 0, 0, 0, 0, 0]) 0x200 7 =
    some ([0, 1, 0, 1, 0, 1, 0].map some) := by decide +kernel

/-- spec/95_test_vectors.md 2.7. -/
theorem test_chirp_phases : chirpPhases ⟨true, 7, 7, 0⟩ .up 0 6 0 0 = [64, 1, 67, 6, 74, 15] ∧
    chirpPhases ⟨true, 7, 7, 0⟩ .up 127 4 0 100 = [35, 99, 36, 102] ∧
    chirpPhases ⟨true, 7, 7, 1⟩ .down 3 4 0 0 = [122, 243, 363, 482] := by decide +kernel
/-- spec/95_test_vectors.md 2.7: the sample at P = 1. -/
theorem test_chirpUp : bytesAfter (.chirpUp 0 0x100 1) { withBytes [] with phase := 65 } 0x100 8 =
    some ([0x0F, 0xB1, 0x7F, 0x3F, 0x30, 0xFB, 0x48, 0x3D].map some) := by decide +kernel
theorem test_chirpDn : (next? (exec (.chirpDn 3 0x100 1) { withBytes [] with cfg := ⟨true, 7, 7, 1⟩ })).map (·.phase) =
    some 122 := by decide +kernel

/-- R243: (1.0, 2.0)·(3.0, -1.0) = (5.0, 5.0). -/
theorem test_mix : cmulReference ⟨0x3F800000, 0x40000000⟩ ⟨0x40400000, 0xBF800000⟩ = ⟨0x40A00000, 0x40A00000⟩ := by
  decide +kernel
/-- R244: (1.0, 2.0)·conj(3.0, -1.0) = (1.0, 7.0), stored over the first operand. -/
theorem test_mixC : bytesAfter (.mixC 0x100 0x100 0x108 1)
    (withBytes [0, 0, 0x80, 0x3F, 0, 0, 0x00, 0x40, 0, 0, 0x40, 0x40, 0, 0, 0x80, 0xBF]) 0x100 8 =
    some ([0, 0, 0x80, 0x3F, 0, 0, 0xE0, 0x40].map some) := by decide +kernel

/-- R262 on four samples, x[n] = 1: X = (4, 0, 0, 0), so power = 0 dB, powerAvg = -∞, fIndex = 0. -/
theorem test_detect : detectReference (List.replicate 4 ⟨0x3F800000, 0⟩) = ⟨0, 0, 0xFF800000, 0⟩ := by decide +kernel
/-- R262 on an impulse of four samples: every |X[k]| is 1, the least index wins, power = -20·log10(4) dB and
powerAvg = 10·log10(3) - 20·log10(4) dB (-12.0412 and -7.26999). -/
theorem test_detect_impulse : detectReference (⟨0x3F800000, 0⟩ :: List.replicate 3 ⟨0, 0⟩) =
    ⟨0, 0xC140A8C1, 0xC0E8A3BC, 0⟩ := by decide +kernel
/-- R262 exactly: 577² = 2·408² + 1, so 577 - 408·√2 (about 0.0009) is more than 0, where √2 = ζ - ζ³ for N = 8. -/
theorem test_ringLess : ringLess 8 [0, 0, 0, 0] [577, -408, 0, 408] = true ∧
    ringLess 8 [577, -408, 0, 408] [0, 0, 0, 0] = false := by decide +kernel
/-- R263: an offset exactly midway between 2^-2 and the next binary32 value goes to the even one, and one beyond it up.
With left = 0, right = 2·(2^24+1) and mid = 2^25+2^24+1 the offset is (2^24+1)/2^26. -/
theorem test_fractionalBin_midpoint : fractionalBin 2 [0] [0x3000001 ^ 2] [0x2000002 ^ 2] = 0x3E800000 ∧
    fractionalBin 2 [0] [0x3000001 ^ 2 - 1] [0x2000002 ^ 2] = 0x3E800001 := by decide +kernel
/-- R233: cos(2π/5) is (√5-1)/4, about 0.30901699: between 1292/4181 (0.30901698) and 2091/6766 (0.30904). -/
theorem test_cosCompare : cosCompare 1 5 1292 4181 = 1 ∧ cosCompare 1 5 2091 6766 = -1 ∧ cosCompare 1 6 1 2 = 0 ∧
    cosCompare 4 5 1292 4181 = 1 := by decide +kernel
/-- R15: an implementation's result stands where it is within NUM_TOL of a finite reference result, or where that is
not finite. -/
theorem test_heldTo : heldTo 3 0x00000005 0x00000008 = 8 ∧ heldTo 2 0x00000005 0x00000008 = 5 ∧
    heldTo 2 0x3F800000 0x7FC00000 = 0x3F800000 ∧ heldTo 0 0xFF800000 0xC3120000 = 0xC3120000 := by decide +kernel
theorem test_detectS_align : (next? (exec (.detectS 0xF2 0x1004) (withBytes []))).map (·.statusWord) =
    some 0x704 := by decide

/-! ## The machine -/

/-- An unwritten byte faults (R77). -/
theorem test_unwritten : exec (.gray 0x100 0x100 1) (withBytes [0x34]) = .fault (.unwrittenByte 0x101) := rfl
/-- The host's interface: an instruction placed where step fetches is the next one run. -/
theorem test_withFetchWord : (next? (step (State.reset.withFetchWord 32 0x00038A02))).map (fun t => (t.cfg.word, t.cpc)) =
    some (0x8000038A, 4) := by decide
/-- P4: CHIRP.UP with no SETCFG since reset raises E_NOCFG. -/
theorem test_nocfg : (next? (step (State.reset.withFetchWord 96 0x00000080_00001000_00000010))).map
    (fun t => (t.statusWord, t.cpc, t.errPc)) = some (0x404, 0, 0) := by decide
/-- spec/95_test_vectors.md 2.10: FENC with RDD 5 at CPC = 4 raises E_RANGE. -/
theorem test_fenc_rdd5 : (next? (step ({ State.reset with cpc := 4 }.withFetchWord 128 0x00000540))).map
    (fun t => (t.statusWord, t.cpc, t.errPc)) = some (0x604, 4, 4) := by decide
/-- R23: an accepted GO sets BUSY. -/
theorem test_go : (next? (step { State.reset with turns := [.write .word 0x40000004 3] })).map
    (fun t => (t.statusWord, t.ctrlWord)) = some (1, 2) := by decide
/-- R25, R331: SRST while busy. -/
theorem test_srst : (next? (step { withBytes [0xAB] with turns := [.write .word 0x40000004 5] })).map
    (fun t => (t.statusWord, t.cfg.word, t.lmem)) = some (0, 0, cellsAt 0x100 [0xAB]) := by decide
/-- R62: a 16-bit host write of 0x0123 at 0x102, and what a read of the word finds (R63). -/
theorem test_host_lmem : (next? (step { withBytes [1, 2, 3, 4] with
    mode := .idle, turns := [.write .half 0x40010102 0x0123] })).map (·.lmem) =
    some (cellsAt 0x100 [1, 2, 0x23, 0x01]) := by decide
theorem test_memory_canonical : Memory.wf (Memory.writeBytes [(1, 5), (9, 6)] 3 [7, 8]) = true ∧
    Memory.wf [(2, 0), (1, 0)] = false ∧ Memory.wf [(1, 0), (1, 0)] = false := by decide
theorem test_core_reset : Sys2Proof.core.reset = State.reset := rfl

/-! ## Witnesses: the hypotheses of the statements of Obligations.lean can be met, clause by clause -/

/-- `n` zero bytes from address 0 in an LMEM of 0x2000 bytes, the sequencer running, SF 7, PPM 7, OVS 1. -/
def zeros (n : Nat) : State := { withBytes [] with lmem := cellsAt 0 (List.replicate n 0) }

theorem zeros_written (n a len : Nat) (h : a + len ≤ n) : Written (zeros n) a len := by
  intro k hk
  show (Memory.readByte (cellsAt 0 (List.replicate n 0)) (a + k)).isSome = true
  rw [readByte_cellsAt, if_pos (Nat.zero_le _), List.getElem?_replicate, if_pos (by omega)]
  rfl

/-- A running block whose LMEM holds the bytes of a word at CPC. -/
def atWord (cpc w : Nat) : State :=
  { withBytes [] with cpc := BitVec.ofNat 32 cpc, lmem := cellsAt cpc (leBytes 4 w) }

theorem test_witness_decodeOfEncode : (Instr.setcfg 15 15 255).wellFormed = true ∧
    (Instr.chirpUp 4095 (2 ^ 32 - 1) (2 ^ 32 - 1)).wellFormed = true ∧
    (Instr.whitenC 7 (2 ^ 32 - 1) 0 0 (2 ^ 32 - 1)).wellFormed = true := by decide

theorem test_witness_decodedBytes : decode (leBytes 20 0xFFFFFFFF_00000004_00000010_00000010_00000F60) =
    .ok (.whitenC 7 0x10 0x10 4 0xFFFFFFFF) := rfl

/-- The header beyond LMEM; an undefined opcode in its last word; a reserved bit; operand words beyond LMEM. -/
theorem test_witness_decodeErrors :
    (zeros 0x10).mode = .run ∧ (zeros 0x10).turns = [] ∧
    (atWord 0x2000 0).params.lmemBytes < (atWord 0x2000 0).cpc.toNat + 4 ∧
    (WordAt (atWord 0x1FFC 6) 0x1FFC 6 ∧ (atWord 0x1FFC 6).cpc.toNat + 4 ≤ (atWord 0x1FFC 6).params.lmemBytes ∧
      6 ∉ definedOpcodes) ∧
    (WordAt (atWord 0x1FFC 0x1001) 0x1FFC 0x1001 ∧ 1 ∈ definedOpcodes ∧ 0x1001#32 &&& reservedMask 1 ≠ 0) ∧
    (WordAt (atWord 0x1FF4 0x40) 0x1FF4 0x40 ∧ opcodeLength 0x40 = some 4 ∧ 0x40#32 &&& reservedMask 0x40 = 0 ∧
      (atWord 0x1FF4 0x40).params.lmemBytes < (atWord 0x1FF4 0x40).cpc.toNat + 4 * 4) :=
  ⟨rfl, rfl, by decide, ⟨rfl, by decide, by decide⟩, ⟨rfl, by decide, by decide⟩, ⟨rfl, rfl, by decide, by decide⟩⟩

def fdecRdd7 : State :=
  { withBytes [] with cpc := 0x1FF0, lmem := cellsAt 0x1FF0 (leBytes 16 0x741) }

theorem test_witness_fencFdecIllegalRdd : fdecRdd7.mode = .run ∧ fdecRdd7.turns = [] ∧
    fdecRdd7.cpc.toNat + 16 ≤ fdecRdd7.params.lmemBytes ∧ Written fdecRdd7 fdecRdd7.cpc.toNat 16 ∧
    fdecRdd7.lmem.read fdecRdd7.cpc.toNat 4 = .ok (0x41 + 256 * 7) :=
  ⟨rfl, rfl, by decide, by decide, rfl⟩

theorem test_witness_stepRunsTheDecoded : (atWord 0x1FFC 1).mode = .run ∧
    (atWord 0x1FFC 1).cpc.toNat + 4 ≤ (atWord 0x1FFC 1).params.lmemBytes ∧
    Memory.readBytes (atWord 0x1FFC 1).lmem 0x1FFC 4 = .ok [1, 0, 0, 0] ∧ decode [1, 0, 0, 0] = .ok .halt ∧
    (atWord 0x1FFC 1).turns = [] ∧ { atWord 0x1FFC 1 with turns := [.sequencer] }.turns = .sequencer :: [] :=
  ⟨rfl, by decide, rfl, rfl, rfl, rfl⟩

theorem test_witness_commandsComplete : (∃ t, exec (.setcfg 12 0 255) (zeros 0) = .next t) ∧
    (∃ t, exec (.setcfg 13 0 255) (zeros 0) = .next t) ∧ ∃ t, exec .halt (zeros 0) = .next t :=
  ⟨⟨_, rfl⟩, ⟨_, rfl⟩, ⟨_, rfl⟩⟩

theorem test_witness_commandsFault : exec (.fencRaw 0 0x1FFF 1) (zeros 0) = .fault (.unwrittenByte 0x1FFF) ∧
    Written (zeros 0x2000) 0 (zeros 0x2000).params.lmemBytes :=
  ⟨rfl, zeros_written 0x2000 0 0x2000 (by decide)⟩

theorem test_witness_everyRunTerminates : (zeros 4).turns = [] ∧ (zeros 4).params.lmemBytes ≤ 2 ^ 31 ∧
    (zeros 4).mode = .run ∧ ∃ t, step (zeros 4) = .next t := ⟨rfl, by decide, rfl, ⟨_, rfl⟩⟩

theorem test_witness_invariant : invariant (zeros 4) = true ∧ ∃ t, step (zeros 4) = .next t := ⟨by decide, ⟨_, rfl⟩⟩

theorem test_witness_parameters : ∃ t, step (zeros 4) = .next t := ⟨_, rfl⟩

theorem test_witness_orbits : whitenerOnOrbits (zeros 4).wh ∧ ∃ t, step (zeros 4) = .next t :=
  ⟨⟨⟨0, .inl rfl⟩, ⟨0, .inl rfl⟩⟩, ⟨_, rfl⟩⟩

/-- A block whose next turn is a host write of CTRL. -/
def ctrlWrite (s : State) (v : Word) : State := { s with turns := [.write .word 0x40000004 v] }

theorem test_witness_onlyGo : (ctrlWrite State.reset 1).mode = .idle ∧
    ∃ t, step (ctrlWrite State.reset 1) = .next t ∧ t.mode = .run := ⟨rfl, ⟨_, rfl, rfl⟩⟩

/-- An accepted GO; one while BUSY; one while ERR = 1; a write without GO. -/
theorem test_witness_ctrlWrite :
    (ctrlWrite State.reset 3).turns = .write .word ((ctrlWrite State.reset 3).params.regBase + 4) 3 :: [] ∧
    (3#32).getLsbD 2 = false ∧ (3#32).getLsbD 0 = true ∧ (ctrlWrite State.reset 3).mode = .idle ∧
    (ctrlWrite State.reset 3).err = false ∧ (ctrlWrite (zeros 0) 3).mode = .run ∧
    (ctrlWrite { State.reset with err := true } 3).err = true ∧
    (2#32).getLsbD 2 = false ∧ (2#32).getLsbD 0 = false := by decide

theorem test_witness_resets :
    (ctrlWrite (zeros 0) 7).turns = .write .word ((zeros 0).params.regBase + 4) 7 :: [] ∧ (7#32).getLsbD 2 = true ∧
    { zeros 0 with turns := [.hardwareReset] }.turns = .hardwareReset :: [] := by decide

/-- A block whose next turn is a reset that aborts FENC.RAW 0x30, 0x20, 1. -/
def aborting : State :=
  { zeros 0x40 with
    lmem := Memory.writeBytes (zeros 0x40).lmem 0 (leBytes 16 0x00000001_00000020_00000030_00000040)
    turns := [.abortingReset] }

theorem test_witness_abort : aborting.turns = .abortingReset :: [] ∧ aborting.mode = .run ∧
    aborting.lmem.wf = true ∧ (∃ u, runCommand { aborting with turns := [] } = .next u) ∧
    { aborting with mode := .idle }.mode = .idle := ⟨rfl, rfl, by decide, ⟨_, rfl⟩, rfl⟩

theorem test_witness_statusAndCpcWrites :
    { State.reset with turns := [.write .word 0x40000008 6] }.turns =
      .write .word (State.reset.params.regBase + 8) 6 :: [] ∧
    { State.reset with turns := [.write .word 0x4000000C 7] }.turns =
      .write .word (State.reset.params.regBase + 0xC) 7 :: [] ∧
    State.reset.mode = .idle ∧ (zeros 0).mode = .run := by decide

/-- The first and the last register, the first and the last reserved offset, a write of ID and of the last offset. -/
theorem test_witness_registerReads :
    { State.reset with turns := [.read .word 0x40000000] }.turns = .read .word (State.reset.params.regBase + 0) :: [] ∧
    { State.reset with turns := [.read .word 0x4000004C] }.turns =
      .read .word (State.reset.params.regBase + 0x4C) :: [] ∧
    { State.reset with turns := [.read .word 0x40000050] }.turns =
      .read .word (State.reset.params.regBase + 0x50) :: [] ∧
    { State.reset with turns := [.read .word 0x40000FFC] }.turns =
      .read .word (State.reset.params.regBase + 0xFFC) :: [] ∧
    { State.reset with turns := [.write .word 0x40000000 1] }.turns =
      .write .word (State.reset.params.regBase + 0) 1 :: [] ∧
    { State.reset with turns := [.write .word 0x40000FFC 1] }.turns =
      .write .word (State.reset.params.regBase + 0xFFC) 1 :: [] ∧
    0x50 % 4 = 0 ∧ 0xFFC % 4 = 0 ∧ 0xFFC < 0x1000 ∧ 0xFFC ∉ [0x4, 0x8, 0xC] ∧ 0 ∉ [0x4, 0x8, 0xC] := by decide

theorem test_witness_hostLmem : ∀ p ∈ [(AccessSize.byte, 0x1FFF), (.half, 0x1FFE), (.word, 0x1FFC), (.word, 0)],
    p.2 % p.1.bytes = 0 ∧ p.2 + p.1.bytes ≤ State.reset.params.lmemBytes ∧
    Outside State.reset.params.regBase 4096 (State.reset.params.lmemBase + p.2) ∧ State.reset.mode = .idle ∧
    { State.reset with turns := [.write p.1 (0x40010000 + p.2) 5, .read p.1 (0x40010000 + p.2)] }.turns =
      .write p.1 (State.reset.params.lmemBase + p.2) 5 :: .read p.1 (State.reset.params.lmemBase + p.2) :: [] := by
  decide

/-- The last LMEM byte while BUSY; a misaligned word; a byte of a register, a misaligned word in the last one; the
first address past LMEM. -/
theorem test_witness_hostRefusals :
    ({ zeros 0 with turns := [.read .byte 0x40011FFF] }.turns = .read .byte 0x40011FFF :: [] ∧
      Outside (zeros 0).params.regBase 4096 0x40011FFF ∧
      ¬ Outside (zeros 0).params.lmemBase (zeros 0).params.lmemBytes 0x40011FFF ∧ (zeros 0).mode = .run) ∧
    (State.reset.mode = .idle ∧ (0x40010002 - State.reset.params.lmemBase) % AccessSize.word.bytes ≠ 0 ∧
      ¬ Outside State.reset.params.lmemBase State.reset.params.lmemBytes 0x40010002) ∧
    (¬ Outside State.reset.params.regBase 4096 0x40000FFE ∧ AccessSize.byte ≠ .word ∧
      (0x40000FFE - State.reset.params.regBase) % 4 ≠ 0) ∧
    (Outside State.reset.params.regBase 4096 0x40012000 ∧
      Outside State.reset.params.lmemBase State.reset.params.lmemBytes 0x40012000) := by decide

theorem test_witness_returnFromError :
    let s : State := { State.reset with
      err := true, errCode := .fetch, turns := [.write .word 0x40000008 4, .write .word 0x40000004 1] }
    s.mode = .idle ∧ s.err = true ∧
    s.turns = .write .word (s.params.regBase + 8) 4 :: .write .word (s.params.regBase + 4) 1 :: [] ∧
    (1#32).getLsbD 0 = true ∧ (1#32).getLsbD 2 = false := by decide

theorem test_witness_interrupt : (∃ t, exec .halt (zeros 0) = .next t) ∧ State.reset.mode = .idle ∧
    { State.reset with turns := [.write .word 0x40000008 6] }.turns =
      .write .word (State.reset.params.regBase + 8) 6 :: [] := ⟨⟨_, rfl⟩, rfl, rfl⟩

/-- The least and the greatest legal configuration; the errors next to them. -/
theorem test_witness_setcfg : Instr.wellFormed (.setcfg 7 0 0) = true ∧ Instr.wellFormed (.setcfg 12 12 255) = true ∧
    Instr.wellFormed (.setcfg 6 0 0) = true ∧ Instr.wellFormed (.setcfg 13 0 0) = true ∧
    Instr.wellFormed (.setcfg 7 8 0) = true ∧ 7 < 8 := by decide

/-- The greatest finite value and the infinity above it; no configuration; P = U and P = U - 1. -/
theorem test_witness_setamplSetphase : 0x7F7FFFFF / 2 ^ 23 % 256 ≠ 255 ∧ 0x7F800000 / 2 ^ 23 % 256 = 255 ∧
    State.reset.cfg.valid = false ∧ (zeros 0).cfg.valid = true ∧ (zeros 0).cfg.sf.toNat ≤ 12 ∧
    2 ^ (zeros 0).cfg.sf.toNat * ((zeros 0).cfg.ovsm1.toNat + 1) ^ 2 ≤ 128 ∧
    127 < 2 ^ (zeros 0).cfg.sf.toNat * ((zeros 0).cfg.ovsm1.toNat + 1) ^ 2 := by decide

/-- DST in the last two bytes of LMEM. -/
theorem test_witness_symbolCommands : 0x1FFE % 2 = 0 ∧ Fits (zeros 4) 0x1FFE (2 * 1) ∧ Fits (zeros 4) 2 (2 * 1) ∧
    Written (zeros 4) 2 (2 * 1) ∧ (zeros 4).cfg.valid = true :=
  ⟨rfl, by decide, by decide, zeros_written 4 2 2 (by decide), rfl⟩

theorem test_witness_symbolErrors : State.reset.cfg.valid = false ∧ (zeros 0).cfg.valid = true ∧ 1 % 2 ≠ 0 ∧
    ¬ (Fits (zeros 0) 0x2000 (2 * 1) ∧ Fits (zeros 0) 0 (2 * 1)) := by decide

theorem test_witness_grayWidth : (0xFFFF#16).toNat < 2 ^ 16 ∧ (0#16).toNat < 2 ^ 0 := by decide

theorem test_witness_symrxSymtx : (1#16).toNat < 2 ^ 1 ∧ (0xFFF#16).toNat < 2 ^ 12 := by decide

/-- FENC and FDEC, and WHITEN with the greatest RDD: DST is the last byte of LMEM. -/
theorem test_witness_byteCommands : Fits (zeros 1) 0x1FFF 1 ∧ Fits (zeros 1) 0 1 ∧ Written (zeros 1) 0 1 ∧ 4 ≤ 4 :=
  ⟨by decide, by decide, zeros_written 1 0 1 (by decide), Nat.le_refl 4⟩

theorem test_witness_groups : 0b0111#4 ||| 0b1110#4 = 0b1111 ∧ 0b0101#4 ||| 0b1010#4 = 0b1111 := by decide

theorem test_witness_byteErrors : 4 < 5 ∧ ¬ (Fits (zeros 1) 0x2000 1 ∧ Fits (zeros 1) 0 1) := by decide

theorem test_witness_keyBytes : (seeds 1).widx = false := rfl

theorem test_witness_whitenTwice : Fits (withBytes [5]) 0x1FFF 1 ∧ Fits (withBytes [5]) 0x100 1 ∧
    ∃ t u v w, exec (.whiten 4 0x1FFF 0x100 1 3) (withBytes [5]) = .next t ∧ exec (.whiten 4 0 0x1FFF 1 3) t = .next u ∧
      exec (.whitenC 4 0x1FFF 0x100 1 3) (withBytes [5]) = .next v ∧
      exec (.whitenC 4 0 0x1FFF 1 3) { v with wh := (withBytes [5]).wh } = .next w :=
  ⟨by decide, by decide, ⟨_, _, _, _, rfl, rfl, rfl, rfl⟩⟩

theorem test_witness_whitenInTwoPieces : Fits (withBytes [5, 6, 7]) 0x100 (1 + 2) ∧
    ∃ t u w, exec (.whiten 4 0x100 0x100 1 509) (withBytes [5, 6, 7]) = .next t ∧
      exec (.whitenC 4 (0x100 + 1) (0x100 + 1) 2 0) t = .next u ∧
      exec (.whiten 4 0x100 0x100 (1 + 2) 509) (withBytes [5, 6, 7]) = .next w :=
  ⟨by decide, ⟨_, _, _, rfl, rfl, rfl⟩⟩

/-- One block of PPM 7 with RDD 4, its output or input at the end of LMEM. -/
theorem test_witness_ilv : (zeros 7).cfg.valid = true ∧ Fits (zeros 7) 0x1FF0 (2 * (7 / 7 * (4 + 4))) ∧
    Fits (zeros 7) 0 (7 / 7 * 7) ∧ Written (zeros 7) 0 (7 / 7 * 7) :=
  ⟨rfl, by decide, by decide, zeros_written 7 0 7 (by decide)⟩

theorem test_witness_dilv : (zeros 16).cfg.valid = true ∧ Fits (zeros 16) 0x1FF9 (8 / (4 + 4) * 7) ∧
    Fits (zeros 16) 0 (2 * (8 / (4 + 4) * (4 + 4))) ∧ Written (zeros 16) 0 (2 * (8 / (4 + 4) * (4 + 4))) :=
  ⟨rfl, by decide, by decide, zeros_written 16 0 16 (by decide)⟩

theorem test_witness_blocks : (List.replicate 12 (5 : Byte)).length = 12 ∧
    (List.replicate (4 + 4) (5 : Symbol)).length = 4 + 4 := by decide

theorem test_witness_dilvUndoesIlv : (zeros 7).cfg.valid = true ∧ 1 ≤ (zeros 7).cfg.ppm.toNat ∧
    Fits (zeros 7) 0x100 (2 * (1 * (4 + 0))) ∧ Fits (zeros 7) 0 (1 * (zeros 7).cfg.ppm.toNat) ∧
    ∃ t u, exec (.ilv 0 0x100 0 (1 * (zeros 7).cfg.ppm.toNat)) (zeros 7) = .next t ∧
      exec (.dilv 0 0x40 0x100 (1 * (4 + 0))) t = .next u :=
  ⟨rfl, by decide, by decide, by decide, ⟨_, _, rfl, rfl⟩⟩

theorem test_witness_interleaverErrors : State.reset.cfg.valid = false ∧ (zeros 0).cfg.valid = true ∧
    ¬ (Fits (zeros 0) 0x1FF2 (2 * (7 / (zeros 0).cfg.ppm.toNat * (4 + 4))) ∧
      Fits (zeros 0) 0 (7 / (zeros 0).cfg.ppm.toNat * (zeros 0).cfg.ppm.toNat)) ∧
    ¬ (Fits (zeros 0) 0 (8 / (4 + 4) * (zeros 0).cfg.ppm.toNat) ∧
      Fits (zeros 0) 0x1FF2 (2 * (8 / (4 + 4) * (4 + 4)))) := by decide

/-- A full chirp with the greatest FBIN, in the last bytes of LMEM. -/
theorem test_witness_chirp : (zeros 0).cfg.valid = true ∧ 7 ≤ (zeros 0).cfg.sf.toNat ∧ (zeros 0).cfg.sf.toNat ≤ 12 ∧
    127 < 2 ^ (zeros 0).cfg.sf.toNat ∧ 128 ≤ 2 ^ (zeros 0).cfg.sf.toNat * ((zeros 0).cfg.ovsm1.toNat + 1) ∧
    0x1C00 % 8 = 0 ∧ Fits (zeros 0) 0x1C00 (8 * 128) := by decide

theorem test_witness_fullChirp :
    ({ zeros 0 with phase := 127 } : State).phase.toNat <
      2 ^ (zeros 0).cfg.sf.toNat * ((zeros 0).cfg.ovsm1.toNat + 1) ^ 2 ∧
    0x1C00 + 8 * (2 ^ (zeros 0).cfg.sf.toNat * ((zeros 0).cfg.ovsm1.toNat + 1)) ≤ (zeros 0).params.lmemBytes ∧
    (zeros 0).cfg.ovsm1.toNat + 1 = 1 := by decide

theorem test_witness_dechirp : (zeros 0).cfg.ovsm1 = 0 ∧ 7 ≤ (zeros 0).cfg.sf.toNat ∧ (zeros 0).cfg.sf.toNat ≤ 12 ∧
    127 < 2 ^ (zeros 0).cfg.sf.toNat := by decide

theorem test_witness_chirpErrors : State.reset.cfg.valid = false ∧ (zeros 0).cfg.valid = true ∧
    2 ^ (zeros 0).cfg.sf.toNat ≤ 128 ∧ 2 ^ (zeros 0).cfg.sf.toNat * ((zeros 0).cfg.ovsm1.toNat + 1) < 129 ∧
    0x1004 % 8 ≠ 0 ∧ ¬ Fits (zeros 0) 0x1C08 (8 * 128) := by decide

/-- The least and the greatest magnitude, and a zero amplitude; the cosine of 2π/4 is a real 0. -/
theorem test_witness_cis : nonFinite 0x00000001 = false ∧ f32Mag 0x00000001 ≠ 0 ∧ nonFinite 0xFF7FFFFF = false ∧
    nonFinite 0x80000000 = false ∧ f32Mag 0x80000000 = 0 ∧ 0 < 2 ^ 28 := by decide

theorem test_witness_cisZero : (f32Value 0x3F800000 : ℝ) / 2 ^ 149 * Real.cos (2 * Real.pi * (1 : Nat) / (4 : Nat)) = 0 := by
  rw [show 2 * Real.pi * (1 : Nat) / (4 : Nat) = Real.pi / 2 by push_cast; ring, Real.cos_pi_div_two, mul_zero]

theorem test_witness_rounding : f32IsInf (rnd32 (-1) 150) = false ∧ nonFinite 0x7F7FFFFF = false := by decide +kernel

/-- COUNT 1, DST the last sample of LMEM. -/
theorem test_witness_mix : 0x1FF8 % 8 = 0 ∧ Fits (zeros 16) 0x1FF8 (8 * 1) ∧ Fits (zeros 16) 0 (8 * 1) ∧
    Fits (zeros 16) 8 (8 * 1) ∧ Written (zeros 16) 0 (8 * 1) ∧ Written (zeros 16) 8 (8 * 1) :=
  ⟨rfl, by decide, by decide, by decide, zeros_written 16 0 8 (by decide), zeros_written 16 8 8 (by decide)⟩

/-- spec/95_test_vectors.md 2.8: MIX of (NaN, 0) and (1, 0). -/
theorem test_witness_mixNaN : (numCmul .reference ⟨0x7F800001, 0⟩ ⟨0x3F800000, 0⟩).i = 0x7FC00000 ∧
    f32IsNaN (numCmul .reference ⟨0x7F800001, 0⟩ ⟨0x3F800000, 0⟩).i = true := by decide +kernel

theorem test_witness_mixErrors : 4 % 8 ≠ 0 ∧ ¬ (Fits (zeros 0) 0x2000 (8 * 1) ∧ Fits (zeros 0) 0 (8 * 1) ∧
    Fits (zeros 0) 0 (8 * 1)) := by decide

/-- A product that does not overflow, and one that does. -/
theorem test_witness_conjugate : nonFinite 0x40400000 = false ∧ nonFinite 0x7F7FFFFF = false ∧
    f32IsInf (f32Mul 0x40400000 0x40400000) = false ∧ f32IsInf (f32Mul 0x7F7FFFFF 0x7F7FFFFF) = true := by
  decide +kernel

/-- Products, sums and differences that are 0 and that are not; an infinity and a zero, a finite value, an infinity of
either sign; a NaN. -/
theorem test_witness_binary32 : nonFinite 0x80000000 = false ∧ f32Value 0x80000000 * f32Value 0x40400000 = 0 ∧
    f32Value 0x40400000 * f32Value 0x40400000 ≠ 0 ∧ f32Value 0x40400000 + f32Value 0xC0400000 = 0 ∧
    f32Value 0x40400000 - f32Value 0xC0400000 ≠ 0 ∧ f32IsInf 0x7F800000 = true ∧ f32IsInf 0xFF800000 = true ∧
    f32Mag 0x80000000 = 0 ∧ f32IsNaN 0x40400000 = false ∧ f32Mag 0x40400000 ≠ 0 ∧
    f32Sign 0x7F800000 ≠ f32Sign 0xFF800000 ∧ f32IsNaN 0x7F800001 = true := by decide +kernel

theorem test_witness_tolerance : nonFinite (cisReference 0x3F800000 0 128).i = false ∧
    nonFinite (cmulReference ⟨0x3F800000, 0⟩ ⟨0x40400000, 0⟩).i = false := by decide +kernel

/-- The samples and the record at the ends of LMEM. -/
theorem test_witness_detect : (zeros 0x2000).cfg.valid = true ∧ 0x1C00 % 8 = 0 ∧
    Fits (zeros 0x2000) 0x1C00 (8 * 2 ^ (zeros 0x2000).cfg.sf.toNat) ∧
    Written (zeros 0x2000) 0x1C00 (8 * 2 ^ (zeros 0x2000).cfg.sf.toNat) ∧
    0x1FF0 % 4 = 0 ∧ 0x1FF0 + 16 ≤ (zeros 0x2000).params.lmemBytes :=
  ⟨rfl, rfl, by decide, zeros_written 0x2000 0x1C00 _ (by decide), rfl, by decide⟩

theorem test_witness_detectErrors : State.reset.cfg.valid = false ∧ (zeros 0).cfg.valid = true ∧ 0x1004 % 8 ≠ 0 ∧
    0xF2 % 4 ≠ 0 ∧ (zeros 0).params.lmemBytes < 0x1C08 + 8 * 2 ^ (zeros 0).cfg.sf.toNat ∧
    (zeros 0).params.lmemBytes < 0x1FF4 + 16 := by decide

theorem test_witness_dft : ([(1, 0), (0, 1), (2, 0), (0, 0)] : List (Int × Int)).length = 2 ^ 2 ∧ 3 < 2 ^ 2 := by decide

/-- Real ring numbers of N = 8: √2, and 1. -/
theorem test_witness_ringOrder : ([0, 1, 0, -1] : List Int).length = 2 ^ 3 / 2 ∧ ringConj [0, 1, 0, -1] = [0, 1, 0, -1] ∧
    ([1, 0, 0, 0] : List Int).length = 2 ^ 3 / 2 ∧ ringConj [1, 0, 0, 0] = [1, 0, 0, 0] := by decide

/-- The shortest and the longest finite input, and a transform of it. -/
theorem test_witness_finiteSamples : ∀ e ∈ [7, 12],
    (List.replicate (2 ^ e) (⟨0x3F800000, 0x80000001⟩ : Sample)).length = 2 ^ e ∧
    AllFinite (List.replicate (2 ^ e) ⟨0x3F800000, 0x80000001⟩) ∧
    ∃ X, IsDft (List.replicate (2 ^ e) ⟨0x3F800000, 0x80000001⟩) X :=
  fun _ _ => ⟨List.length_replicate, fun _ h => by rw [List.eq_of_mem_replicate h]; decide, ⟨_, fun _ => rfl⟩⟩

theorem test_witness_corners :
    (List.replicate 128 (⟨0x7FC00000, 0⟩ : Sample)).length = 2 ^ 7 ∧ nonFinite 0x7FC00000 = true ∧
    f32Mag 0x80000000 = 0 ∧ f32Mag 0 = 0 ∧ (List.replicate 4096 (⟨0, 0⟩ : Sample)).length = 2 ^ 12 := by
  refine ⟨List.length_replicate, by decide, by decide, by decide, List.length_replicate⟩

theorem test_witness_memory : Memory.read [(7, 0x34), (8, 0x12)] 7 2 = .ok 0x1234 := rfl

end Sys2Proof.Machine.Tests
end

section
/-! PROOFS. MemRead and MemWrite as numbers (spec/00_scope.md R12), and the parameters that every step keeps (R9). -/

namespace Sys2Proof.Machine

/-! Little-endian numbers -/

/-- A little-endian number is the sum of its bytes at their weights. -/
theorem leNat_eq_sum (bs : List Byte) :
    leNat bs = ∑ k ∈ Finset.range bs.length, (bs[k]?.getD 0).toNat * 256 ^ k := by
  induction bs with
  | nil => rfl
  | cons b bs ih =>
    rw [leNat, ih, List.length_cons, Finset.sum_range_succ', Finset.mul_sum, Nat.add_comm]
    simp [pow_succ', Nat.mul_left_comm]

/-- Which numeric reads succeed, and what they give. -/
theorem read_eq_ok (m : Memory) (a n v : Nat) :
    m.read a n = .ok v ↔ (∀ k < n, (m.readByte (a + k)).isSome = true) ∧
      v = ∑ k ∈ Finset.range n, ((m.readByte (a + k)).getD 0).toNat * 256 ^ k := by
  have sum_eq (bs : List Byte) (hbs : m.readBytes a n = .ok bs) :
      leNat bs = ∑ k ∈ Finset.range n, ((m.readByte (a + k)).getD 0).toNat * 256 ^ k := by
    obtain ⟨hlen, hbyte⟩ := (readBytes_eq_ok ..).mp hbs
    rw [leNat_eq_sum, hlen]
    exact Finset.sum_congr rfl fun k hk => by rw [hbyte k (Finset.mem_range.mp hk)]
  rw [Memory.read]
  constructor
  · intro h
    cases hbs : m.readBytes a n with
    | error f => simp [hbs] at h
    | ok bs =>
      obtain ⟨hlen, hbyte⟩ := (readBytes_eq_ok ..).mp hbs
      simp only [hbs, Except.ok.injEq] at h
      exact ⟨fun k hk => by rw [hbyte k hk]; simp [hlen, hk], by rw [← h, sum_eq bs hbs]⟩
  · rintro ⟨hwritten, rfl⟩
    obtain ⟨bs, hbs⟩ := readBytes_of_written m a n hwritten
    simp only [hbs, sum_eq bs hbs]

/-- Settles O60: the sum of the bytes read, the number read back, and the bytes outside a write. -/
theorem memoryAccessesAreLittleEndian : Obligations.MemoryAccessesAreLittleEndian := by
  intro m a n v
  refine ⟨read_eq_ok m a n v, ?_, fun x hx => ?_⟩
  · rw [read_write, pow_mul]; rfl
  · exact readByte_writeBytes_outside m a _ x (by simpa using hx)

/-! The parameters -/

/-- A command keeps the parameters where its perform phase does. -/
theorem command_keeps_params (len : Nat) (cs : List Check) (perform : State → Except Fault State) (s t : State)
    (hp : ∀ u, perform s = .ok u → u.params = s.params) (h : command len cs perform s = .next t) :
    t.params = s.params := by
  rcases (command_next ..).mp h with ⟨e, -, rfl⟩ | ⟨-, u, hu, rfl⟩
  · rfl
  · exact hp u hu

theorem mapSymbols_keeps_params (f : Symbol → Symbol) (dst src count : Nat) (s u : State)
    (h : mapSymbols f dst src count s = .ok u) : u.params = s.params := by
  obtain ⟨xs, -, rfl⟩ := (mapSymbols_ok ..).mp h; rfl

theorem encodeArray_keeps_params (enc : BitVec 4 → Byte) (dst src count : Nat) (s u : State)
    (h : encodeArray enc dst src count s = .ok u) : u.params = s.params := by
  obtain ⟨bs, -, rfl⟩ := (encodeArray_ok ..).mp h; rfl

theorem decodeArray_keeps_params (dec : Byte → Nibble) (dst src count : Nat) (s u : State)
    (h : decodeArray dec dst src count s = .ok u) : u.params = s.params := by
  obtain ⟨bs, -, rfl⟩ := (decodeArray_ok ..).mp h; rfl

theorem whitenArray_keeps_params (w : Whitener) (rdd dst src count bitofs : Nat) (s u : State)
    (h : whitenArray w rdd dst src count bitofs s = .ok u) : u.params = s.params := by
  obtain ⟨bs, -, rfl⟩ := (whitenArray_ok ..).mp h; rfl

theorem mixArray_keeps_params (f : Sample → Sample) (dst srca srcb count : Nat) (s u : State)
    (h : mixArray f dst srca srcb count s = .ok u) : u.params = s.params := by
  obtain ⟨xs, ys, -, -, rfl⟩ := (mixArray_ok ..).mp h; rfl

theorem detectAt_keeps_params (src : Nat) (s u : State) (h : detectAt src s = .ok u) : u.params = s.params := by
  obtain ⟨xs, -, rfl⟩ := (detectAt_ok ..).mp h; rfl

/-- No command changes the parameters. -/
theorem exec_keeps_params (i : Instr) (s t : State) (h : exec i s = .next t) : t.params = s.params := by
  cases i with
  | nop | halt | setcfg | setampl | setphase | clrstat =>
    simp only [exec, execNop, execHalt, execSetcfg, execSetampl, execSetphase, execClrstat] at h
    refine command_keeps_params _ _ _ s t ?_ h
    intro u hu
    cases hu; rfl
  | gray | igray | symrx | symtx =>
    exact command_keeps_params _ _ _ s t (mapSymbols_keeps_params _ _ _ _ s) h
  | fencRaw | fencP54 | fencP64 | fencH74 | fencH84 =>
    exact command_keeps_params _ _ _ s t (encodeArray_keeps_params _ _ _ _ s) h
  | fdecRaw | fdecP54 | fdecP64 | fdecH74 | fdecH84 =>
    exact command_keeps_params _ _ _ s t (decodeArray_keeps_params _ _ _ _ s) h
  | whiten | whitenC =>
    exact command_keeps_params _ _ _ s t (whitenArray_keeps_params _ _ _ _ _ _ s) h
  | ilv =>
    refine command_keeps_params _ _ _ s t ?_ h
    intro u hu
    obtain ⟨cw, -, rfl⟩ := (interleaveArray_ok ..).mp hu; rfl
  | dilv =>
    refine command_keeps_params _ _ _ s t ?_ h
    intro u hu
    obtain ⟨sym, -, rfl⟩ := (deinterleaveArray_ok ..).mp hu; rfl
  | chirpUp | chirpDn =>
    simp only [exec, execChirpUp, execChirpDn] at h
    refine command_keeps_params _ _ _ s t ?_ h
    intro u hu
    rw [chirpArray_ok] at hu; cases hu; rfl
  | mix | mixC =>
    exact command_keeps_params _ _ _ s t (mixArray_keeps_params _ _ _ _ _ s) h
  | detect =>
    exact command_keeps_params _ _ _ s t (detectAt_keeps_params _ s) h
  | detectS =>
    refine command_keeps_params _ _ _ s t ?_ h
    intro u hu
    obtain ⟨v, hv, rfl⟩ := (detectStore_ok ..).mp hu
    exact detectAt_keeps_params _ s v hv

theorem runCommand_keeps_params (s t : State) (h : runCommand s = .next t) : t.params = s.params := by
  rcases runCommand_cases s with ⟨e, -, hr⟩ | ⟨f, -, hr⟩ | ⟨i, -, hr⟩
  · rw [hr] at h; cases h; rfl
  · rw [hr] at h; cases h
  · exact exec_keeps_params i s t (hr ▸ h)

theorem sequencerMove_keeps_params (s t : State) (h : sequencerMove s = .next t) : t.params = s.params := by
  cases hm : s.mode with
  | idle => rw [sequencerMove_idle s hm] at h; cases h; rfl
  | run => exact runCommand_keeps_params s t (sequencerMove_run s hm ▸ h)

theorem writeRegister_keeps_params (offset : Nat) (v : Word) (s : State) :
    (writeRegister offset v s).params = s.params := by
  unfold writeRegister
  split
  · rcases writeCtrl_cases v s with ⟨-, e⟩ | ⟨-, -, -, -, e⟩ | ⟨-, -, e⟩
    · simp only [e, softReset_params]
    · rw [e]
    · rw [e]
  · unfold writeStatus
    repeat' split
    all_goals rfl
  · unfold writeCpc
    split <;> rfl
  · rfl

/-- No turn of either agent changes the parameters. -/
theorem takeTurn_keeps_params (turn : Turn) (s t : State) (h : takeTurn turn s = .next t) : t.params = s.params := by
  cases turn with
  | sequencer => exact sequencerMove_keeps_params s t h
  | read size addr => obtain ⟨v, rfl⟩ := hostRead_next size addr s t h; rfl
  | write size addr v =>
    rcases hostWrite_next size addr v s t h with ⟨offset, -, -, -, rfl⟩ | ⟨a, -, -, -, -, rfl⟩
    · exact writeRegister_keeps_params offset v s
    · rfl
  | abortingReset =>
    rcases abortingReset_next s t h with ⟨-, rfl⟩ | ⟨-, u, -, rfl⟩
    · rfl
    · rfl
  | hardwareReset => cases h; rfl

/-- Settles O12: a step is a turn of one of the agents. -/
theorem parametersNeverChange : Obligations.ParametersNeverChange := by
  intro s t h
  cases hs : s.turns with
  | nil => exact sequencerMove_keeps_params s t (step_of_no_turns s hs ▸ h)
  | cons turn rest =>
    rw [step_of_turn s turn rest hs] at h
    exact takeTurn_keeps_params turn { s with turns := rest } t h

end Sys2Proof.Machine
end

section
/-! PROOFS. Rounding to binary32 (spec/00_scope.md R14). A magnitude is its encoding m below the sign bit, and
`magUnits m` its value in units of 2^-149. That m is the rounding of x ≥ 0 says that x lies between the midpoints of m
with its two neighbours, and on one of them only where m is even; every rounding of the model is proved in this form,
which passes from the two ends of an interval to its points. -/

namespace Sys2Proof.Machine

/-! Magnitudes -/

/-- The value of the magnitude encoding `m` in units of 2^-149, by the formula of finite values. -/
def magUnits (m : Nat) : Nat := if m / 2 ^ 23 = 0 then m % 2 ^ 23 else (m % 2 ^ 23 + 2 ^ 23) * 2 ^ (m / 2 ^ 23 - 1)

theorem f32Units_eq (w : Word) : f32Units w = magUnits (f32Mag w) := rfl

/-- The encoding (q + 149)·2^23 + m of m quanta 2^q, with Q = q + 149. -/
theorem magUnits_quanta (Q m : Nat) (hm : m ≤ 2 ^ 24) (hQ : Q = 0 ∨ 2 ^ 23 ≤ m) :
    magUnits (Q * 2 ^ 23 + m) = m * 2 ^ Q := by
  unfold magUnits
  rcases Nat.lt_or_ge m (2 ^ 23) with h | h
  · obtain rfl : Q = 0 := by omega
    rw [if_pos (by omega)]
    omega
  · rw [if_neg (by omega)]
    rcases Nat.lt_or_ge m (2 ^ 24) with h' | h'
    · rw [show (Q * 2 ^ 23 + m) % 2 ^ 23 + 2 ^ 23 = m by omega, show (Q * 2 ^ 23 + m) / 2 ^ 23 - 1 = Q by omega]
    · obtain rfl : m = 2 ^ 24 := by omega
      rw [show (Q * 2 ^ 23 + 2 ^ 24) % 2 ^ 23 + 2 ^ 23 = 2 ^ 23 by omega,
        show (Q * 2 ^ 23 + 2 ^ 24) / 2 ^ 23 - 1 = Q + 1 by omega, pow_succ]
      ring

/-- Every encoding counts quanta. -/
theorem exists_quanta (n : Nat) : ∃ Q m, n = Q * 2 ^ 23 + m ∧ m < 2 ^ 24 ∧ (Q = 0 ∨ 2 ^ 23 ≤ m) := by
  rcases Nat.lt_or_ge n (2 ^ 23) with h | h
  · exact ⟨0, n, by omega, by omega, .inl rfl⟩
  · exact ⟨n / 2 ^ 23 - 1, n % 2 ^ 23 + 2 ^ 23, by omega, by omega, .inr (by omega)⟩

theorem magUnits_strictMono : StrictMono magUnits := by
  refine strictMono_nat_of_lt_succ fun n => ?_
  obtain ⟨Q, m, rfl, hm, hQ⟩ := exists_quanta n
  rw [magUnits_quanta Q m (by omega) hQ, Nat.add_assoc, magUnits_quanta Q (m + 1) (by omega) (by omega)]
  exact Nat.mul_lt_mul_of_pos_right (by omega) (by positivity)

@[simp] theorem magUnits_zero : magUnits 0 = 0 := by decide

/-- The values beside the overflow threshold 2^128 - 2^103. -/
theorem magUnits_inf : magUnits 0x7F7FFFFF + magUnits 0x7F800000 = 2 * ((2 ^ 128 - 2 ^ 103) * 2 ^ 149) := by decide

/-! Words of a sign and a magnitude -/

section
variable (neg : Bool) (m : Nat) (hm : m < 2 ^ 31)
include hm

theorem toNat_withSign : (withSign neg m).toNat = (if neg then 2 ^ 31 else 0) + m := by
  rw [withSign, BitVec.toNat_ofNat]
  cases neg <;> simp <;> omega

@[simp] theorem f32Mag_withSign : f32Mag (withSign neg m) = m := by
  rw [f32Mag, toNat_withSign neg m hm]
  cases neg
  · simp; omega
  · simp; omega

@[simp] theorem f32Sign_withSign : f32Sign (withSign neg m) = neg := by
  rw [f32Sign, ← BitVec.msb_eq_getLsbD_last, BitVec.msb_eq_decide, toNat_withSign neg m hm]
  cases neg
  · simp; omega
  · simp

theorem getLsbD_zero_withSign : (withSign neg m).getLsbD 0 = false ↔ m % 2 = 0 := by
  rw [BitVec.getLsbD, Nat.testBit_zero, toNat_withSign neg m hm]
  cases neg
  · simp
  · simp; omega

end

theorem f32Mag_lt (w : Word) : f32Mag w < 2 ^ 31 := Nat.mod_lt _ (by decide)

/-- A word is its sign and its magnitude. -/
theorem withSign_f32Sign (w : Word) : withSign (f32Sign w) (f32Mag w) = w := by
  apply BitVec.eq_of_toNat_eq
  have hw := w.isLt
  rw [toNat_withSign _ _ (f32Mag_lt w), f32Mag, f32Sign, ← BitVec.msb_eq_getLsbD_last, BitVec.msb_eq_decide]
  split <;> rename_i h <;> simp only [decide_eq_true_eq] at h <;> omega

theorem nonFinite_iff (w : Word) : nonFinite w = true ↔ 0x7F800000 ≤ f32Mag w := by
  unfold nonFinite f32Mag
  rw [beq_iff_eq, ← BitVec.toNat_inj, BitVec.toNat_setWidth, BitVec.toNat_ushiftRight, Nat.shiftRight_eq_div_pow]
  simp only [BitVec.toNat_ofNat]
  have := w.isLt
  omega

theorem nonFinite_eq_false_iff (w : Word) : nonFinite w = false ↔ f32Mag w < 0x7F800000 := by
  rw [← Bool.not_eq_true, nonFinite_iff, Nat.not_le]

/-! The rounding of a magnitude -/

/-- `m` is the nearest encoding to x units, the even one of two equally close ones. -/
structure Nearest (x : ℝ) (m : Nat) : Prop where
  lower (j : Nat) (hj : m = j + 1) : (magUnits j + magUnits m : ℝ) ≤ 2 * x
  lowerTie (j : Nat) (hj : m = j + 1) (h : (magUnits j + magUnits m : ℝ) = 2 * x) : m % 2 = 0
  upper : m < 0x7F800000 → 2 * x ≤ (magUnits m + magUnits (m + 1) : ℝ)
  upperTie (hm : m < 0x7F800000) (h : 2 * x = (magUnits m + magUnits (m + 1) : ℝ)) : m % 2 = 0
  le : m ≤ 0x7F800000

/-- A point between two that round to `m` rounds to `m`. -/
theorem Nearest.between {x y z : ℝ} {m : Nat} (hx : Nearest x m) (hz : Nearest z m) (hxy : x ≤ y) (hyz : y ≤ z) :
    Nearest y m where
  lower j hj := by linarith [hx.lower j hj]
  lowerTie j hj h := hx.lowerTie j hj (by linarith [hx.lower j hj])
  upper hm := by linarith [hz.upper hm]
  upperTie hm h := hz.upperTie hm (by linarith [hz.upper hm])
  le := hx.le

theorem magUnits_cast_lt {i j : Nat} (h : i < j) : (magUnits i : ℝ) < magUnits j := by
  exact_mod_cast magUnits_strictMono h

theorem magUnits_cast_le {i j : Nat} (h : i ≤ j) : (magUnits i : ℝ) ≤ magUnits j := by
  exact_mod_cast magUnits_strictMono.monotone h

/-- A magnitude rounds to itself. -/
theorem nearest_magUnits (m : Nat) (hm : m ≤ 0x7F800000) : Nearest (magUnits m) m where
  lower j hj := by linarith [magUnits_cast_lt (show j < m by omega)]
  lowerTie j hj h := by linarith [magUnits_cast_lt (show j < m by omega)]
  upper _ := by linarith [magUnits_cast_lt (Nat.lt_succ_self m)]
  upperTie _ h := by linarith [magUnits_cast_lt (Nat.lt_succ_self m)]
  le := hm

/-- ∞ is the rounding exactly from 2^128 - 2^103 up. -/
theorem Nearest.inf_iff {x : ℝ} {m : Nat} (h : Nearest x m) :
    m = 0x7F800000 ↔ ((2 : ℝ) ^ 128 - 2 ^ 103) * 2 ^ 149 ≤ x := by
  have threshold : (magUnits 0x7F7FFFFF + magUnits 0x7F800000 : ℝ) = 2 * (((2 : ℝ) ^ 128 - 2 ^ 103) * 2 ^ 149) := by
    have := congrArg (Nat.cast (R := ℝ)) magUnits_inf
    rw [Nat.cast_add] at this
    rw [this, Nat.cast_mul, Nat.cast_mul, Nat.cast_sub (by decide)]
    norm_num
  constructor
  · intro hm
    have := h.lower 0x7F7FFFFF hm
    rw [hm] at this
    linarith
  · intro hx
    by_contra hm
    have hm : m < 0x7F800000 := by have := h.le; omega
    have upper := h.upper hm
    have h1 := magUnits_cast_le (show m ≤ 0x7F7FFFFF by omega)
    have h2 := magUnits_cast_le (show m + 1 ≤ 0x7F800000 by omega)
    obtain rfl : m = 0x7F7FFFFF := by
      by_contra hne
      linarith [magUnits_cast_lt (show m < 0x7F7FFFFF by omega)]
    have := h.upperTie hm (by linarith)
    omega

/-- No magnitude is closer than the rounding, and the rounding of a tie is even. -/
theorem Nearest.closest {x : ℝ} {m : Nat} (h : Nearest x m) (hfin : m < 0x7F800000) (j : Nat) :
    |x - magUnits m| ≤ |x - magUnits j| ∧
      (|x - magUnits m| = |x - magUnits j| → m = j ∨ m % 2 = 0) := by
  rcases Nat.lt_trichotomy j m with hjm | rfl | hmj
  · obtain ⟨i, rfl⟩ : ∃ i, m = i + 1 := ⟨m - 1, by omega⟩
    have lower := h.lower i rfl
    have h1 := magUnits_cast_le (show j ≤ i by omega)
    have h2 := magUnits_cast_lt hjm
    have hj : |x - magUnits j| = x - magUnits j := abs_of_nonneg (by linarith)
    refine ⟨by rw [hj, abs_le]; constructor <;> linarith, fun e => .inr (h.lowerTie i rfl ?_)⟩
    rw [hj] at e
    rcases abs_eq_abs.mp (e.trans hj.symm) with e | e <;> linarith
  · exact ⟨le_rfl, fun _ => .inl rfl⟩
  · have upper := h.upper hfin
    have h1 := magUnits_cast_le (show m + 1 ≤ j by omega)
    have h2 := magUnits_cast_lt hmj
    have hj : |x - magUnits j| = -(x - magUnits j) := abs_of_nonpos (by linarith)
    refine ⟨by rw [hj, abs_le]; constructor <;> linarith, fun e => .inr (h.upperTie hfin ?_)⟩
    rcases abs_eq_abs.mp e with e | e <;> linarith

/-! From magnitudes to words -/

/-- The value of a word in units of 2^-149, with its sign. -/
theorem f32Value_cast (w : Word) :
    (f32Value w : ℝ) = (if f32Sign w then -1 else 1) * (magUnits (f32Mag w) : ℝ) := by
  rw [f32Value, f32Units_eq]
  split <;> simp

/-- How far a word is from x: by magnitudes, which add where the signs differ. -/
theorem abs_sub_f32Value (x : ℝ) (v : Word) :
    |x - (f32Value v : ℝ) / 2 ^ 149| * 2 ^ 149 =
      if f32Sign v = decide (x < 0) then |(|x| * 2 ^ 149) - magUnits (f32Mag v)|
      else |x| * 2 ^ 149 + magUnits (f32Mag v) := by
  have pow : (0 : ℝ) < 2 ^ 149 := by positivity
  have units : |x - (f32Value v : ℝ) / 2 ^ 149| * 2 ^ 149 = |x * 2 ^ 149 - f32Value v| := by
    rw [← abs_of_pos pow, ← abs_mul, abs_of_pos pow]
    congr 1
    field_simp
  have hb : (0 : ℝ) ≤ magUnits (f32Mag v) := by positivity
  rw [units, f32Value_cast]
  rcases lt_or_ge x 0 with hx | hx
  · rw [abs_of_neg hx]
    cases f32Sign v
    · simp only [hx]
      rw [abs_of_nonpos (by simp; linarith)]
      simp; ring
    · simp only [hx, decide_true, if_true]
      rw [← abs_neg]; congr 1; ring
  · rw [abs_of_nonneg hx]
    cases f32Sign v
    · simp [not_lt.mpr hx]
    · simp only [not_lt.mpr hx]
      rw [abs_of_nonneg (by simp; positivity)]
      simp

/-- The word of the sign of x and of the rounding of its magnitude is x rounded (spec/00_scope.md R14). -/
theorem roundsTo_of_nearest {x : ℝ} {m : Nat} (h : Nearest (|x| * 2 ^ 149) m) :
    RoundsTo x (withSign (decide (x < 0)) m) := by
  have hm : m < 2 ^ 31 := by have := h.le; omega
  have hsign := f32Sign_withSign (decide (x < 0)) m hm
  have hmag := f32Mag_withSign (decide (x < 0)) m hm
  refine ⟨?_, by rw [hsign, decide_eq_true_eq], ?_, fun hfin v _ => ?_⟩
  · rw [f32IsNaN, hmag, decide_eq_false_iff_not]
    exact Nat.not_lt.mpr h.le
  · rw [f32IsInf, hmag, decide_eq_true_eq, h.inf_iff]
    exact mul_le_mul_iff_left₀ (by positivity)
  · rw [f32IsInf, hmag, decide_eq_false_iff_not] at hfin
    have hfin : m < 0x7F800000 := by have := h.le; omega
    have own := abs_sub_f32Value x (withSign (decide (x < 0)) m)
    have other := abs_sub_f32Value x v
    rw [hsign, if_pos rfl, hmag] at own
    rw [← mul_le_mul_iff_left₀ (show (0 : ℝ) < 2 ^ 149 by positivity),
      ← mul_left_inj' (show (2 : ℝ) ^ 149 ≠ 0 by positivity), own, other, getLsbD_zero_withSign _ _ hm]
    obtain ⟨closest, tie⟩ := h.closest hfin (f32Mag v)
    have hb : (0 : ℝ) ≤ magUnits (f32Mag v) := by positivity
    have hX : (0 : ℝ) ≤ |x| * 2 ^ 149 := by positivity
    split
    · next hv =>
      refine ⟨closest, fun e => (tie e).imp_left fun hmv => ?_⟩
      beta_reduce
      rw [f32Value_cast, f32Value_cast, hsign, hmag, hv, hmv]
    · have farther : |(|x| * 2 ^ 149) - magUnits (f32Mag v)| ≤ |x| * 2 ^ 149 + magUnits (f32Mag v) := by
        rw [abs_le]; constructor <;> linarith
      refine ⟨closest.trans farther, fun e => ?_⟩
      -- Only a zero is as close on the far side of 0 as on the near side.
      have zero_of (h0 : (magUnits m : ℝ) = 0) (hv0 : (magUnits (f32Mag v) : ℝ) = 0) :
          (f32Value v : ℝ) / 2 ^ 149 = (f32Value (withSign (decide (x < 0)) m) : ℝ) / 2 ^ 149 := by
        rw [f32Value_cast, f32Value_cast, hmag, h0, hv0, mul_zero, mul_zero]
      have same := le_antisymm farther (e ▸ closest)
      rcases eq_or_lt_of_le hb with hb | hb
      · refine (tie (e.trans same.symm)).imp_left fun hmv => zero_of (by rw [hmv, ← hb]) hb.symm
      · have hX0 : |x| * 2 ^ 149 = 0 := by
          rcases abs_cases (|x| * 2 ^ 149 - (magUnits (f32Mag v) : ℝ)) with ⟨e', -⟩ | ⟨e', -⟩ <;> linarith
        have := (h.closest hfin 0).1
        rw [hX0, magUnits_zero, Nat.cast_zero, sub_zero, abs_zero, zero_sub, abs_neg, abs_le] at this
        have hm0 : (magUnits m : ℝ) = 0 := le_antisymm this.2 (by positivity)
        rw [hX0, hm0, sub_zero, abs_zero, zero_add] at e
        exact .inl (zero_of hm0 e.symm)

theorem roundsTo_zero : RoundsTo 0 0 := by
  have := roundsTo_of_nearest (x := 0) (m := 0) (by simpa using nearest_magUnits 0 (by decide))
  simpa [withSign] using this

/-! The model's integer rounding -/

/-- `roundTiesEven` is nearest, and even on a tie. -/
theorem roundTiesEven_spec (n d : Nat) (hd : 0 < d) :
    2 * (roundTiesEven n d * d) ≤ 2 * n + d ∧ 2 * n ≤ 2 * (roundTiesEven n d * d) + d ∧
      (2 * (roundTiesEven n d * d) = 2 * n + d ∨ 2 * n = 2 * (roundTiesEven n d * d) + d →
        roundTiesEven n d % 2 = 0) := by
  have hn := Nat.div_add_mod n d
  have hr := Nat.mod_lt n hd
  have succ : (n / d + 1) * d = d * (n / d) + d := by ring
  have same : n / d * d = d * (n / d) := Nat.mul_comm ..
  unfold roundTiesEven
  dsimp only
  split
  · rw [same]; omega
  · split
    · rw [succ]; omega
    · split
      · rw [same]; omega
      · rw [succ]; omega

/-- A magnitude without a bound: as `Nearest`, without overflow. -/
structure NearestUnbounded (x : ℝ) (m : Nat) : Prop where
  lower (j : Nat) (hj : m = j + 1) : (magUnits j + magUnits m : ℝ) ≤ 2 * x
  lowerTie (j : Nat) (hj : m = j + 1) (h : (magUnits j + magUnits m : ℝ) = 2 * x) : m % 2 = 0
  upper : 2 * x ≤ (magUnits m + magUnits (m + 1) : ℝ)
  upperTie (h : 2 * x = (magUnits m + magUnits (m + 1) : ℝ)) : m % 2 = 0

/-- Overflow goes to ∞. -/
theorem NearestUnbounded.nearest {x : ℝ} {m : Nat} (h : NearestUnbounded x m) : Nearest x (min 0x7F800000 m) := by
  rcases Nat.lt_or_ge 0x7F800000 m with hm | hm
  · obtain ⟨j, rfl⟩ : ∃ j, m = j + 1 := ⟨m - 1, by omega⟩
    rw [min_eq_left (by omega)]
    have above : (magUnits 0x7F800000 : ℝ) < x := by
      linarith [h.lower j rfl, magUnits_cast_le (show 0x7F800000 ≤ j by omega), magUnits_cast_lt (Nat.lt_succ_self j)]
    have below : ∀ i, 0x7F800000 = i + 1 → (magUnits i : ℝ) < magUnits 0x7F800000 :=
      fun i hi => magUnits_cast_lt (by omega)
    exact ⟨fun i hi => by linarith [below i hi], fun i hi e => by linarith [below i hi],
      fun hi => absurd hi (by decide), fun hi => absurd hi (by decide), le_rfl⟩
  · rw [min_eq_right hm]
    exact ⟨h.lower, h.lowerTie, fun _ => h.upper, fun _ => h.upperTie, hm⟩

/-- Rounding y quanta 2^Q to m of them. -/
theorem nearestUnbounded_of_quanta (y : ℝ) (Q m : Nat) (hy : y < 2 ^ 24) (hQ : Q = 0 ∨ (2 : ℝ) ^ 23 ≤ y)
    (lower : (2 * m : ℝ) ≤ 2 * y + 1) (upper : 2 * y ≤ (2 * m + 1 : ℝ))
    (tie : (2 * m : ℝ) = 2 * y + 1 ∨ 2 * y = (2 * m + 1 : ℝ) → m % 2 = 0) :
    NearestUnbounded (y * 2 ^ Q) (Q * 2 ^ 23 + m) := by
  have hm : m ≤ 2 ^ 24 := by
    by_contra hlt
    have : ((2 ^ 24 + 1 : ℕ) : ℝ) ≤ m := by exact_mod_cast Nat.succ_le_of_lt (not_le.mp hlt)
    push_cast at this
    linarith
  have hQm : Q = 0 ∨ 2 ^ 23 ≤ m := hQ.imp_right fun h => by
    by_contra hlt
    have : ((m + 1 : ℕ) : ℝ) ≤ (2 ^ 23 : ℕ) := by exact_mod_cast Nat.succ_le_of_lt (not_le.mp hlt)
    push_cast at this
    linarith
  have pow : (0 : ℝ) < 2 ^ Q := by positivity
  have value : (magUnits (Q * 2 ^ 23 + m) : ℝ) = m * 2 ^ Q := by rw [magUnits_quanta Q m hm hQm]; push_cast; rfl
  have even : (Q * 2 ^ 23 + m) % 2 = m % 2 := by omega
  -- The neighbour below is one quantum away, or closer where a binade ends; then y is on the near side of m.
  have below (j : Nat) (hj : Q * 2 ^ 23 + m = j + 1) :
      (magUnits j : ℝ) = (m - 1) * 2 ^ Q ∨ ((magUnits j : ℝ) < m * 2 ^ Q ∧ (m : ℝ) ≤ y) := by
    by_cases hb : Q = 0 ∨ 2 ^ 23 < m
    · obtain ⟨i, rfl⟩ : ∃ i, m = i + 1 := ⟨m - 1, by omega⟩
      obtain rfl : j = Q * 2 ^ 23 + i := by omega
      refine .inl ?_
      rw [magUnits_quanta Q i (by omega) (by omega)]
      push_cast; ring
    · refine .inr ⟨value ▸ magUnits_cast_lt (by omega), ?_⟩
      have hm' : m = 2 ^ 23 := by omega
      rw [hm', Nat.cast_pow, Nat.cast_ofNat]
      exact hQ.resolve_left (by omega)
  have above : (magUnits (Q * 2 ^ 23 + m + 1) : ℝ) = (m + 1) * 2 ^ Q ∨
      ((m * 2 ^ Q : ℝ) < magUnits (Q * 2 ^ 23 + m + 1) ∧ y < m) := by
    rcases Nat.lt_or_ge m (2 ^ 24) with h | h
    · refine .inl ?_
      rw [Nat.add_assoc, magUnits_quanta Q (m + 1) (by omega) (by omega)]
      push_cast; rfl
    · refine .inr ⟨value ▸ magUnits_cast_lt (Nat.lt_succ_self _), hy.trans_le ?_⟩
      exact_mod_cast h
  constructor
  · intro j hj
    rcases below j hj with e | ⟨e, hmy⟩
    · rw [value, e]; nlinarith
    · rw [value]; nlinarith
  · intro j hj h
    rw [even]
    rcases below j hj with e | ⟨e, hmy⟩
    · refine tie (.inl (mul_right_cancel₀ pow.ne' ?_))
      rw [value, e] at h; linarith
    · rw [value] at h; nlinarith
  · rcases above with e | ⟨e, hmy⟩
    · rw [value, e]; nlinarith
    · rw [value]; nlinarith
  · intro h
    rw [even]
    rcases above with e | ⟨e, hmy⟩
    · refine tie (.inr (mul_right_cancel₀ pow.ne' ?_))
      rw [value, e] at h; linarith
    · rw [value] at h; nlinarith


/-- A magnitude with bits below the quantum, rounded off. -/
theorem nearestUnbounded_roundTiesEven (n s Q : Nat) (hn : n < 2 ^ (24 + s)) (hQ : Q = 0 ∨ 2 ^ (23 + s) ≤ n) :
    NearestUnbounded ((n : ℝ) / 2 ^ s * 2 ^ Q) (Q * 2 ^ 23 + roundTiesEven n (2 ^ s)) := by
  have pos : (0 : ℝ) < 2 ^ s := by positivity
  obtain ⟨lower, upper, tie⟩ := roundTiesEven_spec n (2 ^ s) (by positivity)
  generalize roundTiesEven n (2 ^ s) = m at *
  refine nearestUnbounded_of_quanta _ _ _ ?_ (hQ.imp_right fun h => ?_) ?_ ?_ fun h => tie ?_
  · rw [div_lt_iff₀ pos, ← pow_add]
    exact_mod_cast hn
  · rw [le_div_iff₀ pos, ← pow_add]
    exact_mod_cast h
  · have : ((2 * (m * 2 ^ s) : ℕ) : ℝ) ≤ (2 * n + 2 ^ s : ℕ) := by exact_mod_cast lower
    push_cast at this
    field_simp
    linarith
  · have : ((2 * n : ℕ) : ℝ) ≤ (2 * (m * 2 ^ s) + 2 ^ s : ℕ) := by exact_mod_cast upper
    push_cast at this
    field_simp
    linarith
  · field_simp at h
    refine h.imp (fun h => ?_) fun h => ?_
    · have : ((2 * (m * 2 ^ s) : ℕ) : ℝ) = (2 * n + 2 ^ s : ℕ) := by push_cast; linarith
      exact_mod_cast this
    · have : ((2 * n : ℕ) : ℝ) = (2 * (m * 2 ^ s) + 2 ^ s : ℕ) := by push_cast; linarith
      exact_mod_cast this

/-- A magnitude of whole quanta. -/
theorem nearestUnbounded_exact (m Q : Nat) (hm : m < 2 ^ 24) (hQ : Q = 0 ∨ 2 ^ 23 ≤ m) :
    NearestUnbounded ((m : ℝ) * 2 ^ Q) (Q * 2 ^ 23 + m) := by
  refine nearestUnbounded_of_quanta _ _ _ (by exact_mod_cast hm) (hQ.imp_right fun h => by exact_mod_cast h)
    (by linarith) (by linarith) fun h => ?_
  rcases h with h | h <;> linarith

/-- The magnitude n·2^(-k), rounded. -/
theorem nearest_roundMag (n k : Nat) : Nearest ((n : ℝ) / 2 ^ k * 2 ^ 149) (roundMag n k) := by
  rcases Nat.eq_zero_or_pos n with rfl | hn
  · simpa [roundMag] using nearest_magUnits 0 (by decide)
  have hlog : 2 ^ Nat.log2 n ≤ n := Nat.log2_self_le hn.ne'
  have hlog' : n < 2 ^ (Nat.log2 n + 1) := Nat.lt_log2_self
  rw [roundMag, if_neg hn.ne']
  dsimp only
  set q : Int := max ((Nat.log2 n : Int) - (k : Int) - 23) (-149) with hq
  refine NearestUnbounded.nearest ?_
  split
  · next hs =>
    obtain ⟨s, hs⟩ := Int.eq_ofNat_of_zero_le hs
    rw [hs, Int.toNat_natCast]
    have hk : k + (q + 149).toNat = s + 149 := by omega
    have quanta : (n : ℝ) / 2 ^ k * 2 ^ 149 = (n : ℝ) / 2 ^ s * 2 ^ (q + 149).toNat := by
      have : (2 : ℝ) ^ k * 2 ^ (q + 149).toNat = 2 ^ s * 2 ^ 149 := by rw [← pow_add, ← pow_add, hk]
      field_simp
      linarith
    rw [quanta]
    refine nearestUnbounded_roundTiesEven n s _ (hlog'.trans_le (Nat.pow_le_pow_right (by decide) (by omega))) ?_
    rcases Nat.eq_zero_or_pos (q + 149).toNat with h0 | h0
    · exact .inl h0
    · exact .inr (show 23 + s = Nat.log2 n by omega ▸ hlog)
  · next hs =>
    obtain ⟨s, hs'⟩ := Int.eq_ofNat_of_zero_le (show 0 ≤ -((k : Int) + q) by omega)
    rw [hs', Int.toNat_natCast]
    have hk : k + (q + 149).toNat + s = 149 := by omega
    have quanta : (n : ℝ) / 2 ^ k * 2 ^ 149 = ((n * 2 ^ s : ℕ) : ℝ) * 2 ^ (q + 149).toNat := by
      rw [← hk, pow_add, pow_add]
      push_cast
      field_simp
    rw [quanta]
    refine nearestUnbounded_exact _ _ ((Nat.mul_lt_mul_of_pos_right hlog' (by positivity)).trans_le ?_) ?_
    · rw [← pow_add]
      exact Nat.pow_le_pow_right (by decide) (by omega)
    · rcases Nat.eq_zero_or_pos (q + 149).toNat with h0 | h0
      · exact .inl h0
      · have : 2 ^ 23 = 2 ^ Nat.log2 n * 2 ^ s := by rw [← pow_add]; congr 1; omega
        exact .inr (this ▸ Nat.mul_le_mul_right _ hlog)

theorem decide_div_pow_neg (v : Int) (k : Nat) : decide ((v : ℝ) / 2 ^ k < 0) = decide (v < 0) := by
  rw [decide_eq_decide, div_lt_iff₀ (by positivity), zero_mul]
  exact_mod_cast Iff.rfl

/-- rnd32 of v·2^(-k) is that real rounded. -/
theorem roundsTo_rnd32 (v : Int) (k : Nat) : RoundsTo ((v : ℝ) / 2 ^ k) (rnd32 v k) := by
  rw [rnd32, ← decide_div_pow_neg v k]
  refine roundsTo_of_nearest ?_
  have := nearest_roundMag v.natAbs k
  rwa [Nat.cast_natAbs, Int.cast_abs, ← abs_of_pos (show (0 : ℝ) < 2 ^ k by positivity), ← abs_div] at this

/-- Settles O51: the rounding of the real v·2^(-k), in units of 2^(-k-149). -/
theorem roundingIsToNearestTiesToEven : Obligations.RoundingIsToNearestTiesToEven := by
  intro v k
  obtain ⟨nan, sign, inf, closest⟩ := roundsTo_rnd32 v k
  have pos : (0 : ℝ) < 2 ^ k := by positivity
  have cast_abs : |(v : ℝ) / 2 ^ k| = (v.natAbs : ℝ) / 2 ^ k := by
    rw [abs_div, abs_of_pos pos, Nat.cast_natAbs, Int.cast_abs]
  have distance (w : Word) : ((v * 2 ^ 149 - f32Value w * 2 ^ k).natAbs : ℝ) =
      |(v : ℝ) / 2 ^ k - (f32Value w : ℝ) / 2 ^ 149| * (2 ^ 149 * 2 ^ k) := by
    rw [Nat.cast_natAbs, Int.cast_abs, ← abs_of_pos (show (0 : ℝ) < 2 ^ 149 * 2 ^ k by positivity), ← abs_mul]
    congr 1
    rw [Int.cast_sub, Int.cast_mul, Int.cast_mul, Int.cast_pow, Int.cast_pow, Int.cast_ofNat]
    field_simp
  refine ⟨nan, ?_, ?_, fun hfin w hw => ?_⟩
  · rw [Bool.eq_iff_iff, sign, decide_eq_true_eq, div_lt_iff₀ pos, zero_mul]
    exact_mod_cast Iff.rfl
  · rw [inf, cast_abs, le_div_iff₀ pos, ← Nat.cast_le (α := ℝ), Nat.cast_mul, Nat.cast_sub (by decide)]
    norm_num
  · obtain ⟨near, tie⟩ := closest hfin w hw
    rw [← Nat.cast_le (α := ℝ), ← Nat.cast_inj (R := ℝ), distance, distance,
      mul_le_mul_iff_left₀ (by positivity), mul_left_inj' (by positivity)]
    refine ⟨near, fun e => (tie e).imp_left fun h => ?_⟩
    simpa using h

/-! Roundings of intervals, of exact values, and by comparison -/

theorem withSign_inj {a b : Bool} {m n : Nat} (hm : m < 2 ^ 31) (hn : n < 2 ^ 31) (h : withSign a m = withSign b n) :
    a = b ∧ m = n := by
  constructor
  · rw [← f32Sign_withSign a m hm, h, f32Sign_withSign b n hn]
  · rw [← f32Mag_withSign a m hm, h, f32Mag_withSign b n hn]

theorem roundMag_lt (n k : Nat) : roundMag n k < 2 ^ 31 := (nearest_roundMag n k).le.trans_lt (by decide)

theorem nearest_rnd32 (v : Int) (k : Nat) : Nearest (|(v : ℝ) / 2 ^ k| * 2 ^ 149) (roundMag v.natAbs k) := by
  have := nearest_roundMag v.natAbs k
  rwa [Nat.cast_natAbs, Int.cast_abs, ← abs_of_pos (show (0 : ℝ) < 2 ^ k by positivity), ← abs_div] at this

/-- A real between two that rnd32 rounds alike rounds as they do. -/
theorem roundsTo_between (lo hi : Int) (k : Nat) (x : ℝ) (hlo : (lo : ℝ) / 2 ^ k ≤ x) (hhi : x ≤ (hi : ℝ) / 2 ^ k)
    (h : rnd32 lo k = rnd32 hi k) : RoundsTo x (rnd32 lo k) := by
  obtain ⟨hsign, hmag⟩ := withSign_inj (roundMag_lt ..) (roundMag_lt ..) h
  have nlo := nearest_rnd32 lo k
  have nhi := nearest_rnd32 hi k
  rw [← hmag] at nhi
  rw [rnd32]
  by_cases hneg : lo < 0
  · have hneg' : hi < 0 := by simpa [hneg] using hsign
    have hi0 : (hi : ℝ) / 2 ^ k < 0 := div_neg_of_neg_of_pos (by exact_mod_cast hneg') (by positivity)
    rw [abs_of_neg (hlo.trans_lt (hhi.trans_lt hi0))] at nlo
    rw [abs_of_neg hi0] at nhi
    rw [decide_eq_true hneg, ← decide_eq_true (hhi.trans_lt hi0)]
    refine roundsTo_of_nearest (nhi.between nlo ?_ ?_) <;> rw [abs_of_neg (hhi.trans_lt hi0)] <;> gcongr
  · have lo0 : 0 ≤ (lo : ℝ) / 2 ^ k := div_nonneg (by exact_mod_cast not_lt.mp hneg) (by positivity)
    rw [abs_of_nonneg lo0] at nlo
    rw [abs_of_nonneg (lo0.trans (hlo.trans hhi))] at nhi
    rw [decide_eq_false hneg, ← decide_eq_false (not_lt.mpr (lo0.trans hlo))]
    refine roundsTo_of_nearest (nlo.between nhi ?_ ?_) <;> rw [abs_of_nonneg (lo0.trans hlo)] <;> gcongr

/-- A real that an enclosure holds at every precision is rounded, where its exact rounding is. -/
theorem roundsTo_roundEnclosed (x : ℝ) (ends : Nat → Option (Word × Word)) (exact : Unit → Word) (fuel level : Nat)
    (hends : ∀ i l h, ends (precision i) = some (l, h) → ∃ (lo hi : Int) (k : Nat), l = rnd32 lo k ∧ h = rnd32 hi k ∧
      (lo : ℝ) / 2 ^ k ≤ x ∧ x ≤ (hi : ℝ) / 2 ^ k)
    (hexact : RoundsTo x (exact ())) : RoundsTo x (roundEnclosed ends exact fuel level) := by
  rcases roundEnclosed_cases ends exact fuel level with ⟨n, hn⟩ | he
  · obtain ⟨lo, hi, k, hl, hh, hlo, hhi⟩ := hends _ _ _ hn
    rw [hl]
    exact roundsTo_between lo hi k x hlo hhi (hl.symm.trans hh)
  · rwa [he]

/-- A finite value is below the overflow threshold. -/
theorem abs_f32Value_lt {a : Word} (ha : nonFinite a = false) : |(f32Value a : ℝ) / 2 ^ 149| < 2 ^ 128 - 2 ^ 103 := by
  have ha' := (nonFinite_eq_false_iff a).mp ha
  have magnitude : |(f32Value a : ℝ)| = magUnits (f32Mag a) := by
    rw [f32Value_cast]
    split <;> simp
  rw [abs_div, abs_of_pos (show (0 : ℝ) < 2 ^ 149 by positivity), div_lt_iff₀ (by positivity), magnitude, ← not_le,
    ← (nearest_magUnits _ ha'.le).inf_iff]
  exact ha'.ne

/-- What rounds a real of at most a finite magnitude is finite. -/
theorem nonFinite_of_roundsTo {x : ℝ} {a w : Word} (h : RoundsTo x w) (ha : nonFinite a = false)
    (hx : |x| ≤ |(f32Value a : ℝ) / 2 ^ 149|) : nonFinite w = false := by
  obtain ⟨nan, -, inf, -⟩ := h
  have hinf : f32IsInf w = false := by
    rw [← Bool.not_eq_true, inf, not_le]
    exact hx.trans_lt (abs_f32Value_lt ha)
  rw [f32IsNaN, decide_eq_false_iff_not] at nan
  rw [f32IsInf, decide_eq_false_iff_not] at hinf
  rw [nonFinite_eq_false_iff]
  omega

/-- Only +0.0 is the rounding of 0, and only the word itself that of a finite value that is not 0. -/
theorem eq_of_roundsTo_f32Value {a w : Word} (h : RoundsTo ((f32Value a : ℝ) / 2 ^ 149) w) (ha : nonFinite a = false)
    (ha0 : f32Sign a = decide ((f32Value a : ℝ) / 2 ^ 149 < 0)) : w = a := by
  obtain ⟨-, sign, inf, closest⟩ := h
  have hinf : f32IsInf w = false := by
    rw [← Bool.not_eq_true, inf, not_le]
    exact abs_f32Value_lt ha
  have value : (f32Value w : ℝ) = f32Value a := by
    have := (closest hinf a ha).1
    rw [sub_self, abs_zero, abs_nonpos_iff, sub_eq_zero, div_left_inj' (by positivity)] at this
    exact this.symm
  have hsign : f32Sign w = f32Sign a := by
    rw [ha0, Bool.eq_iff_iff, sign, decide_eq_true_eq]
  have hmag : f32Mag w = f32Mag a := by
    rw [f32Value_cast, f32Value_cast, hsign] at value
    have := mul_left_cancel₀ (by split <;> norm_num) value
    exact magUnits_strictMono.injective (by exact_mod_cast this)
  rw [← withSign_f32Sign w, hsign, hmag, withSign_f32Sign]

theorem eq_zero_of_roundsTo {w : Word} (h : RoundsTo 0 w) : w = 0 :=
  eq_of_roundsTo_f32Value (a := 0) (by simpa [f32Value, f32Units_eq, f32Mag] using h) (by decide)
    (by simp [f32Value, f32Units_eq, f32Mag, f32Sign])

/-- The sign of a real as the model writes signs. -/
noncomputable def realSign (x : ℝ) : Int := ((SignType.sign x : SignType) : Int)

@[simp] theorem realSign_zero : realSign 0 = 0 := by simp [realSign]
theorem realSign_of_pos {x : ℝ} (h : 0 < x) : realSign x = 1 := by simp [realSign, sign_pos h]
theorem realSign_of_neg {x : ℝ} (h : x < 0) : realSign x = -1 := by simp [realSign, sign_neg h]

theorem realSign_mul (x y : ℝ) : realSign (x * y) = realSign x * realSign y := by
  simp [realSign, sign_mul]

theorem realSign_neg (x : ℝ) : realSign (-x) = -realSign x := by
  rcases lt_trichotomy x 0 with h | rfl | h
  · rw [realSign_of_neg h, realSign_of_pos (by linarith)]; rfl
  · simp
  · rw [realSign_of_pos h, realSign_of_neg (by linarith)]

theorem realSign_eq_zero {x : ℝ} : realSign x = 0 ↔ x = 0 := by
  rcases lt_trichotomy x 0 with h | rfl | h
  · simp [realSign_of_neg h, h.ne]
  · simp
  · simp [realSign_of_pos h, h.ne']

theorem realSign_neg_iff {x : ℝ} : realSign x < 0 ↔ x < 0 := by
  rcases lt_trichotomy x 0 with h | rfl | h
  · simp [realSign_of_neg h, h]
  · simp
  · simp [realSign_of_pos h, h.le]

theorem realSign_nonneg_iff {x : ℝ} : 0 ≤ realSign x ↔ 0 ≤ x := by
  rw [← not_lt, realSign_neg_iff, not_lt]

/-- A real times its sign is its magnitude. -/
theorem realSign_mul_self (x : ℝ) : (realSign x : ℝ) * x = |x| := by
  rcases lt_trichotomy x 0 with h | rfl | h
  · simp [realSign_of_neg h, abs_of_neg h]
  · simp
  · simp [realSign_of_pos h, abs_of_pos h]

theorem realSign_mul_realSign {x : ℝ} (h : x ≠ 0) : realSign x * realSign x = 1 := by
  rcases lt_or_gt_of_ne h with h | h
  · rw [realSign_of_neg h]; rfl
  · rw [realSign_of_pos h]; rfl

theorem realSign_realSign (x : ℝ) : realSign (realSign x : ℝ) = realSign x := by
  rcases lt_trichotomy x 0 with h | rfl | h
  · rw [realSign_of_neg h, realSign_of_neg (by norm_num)]
  · simp
  · rw [realSign_of_pos h, realSign_of_pos (by norm_num)]

theorem realSign_intCast (z : Int) : realSign z = z.sign := by
  rcases lt_trichotomy z 0 with h | rfl | h
  · rw [realSign_of_neg (by exact_mod_cast h), Int.sign_eq_neg_one_of_neg h]
  · simp
  · rw [realSign_of_pos (by exact_mod_cast h), Int.sign_eq_one_of_pos h]

/-- The greatest number with a property that passes down, below the bits looked at. -/
theorem greatestBits_spec (holds : Nat → Bool) (down : ∀ i j, i ≤ j → holds j = true → holds i = true) (k w : Nat)
    (hw : holds w = true) :
    holds (greatestBits holds k w) = true ∧ greatestBits holds k w < w + 2 ^ k ∧
      ∀ j < w + 2 ^ k, holds j = true → j ≤ greatestBits holds k w := by
  induction k generalizing w with
  | zero => exact ⟨hw, by simp [greatestBits], fun j hj _ => by simp only [greatestBits]; omega⟩
  | succ k ih =>
    rw [greatestBits, pow_succ]
    split
    · next h =>
      obtain ⟨holds_r, lt, max⟩ := ih (w + 2 ^ k) h
      exact ⟨holds_r, by omega, fun j hj => max j (by omega)⟩
    · next h =>
      obtain ⟨holds_r, lt, max⟩ := ih w hw
      refine ⟨holds_r, by omega, fun j _ hold_j => max j ?_ hold_j⟩
      by_contra hlt
      exact h (down _ j (by omega) hold_j)

theorem f32Units_ofNat (w : Nat) (hw : w < 2 ^ 31) : f32Units (BitVec.ofNat 32 w) = magUnits w := by
  rw [f32Units_eq, f32Mag, BitVec.toNat_ofNat]
  congr 1
  omega

/-- Where w is the greatest finite magnitude that is not above y, the midpoint to the next one decides. -/
theorem nearest_of_middle {y : ℝ} {w : Nat} (hfin : w ≤ 0x7F7FFFFF) (below : (magUnits w : ℝ) ≤ y)
    (next_above : w + 1 < 0x7F800000 → y < magUnits (w + 1)) :
    Nearest y (if 2 * y - (magUnits w + magUnits (w + 1)) < 0 ∨ 2 * y - (magUnits w + magUnits (w + 1)) = 0 ∧ w % 2 = 0
      then w else w + 1) := by
  have step := magUnits_cast_lt (Nat.lt_succ_self w)
  split
  · next h =>
    have le_mid : 2 * y ≤ (magUnits w + magUnits (w + 1) : ℝ) := by
      rcases h with h | h <;> linarith
    refine ⟨fun j hj => ?_, fun j hj e => ?_, fun _ => le_mid, fun _ e => ?_, by omega⟩
    · linarith [magUnits_cast_lt (show j < w by omega)]
    · linarith [magUnits_cast_lt (show j < w by omega)]
    · exact (h.resolve_left fun h => by linarith).2
  · next h =>
    obtain ⟨hlt, htie⟩ := not_or.mp h
    have mid_le : (magUnits w + magUnits (w + 1) : ℝ) ≤ 2 * y := by linarith
    have next_lt := magUnits_cast_lt (Nat.lt_succ_self (w + 1))
    refine ⟨fun j hj => ?_, fun j hj e => ?_, fun hm => ?_, fun hm e => ?_, by omega⟩
    · obtain rfl : w = j := by omega
      exact mid_le
    · obtain rfl : w = j := by omega
      have := not_and.mp htie (by linarith)
      omega
    · linarith [next_above hm]
    · linarith [next_above hm]

/-- A real whose comparison with every p/2^j is known is rounded. -/
theorem roundsTo_roundBy (x : ℝ) (compare : Int → Nat → Int)
    (hc : ∀ p j, compare p j = realSign (x - (p : ℝ) / 2 ^ j)) : RoundsTo x (roundBy compare) := by
  have hsign : compare 0 0 = realSign x := by rw [hc]; simp
  unfold roundBy
  dsimp only
  rw [hsign]
  split
  · next h0 =>
    rw [realSign_eq_zero.mp h0]
    exact roundsTo_zero
  · next h0 =>
    have hx : x ≠ 0 := fun h => h0 (by rw [h, realSign_zero])
    have above (u : Nat) (j : Nat) :
        realSign x * compare (realSign x * u) j = realSign (|x| - (u : ℝ) / 2 ^ j) := by
      rw [hc, ← realSign_realSign x, ← realSign_mul, realSign_realSign, mul_sub, realSign_mul_self]
      congr 2
      have : (realSign x * realSign x : ℝ) = 1 := by exact_mod_cast realSign_mul_realSign hx
      push_cast
      rw [← mul_div_assoc, ← mul_assoc, this, one_mul]
    simp only [above]
    set holds : Nat → Bool := fun w => decide (w ≤ 0x7F7FFFFF) &&
      decide (0 ≤ realSign (|x| - (f32Units (BitVec.ofNat 32 w) : ℝ) / 2 ^ 149)) with hholds
    have holds_iff (w : Nat) : holds w = true ↔ w ≤ 0x7F7FFFFF ∧ (magUnits w : ℝ) ≤ |x| * 2 ^ 149 := by
      rw [hholds]
      simp only [Bool.and_eq_true, decide_eq_true_eq]
      refine and_congr_right fun hw => ?_
      rw [realSign_nonneg_iff, f32Units_ofNat w (by omega), sub_nonneg, div_le_iff₀ (by positivity)]
    have down (i j : Nat) (hij : i ≤ j) (h : holds j = true) : holds i = true := by
      rw [holds_iff] at *
      exact ⟨by omega, (magUnits_cast_le hij).trans h.2⟩
    obtain ⟨holds_w, -, max⟩ := greatestBits_spec holds down 31 0
      ((holds_iff 0).mpr ⟨by omega, by rw [magUnits_zero, Nat.cast_zero]; positivity⟩)
    set w := greatestBits holds 31 0
    obtain ⟨hfin, below⟩ := (holds_iff w).mp holds_w
    have middle : realSign (|x| -
        ((f32Units (BitVec.ofNat 32 w) + f32Units (BitVec.ofNat 32 (w + 1)) : ℕ) : ℝ) / 2 ^ 150) =
        realSign (2 * (|x| * 2 ^ 149) - (magUnits w + magUnits (w + 1))) := by
      rw [f32Units_ofNat w (by omega), f32Units_ofNat (w + 1) (by omega), Nat.cast_add,
        show (2 * (|x| * 2 ^ 149) - (magUnits w + magUnits (w + 1)) : ℝ) =
          2 ^ 150 * (|x| - (magUnits w + magUnits (w + 1)) / 2 ^ 150) by field_simp,
        realSign_mul, realSign_of_pos (show (0 : ℝ) < 2 ^ 150 by positivity), one_mul]
    simp only [middle, realSign_neg_iff, realSign_eq_zero]
    refine roundsTo_of_nearest (nearest_of_middle hfin below fun h => ?_)
    by_contra hle
    have := max (w + 1) (by omega) ((holds_iff (w + 1)).mpr ⟨by omega, not_lt.mp hle⟩)
    omega

end Sys2Proof.Machine
end

section
/-! PROOFS. The binary32 operations case by case (spec/44_chirp.md R242), the reference product, and a block's results
under NUM_TOL (spec/00_scope.md R15). -/

namespace Sys2Proof.Machine

/-! Kinds of words -/

theorem f32IsNaN_eq_false {w : Word} (h : nonFinite w = false) : f32IsNaN w = false := by
  rw [nonFinite_eq_false_iff] at h
  rw [f32IsNaN, decide_eq_false_iff_not]
  omega

theorem f32IsInf_eq_false {w : Word} (h : nonFinite w = false) : f32IsInf w = false := by
  rw [nonFinite_eq_false_iff] at h
  rw [f32IsInf, decide_eq_false_iff_not]
  omega

theorem f32IsNaN_of_inf {w : Word} (h : f32IsInf w = true) : f32IsNaN w = false := by
  rw [f32IsInf, decide_eq_true_eq] at h
  rw [f32IsNaN, decide_eq_false_iff_not]
  omega

/-- A word that is neither a NaN nor an infinity is finite. -/
theorem nonFinite_eq_false {w : Word} (hn : f32IsNaN w = false) (hi : f32IsInf w = false) : nonFinite w = false := by
  rw [f32IsNaN, decide_eq_false_iff_not] at hn
  rw [f32IsInf, decide_eq_false_iff_not] at hi
  rw [nonFinite_eq_false_iff]
  omega

theorem f32Value_eq_zero {w : Word} : f32Value w = 0 ↔ f32Mag w = 0 := by
  rw [f32Value, f32Units_eq]
  have : magUnits (f32Mag w) = 0 ↔ f32Mag w = 0 := by
    conv_lhs => rw [← magUnits_zero]
    exact magUnits_strictMono.injective.eq_iff
  split <;> simp [this]

@[simp] theorem f32Mag_f32Neg (w : Word) : f32Mag (f32Neg w) = f32Mag w := by
  rw [f32Mag, f32Neg, BitVec.toNat_xor, Nat.xor_mod_two_pow]
  simp [f32Mag]

@[simp] theorem f32Sign_f32Neg (w : Word) : f32Sign (f32Neg w) = !f32Sign w := by
  rw [f32Sign, f32Neg, BitVec.getLsbD_xor]
  simp [f32Sign]

@[simp] theorem f32Value_f32Neg (w : Word) : f32Value (f32Neg w) = -f32Value w := by
  rw [f32Value, f32Value, f32Units_eq, f32Units_eq, f32Mag_f32Neg, f32Sign_f32Neg]
  cases f32Sign w <;> simp

@[simp] theorem f32IsNaN_f32Neg (w : Word) : f32IsNaN (f32Neg w) = f32IsNaN w := by rw [f32IsNaN, f32Mag_f32Neg]; rfl

@[simp] theorem f32IsInf_f32Neg (w : Word) : f32IsInf (f32Neg w) = f32IsInf w := by rw [f32IsInf, f32Mag_f32Neg]; rfl

@[simp] theorem nonFinite_f32Neg (w : Word) : nonFinite (f32Neg w) = nonFinite w := by
  rw [Bool.eq_iff_iff, nonFinite_iff, nonFinite_iff, f32Mag_f32Neg]

/-! The operations, case by case -/

theorem f32Mul_of_nan {x y : Word} (h : f32IsNaN x = true ∨ f32IsNaN y = true) : f32Mul x y = f32NaN := by
  unfold f32Mul
  rcases h with h | h <;> simp [h]

theorem f32Mul_of_inf_zero {x y : Word} (hx : f32IsInf x = true) (hy : f32Mag y = 0) : f32Mul x y = f32NaN := by
  unfold f32Mul
  simp [hx, hy]

theorem f32Mul_of_inf {x y : Word} (hx : f32IsInf x = true) (hy : f32IsNaN y = false) (hy0 : f32Mag y ≠ 0) :
    f32Mul x y = withSign (f32Sign x ^^ f32Sign y) 0x7F800000 := by
  have hx0 : f32Mag x ≠ 0 := by rw [f32IsInf, decide_eq_true_eq] at hx; omega
  unfold f32Mul
  simp [f32IsNaN_of_inf hx, hx, hy, hy0, hx0]

theorem f32Mul_of_finite {x y : Word} (hx : nonFinite x = false) (hy : nonFinite y = false) :
    f32Mul x y = withSign (f32Sign x ^^ f32Sign y) (roundMag (f32Units x * f32Units y) 298) := by
  unfold f32Mul
  simp [f32IsNaN_eq_false hx, f32IsNaN_eq_false hy, f32IsInf_eq_false hx, f32IsInf_eq_false hy]

theorem f32Mul_comm (x y : Word) : f32Mul x y = f32Mul y x := by
  unfold f32Mul
  simp only [Bool.xor_comm (f32Sign x), Bool.or_comm (f32IsNaN x), Bool.or_comm (f32IsInf x),
    or_comm (a := f32Mag x = 0), Nat.mul_comm (f32Units x)]

theorem f32Add_of_nan {x y : Word} (h : f32IsNaN x = true ∨ f32IsNaN y = true) : f32Add x y = f32NaN := by
  unfold f32Add
  rcases h with h | h <;> simp [h]

theorem f32Add_of_infs {x y : Word} (hx : f32IsInf x = true) (hy : f32IsInf y = true) :
    f32Add x y = if f32Sign x = f32Sign y then x else f32NaN := by
  unfold f32Add
  simp [f32IsNaN_of_inf hx, f32IsNaN_of_inf hy, hx, hy]

theorem f32Add_of_inf_left {x y : Word} (hx : f32IsInf x = true) (hy : nonFinite y = false) : f32Add x y = x := by
  unfold f32Add
  simp [f32IsNaN_of_inf hx, f32IsNaN_eq_false hy, hx, f32IsInf_eq_false hy]

theorem f32Add_of_inf_right {x y : Word} (hx : f32IsInf x = true) (hy : nonFinite y = false) : f32Add y x = x := by
  unfold f32Add
  simp [f32IsNaN_of_inf hx, f32IsNaN_eq_false hy, hx, f32IsInf_eq_false hy]

theorem f32Add_of_finite {x y : Word} (hx : nonFinite x = false) (hy : nonFinite y = false) :
    f32Add x y = if f32Value x + f32Value y = 0 then withSign (f32Sign x && f32Sign y) 0
      else rnd32 (f32Value x + f32Value y) 149 := by
  unfold f32Add
  simp [f32IsNaN_eq_false hx, f32IsNaN_eq_false hy, f32IsInf_eq_false hx, f32IsInf_eq_false hy]

theorem f32IsNaN_f32NaN : f32IsNaN f32NaN = true := by decide

/-- A value that is not 0 has the sign of its word. -/
theorem decide_f32Value_neg {w : Word} (h : f32Value w ≠ 0) : decide (f32Value w < 0) = f32Sign w := by
  rw [f32Value] at *
  cases f32Sign w
  · simp
  · simp only [if_true] at *
    exact decide_eq_true (by omega)

theorem decide_mul_neg {a b : Int} (ha : a ≠ 0) (hb : b ≠ 0) :
    decide (a * b < 0) = (decide (a < 0) ^^ decide (b < 0)) := by
  rcases lt_or_gt_of_ne ha with ha | ha <;> rcases lt_or_gt_of_ne hb with hb | hb <;>
    simp [ha, hb, ha.not_gt, hb.not_gt, mul_neg_iff]

/-- The product of finite values is the exact one rounded once; a zero has the sign of IEEE 754. -/
theorem f32Mul_spec {x y : Word} (hx : nonFinite x = false) (hy : nonFinite y = false) :
    (f32Value x * f32Value y ≠ 0 → f32Mul x y = rnd32 (f32Value x * f32Value y) 298) ∧
    (f32Value x * f32Value y = 0 → f32Mul x y = if f32Sign x = f32Sign y then 0 else 0x80000000) := by
  have habs : (f32Value x * f32Value y).natAbs = f32Units x * f32Units y := by
    rw [Int.natAbs_mul, f32Value, f32Value]
    split <;> split <;> simp
  rw [f32Mul_of_finite hx hy]
  constructor
  · intro h
    obtain ⟨hx0, hy0⟩ := mul_ne_zero_iff.mp h
    rw [rnd32, habs, decide_mul_neg hx0 hy0, decide_f32Value_neg hx0, decide_f32Value_neg hy0]
  · intro h
    rw [← habs, h]
    cases f32Sign x <;> cases f32Sign y <;> rfl

/-- The sum of finite values is the exact one rounded once; a zero is -0.0 only where both are -0.0. -/
theorem f32Add_spec {x y : Word} (hx : nonFinite x = false) (hy : nonFinite y = false) :
    (f32Value x + f32Value y ≠ 0 → f32Add x y = rnd32 (f32Value x + f32Value y) 149) ∧
    (f32Value x + f32Value y = 0 → f32Add x y = if f32Sign x = true ∧ f32Sign y = true then 0x80000000 else 0) := by
  rw [f32Add_of_finite hx hy]
  refine ⟨fun h => if_neg h, fun h => ?_⟩
  rw [if_pos h]
  cases f32Sign x <;> cases f32Sign y <;> rfl

/-- The operations on an infinity or a NaN. -/
theorem binary32_nonFinite (x y : Word) :
    (f32IsNaN x = true ∨ f32IsNaN y = true →
      ∀ w ∈ [f32Mul x y, f32Add x y, f32Sub x y], f32IsNaN w = true) ∧
    (f32IsInf x = true → f32Mag y = 0 → f32IsNaN (f32Mul x y) = true ∧ f32IsNaN (f32Mul y x) = true) ∧
    (f32IsInf x = true → f32IsNaN y = false → f32Mag y ≠ 0 →
      ∀ w ∈ [f32Mul x y, f32Mul y x], w = if f32Sign x = f32Sign y then 0x7F800000 else 0xFF800000) ∧
    (f32IsInf x = true → f32IsInf y = true →
      (f32Sign x = f32Sign y → f32Add x y = x ∧ f32IsNaN (f32Sub x y) = true) ∧
      (f32Sign x ≠ f32Sign y → f32IsNaN (f32Add x y) = true ∧ f32Sub x y = x)) ∧
    (f32IsInf x = true → nonFinite y = false → f32Add x y = x ∧ f32Add y x = x ∧ f32Sub x y = x ∧
      f32Sub y x = x ^^^ 0x80000000) := by
  refine ⟨fun h w hw => ?_, fun hx hy => ?_, fun hx hy hy0 w hw => ?_, fun hx hy => ⟨fun hs => ?_, fun hs => ?_⟩,
    fun hx hy => ⟨?_, ?_, ?_, ?_⟩⟩
  · have hsub : f32Sub x y = f32NaN := f32Add_of_nan (by rwa [f32IsNaN_f32Neg])
    simp only [f32Mul_of_nan h, f32Add_of_nan h, hsub, List.mem_cons, List.not_mem_nil, or_false, or_self] at hw
    rw [hw, f32IsNaN_f32NaN]
  · rw [f32Mul_comm y x, f32Mul_of_inf_zero hx hy, and_self, f32IsNaN_f32NaN]
  · simp only [f32Mul_comm y x, f32Mul_of_inf hx hy hy0, List.mem_cons, List.not_mem_nil, or_false, or_self] at hw
    rw [hw]
    cases f32Sign x <;> cases f32Sign y <;> rfl
  · rw [f32Sub, f32Add_of_infs hx hy, f32Add_of_infs hx (by rwa [f32IsInf_f32Neg]), f32Sign_f32Neg, if_pos hs,
      if_neg (by rw [hs]; simp), f32IsNaN_f32NaN]
    exact ⟨rfl, rfl⟩
  · rw [f32Sub, f32Add_of_infs hx hy, f32Add_of_infs hx (by rwa [f32IsInf_f32Neg]), f32Sign_f32Neg, if_neg hs,
      if_pos (by simpa [Bool.eq_not] using hs), f32IsNaN_f32NaN]
    exact ⟨rfl, rfl⟩
  · exact f32Add_of_inf_left hx hy
  · exact f32Add_of_inf_right hx hy
  · exact f32Add_of_inf_left hx (by rwa [nonFinite_f32Neg])
  · exact f32Add_of_inf_right (x := f32Neg x) (by rwa [f32IsInf_f32Neg]) hy

/-! A sample times its own conjugate (spec/44_chirp.md R244) -/

/-- A product of finite words is no NaN. -/
theorem f32IsNaN_f32Mul {x y : Word} (hx : nonFinite x = false) (hy : nonFinite y = false) :
    f32IsNaN (f32Mul x y) = false := by
  rw [f32Mul_of_finite hx hy, f32IsNaN, f32Mag_withSign _ _ (roundMag_lt ..), decide_eq_false_iff_not, Nat.not_lt]
  exact (nearest_roundMag ..).le

theorem f32Sign_f32Mul {x y : Word} (hx : nonFinite x = false) (hy : nonFinite y = false) :
    f32Sign (f32Mul x y) = (f32Sign x ^^ f32Sign y) := by
  rw [f32Mul_of_finite hx hy, f32Sign_withSign _ _ (roundMag_lt ..)]

/-- Negating a factor negates a product of finite words. -/
theorem f32Mul_f32Neg {x y : Word} (hx : nonFinite x = false) (hy : nonFinite y = false) :
    f32Mul x (f32Neg y) = f32Neg (f32Mul x y) := by
  rw [← withSign_f32Sign (f32Neg (f32Mul x y)), f32Sign_f32Neg, f32Mag_f32Neg, f32Mul_of_finite hx hy,
    f32Mul_of_finite hx (by rwa [nonFinite_f32Neg]), f32Sign_withSign _ _ (roundMag_lt ..),
    f32Mag_withSign _ _ (roundMag_lt ..), f32Sign_f32Neg, f32Units_eq (f32Neg y), f32Mag_f32Neg, f32Units_eq y]
  simp

@[simp] theorem f32Neg_f32Neg (w : Word) : f32Neg (f32Neg w) = w := by
  rw [f32Neg, f32Neg, BitVec.xor_assoc, BitVec.xor_self, BitVec.xor_zero]

/-- A word plus its negation: +0.0, or a NaN where it is infinite. -/
theorem f32Add_f32Neg_self {w : Word} (hw : f32IsNaN w = false) :
    f32Add (f32Neg w) w = if f32IsInf w then f32NaN else 0 := by
  cases hi : f32IsInf w with
  | false =>
    have hfin := nonFinite_eq_false hw hi
    rw [f32Add_of_finite (by rwa [nonFinite_f32Neg]) hfin, f32Value_f32Neg, if_pos (by omega), f32Sign_f32Neg,
      Bool.not_and_self]
    rfl
  | true =>
    rw [f32Add_of_infs (by rwa [f32IsInf_f32Neg]) hi, f32Sign_f32Neg, if_neg (by simp)]
    rfl

/-- Words that are not negative have a sum that is not negative. -/
theorem f32Sign_f32Add {x y : Word} (hx : f32IsNaN x = false) (hy : f32IsNaN y = false) (hx0 : f32Sign x = false)
    (hy0 : f32Sign y = false) : f32Sign (f32Add x y) = false := by
  cases hxi : f32IsInf x with
  | true =>
    cases hyi : f32IsInf y with
    | true => rw [f32Add_of_infs hxi hyi, if_pos (hx0.trans hy0.symm), hx0]
    | false => rw [f32Add_of_inf_left hxi (nonFinite_eq_false hy hyi), hx0]
  | false =>
    cases hyi : f32IsInf y with
    | true => rw [f32Add_of_inf_right hyi (nonFinite_eq_false hx hxi), hy0]
    | false =>
      rw [f32Add_of_finite (nonFinite_eq_false hx hxi) (nonFinite_eq_false hy hyi), hx0, hy0]
      split
      · rfl
      · rw [rnd32, f32Sign_withSign _ _ (roundMag_lt ..), decide_eq_false_iff_not, f32Value, f32Value, hx0, hy0]
        simp only [Bool.false_eq_true, if_false]
        omega

theorem f32Sign_f32Canon {w : Word} (h : f32Sign w = false) : f32Sign (f32Canon w) = false := by
  unfold f32Canon
  split
  · decide
  · exact h

/-- A finite sample times its own conjugate: Q is 0 where xr·xi does not overflow, and I is not negative. -/
theorem cmulReference_conj {x : Sample} (hi : nonFinite x.i = false) (hq : nonFinite x.q = false) :
    (cmulReference x (Sample.conj x)).q = (if f32IsInf (f32Mul x.i x.q) then f32NaN else 0) ∧
      f32Sign (cmulReference x (Sample.conj x)).i = false := by
  constructor
  · rw [cmulReference, Sample.conj]
    dsimp only
    rw [f32Mul_f32Neg hi hq, f32Mul_comm x.q x.i, f32Add_f32Neg_self (f32IsNaN_f32Mul hi hq)]
    split <;> rfl
  · rw [cmulReference, Sample.conj]
    dsimp only
    rw [f32Sub, f32Mul_f32Neg hq hq, f32Neg_f32Neg]
    exact f32Sign_f32Canon (f32Sign_f32Add (f32IsNaN_f32Mul hi hi) (f32IsNaN_f32Mul hq hq)
      (by rw [f32Sign_f32Mul hi hi, Bool.xor_self]) (by rw [f32Sign_f32Mul hq hq, Bool.xor_self]))

/-- Settles O55: the operations case by case, and results held to the reference within NUM_TOL. -/
theorem productIsItsBinary32Operations : Obligations.ProductIsItsBinary32Operations := by
  refine ⟨fun x y hx hy => ?_, binary32_nonFinite, fun x y => ⟨rfl, fun tol => ?_⟩, fun a p u tol => ?_,
    fun x hi hq => ?_⟩
  · have hneg : nonFinite (f32Neg y) = false := by rwa [nonFinite_f32Neg]
    obtain ⟨mul_ne, mul_eq⟩ := f32Mul_spec hx hy
    obtain ⟨add_ne, add_eq⟩ := f32Add_spec hx hy
    obtain ⟨sub_ne, sub_eq⟩ := f32Add_spec hx hneg
    rw [f32Value_f32Neg, ← sub_eq_add_neg] at sub_ne sub_eq
    refine ⟨mul_ne, mul_eq, add_ne, add_eq, sub_ne, fun h => ?_⟩
    rw [f32Sub, sub_eq h, f32Sign_f32Neg]
    simp only [Bool.not_eq_true']
  · exact ⟨heldTo_meetsWithin tol _ _, heldTo_meetsWithin tol _ _⟩
  · exact ⟨rfl, heldTo_meetsWithin tol _ _, heldTo_meetsWithin tol _ _⟩
  · obtain ⟨hqv, hiv⟩ := cmulReference_conj hi hq
    refine ⟨fun h => ?_, fun h => ?_, hiv⟩
    · exact hqv.trans (if_neg (by simp [h]))
    · exact hqv.trans (if_pos h)

end Sys2Proof.Machine
end

section
/-! PROOFS. Enclosures of real numbers: what each operation encloses, the remainders of the series, and the enclosures
of cosines and logarithms (notes/assumptions 10). -/

namespace Sys2Proof.Machine

/-- The enclosure at precision p holds the real r. -/
def Enclosure.Holds (p : Nat) (x : Enclosure) (r : ℝ) : Prop := (x.lo : ℝ) ≤ r * 2 ^ p ∧ r * 2 ^ p ≤ (x.hi : ℝ)

/-! Quotients rounded down and up -/

theorem ediv_cast_le (a b : Int) (hb : 0 < b) : ((a / b : Int) : ℝ) ≤ (a : ℝ) / b := by
  rw [le_div_iff₀ (by exact_mod_cast hb)]
  exact_mod_cast Int.ediv_mul_le a hb.ne'

theorem le_ceilDiv_cast (a b : Int) (hb : 0 < b) : (a : ℝ) / b ≤ (ceilDiv a b : ℝ) := by
  have := ediv_cast_le (-a) b hb
  rw [ceilDiv]
  push_cast at *
  rw [neg_div] at this
  linarith

namespace Enclosure

section
variable {p : Nat} {x y : Enclosure} {r s : ℝ}

theorem holds_ofInt (p : Nat) (z : Int) : (ofInt p z).Holds p z := by
  simp [Holds, ofInt]

theorem Holds.add (hx : x.Holds p r) (hy : y.Holds p s) : (x.add y).Holds p (r + s) := by
  obtain ⟨hxl, hxh⟩ := hx
  obtain ⟨hyl, hyh⟩ := hy
  simp only [Holds, Enclosure.add, Int.cast_add, add_mul]
  constructor <;> linarith

theorem Holds.neg (hx : x.Holds p r) : x.neg.Holds p (-r) := by
  obtain ⟨hxl, hxh⟩ := hx
  simp only [Holds, Enclosure.neg, Int.cast_neg, neg_mul]
  constructor <;> linarith

theorem Holds.sub (hx : x.Holds p r) (hy : y.Holds p s) : (x.sub y).Holds p (r - s) := by
  rw [sub_eq_add_neg]
  exact hx.add hy.neg

theorem Holds.scale (hx : x.Holds p r) (z : Int) : (x.scale z).Holds p (r * z) := by
  obtain ⟨hxl, hxh⟩ := hx
  have swap : r * z * 2 ^ p = r * 2 ^ p * z := by ring
  unfold Enclosure.scale Holds
  rw [swap]
  split
  · next hz =>
    have hz : (0 : ℝ) ≤ z := by exact_mod_cast hz
    push_cast
    exact ⟨by gcongr, by gcongr⟩
  · next hz =>
    have hz : (z : ℝ) ≤ 0 := by exact_mod_cast (not_le.mp hz).le
    push_cast
    exact ⟨mul_le_mul_of_nonpos_right hxh hz, mul_le_mul_of_nonpos_right hxl hz⟩

theorem Holds.divNat (hx : x.Holds p r) (d : Nat) (hd : 0 < d) : (x.divNat d).Holds p (r / d) := by
  obtain ⟨hxl, hxh⟩ := hx
  have hd' : (0 : Int) < d := by exact_mod_cast hd
  have swap : r / d * 2 ^ p = r * 2 ^ p / d := by ring
  have lower := ediv_cast_le x.lo d hd'
  have upper := le_ceilDiv_cast x.hi d hd'
  rw [Int.cast_natCast] at lower upper
  unfold Enclosure.divNat Holds
  rw [swap]
  exact ⟨lower.trans (by gcongr), le_trans (by gcongr) upper⟩

theorem Holds.widen (hx : x.Holds p r) (e : Int) (he : |s - r| * 2 ^ p ≤ e) : (x.widen e).Holds p s := by
  obtain ⟨hxl, hxh⟩ := hx
  have pow : (0 : ℝ) ≤ 2 ^ p := by positivity
  have h1 := mul_le_mul_of_nonneg_right (le_abs_self (s - r)) pow
  have h2 := mul_le_mul_of_nonneg_right (neg_abs_le (s - r)) pow
  unfold Enclosure.widen Holds
  push_cast
  constructor <;> linarith

/-- A product lies between the products of the ends. -/
theorem min_corners_le_mul {a b c d X Y : ℝ} (hX : a ≤ X) (hX' : X ≤ b) (hY : c ≤ Y) (hY' : Y ≤ d) :
    min (min (a * c) (a * d)) (min (b * c) (b * d)) ≤ X * Y := by
  have linear {l u Z W : ℝ} (hl : l ≤ Z) (hu : Z ≤ u) : min (W * l) (W * u) ≤ W * Z := by
    rcases le_total 0 W with hW | hW
    · exact min_le_of_left_le (mul_le_mul_of_nonneg_left hl hW)
    · exact min_le_of_right_le (mul_le_mul_of_nonpos_left hu hW)
  have ends := linear (W := Y) hX hX'
  rw [mul_comm Y, mul_comm Y, mul_comm Y] at ends
  exact (min_le_min (linear hY hY') (linear hY hY')).trans ends

theorem mul_le_max_corners {a b c d X Y : ℝ} (hX : a ≤ X) (hX' : X ≤ b) (hY : c ≤ Y) (hY' : Y ≤ d) :
    X * Y ≤ max (max (a * c) (a * d)) (max (b * c) (b * d)) := by
  have := min_corners_le_mul (neg_le_neg hX') (neg_le_neg hX) hY hY'
  simp only [neg_mul, min_neg_neg, neg_le_neg_iff] at this
  rwa [max_comm]

theorem Holds.mul (hx : x.Holds p r) (hy : y.Holds p s) : (x.mul p y).Holds p (r * s) := by
  obtain ⟨hxl, hxh⟩ := hx
  obtain ⟨hyl, hyh⟩ := hy
  have pos : (0 : Int) < 2 ^ p := by positivity
  have pow : (0 : ℝ) < 2 ^ p := by positivity
  have swap : r * s * 2 ^ p = r * 2 ^ p * (s * 2 ^ p) / 2 ^ p := by field_simp
  unfold Enclosure.mul Holds
  rw [swap]
  constructor
  · refine (ediv_cast_le _ _ pos).trans ?_
    push_cast
    gcongr
    exact min_corners_le_mul hxl hxh hyl hyh
  · refine le_trans ?_ (le_ceilDiv_cast _ _ pos)
    push_cast
    gcongr
    exact mul_le_max_corners hxl hxh hyl hyh

/-- A quotient by a positive real is at least its lower end by the end of the divisor that makes it smaller. -/
theorem end_div_le {l X c d Y : ℝ} (hX : l ≤ X) (hc : 0 < c) (hY : c ≤ Y) (hY' : Y ≤ d) :
    (0 ≤ l → l / d ≤ X / Y) ∧ (l ≤ 0 → l / c ≤ X / Y) := by
  have pos : 0 < Y := hc.trans_le hY
  have end_le : l / Y ≤ X / Y := by gcongr
  refine ⟨fun hl => le_trans ?_ end_le, fun hl => le_trans ?_ end_le⟩
  · gcongr
  · rw [div_le_div_iff₀ hc pos]
    exact mul_le_mul_of_nonpos_left hY hl

theorem Holds.div (hx : x.Holds p r) (hy : y.Holds p s) (pos : 0 < y.lo) : (x.div p y).Holds p (r / s) := by
  obtain ⟨hxl, hxh⟩ := hx
  obtain ⟨hyl, hyh⟩ := hy
  have pow : (0 : ℝ) < 2 ^ p := by positivity
  have lo : (0 : ℝ) < y.lo := by exact_mod_cast pos
  have hi : 0 < y.hi := by exact_mod_cast lo.trans_le (hyl.trans hyh)
  have hs : (0 : ℝ) < s * 2 ^ p := lo.trans_le hyl
  have swap : r / s * 2 ^ p = r * 2 ^ p * 2 ^ p / (s * 2 ^ p) := by field_simp
  obtain ⟨low_nonneg, low_nonpos⟩ := end_div_le (mul_le_mul_of_nonneg_right hxl pow.le) lo hyl hyh
  obtain ⟨high_nonneg, high_nonpos⟩ :=
    end_div_le (mul_le_mul_of_nonneg_right (neg_le_neg hxh) pow.le) lo hyl hyh
  simp only [neg_mul, neg_div, neg_le_neg_iff, neg_nonneg, neg_nonpos] at high_nonneg high_nonpos
  unfold Enclosure.div Holds
  rw [swap]
  dsimp only
  constructor
  · split
    · next h =>
      refine (ediv_cast_le _ _ hi).trans ?_
      push_cast
      exact low_nonneg (mul_nonneg (by exact_mod_cast h) pow.le)
    · next h =>
      refine (ediv_cast_le _ _ pos).trans ?_
      push_cast
      exact low_nonpos (mul_nonpos_of_nonpos_of_nonneg (by exact_mod_cast (not_le.mp h).le) pow.le)
  · split
    · next h =>
      refine le_trans ?_ (le_ceilDiv_cast _ _ pos)
      push_cast
      exact high_nonpos (mul_nonneg (by exact_mod_cast h) pow.le)
    · next h =>
      refine le_trans ?_ (le_ceilDiv_cast _ _ hi)
      push_cast
      exact high_nonneg (mul_nonpos_of_nonpos_of_nonneg (by exact_mod_cast (not_le.mp h).le) pow.le)

/-! The integer square root -/

/-- One bit of the root at a time: the root stays below the square and above it by the bits to come. -/
theorem sqrtBits_spec (n k r : Nat) (hr : r * r ≤ n) (hn : n < (r + 2 ^ k) * (r + 2 ^ k)) :
    sqrtBits n k r * sqrtBits n k r ≤ n ∧ n < (sqrtBits n k r + 1) * (sqrtBits n k r + 1) := by
  induction k generalizing r with
  | zero => exact ⟨hr, hn⟩
  | succ k ih =>
    rw [sqrtBits]
    split
    · next h => exact ih _ h (by rwa [Nat.add_assoc, ← Nat.two_mul, ← pow_succ'])
    · next h => exact ih _ hr (not_le.mp h)

theorem floorSqrt_spec (n : Nat) : floorSqrt n * floorSqrt n ≤ n ∧ n < (floorSqrt n + 1) * (floorSqrt n + 1) := by
  refine sqrtBits_spec n _ 0 (Nat.zero_le n) ?_
  rw [Nat.zero_add, ← pow_add]
  exact Nat.lt_log2_self.trans_le (Nat.pow_le_pow_right (by decide) (by omega))

theorem Holds.sqrt (hx : x.Holds p r) (hr : 0 ≤ r) : (x.sqrt p).Holds p (√r) := by
  obtain ⟨hxl, hxh⟩ := hx
  have pow : (0 : ℝ) < 2 ^ p := by positivity
  have square : √r * 2 ^ p = √(r * 2 ^ p * 2 ^ p) := by
    rw [mul_assoc, Real.sqrt_mul hr, Real.sqrt_mul_self pow.le]
  have nonneg : 0 ≤ r * 2 ^ p := by positivity
  unfold Enclosure.sqrt Holds
  rw [square]
  constructor
  · refine Real.le_sqrt_of_sq_le ?_
    have := (floorSqrt_spec (x.lo.toNat * 2 ^ p)).1
    have : ((floorSqrt (x.lo.toNat * 2 ^ p) * floorSqrt (x.lo.toNat * 2 ^ p) : ℕ) : ℝ) ≤ (x.lo.toNat * 2 ^ p : ℕ) := by
      exact_mod_cast this
    have lo : (x.lo.toNat : ℝ) ≤ r * 2 ^ p := by
      rw [← Int.cast_natCast, Int.toNat_eq_max, Int.cast_max]
      exact max_le hxl (by simpa using nonneg)
    push_cast at *
    rw [sq]
    exact this.trans (by gcongr)
  · refine Real.sqrt_le_iff.mpr ⟨by positivity, ?_⟩
    have := (floorSqrt_spec (x.hi.toNat * 2 ^ p)).2
    have : ((x.hi.toNat * 2 ^ p : ℕ) : ℝ) ≤
        ((floorSqrt (x.hi.toNat * 2 ^ p) + 1) * (floorSqrt (x.hi.toNat * 2 ^ p) + 1) : ℕ) := by
      exact_mod_cast this.le
    have hi : r * 2 ^ p ≤ (x.hi.toNat : ℝ) := by
      refine hxh.trans ?_
      exact_mod_cast Int.self_le_toNat x.hi
    push_cast at *
    rw [sq]
    exact le_trans (by gcongr) this

end

end Enclosure

/-! Series -/

/-- The remainder of an alternating series is at most the first term left out. -/
theorem alternating_remainder {f : ℕ → ℝ} {l : ℝ} (anti : Antitone f) (nonneg : ∀ n, 0 ≤ f n)
    (h : HasSum (fun i => (-1) ^ i * f i) l) (n : ℕ) : |l - ∑ i ∈ Finset.range n, (-1) ^ i * f i| ≤ f n := by
  have summable : Summable f := by
    refine h.summable.abs.congr fun i => ?_
    rw [abs_mul, abs_pow, abs_neg, abs_one, one_pow, one_mul, abs_of_nonneg (nonneg i)]
  rw [← h.tsum_eq]
  exact alternating_series_error_bound f anti summable n

/-- The sign of term k of a series. -/
def termSign (alternating : Bool) (k : Nat) : ℝ := if alternating && k % 2 == 1 then -1 else 1

theorem termSign_true (k : Nat) : termSign true k = (-1) ^ k := by
  unfold termSign
  rcases Nat.even_or_odd k with h | h
  · simp [h.neg_one_pow, Nat.even_iff.mp h]
  · simp [h.neg_one_pow, Nat.odd_iff.mp h]

@[simp] theorem termSign_false (k : Nat) : termSign false k = 1 := rfl

/-- Adding or subtracting a term by its sign. -/
theorem holds_add_termSign {p : Nat} {acc t : Enclosure} {a q : ℝ} (alternating : Bool) (k : Nat) (hacc : acc.Holds p a)
    (ht : t.Holds p q) :
    (if alternating && k % 2 == 1 then acc.sub t else acc.add t).Holds p (a + termSign alternating k * q) := by
  unfold termSign
  split
  · rw [neg_one_mul, ← sub_eq_add_neg]
    exact hacc.sub ht
  · rw [one_mul]
    exact hacc.add ht

/-- A partial sum of a power series with a ratio c between powers, and the power after it. -/
theorem seriesSum_holds {p : Nat} (alternating : Bool) {next : Enclosure → Enclosure} {weight : Nat → Nat} {c : ℝ}
    (hnext : ∀ x r, x.Holds p r → (next x).Holds p (r * c)) (hweight : ∀ k, 0 < weight k) (terms k : Nat)
    {power acc : Enclosure} {q a : ℝ} (hpower : power.Holds p q) (hacc : acc.Holds p a) :
    (seriesSum alternating next weight terms k power acc).1.Holds p
      (a + ∑ i ∈ Finset.range terms, termSign alternating (k + i) * (q * c ^ i / weight (k + i))) ∧
    (seriesSum alternating next weight terms k power acc).2.Holds p (q * c ^ terms) := by
  induction terms generalizing k power acc q a with
  | zero => simpa [seriesSum] using ⟨hacc, hpower⟩
  | succ terms ih =>
    rw [seriesSum]
    have step := ih (k + 1) (hnext power q hpower)
      (holds_add_termSign alternating k hacc (hpower.divNat (weight k) (hweight k)))
    refine ⟨?_, by rw [pow_succ', ← mul_assoc]; exact step.2⟩
    rw [Finset.sum_range_succ']
    convert step.1 using 1
    rw [add_assoc, add_comm (∑ _ ∈ _, _)]
    congr 2
    · simp
    · refine Finset.sum_congr rfl fun i _ => ?_
      rw [pow_succ', mul_assoc, Nat.add_right_comm, Nat.add_assoc]

/-! π -/

theorem arctanInv_holds (p n : Nat) (hn : 1 < n) : (arctanInv p n).Holds p (Real.arctan (n : ℝ)⁻¹) := by
  set x : ℝ := (n : ℝ)⁻¹ with hx
  have hn' : (1 : ℝ) < n := by exact_mod_cast hn
  have x0 : 0 < x := by positivity
  have x1 : x < 1 := inv_lt_one_of_one_lt₀ hn'
  set N := p / 4 + 2
  obtain ⟨hsum, hpower⟩ := seriesSum_holds (p := p) true (next := fun y => y.divNat (n * n))
    (weight := fun k => 2 * k + 1) (c := x * x)
    (fun y r hy => by
      have := hy.divNat (n * n) (by positivity)
      rwa [Nat.cast_mul, div_eq_mul_inv, mul_inv] at this)
    (fun k => Nat.succ_pos _) N 0 ((Enclosure.holds_ofInt p 1).divNat n (by omega)) (a := 0) (acc := ⟨0, 0⟩)
    (by simp [Enclosure.Holds])
  rw [Int.cast_one, one_div, ← hx] at hsum hpower
  have term (k : ℕ) : x * (x * x) ^ k = x ^ (2 * k + 1) := by rw [← sq, ← pow_mul, pow_succ']
  simp only [zero_add, termSign_true, term] at hsum
  rw [term] at hpower
  have series : HasSum (fun k => (-1) ^ k * (x ^ (2 * k + 1) / (2 * k + 1 : ℕ))) (Real.arctan x) := by
    simpa only [mul_div_assoc] using Real.hasSum_arctan (show ‖x‖ < 1 by rwa [Real.norm_of_nonneg x0.le])
  have remainder := alternating_remainder (f := fun k => x ^ (2 * k + 1) / (2 * k + 1 : ℕ))
    (fun i j hij => by
      have := pow_le_pow_of_le_one x0.le x1.le (show 2 * i + 1 ≤ 2 * j + 1 by omega)
      beta_reduce
      gcongr)
    (fun k => by positivity) series N
  refine hsum.widen _ ?_
  refine le_trans ?_ hpower.2
  gcongr
  refine remainder.trans (div_le_self (by positivity) ?_)
  exact_mod_cast Nat.succ_pos (2 * N)

theorem piEnclosure_holds (p : Nat) : (piEnclosure p).Holds p Real.pi := by
  have machin := Real.four_mul_arctan_inv_5_sub_arctan_inv_239
  have h := ((arctanInv_holds p 5 (by decide)).scale 16).sub ((arctanInv_holds p 239 (by decide)).scale 4)
  push_cast at h
  rwa [show Real.pi = Real.arctan 5⁻¹ * 16 - Real.arctan 239⁻¹ * 4 by linarith]

/-! Cosines -/

/-- The running terms x^(2k+b)/(2k+b)! of the cosine (b = 0) and of the sine (b = 1). -/
noncomputable def taylorTerm (b : Nat) (x : ℝ) (k : Nat) : ℝ := x ^ (2 * k + b) / (2 * k + b).factorial

theorem taylorTerm_succ (b : Nat) (x : ℝ) (k : Nat) :
    taylorTerm b x (k + 1) = taylorTerm b x k * (x * x) / ((2 * k + b + 1) * (2 * k + b + 2) : ℕ) := by
  rw [taylorTerm, taylorTerm, show 2 * (k + 1) + b = 2 * k + b + 1 + 1 by omega, Nat.factorial_succ, Nat.factorial_succ,
    pow_succ, pow_succ]
  have := Nat.factorial_ne_zero (2 * k + b)
  push_cast
  field_simp
  ring

theorem taylorTerm_nonneg (b : Nat) {x : ℝ} (hx : 0 ≤ x) (k : Nat) : 0 ≤ taylorTerm b x k := by
  unfold taylorTerm
  positivity

theorem taylorTerm_antitone (b : Nat) {x : ℝ} (hx : 0 ≤ x) (hx1 : x ≤ 1) : Antitone (taylorTerm b x) := by
  intro i j hij
  have pow := pow_le_pow_of_le_one hx hx1 (show 2 * i + b ≤ 2 * j + b by omega)
  have fac : ((2 * i + b).factorial : ℝ) ≤ (2 * j + b).factorial := by
    exact_mod_cast Nat.factorial_le (show 2 * i + b ≤ 2 * j + b by omega)
  have pos : (0 : ℝ) < (2 * i + b).factorial := by exact_mod_cast Nat.factorial_pos _
  unfold taylorTerm
  gcongr

/-- A Taylor sum with its remainder holds what lies within the first term left out of the partial sum. -/
theorem taylorSum_holds (p b : Nat) {x2 : Enclosure} {x : ℝ} (hx2 : x2.Holds p (x * x)) (terms k : Nat)
    {term acc : Enclosure} {a v : ℝ} (hterm : term.Holds p (taylorTerm b x k)) (hacc : acc.Holds p a)
    (hv : |v - (a + ∑ i ∈ Finset.range terms, (-1) ^ (k + i) * taylorTerm b x (k + i))| ≤ taylorTerm b x (k + terms)) :
    (taylorSum p b x2 terms k term acc).Holds p v := by
  induction terms generalizing k term acc a with
  | zero =>
    rw [taylorSum]
    refine hacc.widen _ (le_trans ?_ hterm.2)
    gcongr
    simpa using hv
  | succ terms ih =>
    rw [taylorSum]
    have next : ((term.mul p x2).divNat ((2 * k + b + 1) * (2 * k + b + 2))).Holds p (taylorTerm b x (k + 1)) := by
      rw [taylorTerm_succ]
      exact (hterm.mul hx2).divNat _ (by positivity)
    refine ih (k + 1) next (holds_add_termSign true k hacc hterm) ?_
    rw [termSign_true]
    rw [Finset.sum_range_succ'] at hv
    convert hv using 1
    · rw [add_assoc, add_comm (∑ _ ∈ _, _)]
      congr 3
      refine congrArg₂ _ (by simp) (Finset.sum_congr rfl fun i _ => ?_)
      rw [Nat.add_right_comm, Nat.add_assoc]
    · rw [Nat.add_right_comm, Nat.add_assoc]

theorem cosSeries_holds (p : Nat) {e : Enclosure} {x : ℝ} (he : e.Holds p x) (hx : 0 ≤ x) (hx1 : x ≤ 1) :
    (cosSeries p e).Holds p (Real.cos x) := by
  have series : HasSum (fun k => (-1) ^ k * taylorTerm 0 x k) (Real.cos x) := by
    simpa only [taylorTerm, add_zero, mul_div_assoc] using Real.hasSum_cos x
  refine taylorSum_holds p 0 (he.mul he) (p / 8 + 8) 0 (a := 0) ?_ (by simp [Enclosure.Holds]) ?_
  · simpa [taylorTerm] using Enclosure.holds_ofInt p 1
  · simpa using alternating_remainder (taylorTerm_antitone 0 hx hx1) (taylorTerm_nonneg 0 hx) series (p / 8 + 8)

theorem sinSeries_holds (p : Nat) {e : Enclosure} {x : ℝ} (he : e.Holds p x) (hx : 0 ≤ x) (hx1 : x ≤ 1) :
    (sinSeries p e).Holds p (Real.sin x) := by
  have series : HasSum (fun k => (-1) ^ k * taylorTerm 1 x k) (Real.sin x) := by
    simpa only [taylorTerm, mul_div_assoc] using Real.hasSum_sin x
  refine taylorSum_holds p 1 (he.mul he) (p / 8 + 8) 0 (a := 0) ?_ (by simp [Enclosure.Holds]) ?_
  · simpa [taylorTerm] using he
  · simpa using alternating_remainder (taylorTerm_antitone 1 hx hx1) (taylorTerm_nonneg 1 hx) series (p / 8 + 8)

/-- The part r/u of a quarter turn, for r at most half of u: an angle below 1. -/
theorem eighthTurn_holds (p r u : Nat) (hu : 0 < u) (hr : 2 * r ≤ u) :
    (((piEnclosure p).scale r).divNat (2 * u)).Holds p (Real.pi * r / (2 * u)) ∧
      0 ≤ Real.pi * r / (2 * u) ∧ Real.pi * r / (2 * u) ≤ 1 := by
  have h := ((piEnclosure_holds p).scale r).divNat (2 * u) (by omega)
  push_cast at h
  have hr' : (2 * r : ℝ) ≤ u := by exact_mod_cast hr
  have hu' : (0 : ℝ) < u := by exact_mod_cast hu
  refine ⟨h, by positivity, (div_le_one (by positivity)).mpr ?_⟩
  nlinarith [Real.pi_le_four, Real.pi_pos]

theorem cosQuarter_holds (p r u : Nat) (hu : 0 < u) (hr : r ≤ u) :
    (cosQuarter p r u).Holds p (Real.cos (Real.pi * r / (2 * u))) := by
  unfold cosQuarter
  split
  · next h =>
    obtain ⟨he, h0, h1⟩ := eighthTurn_holds p r u hu h
    exact cosSeries_holds p he h0 h1
  · next h =>
    obtain ⟨he, h0, h1⟩ := eighthTurn_holds p (u - r) u hu (by omega)
    have hu' : (u : ℝ) ≠ 0 := by exact_mod_cast hu.ne'
    rw [← Real.sin_pi_div_two_sub, show Real.pi / 2 - Real.pi * r / (2 * u) = Real.pi * (u - r : ℕ) / (2 * u) by
      rw [Nat.cast_sub hr]; field_simp]
    exact sinSeries_holds p he h0 h1

/-- An angle in turns, its whole turns dropped. -/
theorem cos_mod_turn (n u : Nat) (hu : 0 < u) :
    Real.cos (2 * Real.pi * n / u) = Real.cos (2 * Real.pi * (n % u : ℕ) / u) := by
  have hu' : (u : ℝ) ≠ 0 := by exact_mod_cast hu.ne'
  conv_lhs => rw [← Nat.mod_add_div n u]
  rw [← Real.cos_add_nat_mul_two_pi (2 * Real.pi * (n % u : ℕ) / u) (n / u)]
  congr 1
  push_cast
  field_simp

theorem cosTurn_holds (p n u : Nat) (hu : 0 < u) : (cosTurn p n u).Holds p (Real.cos (2 * Real.pi * n / u)) := by
  have hu' : (u : ℝ) ≠ 0 := by exact_mod_cast hu.ne'
  rw [cos_mod_turn n u hu]
  unfold cosTurn
  dsimp only
  have hlt := Nat.mod_lt n hu
  generalize n % u = m at hlt ⊢
  set r := 4 * m % u
  have hr : r < u := Nat.mod_lt _ hu
  have quadrant (q : Nat) (hq : 4 * m / u = q) : 2 * Real.pi * m / u = Real.pi * r / (2 * u) + q * (Real.pi / 2) := by
    have : ((4 * m : ℕ) : ℝ) = (u * q + r : ℕ) := by rw [← hq]; exact_mod_cast (Nat.div_add_mod (4 * m) u).symm
    push_cast at this
    field_simp
    linear_combination this
  have reflect : Real.pi * (u - r : ℕ) / (2 * u) = Real.pi / 2 - Real.pi * r / (2 * u) := by
    rw [Nat.cast_sub hr.le]; field_simp
  split
  · next h =>
    rw [quadrant 0 h, Nat.cast_zero, zero_mul, add_zero]
    exact cosQuarter_holds p r u hu hr.le
  · next h =>
    rw [quadrant 1 h, Nat.cast_one, one_mul, Real.cos_add_pi_div_two, ← Real.cos_pi_div_two_sub, ← reflect]
    exact (cosQuarter_holds p (u - r) u hu (by omega)).neg
  · next h =>
    rw [quadrant 2 h, show (2 : ℕ) * (Real.pi / 2) = Real.pi by push_cast; ring, Real.cos_add_pi]
    exact (cosQuarter_holds p r u hu hr.le).neg
  · next h0 h1 h2 =>
    have h : 4 * m / u = 3 := by
      have : 4 * m / u < 4 := Nat.div_lt_of_lt_mul (by omega)
      generalize 4 * m / u = q at *
      simp only [imp_false] at h0 h1 h2
      omega
    rw [quadrant 3 h, show (3 : ℕ) * (Real.pi / 2) = Real.pi + Real.pi / 2 by push_cast; ring, ← add_assoc,
      Real.cos_add_pi_div_two, Real.sin_add_pi, neg_neg, ← Real.cos_pi_div_two_sub, ← reflect]
    exact cosQuarter_holds p (u - r) u hu (by omega)

/-- Settles O52: the quarter turns of the cosine, from Machin's formula and the two Taylor series. -/
theorem cosineEnclosureContainsTheCosine : Obligations.CosineEnclosureContainsTheCosine :=
  fun p n u hu => cosTurn_holds p n u hu

/-! Logarithms -/

theorem lnSeries_holds (p : Nat) {e : Enclosure} {z : ℝ} (he : e.Holds p z) (hz : 0 ≤ z) (hz1 : z ≤ 1 / 3) :
    (lnSeries p e).Holds p (Real.log ((1 + z) / (1 - z))) := by
  set N := p / 3 + 2
  obtain ⟨hsum, hpower⟩ := seriesSum_holds (p := p) false (next := fun x => x.mul p (e.mul p e))
    (weight := fun k => 2 * k + 1) (c := z * z) (fun y r hy => hy.mul (he.mul he)) (fun k => Nat.succ_pos _) N 0 he
    (a := 0) (acc := ⟨0, 0⟩) (by simp [Enclosure.Holds])
  set f : ℕ → ℝ := fun k => z * (z * z) ^ k / (2 * k + 1 : ℕ) with hf
  have series : HasSum f (Real.log ((1 + z) / (1 - z)) / 2) := by
    have := (Real.hasSum_log_sub_log_of_abs_lt_one (show |z| < 1 by rw [abs_of_nonneg hz]; linarith)).div_const 2
    rw [← Real.log_div (by linarith) (by linarith)] at this
    have terms : f = fun k : ℕ => 2 * (1 / (2 * (k : ℝ) + 1)) * z ^ (2 * k + 1) / 2 := by
      funext k
      rw [hf, pow_succ', pow_mul, sq]
      push_cast
      ring
    rwa [terms]
  have tail : HasSum (fun k => f (k + N)) (Real.log ((1 + z) / (1 - z)) / 2 - ∑ i ∈ Finset.range N, f i) :=
    (hasSum_nat_add_iff' N).mpr series
  have nonneg (k : ℕ) : 0 ≤ f k := by positivity
  have geometric : HasSum (fun k => z * (z * z) ^ N * (z * z) ^ k) (z * (z * z) ^ N * (1 - z * z)⁻¹) :=
    (hasSum_geometric_of_lt_one (by positivity) (by nlinarith)).mul_left _
  have remainder : Real.log ((1 + z) / (1 - z)) / 2 - ∑ i ∈ Finset.range N, f i ≤ z * (z * z) ^ N * (1 - z * z)⁻¹ := by
    refine hasSum_le (fun k => ?_) tail geometric
    rw [hf]
    beta_reduce
    rw [Nat.add_comm k N, pow_add, mul_assoc]
    exact div_le_self (by positivity) (by exact_mod_cast Nat.succ_pos (2 * (N + k)))
  have small : (1 - z * z)⁻¹ ≤ 2 := by
    rw [inv_le_comm₀ (by nlinarith) (by norm_num)]
    nlinarith
  have := (hsum.widen (s := Real.log ((1 + z) / (1 - z)) / 2) (2 * (seriesSum false (fun x => x.mul p (e.mul p e))
    (fun k => 2 * k + 1) N 0 e ⟨0, 0⟩).2.hi) ?_).scale 2
  · rwa [Int.cast_ofNat, div_mul_cancel₀ _ two_ne_zero] at this
  · simp only [zero_add, termSign_false, one_mul]
    rw [abs_of_nonneg (tail.nonneg fun k => nonneg (k + N)), Int.cast_mul, Int.cast_ofNat]
    calc _ ≤ z * (z * z) ^ N * 2 * 2 ^ p := by
          gcongr
          exact remainder.trans (by gcongr)
      _ = 2 * (z * (z * z) ^ N * 2 ^ p) := by ring
      _ ≤ _ := by gcongr; exact hpower.2

theorem ln2Enclosure_holds (p : Nat) : (ln2Enclosure p).Holds p (Real.log 2) := by
  have := lnSeries_holds p ((Enclosure.holds_ofInt p 1).divNat 3 (by decide)) (by positivity) (by norm_num)
  rwa [show ((1 + ((1 : ℤ) : ℝ) / (3 : ℕ)) / (1 - ((1 : ℤ) : ℝ) / (3 : ℕ))) = 2 by norm_num] at this

theorem ln10Enclosure_holds (p : Nat) : (ln10Enclosure p).Holds p (Real.log 10) := by
  have quarter := lnSeries_holds p ((Enclosure.holds_ofInt p 1).divNat 9 (by decide)) (by positivity) (by norm_num)
  rw [show ((1 + ((1 : ℤ) : ℝ) / (9 : ℕ)) / (1 - ((1 : ℤ) : ℝ) / (9 : ℕ))) = 5 / 4 by norm_num] at quarter
  have := ((ln2Enclosure_holds p).scale 3).add quarter
  rwa [show Real.log 2 * (3 : ℤ) + Real.log (5 / 4) = Real.log 10 by
    rw [mul_comm, Int.cast_ofNat, ← Nat.cast_ofNat, ← Real.log_pow, ← Real.log_mul (by norm_num) (by norm_num)]
    norm_num] at this

theorem lnNat_holds (p n : Nat) (hn : 0 < n) : (lnNat p n).Holds p (Real.log n) := by
  have hlog : 2 ^ Nat.log2 n ≤ n := Nat.log2_self_le hn.ne'
  have hlog' : n < 2 ^ (Nat.log2 n + 1) := Nat.lt_log2_self
  set e := Nat.log2 n
  have pow : (0 : ℝ) < 2 ^ e := by positivity
  have below : (2 : ℝ) ^ e ≤ n := by exact_mod_cast hlog
  have above : (n : ℝ) < 2 ^ e * 2 := by rw [← pow_succ]; exact_mod_cast hlog'
  have hz := (Enclosure.holds_ofInt p ((n - 2 ^ e : Nat) : Int)).divNat (n + 2 ^ e) (by positivity)
  rw [Int.cast_natCast, show ((n - 2 ^ e : ℕ) : ℝ) = n - 2 ^ e by rw [Nat.cast_sub hlog]; push_cast; rfl,
    show ((n + 2 ^ e : ℕ) : ℝ) = n + 2 ^ e by push_cast; rfl] at hz
  have := (lnSeries_holds p hz (div_nonneg (by linarith) (by positivity))
    ((div_le_iff₀ (by positivity)).mpr (by linarith))).add ((ln2Enclosure_holds p).scale e)
  rwa [show (1 + ((n : ℝ) - 2 ^ e) / (n + 2 ^ e)) / (1 - ((n : ℝ) - 2 ^ e) / (n + 2 ^ e)) = n / 2 ^ e by
    field_simp; ring, Real.log_div (by positivity) (by positivity), Real.log_pow, Int.cast_natCast, mul_comm,
    sub_add_cancel] at this

end Sys2Proof.Machine
end

section
/-! PROOFS. The reference chirp sample is the rounded cosine and sine (spec/44_chirp.md R233): the rational cosines, the
exact comparison of a cosine with a rational, and the sample itself. -/

namespace Sys2Proof.Machine

/-! Comparing a cosine with a rational -/

/-- What `halfTurns` has found after j steps, for cos φ = s/t: the two last sines, and the half turns of (j + 1)·φ. -/
structure HalfTurns (t : Int) (φ : ℝ) (j : Nat) (before w : Int) (turns : Nat) : Prop where
  sine : (w : ℝ) * Real.sin φ = t ^ j * Real.sin ((j + 1) * φ)
  sineBefore : (t : ℝ) * before * Real.sin φ = t ^ j * Real.sin (j * φ)
  reached : turns * Real.pi ≤ (j + 1) * φ
  notBeyond : (j + 1) * φ < (turns + 1) * Real.pi

/-- Below two half turns, the sine is positive exactly in the first. -/
theorem sin_nonpos_iff {x : ℝ} (h0 : 0 < x) (h2 : x < 2 * Real.pi) : Real.sin x ≤ 0 ↔ Real.pi ≤ x := by
  constructor
  · intro h
    by_contra hlt
    exact absurd (Real.sin_pos_of_pos_of_lt_pi h0 (not_le.mp hlt)) (not_lt.mpr h)
  · intro h
    rw [← Real.sin_sub_two_pi]
    exact Real.sin_nonpos_of_nonpos_of_neg_pi_le (by linarith) (by linarith)

section
variable {s t : Int} {φ : ℝ} (ht : 0 < t) (hφ : 0 < φ) (hφ' : φ < Real.pi) (hcos : (t : ℝ) * Real.cos φ = s)
include ht hφ hφ' hcos

/-- One step of `halfTurns`: the addition theorem, and a half turn passed where the sine changes its sign. -/
theorem HalfTurns.step {j turns : Nat} {before w : Int} (h : HalfTurns t φ j before w turns) :
    HalfTurns t φ (j + 1) w (2 * s * w - t * t * before)
      (if (if turns % 2 = 0 then decide (2 * s * w - t * t * before ≤ 0) else decide (0 ≤ 2 * s * w - t * t * before))
        then turns + 1 else turns) := by
  have sinφ : 0 < Real.sin φ := Real.sin_pos_of_pos_of_lt_pi hφ hφ'
  have ht' : (0 : ℝ) < t := by exact_mod_cast ht
  set next := 2 * s * w - t * t * before with hnext
  have sine : (next : ℝ) * Real.sin φ = t ^ (j + 1) * Real.sin ((j + 1 + 1) * φ) := by
    have add : Real.sin ((j + 1 + 1) * φ) = 2 * Real.cos φ * Real.sin ((j + 1) * φ) - Real.sin (j * φ) := by
      rw [show (j + 1 + 1) * φ = (j + 1) * φ + φ by ring, show (j : ℝ) * φ = (j + 1) * φ - φ by ring, Real.sin_add,
        Real.sin_sub]
      ring
    rw [hnext, add]
    push_cast
    rw [← hcos]
    linear_combination 2 * t * Real.cos φ * h.sine - t * h.sineBefore
  -- c is the part of the angle beyond the half turns counted so far.
  set c := (j + 1 + 1) * φ - turns * Real.pi with hc
  have c_pos : 0 < c := by linarith [h.reached]
  have c_lt : c < 2 * Real.pi := by linarith [h.notBeyond]
  have sign_next : (next : ℝ) = (-1) ^ turns * (t ^ (j + 1) / Real.sin φ * Real.sin c) := by
    rw [show (j + 1 + 1) * φ = c + turns * Real.pi by rw [hc]; ring, Real.sin_add_nat_mul_pi] at sine
    field_simp
    linarith
  have scale_pos : 0 < (t : ℝ) ^ (j + 1) / Real.sin φ := by positivity
  have passed : (if turns % 2 = 0 then decide (next ≤ 0) else decide (0 ≤ next)) = decide (Real.pi ≤ c) := by
    simp only [← sin_nonpos_iff c_pos c_lt]
    rcases Nat.even_or_odd turns with he | ho
    · rw [if_pos (Nat.even_iff.mp he), decide_eq_decide, ← Int.cast_nonpos (R := ℝ), sign_next, he.neg_one_pow, one_mul]
      exact ⟨fun h => by_contra fun h' => absurd h (not_le.mpr (mul_pos scale_pos (not_le.mp h'))),
        mul_nonpos_of_nonneg_of_nonpos scale_pos.le⟩
    · rw [if_neg (by rw [Nat.odd_iff.mp ho]; decide), decide_eq_decide, ← Int.cast_nonneg_iff (R := ℝ), sign_next,
        ho.neg_one_pow, neg_one_mul, neg_nonneg]
      exact ⟨fun h => by_contra fun h' => absurd h (not_le.mpr (mul_pos scale_pos (not_le.mp h'))),
        mul_nonpos_of_nonneg_of_nonpos scale_pos.le⟩
  rw [passed]
  refine ⟨by push_cast; exact sine, ?_, ?_, ?_⟩
  · push_cast
    rw [pow_succ]
    linear_combination t * h.sine
  · split
    · next hp => push_cast; linarith [of_decide_eq_true hp]
    · push_cast; linarith [h.reached]
  · split
    · push_cast; linarith
    · next hp =>
      have : ¬ Real.pi ≤ c := fun hle => hp (decide_eq_true hle)
      push_cast; linarith

theorem halfTurns_spec (steps j : Nat) {before w : Int} {turns : Nat} (h : HalfTurns t φ j before w turns) :
    ∃ before', HalfTurns t φ (j + steps) before' (halfTurns s t steps before w turns).2
      (halfTurns s t steps before w turns).1 := by
  induction steps generalizing j before w turns with
  | zero => exact ⟨before, h⟩
  | succ steps ih =>
    obtain ⟨before', h'⟩ := ih (j + 1) (h.step ht hφ hφ' hcos)
    rw [Nat.add_assoc, Nat.add_comm 1] at h'
    exact ⟨before', h'⟩

/-- The half turns of u·φ, and whether u·φ is a whole number of them. -/
theorem halfTurns_total (u : Nat) (hu : 0 < u) :
    ((halfTurns s t (u - 1) 0 1 0).1 * Real.pi ≤ u * φ ∧ u * φ < ((halfTurns s t (u - 1) 0 1 0).1 + 1) * Real.pi) ∧
      ((halfTurns s t (u - 1) 0 1 0).2 = 0 ↔ u * φ = (halfTurns s t (u - 1) 0 1 0).1 * Real.pi) := by
  obtain ⟨before, h⟩ := halfTurns_spec ht hφ hφ' hcos (u - 1) 0 (before := 0) (w := 1) (turns := 0)
    ⟨by simp, by simp, by simpa using hφ.le, by simpa using hφ'⟩
  have hj : ((0 + (u - 1) : ℕ) : ℝ) + 1 = u := by exact_mod_cast (show 0 + (u - 1) + 1 = u by omega)
  obtain ⟨sine, -, reached, notBeyond⟩ := h
  rw [hj] at sine reached notBeyond
  generalize (halfTurns s t (u - 1) 0 1 0).1 = turns at *
  generalize (halfTurns s t (u - 1) 0 1 0).2 = w at *
  refine ⟨⟨reached, notBeyond⟩, ?_⟩
  have sinφ : 0 < Real.sin φ := Real.sin_pos_of_pos_of_lt_pi hφ hφ'
  have ht' : (t : ℝ) ≠ 0 := by exact_mod_cast ht.ne'
  have zero_iff : w = 0 ↔ Real.sin (u * φ) = 0 := by
    rw [← Int.cast_eq_zero (α := ℝ), ← mul_left_inj' sinφ.ne', zero_mul, sine, mul_eq_zero]
    simp [ht']
  rw [zero_iff]
  constructor
  · intro h0
    by_contra hne
    have pos : 0 < Real.sin (u * φ - turns * Real.pi) :=
      Real.sin_pos_of_pos_of_lt_pi (sub_pos.mpr (lt_of_le_of_ne reached (Ne.symm hne))) (by linarith)
    rw [Real.sin_sub_nat_mul_pi, h0, mul_zero] at pos
    exact lt_irrefl _ pos
  · intro h
    rw [h, Real.sin_nat_mul_pi]

end

/-- An angle in turns, brought into the first half turn. -/
theorem cos_fold_turn (n u : Nat) (hu : 0 < u) :
    Real.cos (2 * Real.pi * n / u) = Real.cos (2 * Real.pi * (min (n % u) (u - n % u) : ℕ) / u) := by
  have hu' : (u : ℝ) ≠ 0 := by exact_mod_cast hu.ne'
  rw [cos_mod_turn n u hu]
  have hlt := Nat.mod_lt n hu
  rcases min_cases (n % u) (u - n % u) with ⟨e, -⟩ | ⟨e, -⟩
  · rw [e]
  · rw [e, Nat.cast_sub hlt.le, ← Real.cos_two_pi_sub]
    congr 1
    field_simp

theorem realSign_sub_of_lt {x y : ℝ} (h : x < y) : realSign (x - y) = -1 := realSign_of_neg (by linarith)

theorem realSign_sub_of_gt {x y : ℝ} (h : y < x) : realSign (x - y) = 1 := realSign_of_pos (by linarith)

/-- Between 0 and π the cosines compare as the angles do, the other way round. -/
theorem realSign_cos_sub_cos {θ φ : ℝ} (hθ : 0 ≤ θ) (hθ' : θ ≤ Real.pi) (hφ : 0 ≤ φ) (hφ' : φ ≤ Real.pi) :
    realSign (Real.cos θ - Real.cos φ) = realSign (φ - θ) := by
  rcases lt_trichotomy θ φ with h | rfl | h
  · rw [realSign_sub_of_gt h, realSign_sub_of_gt (Real.cos_lt_cos_of_nonneg_of_le_pi hθ hφ' h)]
  · simp
  · rw [realSign_sub_of_lt h, realSign_sub_of_lt (Real.cos_lt_cos_of_nonneg_of_le_pi hφ hθ' h)]

/-- A cosine against a rational between -1 and 1, by the half turns of u times the angle of the rational. -/
theorem cosCompare_between (m u : Nat) (s t : Int) (hu : 0 < u) (ht : 0 < t) (half : 2 * m ≤ u) (lower : -t < s)
    (upper : s < t) :
    (if 2 * m < (halfTurns s t (u - 1) 0 1 0).1 then 1 else if (halfTurns s t (u - 1) 0 1 0).1 < 2 * m then -1
      else if (halfTurns s t (u - 1) 0 1 0).2 = 0 then 0 else 1) =
      realSign (Real.cos (2 * Real.pi * m / u) - (s : ℝ) / t) := by
  have ht' : (0 : ℝ) < t := by exact_mod_cast ht
  have hu' : (0 : ℝ) < u := by exact_mod_cast hu
  have θ_le : 2 * Real.pi * m / u ≤ Real.pi := by
    have : ((2 * m : ℕ) : ℝ) ≤ u := by exact_mod_cast half
    push_cast at this
    rw [div_le_iff₀ hu']
    nlinarith [Real.pi_pos]
  have lower' : -1 < (s : ℝ) / t := by rw [lt_div_iff₀ ht', neg_one_mul]; exact_mod_cast lower
  have upper' : (s : ℝ) / t < 1 := by rw [div_lt_one ht']; exact_mod_cast upper
  set φ := Real.arccos ((s : ℝ) / t)
  have cosφ : Real.cos φ = (s : ℝ) / t := Real.cos_arccos lower'.le upper'.le
  have φ_pos : 0 < φ := Real.arccos_pos.mpr upper'
  have φ_lt : φ < Real.pi := lt_of_le_of_ne (Real.arccos_le_pi _) fun e => by
    rw [e, Real.cos_pi] at cosφ
    linarith
  obtain ⟨⟨reached, notBeyond⟩, zero_iff⟩ :=
    halfTurns_total (s := s) ht φ_pos φ_lt (by rw [cosφ]; field_simp) u hu
  rw [← cosφ, realSign_cos_sub_cos (by positivity) θ_le φ_pos.le φ_lt.le]
  have scaled : realSign (φ - 2 * Real.pi * m / u) = realSign (u * φ - (2 * m : ℕ) * Real.pi) := by
    rw [show u * φ - (2 * m : ℕ) * Real.pi = u * (φ - 2 * Real.pi * m / u) by push_cast; field_simp, realSign_mul,
      realSign_of_pos hu', one_mul]
  rw [scaled]
  generalize (halfTurns s t (u - 1) 0 1 0).1 = turns at *
  generalize (halfTurns s t (u - 1) 0 1 0).2 = w at *
  have next_le (i j : ℕ) (h : i < j) : ((i : ℝ) + 1) * Real.pi ≤ j * Real.pi := by
    have : ((i + 1 : ℕ) : ℝ) ≤ j := by exact_mod_cast h
    push_cast at this
    exact mul_le_mul_of_nonneg_right this Real.pi_pos.le
  split
  · next h => exact (realSign_sub_of_gt (by linarith [next_le _ _ h, Real.pi_pos])).symm
  split
  · next h => exact (realSign_sub_of_lt (by linarith [next_le _ _ h])).symm
  · next h h' =>
    obtain rfl : turns = 2 * m := by omega
    split
    · next hw => rw [zero_iff.mp hw, sub_self, realSign_zero]
    · next hw => exact (realSign_sub_of_gt (lt_of_le_of_ne reached fun e => hw (zero_iff.mpr e.symm))).symm

theorem cosCompare_spec (n u : Nat) (s t : Int) (hu : 0 < u) (ht : 0 < t) :
    cosCompare n u s t = realSign (Real.cos (2 * Real.pi * n / u) - (s : ℝ) / t) := by
  have ht' : (0 : ℝ) < t := by exact_mod_cast ht
  have hu' : (0 : ℝ) < u := by exact_mod_cast hu
  have hlt := Nat.mod_lt n hu
  rw [cos_fold_turn n u hu]
  unfold cosCompare
  dsimp only
  have half : 2 * min (n % u) (u - n % u) ≤ u := by omega
  generalize min (n % u) (u - n % u) = m at *
  set θ := 2 * Real.pi * m / u with hθ
  have θ_nonneg : 0 ≤ θ := by positivity
  have scaled : u * (Real.pi - θ) = (u - (2 * m : ℕ)) * Real.pi := by
    rw [hθ]; push_cast; field_simp
  have θ_le : θ ≤ Real.pi := by
    have : ((2 * m : ℕ) : ℝ) ≤ u := by exact_mod_cast half
    exact sub_nonneg.mp (nonneg_of_mul_nonneg_right (scaled ▸ mul_nonneg (sub_nonneg.mpr this) Real.pi_pos.le) hu')
  split
  · next h =>
    have : (1 : ℝ) < s / t := by rw [one_lt_div ht']; exact_mod_cast h
    exact (realSign_sub_of_lt (by linarith [Real.cos_le_one θ])).symm
  split
  · next h =>
    have : (s : ℝ) / t < -1 := by rw [div_lt_iff₀ ht', neg_one_mul]; exact_mod_cast h
    exact (realSign_sub_of_gt (by linarith [Real.neg_one_le_cos θ])).symm
  split
  · next h =>
    rw [h, div_self ht'.ne', ← Real.cos_zero, realSign_cos_sub_cos θ_nonneg θ_le le_rfl Real.pi_pos.le]
    split
    · next hm => rw [hθ, hm]; simp
    · next hm =>
      have : (0 : ℝ) < m := by exact_mod_cast Nat.pos_of_ne_zero hm
      exact (realSign_sub_of_lt (by positivity)).symm
  split
  · next h =>
    rw [h, Int.cast_neg, neg_div, div_self ht'.ne', ← Real.cos_pi,
      realSign_cos_sub_cos θ_nonneg θ_le Real.pi_pos.le le_rfl]
    split
    · next hm =>
      rw [hm, sub_self, zero_mul, mul_eq_zero] at scaled
      rw [scaled.resolve_left hu'.ne', realSign_zero]
    · next hm =>
      have : ((2 * m : ℕ) : ℝ) < u := by exact_mod_cast lt_of_le_of_ne half hm
      exact (realSign_of_pos (pos_of_mul_pos_right (scaled ▸ mul_pos (sub_pos.mpr this) Real.pi_pos) hu'.le)).symm
  · next hgt hlt' hne hne' => exact cosCompare_between m u s t hu ht half (by omega) (by omega)

/-! The rational cosines -/

/-- A rational cosine of `doubleCos`, twice. -/
theorem doubleCos_spec (n u : Nat) (hu : 0 < u) (c' : Int) (h : doubleCos n u = some c') :
    2 * Real.cos (2 * Real.pi * n / u) = c' := by
  have hu' : (u : ℝ) ≠ 0 := by exact_mod_cast hu.ne'
  rw [cos_mod_turn n u hu]
  unfold doubleCos at h
  generalize n % u = m at h ⊢
  split at h
  · cases h
  · next whole =>
    have twelfths (q : Nat) (hq : 12 * m / u = q) : 2 * Real.pi * m / u = q * (Real.pi / 6) := by
      have e := Nat.div_add_mod (12 * m) u
      rw [hq, not_not.mp whole, Nat.add_zero] at e
      have : ((u * q : ℕ) : ℝ) = (12 * m : ℕ) := by exact_mod_cast e
      push_cast at this
      field_simp
      linear_combination -this
    have close (q : Nat) (hq : 12 * m / u = q) {x : ℝ} (hx : q * (Real.pi / 6) = x) {c : Int} (hc : 2 * Real.cos x = c)
        (h : some c = some c') : 2 * Real.cos (2 * Real.pi * m / u) = c' := by
      rw [twelfths q hq, hx, hc, Option.some.inj h]
    split at h
    · next hq => exact close 0 hq (x := 0) (by simp) (by simp) h
    · next hq => exact close 2 hq (x := Real.pi / 3) (by push_cast; ring) (by norm_num) h
    · next hq => exact close 3 hq (x := Real.pi / 2) (by push_cast; ring) (by norm_num) h
    · next hq =>
      exact close 4 hq (x := Real.pi - Real.pi / 3) (by push_cast; ring) (by rw [Real.cos_pi_sub]; norm_num) h
    · next hq => exact close 6 hq (x := Real.pi) (by push_cast; ring) (by norm_num) h
    · next hq =>
      exact close 8 hq (x := Real.pi / 3 + Real.pi) (by push_cast; ring) (by rw [Real.cos_add_pi]; norm_num) h
    · next hq =>
      exact close 9 hq (x := Real.pi / 2 + Real.pi) (by push_cast; ring) (by rw [Real.cos_add_pi]; norm_num) h
    · next hq =>
      exact close 10 hq (x := 2 * Real.pi - Real.pi / 3) (by push_cast; ring)
        (by rw [Real.cos_two_pi_sub]; norm_num) h
    · cases h

/-! The sample -/

/-- rnd32(a·cos(2π·n/u)), whichever way it is found. -/
theorem roundsTo_scaledCos (a : Word) (n u : Nat) (hu : 0 < u) :
    RoundsTo ((f32Value a : ℝ) / 2 ^ 149 * Real.cos (2 * Real.pi * n / u)) (scaledCos a n u) := by
  set x := Real.cos (2 * Real.pi * n / u) with hx
  unfold scaledCos
  split
  · next c hc =>
    have := roundsTo_rnd32 (f32Value a * c) 150
    rwa [show ((f32Value a * c : Int) : ℝ) / 2 ^ 150 = (f32Value a : ℝ) / 2 ^ 149 * x by
      rw [Int.cast_mul, ← doubleCos_spec n u hu c hc, ← hx]; field_simp] at this
  · dsimp only
    generalize f32Value a = v
    refine roundsTo_roundEnclosed _ _ _ _ _ (fun i l h e => ?_) (roundsTo_roundBy _ _ fun p j => ?_)
    · cases e
      refine ⟨_, _, _, rfl, rfl, ?_⟩
      obtain ⟨lower, upper⟩ := (cosTurn_holds (precision i) n u hu).scale v
      rw [← hx] at lower upper
      rw [div_le_iff₀ (by positivity), le_div_iff₀ (by positivity)]
      have scaled : (v : ℝ) / 2 ^ 149 * x * 2 ^ (149 + precision i) = x * v * 2 ^ precision i := by
        rw [pow_add]; field_simp
      exact ⟨scaled ▸ lower, scaled ▸ upper⟩
    · split
      · next h0 =>
        rw [h0, Int.cast_zero, zero_div, zero_mul, zero_sub, realSign_neg, div_eq_mul_inv, realSign_mul,
          realSign_of_pos (show (0 : ℝ) < (2 ^ j)⁻¹ by positivity), mul_one, realSign_intCast]
      · next h0 =>
        have abs_v : (v.sign * v : ℝ) = v.natAbs := by
          rw [Nat.cast_natAbs]
          exact_mod_cast Int.sign_mul_self_eq_abs v
        have pos : (0 : ℝ) < v.natAbs := by exact_mod_cast Int.natAbs_pos.mpr h0
        have value : (v : ℝ) / 2 ^ 149 * x - p / 2 ^ j =
            v * (x - ((v.sign * p * 2 ^ 149 : Int) : ℝ) / ((v.natAbs * 2 ^ j : Int) : ℝ)) * (1 / 2 ^ 149) := by
          rw [Int.cast_mul, Int.cast_mul, Int.cast_mul, Int.cast_pow, Int.cast_pow, Int.cast_ofNat, Int.cast_natCast]
          field_simp
          linear_combination 2 ^ 149 * p * abs_v
        rw [cosCompare_spec n u _ _ hu (by positivity), ← hx, value, realSign_mul _ (1 / 2 ^ 149),
          realSign_of_pos (show (0 : ℝ) < 1 / 2 ^ 149 by positivity), mul_one, realSign_mul, realSign_intCast]

/-- sin θ = cos(θ + 3π/2), as the model asks for it. -/
theorem cos_three_quarters_on (p u : Nat) (hu : 0 < u) :
    Real.cos (2 * Real.pi * (4 * p + 3 * u : ℕ) / (4 * u : ℕ)) = Real.sin (2 * Real.pi * p / u) := by
  have hu' : (u : ℝ) ≠ 0 := by exact_mod_cast hu.ne'
  rw [show 2 * Real.pi * (4 * p + 3 * u : ℕ) / (4 * u : ℕ) =
    2 * Real.pi * p / u + Real.pi / 2 + Real.pi by push_cast; field_simp; ring, Real.cos_add_pi,
    Real.cos_add_pi_div_two, neg_neg]

theorem roundsTo_cisReference (a : Word) (p u : Nat) (hu : 0 < u) :
    RoundsTo ((f32Value a : ℝ) / 2 ^ 149 * Real.cos (2 * Real.pi * p / u)) (cisReference a p u).i ∧
      RoundsTo ((f32Value a : ℝ) / 2 ^ 149 * Real.sin (2 * Real.pi * p / u)) (cisReference a p u).q := by
  refine ⟨roundsTo_scaledCos a p u hu, ?_⟩
  rw [← cos_three_quarters_on p u hu]
  exact roundsTo_scaledCos a _ _ (by omega)

/-- A finite amplitude gives finite samples, of the reference and within NUM_TOL of it (spec/60_exceptions.md R318). -/
theorem nonFinite_numCis (kind : NumKind) (a : Word) (p u : Nat) (ha : nonFinite a = false) (hu : 0 < u) :
    nonFinite (numCis kind a p u).i = false ∧ nonFinite (numCis kind a p u).q = false := by
  obtain ⟨hi, hq⟩ := roundsTo_cisReference a p u hu
  have shrink {x : ℝ} (hx : |x| ≤ 1) : |(f32Value a : ℝ) / 2 ^ 149 * x| ≤ |(f32Value a : ℝ) / 2 ^ 149| := by
    rw [abs_mul]
    exact mul_le_of_le_one_right (abs_nonneg _) hx
  have fi := nonFinite_of_roundsTo hi ha (shrink (Real.abs_cos_le_one _))
  have fq := nonFinite_of_roundsTo hq ha (shrink (Real.abs_sin_le_one _))
  cases kind with
  | reference => exact ⟨fi, fq⟩
  | implementation tol => exact ⟨(heldTo_meetsWithin tol _ _ fi).1, (heldTo_meetsWithin tol _ _ fq).1⟩

/-- A word that is the rounding of a finite value that is not 0 is that value's word. -/
theorem eq_of_roundsTo_ne_zero {a w : Word} (ha : nonFinite a = false) (ha0 : f32Mag a ≠ 0)
    (h : RoundsTo ((f32Value a : ℝ) / 2 ^ 149) w) : w = a := by
  refine eq_of_roundsTo_f32Value h ha ?_
  rw [decide_div_pow_neg, decide_f32Value_neg (f32Value_eq_zero.not.mpr ha0)]

/-- A quarter turn's sample is exact, from the cosine c and the sine d of its angle. -/
theorem cisReference_exact {a i q : Word} {p u : Nat} {c d : ℝ} (hu : 0 < u)
    (hc : Real.cos (2 * Real.pi * p / u) = c) (hd : Real.sin (2 * Real.pi * p / u) = d)
    (hi : ∀ w, RoundsTo ((f32Value a : ℝ) / 2 ^ 149 * c) w → w = i)
    (hq : ∀ w, RoundsTo ((f32Value a : ℝ) / 2 ^ 149 * d) w → w = q) : cisReference a p u = ⟨i, q⟩ := by
  obtain ⟨ri, rq⟩ := roundsTo_cisReference a p u hu
  rw [hc] at ri
  rw [hd] at rq
  rw [← hi _ ri, ← hq _ rq]

/-- The samples at the quarter turns (spec/44_chirp.md R233). -/
theorem cisReference_quarterTurns (a : Word) (q : Nat) (ha : nonFinite a = false) (ha0 : f32Mag a ≠ 0) (hq : 0 < q) :
    cisReference a 0 (4 * q) = ⟨a, 0⟩ ∧ cisReference a q (4 * q) = ⟨0, a⟩ ∧
      cisReference a (2 * q) (4 * q) = ⟨a ^^^ 0x80000000, 0⟩ ∧
      cisReference a (3 * q) (4 * q) = ⟨0, a ^^^ 0x80000000⟩ := by
  have hq' : (q : ℝ) ≠ 0 := by exact_mod_cast hq.ne'
  have hu : 0 < 4 * q := by omega
  have zero (w : Word) (h : RoundsTo ((f32Value a : ℝ) / 2 ^ 149 * 0) w) : w = 0 :=
    eq_zero_of_roundsTo (by rwa [mul_zero] at h)
  have one (w : Word) (h : RoundsTo ((f32Value a : ℝ) / 2 ^ 149 * 1) w) : w = a :=
    eq_of_roundsTo_ne_zero ha ha0 (by rwa [mul_one] at h)
  have negOne (w : Word) (h : RoundsTo ((f32Value a : ℝ) / 2 ^ 149 * -1) w) : w = a ^^^ 0x80000000 := by
    refine eq_of_roundsTo_ne_zero (a := f32Neg a) (by rwa [nonFinite_f32Neg]) (by rwa [f32Mag_f32Neg]) ?_
    rw [f32Value_f32Neg, Int.cast_neg, neg_div]
    rwa [mul_neg_one] at h
  have quarter : 2 * Real.pi * q / (4 * q : ℕ) = Real.pi / 2 := by push_cast; field_simp; ring
  have half : 2 * Real.pi * (2 * q : ℕ) / (4 * q : ℕ) = Real.pi := by push_cast; field_simp; ring
  have threeQuarters : 2 * Real.pi * (3 * q : ℕ) / (4 * q : ℕ) = Real.pi / 2 + Real.pi := by
    push_cast; field_simp; ring
  refine ⟨cisReference_exact hu (by simp) (by simp) one zero,
    cisReference_exact hu (by rw [quarter, Real.cos_pi_div_two]) (by rw [quarter, Real.sin_pi_div_two]) zero one,
    cisReference_exact hu (by rw [half, Real.cos_pi]) (by rw [half, Real.sin_pi]) negOne zero,
    cisReference_exact hu ?_ ?_ zero negOne⟩
  · rw [threeQuarters, Real.cos_add_pi, Real.cos_pi_div_two, neg_zero]
  · rw [threeQuarters, Real.sin_add_pi, Real.sin_pi_div_two]

/-- Settles O50: the sample rounded, and the words that only one rounding allows. -/
theorem referenceCisIsTheRoundedCosineAndSine : Obligations.ReferenceCisIsTheRoundedCosineAndSine := by
  refine ⟨fun a p u ha hu => ?_, fun a q ha hq => ⟨fun ha0 => cisReference_quarterTurns a q ha ha0 hq, fun ha0 p => ?_⟩⟩
  · obtain ⟨hi, hq⟩ := roundsTo_cisReference a p u hu
    exact ⟨hi, hq, fun h => eq_zero_of_roundsTo (h ▸ hi), fun h => eq_zero_of_roundsTo (h ▸ hq),
      fun kind => nonFinite_numCis kind a p u ha hu⟩
  · have silent (x : ℝ) (w : Word) (h : RoundsTo ((f32Value a : ℝ) / 2 ^ 149 * x) w) : w = 0 :=
      eq_zero_of_roundsTo (by rwa [f32Value_eq_zero.mpr ha0, Int.cast_zero, zero_div, zero_mul] at h)
    exact cisReference_exact (by omega) rfl rfl (silent _) (silent _)

end Sys2Proof.Machine
end

section
/-! PROOFS. The cyclotomic numbers of the detector (notes/assumptions 11). A list of h coefficients has a value at every
ζ with ζ^h = -1, and the operations on lists are those of the values. A number that is real at every such ζ keeps this
through the operations and through the halving of `ringSign`, whose sign is that of the value at e^(jπ/h). -/

namespace Sys2Proof.Machine

/-! Values -/

/-- Σ c_m·ζ^m. -/
noncomputable def ringVal (ζ : ℂ) : List Int → ℂ
  | [] => 0
  | c :: cs => c + ζ * ringVal ζ cs

@[simp] theorem ringVal_nil (ζ : ℂ) : ringVal ζ [] = 0 := rfl

theorem ringVal_cons (ζ : ℂ) (c : Int) (cs : List Int) : ringVal ζ (c :: cs) = c + ζ * ringVal ζ cs := rfl

theorem ringVal_append (ζ : ℂ) (x y : List Int) : ringVal ζ (x ++ y) = ringVal ζ x + ζ ^ x.length * ringVal ζ y := by
  induction x with
  | nil => simp
  | cons c cs ih => rw [List.cons_append, ringVal_cons, ih, ringVal_cons, List.length_cons, pow_succ']; ring

/-- The value as the sum of the coefficients at their powers. -/
theorem ringVal_eq_sum (ζ : ℂ) (x : List Int) :
    ringVal ζ x = ∑ m ∈ Finset.range x.length, ((x.getD m 0 : Int) : ℂ) * ζ ^ m := by
  induction x with
  | nil => rfl
  | cons c cs ih =>
    rw [ringVal_cons, ih, List.length_cons, Finset.sum_range_succ', Finset.mul_sum, add_comm]
    simp [pow_succ', mul_left_comm]

@[simp] theorem ringVal_replicate_zero (ζ : ℂ) (n : Nat) : ringVal ζ (List.replicate n 0) = 0 := by
  induction n with
  | zero => rfl
  | succ n ih => rw [List.replicate_succ, ringVal_cons, ih]; simp

theorem ringVal_add (ζ : ℂ) (x y : List Int) (h : x.length = y.length) :
    ringVal ζ (ringAdd x y) = ringVal ζ x + ringVal ζ y := by
  induction x generalizing y with
  | nil => rw [List.length_eq_zero_iff.mp h.symm]; simp [ringAdd]
  | cons c cs ih =>
    cases y with
    | nil => simp at h
    | cons d ds =>
      have := ih ds (by simpa using h)
      rw [ringAdd] at *
      rw [List.zipWith_cons_cons, ringVal_cons, this, ringVal_cons, ringVal_cons]
      push_cast
      ring

@[simp] theorem ringVal_scale (ζ : ℂ) (z : Int) (x : List Int) : ringVal ζ (ringScale z x) = z * ringVal ζ x := by
  induction x with
  | nil => simp [ringScale]
  | cons c cs ih =>
    rw [ringScale] at *
    rw [List.map_cons, ringVal_cons, ih, ringVal_cons]
    push_cast
    ring

theorem ringVal_sub (ζ : ℂ) (x y : List Int) (h : x.length = y.length) :
    ringVal ζ (ringSub x y) = ringVal ζ x - ringVal ζ y := by
  rw [ringSub, ringVal_add ζ _ _ (by simpa using h), ringVal_scale]
  push_cast
  ring

theorem ringVal_ofInt (ζ : ℂ) (h : Nat) (z : Int) : ringVal ζ (ringOfInt h z) = z := by
  rw [ringOfInt, ringVal_cons, ringVal_replicate_zero, mul_zero, add_zero]

theorem ringVal_shift (ζ : ℂ) (x : List Int) (hζ : ζ ^ x.length = -1) : ringVal ζ (ringShift x) = ζ * ringVal ζ x := by
  unfold ringShift
  split
  · next h => rw [List.getLast?_eq_none_iff.mp h]; simp
  · next c h =>
    obtain ⟨ys, rfl⟩ := List.getLast?_eq_some_iff.mp h
    rw [List.length_append, List.length_singleton, pow_succ'] at hζ
    rw [List.dropLast_concat, ringVal_cons, ringVal_append, ringVal_cons, ringVal_nil]
    push_cast
    linear_combination -(c : ℂ) * hζ

theorem ringVal_mul (ζ : ℂ) (x y : List Int) (hζ : ζ ^ y.length = -1) :
    ringVal ζ (ringMul x y) = ringVal ζ x * ringVal ζ y := by
  induction x with
  | nil => simp [ringMul]
  | cons c cs ih =>
    have unfold_cons : ringMul (c :: cs) y = ringAdd (ringScale c y) (ringShift (ringMul cs y)) := rfl
    rw [unfold_cons, ringVal_add ζ _ _ (by simp), ringVal_scale, ringVal_shift ζ _ (by simpa using hζ), ih,
      ringVal_cons]
    ring

/-- A root of -1 has magnitude 1, so its inverse is its conjugate. -/
theorem conj_eq_inv_of_pow {ζ : ℂ} {h : Nat} (hζ : ζ ^ h = -1) : (starRingEnd ℂ) ζ = ζ⁻¹ := by
  have pos : h ≠ 0 := by
    rintro rfl
    norm_num at hζ
  have norm : ‖ζ‖ = 1 := by
    refine Complex.norm_eq_one_of_pow_eq_one (n := 2 * h) ?_ (by omega)
    rw [mul_comm, pow_mul, hζ]
    norm_num
  rw [Complex.inv_def, Complex.normSq_eq_norm_sq, norm]
  simp

theorem ringVal_reverse {ζ : ℂ} (hζ : ζ ≠ 0) (x : List Int) :
    ζ * ringVal ζ x.reverse = ζ ^ x.length * ringVal ζ⁻¹ x := by
  induction x with
  | nil => simp
  | cons c cs ih =>
    rw [List.reverse_cons, ringVal_append, mul_add, ih, ringVal_cons, ringVal_cons, List.length_reverse,
      List.length_cons, pow_succ']
    simp only [ringVal_nil]
    field_simp
    ring

theorem conj_ringVal (ζ : ℂ) (x : List Int) : (starRingEnd ℂ) (ringVal ζ x) = ringVal ((starRingEnd ℂ) ζ) x := by
  induction x with
  | nil => simp
  | cons c cs ih => rw [ringVal_cons, ringVal_cons, map_add, map_mul, ih, map_intCast]

theorem ringVal_map_neg (ζ : ℂ) (x : List Int) : ringVal ζ (x.map (- ·)) = -ringVal ζ x := by
  have := ringVal_scale ζ (-1) x
  rw [ringScale] at this
  simpa using this

theorem ringVal_conj (ζ : ℂ) (x : List Int) (hζ : ζ ^ x.length = -1) :
    ringVal ζ (ringConj x) = (starRingEnd ℂ) (ringVal ζ x) := by
  cases x with
  | nil => simp [ringConj]
  | cons c cs =>
    have ne : ζ ≠ 0 := by
      rintro rfl
      simp at hζ
    rw [conj_ringVal, conj_eq_inv_of_pow hζ, ringConj, ringVal_cons, ringVal_cons, ringVal_reverse ne, List.length_map,
      ringVal_map_neg]
    rw [List.length_cons, pow_succ] at hζ
    have inv : ζ⁻¹ = -ζ ^ cs.length := inv_eq_of_mul_eq_one_right (by linear_combination -hζ)
    linear_combination -(ringVal ζ⁻¹ cs) * inv

/-! The even and the odd powers -/

theorem odds_cons (c : Int) (x : List Int) : odds (c :: x) = evens x := rfl

theorem evens_cons (c : Int) (x : List Int) : evens (c :: x) = c :: odds x := by
  cases x <;> rfl

theorem evens_odds_length (x : List Int) : (evens x).length = (x.length + 1) / 2 ∧ (odds x).length = x.length / 2 := by
  induction x with
  | nil => exact ⟨rfl, rfl⟩
  | cons c cs ih =>
    obtain ⟨he, ho⟩ := ih
    rw [evens_cons, odds_cons, List.length_cons, List.length_cons, he, ho]
    omega

theorem ringVal_evens_odds (ζ : ℂ) (x : List Int) :
    ringVal ζ x = ringVal (ζ ^ 2) (evens x) + ζ * ringVal (ζ ^ 2) (odds x) := by
  induction x with
  | nil => simp [evens, odds]
  | cons c cs ih =>
    rw [evens_cons, odds_cons, ringVal_cons, ringVal_cons, ih]
    ring

/-! Real numbers of the ring -/

/-- A number of 2^level coefficients that is real at every root. -/
structure RealRing (level : Nat) (x : List Int) : Prop where
  length : x.length = 2 ^ level
  im (ζ : ℂ) (hζ : ζ ^ 2 ^ level = -1) : (ringVal ζ x).im = 0

/-- e^(jπ/2^level), the root at which the numbers are read. -/
noncomputable def ringRoot (level : Nat) : ℂ := Complex.exp (Real.pi * Complex.I / (2 : ℂ) ^ level)

theorem ringRoot_pow (level : Nat) : ringRoot level ^ 2 ^ level = -1 := by
  rw [ringRoot, ← Complex.exp_nat_mul, ← Complex.exp_pi_mul_I]
  congr 1
  push_cast
  field_simp

theorem ringRoot_succ_sq (level : Nat) : ringRoot (level + 1) ^ 2 = ringRoot level := by
  rw [ringRoot, ringRoot, ← Complex.exp_nat_mul]
  congr 1
  push_cast
  field_simp
  ring

/-- The powers of the root are on the unit circle. -/
theorem ringRoot_pow_re (level m : Nat) : (ringRoot level ^ m).re = Real.cos (Real.pi * m / 2 ^ level) := by
  rw [ringRoot, ← Complex.exp_nat_mul, show (m : ℂ) * (Real.pi * Complex.I / 2 ^ level) =
    ((Real.pi * m / 2 ^ level : ℝ) : ℂ) * Complex.I by push_cast; ring, Complex.exp_ofReal_mul_I_re]

/-- The real value of a number. -/
noncomputable def ringRe (level : Nat) (x : List Int) : ℝ := (ringVal (ringRoot level) x).re

section
variable {level : Nat} {x y : List Int}

theorem RealRing.pos (hx : RealRing level x) : 0 < x.length := by rw [hx.length]; positivity

/-- The value of a real number is real. -/
theorem RealRing.val (hx : RealRing level x) : ringVal (ringRoot level) x = (ringRe level x : ℂ) :=
  Complex.ext rfl (hx.im _ (ringRoot_pow level))

theorem RealRing.add (hx : RealRing level x) (hy : RealRing level y) : RealRing level (ringAdd x y) where
  length := by rw [ringAdd_length, hx.length, hy.length, min_self]
  im ζ hζ := by
    rw [ringVal_add ζ x y (hx.length.trans hy.length.symm), Complex.add_im, hx.im ζ hζ, hy.im ζ hζ, add_zero]

theorem ringRe_add (hx : x.length = y.length) : ringRe level (ringAdd x y) = ringRe level x + ringRe level y := by
  rw [ringRe, ringVal_add _ x y hx, Complex.add_re]; rfl

theorem RealRing.scale (hx : RealRing level x) (z : Int) : RealRing level (ringScale z x) where
  length := by rw [ringScale_length, hx.length]
  im ζ hζ := by rw [ringVal_scale, ← Complex.ofReal_intCast, Complex.im_ofReal_mul, hx.im ζ hζ, mul_zero]

theorem ringRe_scale (z : Int) (x : List Int) : ringRe level (ringScale z x) = z * ringRe level x := by
  rw [ringRe, ringVal_scale, ← Complex.ofReal_intCast, Complex.re_ofReal_mul]; rfl

theorem RealRing.sub (hx : RealRing level x) (hy : RealRing level y) : RealRing level (ringSub x y) :=
  hx.add (hy.scale (-1))

theorem ringRe_sub (hx : x.length = y.length) : ringRe level (ringSub x y) = ringRe level x - ringRe level y := by
  rw [ringSub, ringRe_add (by simpa using hx), ringRe_scale]; push_cast; ring

theorem RealRing.mul (hx : RealRing level x) (hy : RealRing level y) : RealRing level (ringMul x y) where
  length := by rw [ringMul_length, hy.length]
  im ζ hζ := by
    rw [ringVal_mul ζ x y (by rwa [hy.length]), Complex.mul_im, hx.im ζ hζ, hy.im ζ hζ, mul_zero, zero_mul, add_zero]

theorem RealRing.ringRe_mul (hx : RealRing level x) (hy : RealRing level y) :
    ringRe level (ringMul x y) = ringRe level x * ringRe level y := by
  rw [ringRe, ringVal_mul _ x y (by rw [hy.length]; exact ringRoot_pow level), hx.val, hy.val, ← Complex.ofReal_mul,
    Complex.ofReal_re]

theorem realRing_ofInt (level : Nat) (z : Int) : RealRing level (ringOfInt (2 ^ level) z) where
  length := ringOfInt_length _ _ (by positivity)
  im ζ _ := by rw [ringVal_ofInt, Complex.intCast_im]

theorem ringRe_ofInt (level h : Nat) (z : Int) : ringRe level (ringOfInt h z) = z := by
  rw [ringRe, ringVal_ofInt, Complex.intCast_re]

theorem RealRing.pow (hx : RealRing level x) (n : Nat) : RealRing level (ringPow x n) := by
  induction n with
  | zero => rw [ringPow, hx.length]; exact realRing_ofInt level 1
  | succ n ih => exact hx.mul ih

theorem RealRing.ringRe_pow (hx : RealRing level x) (n : Nat) : ringRe level (ringPow x n) = ringRe level x ^ n := by
  induction n with
  | zero => rw [ringPow, ringRe_ofInt, pow_zero, Int.cast_one]
  | succ n ih => rw [ringPow, hx.ringRe_mul (hx.pow n), ih, pow_succ']

theorem realRing_zero (level : Nat) : RealRing level (List.replicate (2 ^ level) 0) where
  length := List.length_replicate
  im ζ _ := by rw [ringVal_replicate_zero, Complex.zero_im]

theorem ringRe_zero (level n : Nat) : ringRe level (List.replicate n 0) = 0 := by
  rw [ringRe, ringVal_replicate_zero, Complex.zero_re]

/-- A squared magnitude is real. -/
theorem realRing_mag2 (hx : x.length = 2 ^ level) : RealRing level (ringMag2 x) where
  length := by rw [ringMag2, ringMul_length, ringConj_length, hx]
  im ζ hζ := by
    rw [ringMag2, ringVal_mul ζ _ _ (by rwa [ringConj_length, hx]), ringVal_conj ζ x (by rwa [hx]), Complex.mul_conj,
      Complex.ofReal_im]

theorem ringRe_mag2 (hx : x.length = 2 ^ level) :
    ringRe level (ringMag2 x) = Complex.normSq (ringVal (ringRoot level) x) := by
  have hroot := ringRoot_pow level
  rw [ringRe, ringMag2, ringVal_mul _ _ _ (by rwa [ringConj_length, hx]), ringVal_conj _ x (by rwa [hx]),
    Complex.mul_conj, Complex.ofReal_re]

end

/-! Halving -/

section
variable {level : Nat} {x : List Int} (hx : RealRing (level + 1) x)
include hx

theorem RealRing.evens_length : (evens x).length = 2 ^ level := by
  rw [(evens_odds_length x).1, hx.length, pow_succ]; omega

theorem RealRing.odds_length : (odds x).length = 2 ^ level := by
  rw [(evens_odds_length x).2, hx.length, pow_succ]; omega

/-- Both parts of a real number are real, for the negated root swaps the sign of the odd one. -/
theorem RealRing.parts_im {ζ : ℂ} (hζ : ζ ^ 2 ^ (level + 1) = -1) :
    (ringVal (ζ ^ 2) (evens x)).im = 0 ∧ (ζ * ringVal (ζ ^ 2) (odds x)).im = 0 := by
  have even : Even (2 ^ (level + 1)) := ⟨2 ^ level, by rw [pow_succ]; omega⟩
  have plus := hx.im ζ hζ
  have minus := hx.im (-ζ) (by rw [even.neg_pow, hζ])
  rw [ringVal_evens_odds, Complex.add_im] at plus
  rw [ringVal_evens_odds, neg_sq, neg_mul, Complex.add_im, Complex.neg_im] at minus
  constructor <;> linarith

omit hx in
/-- Every root of the half ring is a square of a root. -/
theorem exists_sq_root {η : ℂ} (hη : η ^ 2 ^ level = -1) : ∃ ζ : ℂ, ζ ^ 2 = η ∧ ζ ^ 2 ^ (level + 1) = -1 := by
  obtain ⟨ζ, hζ⟩ := IsAlgClosed.exists_pow_nat_eq η (show 0 < 2 by decide)
  exact ⟨ζ, hζ, by rw [pow_succ', pow_mul, hζ, hη]⟩

theorem RealRing.even_part : RealRing level (evens x) where
  length := hx.evens_length
  im η hη := by
    obtain ⟨ζ, rfl, hζ⟩ := exists_sq_root hη
    exact (hx.parts_im hζ).1

/-- O·(1 + ζ²) is ζ·O times twice the real part of ζ. -/
theorem RealRing.odds_shift_val {ζ : ℂ} (hζ : ζ ^ 2 ^ (level + 1) = -1) :
    ringVal (ζ ^ 2) (ringAdd (odds x) (ringShift (odds x))) = ζ * ringVal (ζ ^ 2) (odds x) * (2 * ζ.re : ℝ) := by
  have hη : (ζ ^ 2) ^ (odds x).length = -1 := by rwa [hx.odds_length, ← pow_mul, ← pow_succ']
  have ne : ζ ≠ 0 := by
    rintro rfl
    simp at hζ
  have double : ((2 * ζ.re : ℝ) : ℂ) = ζ + ζ⁻¹ := by
    rw [← conj_eq_inv_of_pow hζ, Complex.add_conj]
  rw [ringVal_add _ _ _ (by simp), ringVal_shift _ _ hη, double]
  field_simp
  ring

theorem RealRing.odds_shift : RealRing level (ringAdd (odds x) (ringShift (odds x))) where
  length := by rw [ringAdd_length, ringShift_length, min_self, hx.odds_length]
  im η hη := by
    obtain ⟨ζ, rfl, hζ⟩ := exists_sq_root hη
    rw [hx.odds_shift_val hζ, Complex.im_mul_ofReal, (hx.parts_im hζ).2, zero_mul]

/-- E² - (ζ·O)², in the half ring. -/
theorem RealRing.squares_val {ζ : ℂ} (hζ : ζ ^ 2 ^ (level + 1) = -1) :
    ringVal (ζ ^ 2) (ringSub (ringMul (evens x) (evens x)) (ringShift (ringMul (odds x) (odds x)))) =
      ringVal (ζ ^ 2) (evens x) ^ 2 - (ζ * ringVal (ζ ^ 2) (odds x)) ^ 2 := by
  have hη : (ζ ^ 2) ^ 2 ^ level = -1 := by rwa [← pow_mul, ← pow_succ']
  rw [ringVal_sub _ _ _ (by simp [hx.evens_length, hx.odds_length]), ringVal_mul _ _ _ (by rwa [hx.evens_length]),
    ringVal_shift _ _ (by rwa [ringMul_length, hx.odds_length]), ringVal_mul _ _ _ (by rwa [hx.odds_length])]
  ring

theorem RealRing.squares :
    RealRing level (ringSub (ringMul (evens x) (evens x)) (ringShift (ringMul (odds x) (odds x)))) where
  length := by simp [hx.evens_length, hx.odds_length]
  im η hη := by
    obtain ⟨ζ, rfl, hζ⟩ := exists_sq_root hη
    obtain ⟨he, ho⟩ := hx.parts_im hζ
    rw [hx.squares_val hζ]
    generalize ringVal (ζ ^ 2) (evens x) = E at he ⊢
    generalize ζ * ringVal (ζ ^ 2) (odds x) = O at ho ⊢
    rw [sq, sq, Complex.sub_im, Complex.mul_im, Complex.mul_im, he, ho]
    ring

end

/-! Signs -/

theorem realSign_eq_of_mul_pos {x y : ℝ} (h : 0 < x * y) : realSign x = realSign y := by
  rcases mul_pos_iff.mp h with ⟨hx, hy⟩ | ⟨hx, hy⟩
  · rw [realSign_of_pos hx, realSign_of_pos hy]
  · rw [realSign_of_neg hx, realSign_of_neg hy]

/-- Signs that differ are those of numbers on the two sides of 0. -/
theorem mul_neg_of_realSign_ne {A B : ℝ} (hA : A ≠ 0) (hB : B ≠ 0) (h : realSign A ≠ realSign B) : A * B < 0 :=
  lt_of_le_of_ne (not_lt.mp fun hlt => h (realSign_eq_of_mul_pos hlt)) (mul_ne_zero hA hB)

/-- The sign of a sum, from the signs of its terms and of the difference of their squares. -/
theorem signOfSum_spec (A B : ℝ) (squares : Unit → Int) (h : squares () = realSign (A ^ 2 - B ^ 2)) :
    signOfSum (realSign A) (realSign B) squares = realSign (A + B) := by
  unfold signOfSum
  rw [h]
  split
  · next hB => rw [realSign_eq_zero.mp hB, add_zero]
  · next hB =>
    have hB := realSign_eq_zero.not.mp hB
    split
    · next hA => rw [realSign_eq_zero.mp hA, zero_add]
    · next hA =>
      have hA := realSign_eq_zero.not.mp hA
      have square : 0 < A * A := mul_self_pos.mpr hA
      split
      · next e =>
        refine realSign_eq_of_mul_pos ?_
        have : 0 ≤ A * B := by
          rw [← realSign_nonneg_iff, realSign_mul, e, realSign_mul_realSign hB]
          decide
        linarith
      · next e =>
        have := mul_neg_of_realSign_ne hA hB e
        rw [← realSign_mul, show A * (A ^ 2 - B ^ 2) = A * (A - B) * (A + B) by ring, realSign_mul,
          realSign_of_pos (show 0 < A * (A - B) by linarith), one_mul]

/-- The odd part of a number of two coefficients has no real value at the root j. -/
theorem ringRoot_one_mul_int_re (z : Int) : (ringRoot 1 * z).re = 0 := by
  have h := ringRoot_pow_re 1 1
  rw [pow_one, Nat.cast_one, mul_one, pow_one, Real.cos_pi_div_two] at h
  rw [← Complex.ofReal_intCast, Complex.re_mul_ofReal, h, zero_mul]

/-- From level 2 on the root lies right of the imaginary axis. -/
theorem ringRoot_re_pos (level : Nat) : 0 < (ringRoot (level + 2)).re := by
  have re := ringRoot_pow_re (level + 2) 1
  rw [pow_one, Nat.cast_one, mul_one] at re
  have four : (4 : ℝ) ≤ 2 ^ (level + 2) := by
    have : (1 : ℝ) ≤ 2 ^ level := one_le_pow₀ (by norm_num)
    rw [pow_add]
    linarith
  rw [re]
  refine Real.cos_pos_of_mem_Ioo ⟨?_, ?_⟩
  · linarith [Real.pi_pos, div_nonneg Real.pi_pos.le (show (0 : ℝ) ≤ 2 ^ (level + 2) by positivity)]
  · rw [div_lt_div_iff₀ (by positivity) (by norm_num)]
    nlinarith [Real.pi_pos]

/-- Twice the root's real part keeps the sign of ζ·O, which is 0 where that real part is. -/
theorem RealRing.sign_odd {level : Nat} {x : List Int} (hx : RealRing (level + 1) x) :
    realSign ((ringRoot (level + 1) * ringVal (ringRoot level) (odds x)).re * (2 * (ringRoot (level + 1)).re)) =
      realSign (ringRoot (level + 1) * ringVal (ringRoot level) (odds x)).re := by
  cases level with
  | zero =>
    obtain ⟨c, hc⟩ := List.length_eq_one_iff.mp hx.odds_length
    have : (ringRoot (0 + 1) * ringVal (ringRoot 0) (odds x)).re = 0 := by
      rw [hc, ringVal_cons, ringVal_nil, mul_zero, add_zero]
      exact ringRoot_one_mul_int_re c
    rw [this, zero_mul]
  | succ level => rw [realSign_mul, realSign_of_pos (mul_pos two_pos (ringRoot_re_pos level)), mul_one]

/-- ringSign is the sign of the value at e^(jπ/2^level). -/
theorem ringSign_spec (level : Nat) (x : List Int) (hx : RealRing level x) :
    ringSign level x = realSign (ringRe level x) := by
  induction level generalizing x with
  | zero =>
    obtain ⟨c, rfl⟩ := List.length_eq_one_iff.mp hx.length
    rw [ringSign, ringRe, ringVal_cons, ringVal_nil, mul_zero, add_zero, Complex.intCast_re, realSign_intCast]
    rfl
  | succ level ih =>
    have root := ringRoot_pow (level + 1)
    obtain ⟨-, ho⟩ := hx.parts_im root
    have even := hx.even_part.val
    have shift := hx.odds_shift_val root
    have square := hx.squares_val root
    have sign_odd := hx.sign_odd
    rw [ringRoot_succ_sq] at ho shift square
    set A := ringRe level (evens x)
    set B := (ringRoot (level + 1) * ringVal (ringRoot level) (odds x)).re
    have odd : ringRoot (level + 1) * ringVal (ringRoot level) (odds x) = (B : ℂ) := Complex.ext rfl ho
    rw [odd, ← Complex.ofReal_mul] at shift
    rw [even, odd] at square
    have sum : ringRe (level + 1) x = A + B := by
      rw [ringRe, ringVal_evens_odds, ringRoot_succ_sq, even, odd, ← Complex.ofReal_add, Complex.ofReal_re]
    rw [ringSign, ih _ hx.even_part, ih _ hx.odds_shift, sum,
      show ringRe level (ringAdd (odds x) (ringShift (odds x))) = B * (2 * (ringRoot (level + 1)).re) by
      rw [ringRe, shift, Complex.ofReal_re], sign_odd]
    refine signOfSum_spec A B _ ?_
    rw [ih _ hx.squares, ringRe, square, ← Complex.ofReal_pow, ← Complex.ofReal_pow, ← Complex.ofReal_sub,
      Complex.ofReal_re]

theorem ringLevel_size (level : Nat) : ringLevel (2 * 2 ^ level) = level := by
  rw [ringLevel, Nat.mul_div_cancel_left _ (by decide), Nat.log2_two_pow]

/-- The order of real numbers of the ring. -/
theorem ringLess_iff {level : Nat} {x y : List Int} (hx : RealRing level x) (hy : RealRing level y) :
    ringLess (2 * 2 ^ level) x y = true ↔ ringRe level x < ringRe level y := by
  rw [ringLess, ringLevel_size, ringSign_spec level _ (hy.sub hx), ringRe_sub (hy.length.trans hx.length.symm),
    Bool.and_eq_true, decide_eq_true_eq, decide_eq_true_eq]
  have pos : 0 < realSign (ringRe level y - ringRe level x) ↔ ringRe level x < ringRe level y := by
    rw [← not_le, ← not_le, ← sub_nonneg (a := ringRe level x), ← realSign_nonneg_iff, ← neg_sub, realSign_neg]
    simp
  rw [pos]
  exact ⟨And.right, fun h => ⟨fun e => by rw [e] at h; exact lt_irrefl _ h, h⟩⟩

/-! Sums of square roots -/

section
variable {level : Nat} {r l m : List Int} (hr : RealRing level r) (hl : RealRing level l) (hm : RealRing level m)
  (r0 : 0 ≤ ringRe level r) (l0 : 0 ≤ ringRe level l) (m0 : 0 ≤ ringRe level m)

theorem realSign_sqrt {x : ℝ} (h : 0 ≤ x) : realSign √x = realSign x := by
  rcases eq_or_lt_of_le h with rfl | h
  · simp
  · rw [realSign_of_pos h, realSign_of_pos (Real.sqrt_pos.mpr h)]

include hr r0 in
/-- The sign of an integer times a root. -/
theorem sign_mul_ringSign (a : Int) : a.sign * ringSign level r = realSign (a * √(ringRe level r)) := by
  rw [ringSign_spec level r hr, realSign_mul, realSign_intCast, realSign_sqrt r0]

include hr hl r0 l0 in
theorem rootSum2_spec (a b : Int) :
    rootSum2 level a r b l = realSign (a * √(ringRe level r) + b * √(ringRe level l)) := by
  rw [rootSum2, sign_mul_ringSign hr r0, sign_mul_ringSign hl l0]
  refine signOfSum_spec _ _ _ ?_
  rw [ringSign_spec level _ ((hr.scale _).sub (hl.scale _)), ringRe_sub (by simp [hr.length, hl.length]), ringRe_scale,
    ringRe_scale, mul_pow, mul_pow, Real.sq_sqrt r0, Real.sq_sqrt l0]
  push_cast
  simp only [sq]

include hr hl hm r0 l0 m0 in
theorem rootSum3_spec (a b c : Int) :
    rootSum3 level a r b l c m =
      realSign (a * √(ringRe level r) + b * √(ringRe level l) + c * √(ringRe level m)) := by
  have hq := ((hr.scale (a * a)).add (hl.scale (b * b))).sub (hm.scale (c * c))
  set R := ringRe level r
  set L := ringRe level l
  set M := ringRe level m
  have q_val : ringRe level (ringSub (ringAdd (ringScale (a * a) r) (ringScale (b * b) l)) (ringScale (c * c) m)) =
      a * a * R + b * b * L - c * c * M := by
    rw [ringRe_sub (by simp [hr.length, hl.length, hm.length]), ringRe_add (by simp [hr.length, hl.length]),
      ringRe_scale, ringRe_scale, ringRe_scale]
    push_cast
    rfl
  have sqR := Real.sq_sqrt r0
  have sqL := Real.sq_sqrt l0
  have sqM := Real.sq_sqrt m0
  rw [rootSum3, rootSum2_spec hr hl r0 l0, sign_mul_ringSign hm m0]
  refine signOfSum_spec _ _ _ ?_
  dsimp only
  -- (a√r + b√l)² - c²m is q + 2ab√r√l, whose sign is found in the same way.
  have twice : a.sign * b.sign * ringSign level r * ringSign level l = realSign (2 * a * b * √R * √L) := by
    rw [ringSign_spec level r hr, ringSign_spec level l hl, realSign_mul, realSign_mul, realSign_mul, realSign_mul,
      realSign_of_pos (show (0 : ℝ) < 2 by norm_num), realSign_intCast, realSign_intCast, realSign_sqrt r0,
      realSign_sqrt l0]
    ring
  rw [twice, ringSign_spec level _ hq, q_val, signOfSum_spec _ (2 * a * b * √R * √L)]
  · congr 1
    linear_combination -(a : ℝ) ^ 2 * sqR - (b : ℝ) ^ 2 * sqL + (c : ℝ) ^ 2 * sqM
  · rw [ringSign_spec level _ ((hq.mul hq).sub ((hr.mul hl).scale _)),
      ringRe_sub (by simp [hr.length, hl.length, hm.length]), hq.ringRe_mul hq, ringRe_scale, hr.ringRe_mul hl, q_val]
    congr 1
    push_cast
    linear_combination (4 * a ^ 2 * b ^ 2 * L : ℝ) * sqR + (4 * a ^ 2 * b ^ 2 * √R ^ 2 : ℝ) * sqL

end

end Sys2Proof.Machine
end

section
/-! PROOFS. The detector's results as roundings of reals (spec/45_detector.md R262, R263): the value of a ring number
from its enclosure, the level in decibels, and the fractional bin. -/

namespace Sys2Proof.Machine

/-! Signs and values from enclosures -/

theorem signEnclosed_spec {p : Nat} {x : Enclosure} {r : ℝ} (hx : x.Holds p r) (exact : Unit → Int)
    (he : exact () = realSign r) : signEnclosed x exact = realSign r := by
  have pow : (0 : ℝ) < 2 ^ p := by positivity
  obtain ⟨lower, upper⟩ := hx
  rcases signEnclosed_cases x exact with ⟨h, e⟩ | ⟨h, e⟩ | ⟨-, -, e⟩
  · have : (0 : ℝ) < x.lo := by exact_mod_cast h
    rw [e, realSign_of_pos (pos_of_mul_pos_left (this.trans_le lower) pow.le)]
  · have : (x.hi : ℝ) < 0 := by exact_mod_cast h
    rw [e, realSign_of_neg (neg_of_mul_neg_left (upper.trans_lt this) pow.le)]
  · rw [e, he]

/-- The terms c_m·cos of the coefficients, from power k of the root on. -/
theorem foldl_scale_holds {p : Nat} {ζ : ℂ} (f : Nat → Enclosure) (hf : ∀ m, (f m).Holds p (ζ ^ m).re) (x : List Int)
    (k : Nat) {acc : Enclosure} {a : ℝ} (hacc : acc.Holds p a) :
    ((List.zipWith (fun t c => t.scale c) ((List.range' k x.length).map f) x).foldl Enclosure.add acc).Holds p
      (a + (ζ ^ k * ringVal ζ x).re) := by
  induction x generalizing k acc a with
  | nil => simpa using hacc
  | cons c cs ih =>
    have value : a + (ζ ^ k * ringVal ζ (c :: cs)).re = a + (ζ ^ k).re * c + (ζ ^ (k + 1) * ringVal ζ cs).re := by
      rw [ringVal_cons, mul_add, Complex.add_re, ← Complex.ofReal_intCast, Complex.re_mul_ofReal, pow_succ, mul_assoc,
        add_assoc]
    rw [value]
    exact ih (k + 1) (hacc.add ((hf k).scale c))

/-- The enclosure of the value of a ring number. -/
theorem ringValue_holds (p level : Nat) (x : List Int) (hx : x.length = 2 ^ level) :
    (ringValue (cosTable p (2 * 2 ^ level)) x).Holds p (ringRe level x) := by
  have table (m : Nat) : (cosTurn p m (2 * 2 ^ level)).Holds p (ringRoot level ^ m).re := by
    have := cosTurn_holds p m (2 * 2 ^ level) (by positivity)
    rwa [show 2 * Real.pi * m / (2 * 2 ^ level : ℕ) = Real.pi * m / 2 ^ level by push_cast; field_simp,
      ← ringRoot_pow_re] at this
  have := foldl_scale_holds (p := p) _ table x 0 (acc := ⟨0, 0⟩) (a := 0) (by simp [Enclosure.Holds])
  rw [zero_add, pow_zero, one_mul, hx, ← List.range_eq_range'] at this
  rwa [ringValue, cosTable, Nat.mul_div_cancel_left _ (by decide)]

/-! The enclosure of ln 10 is positive, so that it may divide -/

/-- An enclosure of non-negative reals, in order. -/
def Enclosure.Nonneg (x : Enclosure) : Prop := 0 ≤ x.lo ∧ x.lo ≤ x.hi

theorem le_ceilDiv_mul (a b : Int) (hb : 0 < b) : a ≤ ceilDiv a b * b := by
  have := Int.ediv_mul_le (-a) hb.ne'
  rw [ceilDiv, neg_mul]
  omega

theorem ceilDiv_mul_le (a b : Int) (hb : 0 < b) : ceilDiv a b * b ≤ a + b := by
  have h1 := Int.ediv_mul_add_emod (-a) b
  have h2 := Int.emod_lt_of_pos (-a) hb
  rw [ceilDiv, neg_mul]
  omega

theorem Enclosure.Nonneg.mul {x y : Enclosure} (hx : x.Nonneg) (hy : y.Nonneg) (p : Nat) :
    (x.mul p y).Nonneg ∧ (x.mul p y).hi * 2 ^ p ≤ x.hi * y.hi + 2 ^ p := by
  obtain ⟨x0, xle⟩ := hx
  obtain ⟨y0, yle⟩ := hy
  have pow : (0 : Int) < 2 ^ p := by positivity
  have h1 : x.lo * y.lo ≤ x.lo * y.hi := mul_le_mul_of_nonneg_left yle x0
  have h2 : x.lo * y.lo ≤ x.hi * y.lo := mul_le_mul_of_nonneg_right xle y0
  have h3 : x.lo * y.hi ≤ x.hi * y.hi := mul_le_mul_of_nonneg_right xle (y0.trans yle)
  have h4 : x.hi * y.lo ≤ x.hi * y.hi := mul_le_mul_of_nonneg_left yle (x0.trans xle)
  have ends : x.mul p y = ⟨x.lo * y.lo / 2 ^ p, ceilDiv (x.hi * y.hi) (2 ^ p)⟩ := by
    rw [Enclosure.mul, min_eq_left h1, min_eq_left h4, min_eq_left h2, max_eq_right h1, max_eq_right h4,
      max_eq_right h3]
  rw [ends]
  refine ⟨⟨Int.ediv_nonneg (mul_nonneg x0 y0) pow.le, le_of_mul_le_mul_right ?_ pow⟩, ceilDiv_mul_le _ _ pow⟩
  calc x.lo * y.lo / 2 ^ p * 2 ^ p ≤ x.lo * y.lo := Int.ediv_mul_le _ pow.ne'
    _ ≤ x.hi * y.hi := h1.trans h3
    _ ≤ ceilDiv (x.hi * y.hi) (2 ^ p) * 2 ^ p := le_ceilDiv_mul _ _ pow

/-- A positive series only grows, and its powers stay below a bound that each step keeps. -/
theorem seriesSum_lo {next : Enclosure → Enclosure} {weight : Nat → Nat} {B : Int}
    (hnext : ∀ x : Enclosure, x.Nonneg → x.hi ≤ B → (next x).Nonneg ∧ (next x).hi ≤ B) (terms k : Nat)
    {power acc : Enclosure} (hpower : power.Nonneg) (hB : power.hi ≤ B) :
    acc.lo ≤ (seriesSum false next weight terms k power acc).1.lo ∧
      (seriesSum false next weight terms k power acc).2.hi ≤ B := by
  induction terms generalizing k power acc with
  | zero => exact ⟨le_rfl, hB⟩
  | succ terms ih =>
    obtain ⟨next_nonneg, next_le⟩ := hnext power hpower hB
    have term_nonneg : 0 ≤ power.lo / (weight k : Int) := Int.ediv_nonneg hpower.1 (Int.natCast_nonneg _)
    obtain ⟨grows, bounded⟩ := ih (k + 1) (acc := acc.add (power.divNat (weight k))) next_nonneg next_le
    exact ⟨(le_add_of_nonneg_right term_nonneg).trans grows, bounded⟩

/-- The logarithm's enclosure stays above 0 where z is known to one unit and is at most 3/8. -/
theorem lnSeries_lo_pos (p : Nat) (z : Enclosure) (hz : z.Nonneg) (hlo : 13 ≤ z.hi) (hone : z.hi ≤ z.lo + 1)
    (hmax : 8 * z.hi ≤ 3 * 2 ^ p) : 0 < (lnSeries p z).lo := by
  have pow : (0 : Int) < 2 ^ p := by positivity
  obtain ⟨sq_nonneg, sq_le⟩ := hz.mul hz p
  have sq_bound : 8 * (z.mul p z).hi ≤ 3 * z.hi + 8 := by nlinarith
  -- One step at least divides the power by 4.
  have shrink (x : Enclosure) (hx : x.Nonneg) (hxz : x.hi ≤ z.hi) :
      (x.mul p (z.mul p z)).Nonneg ∧ 4 * (x.mul p (z.mul p z)).hi ≤ z.hi := by
    obtain ⟨nonneg, le⟩ := hx.mul sq_nonneg p
    refine ⟨nonneg, ?_⟩
    have x0 : 0 ≤ x.hi := hx.1.trans hx.2
    have : 64 * ((x.mul p (z.mul p z)).hi * 2 ^ p) ≤ (9 * z.hi + 88) * 2 ^ p := by nlinarith
    have : 64 * (x.mul p (z.mul p z)).hi ≤ 9 * z.hi + 88 := by nlinarith
    omega
  obtain ⟨first_nonneg, first_le⟩ := shrink z hz le_rfl
  obtain ⟨grows, bounded⟩ := seriesSum_lo (B := z.hi / 4) (next := fun x => x.mul p (z.mul p z))
    (weight := fun k => 2 * k + 1)
    (fun x hx hB => by
      obtain ⟨nonneg, le⟩ := shrink x hx (by omega)
      exact ⟨nonneg, by omega⟩)
    (p / 3 + 1) 1 (acc := (⟨0, 0⟩ : Enclosure).add (z.divNat 1)) first_nonneg (by omega)
  have first_term : ((⟨0, 0⟩ : Enclosure).add (z.divNat 1)).lo = z.lo := by
    simp [Enclosure.add, Enclosure.divNat]
  rw [first_term] at grows
  rw [lnSeries, seriesSum]
  simp only [Enclosure.widen, Enclosure.scale, Bool.false_and, Bool.false_eq_true, if_false, Int.reduceLE, if_true,
    Nat.mul_zero, Nat.zero_add]
  omega

theorem ln10Enclosure_lo_pos (p : Nat) (hp : 7 ≤ p) : 0 < (ln10Enclosure p).lo := by
  have big : (2 : Int) ^ 7 ≤ 2 ^ p := pow_le_pow_right₀ (by norm_num) hp
  have third : 0 < (ln2Enclosure p).lo := by
    refine lnSeries_lo_pos p _ ⟨?_, ?_⟩ ?_ ?_ ?_ <;> simp only [Enclosure.divNat, Enclosure.ofInt, ceilDiv] <;> omega
  have ninth : 0 < (lnSeries p ((Enclosure.ofInt p 1).divNat 9)).lo := by
    refine lnSeries_lo_pos p _ ⟨?_, ?_⟩ ?_ ?_ ?_ <;> simp only [Enclosure.divNat, Enclosure.ofInt, ceilDiv] <;> omega
  have unfolded : (ln10Enclosure p).lo =
      (ln2Enclosure p).lo * 3 + (lnSeries p ((Enclosure.ofInt p 1).divNat 9)).lo := rfl
  omega

theorem precision_ge (i : Nat) : 7 ≤ precision i := by
  rw [precision]
  have := Nat.one_le_two_pow (n := i)
  omega

/-! Levels -/

/-- The logarithm of an enclosed positive real in units of 2^(-p), from the logarithms of its ends. -/
theorem lnEnds_holds (p : Nat) {x : Enclosure} {v : ℝ} (hx : x.Holds p v) (hlo : 0 < x.lo) :
    (⟨(lnNat p x.lo.toNat).lo, (lnNat p x.hi.toNat).hi⟩ : Enclosure).Holds p (Real.log (v * 2 ^ p)) := by
  obtain ⟨lower, upper⟩ := hx
  have pow : (0 : ℝ) < 2 ^ p := by positivity
  have cast_toNat (z : Int) (hz : 0 < z) : ((z.toNat : ℕ) : ℝ) = z := by
    rw [← Int.cast_natCast, Int.toNat_of_nonneg hz.le]
  have lo_pos : (0 : ℝ) < x.lo := by exact_mod_cast hlo
  have hi_pos : 0 < x.hi := by exact_mod_cast lo_pos.trans_le (lower.trans upper)
  have lo_ln := (lnNat_holds p x.lo.toNat (by omega)).1
  have hi_ln := (lnNat_holds p x.hi.toNat (by omega)).2
  rw [cast_toNat _ hlo] at lo_ln
  rw [cast_toNat _ hi_pos] at hi_ln
  exact ⟨lo_ln.trans (mul_le_mul_of_nonneg_right (Real.log_le_log lo_pos lower) pow.le),
    (mul_le_mul_of_nonneg_right (Real.log_le_log (lo_pos.trans_le lower) upper) pow.le).trans hi_ln⟩

/-- 10·log10(v/(N²·2^298)), the level of a value in units of 2^-298. -/
noncomputable def levelOf (size : Nat) (v : ℝ) : ℝ := 10 * Real.log (v / (size ^ 2 * 2 ^ 298)) / Real.log 10

/-- The level compares with p/2^j as v^(10·2^j) with 10^p·(N²·2^298)^(10·2^j). -/
theorem realSign_levelOf_sub (size : Nat) (hs : 0 < size) {v : ℝ} (hv : 0 < v) (p : Int) (j : Nat) :
    realSign ((10 : ℝ) ^ (-p).toNat * v ^ (10 * 2 ^ j) - ((size : ℝ) ^ 2 * 2 ^ 298) ^ (10 * 2 ^ j) * 10 ^ p.toNat) =
      realSign (levelOf size v - (p : ℝ) / 2 ^ j) := by
  set unit : ℝ := (size : ℝ) ^ 2 * 2 ^ 298 with hunit
  have unit_pos : 0 < unit := by positivity
  have ln10 : 0 < Real.log 10 := Real.log_pos (by norm_num)
  have order {a b : ℝ} (ha : 0 < a) (hb : 0 < b) : realSign (a - b) = realSign (Real.log a - Real.log b) := by
    rcases lt_trichotomy a b with h | rfl | h
    · rw [realSign_sub_of_lt h, realSign_sub_of_lt (Real.log_lt_log ha h)]
    · simp
    · rw [realSign_sub_of_gt h, realSign_sub_of_gt (Real.log_lt_log hb h)]
  rw [order (by positivity) (by positivity), Real.log_mul (by positivity) (by positivity),
    Real.log_mul (by positivity) (by positivity), Real.log_pow, Real.log_pow, Real.log_pow, Real.log_pow]
  have hp : ((-p).toNat : ℝ) - p.toNat = -p := by
    exact_mod_cast (by omega : ((-p).toNat : Int) - p.toNat = -p)
  have scaled : ((-p).toNat : ℝ) * Real.log 10 + ((10 * 2 ^ j : ℕ) : ℝ) * Real.log v -
      (((10 * 2 ^ j : ℕ) : ℝ) * Real.log unit + p.toNat * Real.log 10) =
      2 ^ j * Real.log 10 * (levelOf size v - p / 2 ^ j) := by
    rw [levelOf, ← hunit, Real.log_div hv.ne' unit_pos.ne']
    push_cast
    field_simp
    linear_combination Real.log 10 * hp
  rw [scaled, realSign_mul, realSign_of_pos (show 0 < 2 ^ j * Real.log 10 by positivity), one_mul]

/-- The enclosure of a level, where that of the value is positive. -/
theorem levelEnclosure_holds (p size : Nat) (hp : 7 ≤ p) (hs : 0 < size) {x : Enclosure} {v : ℝ} (hx : x.Holds p v)
    (hlo : 0 < x.lo) :
    ((((((⟨(lnNat p x.lo.toNat).lo, (lnNat p x.hi.toNat).hi⟩ : Enclosure).sub
      ((ln2Enclosure p).scale ((p + 298 : Nat) : Int))).scale 10).sub ((lnNat p size).scale 20)).div p
        (ln10Enclosure p)).Holds p (levelOf size v)) := by
  have pow : (0 : ℝ) < 2 ^ p := by positivity
  have hv : 0 < v := by
    have : (0 : ℝ) < x.lo := by exact_mod_cast hlo
    exact pos_of_mul_pos_left (this.trans_le hx.1) pow.le
  have size_pos : (0 : ℝ) < size := by exact_mod_cast hs
  have h := ((((lnEnds_holds p hx hlo).sub ((ln2Enclosure_holds p).scale ((p + 298 : Nat) : Int))).scale 10).sub
    ((lnNat_holds p size hs).scale 20)).div (ln10Enclosure_holds p) (ln10Enclosure_lo_pos p hp)
  convert h using 1
  rw [levelOf, Real.log_div hv.ne' (by positivity), Real.log_mul (by positivity) (by positivity),
    Real.log_mul (by positivity) (by positivity), Real.log_pow, Real.log_pow, Real.log_pow]
  push_cast
  ring

/-- The power in decibels: -∞ for 0, and else the level rounded (spec/45_detector.md R262). -/
theorem decibels_spec {level : Nat} {v : List Int} (hv : RealRing level v) (h0 : 0 ≤ ringRe level v) :
    (ringRe level v = 0 → decibels (2 * 2 ^ level) v = f32NegInf) ∧
      (ringRe level v ≠ 0 → RoundsTo (levelOf (2 * 2 ^ level) (ringRe level v)) (decibels (2 * 2 ^ level) v)) := by
  have hhalf : 2 * 2 ^ level / 2 = 2 ^ level := Nat.mul_div_cancel_left _ (by decide)
  have size_pos : 0 < 2 * 2 ^ level := by positivity
  have sign := signEnclosed_spec (ringValue_holds (precision 0) level v hv.length) (fun _ => ringSign level v)
    (ringSign_spec level v hv)
  unfold decibels
  dsimp only
  rw [ringLevel_size, sign, hhalf]
  set size := 2 * 2 ^ level with hsize
  refine ⟨fun h => if_pos (realSign_eq_zero.mpr h), fun h => ?_⟩
  have pos : 0 < ringRe level v := lt_of_le_of_ne h0 (Ne.symm h)
  rw [if_neg (realSign_eq_zero.not.mpr h)]
  have unit_cast : ((size * size * 2 ^ 298 : ℕ) : ℝ) = (size : ℝ) ^ 2 * 2 ^ 298 := by
    rw [Nat.cast_mul, Nat.cast_mul, Nat.cast_pow, Nat.cast_ofNat, sq]
  split
  · next e =>
    have value : ringRe level v = (size : ℝ) ^ 2 * 2 ^ 298 := by
      rw [e, ringRe_ofInt, Int.cast_natCast, unit_cast]
    rw [value, levelOf, div_self (by positivity), Real.log_one, mul_zero, zero_div]
    exact roundsTo_zero
  · refine roundsTo_roundEnclosed _ _ _ _ _ (fun i l r e => ?_) (roundsTo_roundBy _ _ fun p j => ?_)
    · split at e
      · cases e
      · next hlo =>
        cases e
        obtain ⟨lower, upper⟩ := levelEnclosure_holds (precision i) size (precision_ge i) size_pos
          (ringValue_holds (precision i) level v hv.length) (not_le.mp hlo)
        exact ⟨_, _, _, rfl, rfl, (div_le_iff₀ (by positivity)).mpr lower, (le_div_iff₀ (by positivity)).mpr upper⟩
    · have hpow := hv.pow (10 * 2 ^ j)
      rw [ringSign_spec level _ ((hpow.scale _).sub (realRing_ofInt level _)),
        ringRe_sub (by rw [ringScale_length, hpow.length, (realRing_ofInt level _).length]), ringRe_scale,
        hv.ringRe_pow, ringRe_ofInt, ← realSign_levelOf_sub size size_pos pos, ← unit_cast]
      simp only [Int.cast_mul, Int.cast_pow, Int.cast_natCast, Int.cast_ofNat]

/-! Fractional bins -/

/-- The denominator 2·√mid - √right - √left of R262, for values in units of 2^-298. -/
noncomputable def peakDenominator (left mid right : ℝ) : ℝ := 2 * √mid - √right - √left

section
variable {level : Nat} {left mid right : List Int} (hl : RealRing level left) (hm : RealRing level mid)
  (hr : RealRing level right) (l0 : 0 ≤ ringRe level left) (m0 : 0 ≤ ringRe level mid) (r0 : 0 ≤ ringRe level right)

/-- The root of a ring number that is not negative, enclosed. -/
theorem sqrt_ringValue_holds (p : Nat) {y : List Int} (hy : RealRing level y) (y0 : 0 ≤ ringRe level y) :
    ((ringValue (cosTable p (2 * 2 ^ level)) y).sqrt p).Holds p √(ringRe level y) :=
  (ringValue_holds p level y hy.length).sqrt y0

include hl hm hr l0 m0 r0

theorem peakDenominator_holds (p : Nat) : (((((ringValue (cosTable p (2 * 2 ^ level)) mid).sqrt p).scale 2).sub
    ((ringValue (cosTable p (2 * 2 ^ level)) right).sqrt p)).sub
      ((ringValue (cosTable p (2 * 2 ^ level)) left).sqrt p)).Holds p
        (peakDenominator (ringRe level left) (ringRe level mid) (ringRe level right)) := by
  rw [peakDenominator, mul_comm (2 : ℝ)]
  exact_mod_cast (((sqrt_ringValue_holds p hm m0).scale 2).sub (sqrt_ringValue_holds p hr r0)).sub
    (sqrt_ringValue_holds p hl l0)

/-- The sign of the denominator, as a sum of three roots. -/
theorem rootSum3_denominator : rootSum3 level (-1) right (-1) left 2 mid =
    realSign (peakDenominator (ringRe level left) (ringRe level mid) (ringRe level right)) := by
  rw [rootSum3_spec hr hl hm r0 l0 m0, peakDenominator]
  congr 1
  push_cast
  ring

/-- The quotient compares with p/2^j as 2^j·(right - left) with 2p·denom, the other way round where denom is
negative. -/
theorem rootSum3_quotient {D x : ℝ}
    (hD : D = peakDenominator (ringRe level left) (ringRe level mid) (ringRe level right))
    (hx : x = 1 / 2 * (√(ringRe level right) - √(ringRe level left)) / D) (hD0 : D ≠ 0) (p : Int) (j : Nat) :
    realSign D * rootSum3 level (2 ^ j + 2 * p) right (2 * p - 2 ^ j) left (-(4 * p)) mid =
      realSign (x - (p : ℝ) / 2 ^ j) := by
  have scaled : ((2 ^ j + 2 * p : Int) : ℝ) * √(ringRe level right) +
      ((2 * p - 2 ^ j : Int) : ℝ) * √(ringRe level left) + ((-(4 * p) : Int) : ℝ) * √(ringRe level mid) =
      2 * 2 ^ j * (D * (x - p / 2 ^ j)) := by
    rw [mul_sub, hx, mul_div_cancel₀ _ hD0, hD, peakDenominator]
    push_cast
    field_simp
    ring
  rw [rootSum3_spec hr hl hm r0 l0 m0, scaled, realSign_mul,
    realSign_of_pos (show (0 : ℝ) < 2 * 2 ^ j by positivity), one_mul, realSign_mul, ← mul_assoc,
    realSign_mul_realSign hD0, one_mul]

/-- The fractional bin: 0 where the denominator is 0, and else the quotient rounded (spec/45_detector.md R262). -/
theorem fractionalBin_spec {D x : ℝ}
    (hD : D = peakDenominator (ringRe level left) (ringRe level mid) (ringRe level right))
    (hx : x = 1 / 2 * (√(ringRe level right) - √(ringRe level left)) / D) :
    (D = 0 → fractionalBin (2 * 2 ^ level) left mid right = 0) ∧
      (D ≠ 0 → RoundsTo x (fractionalBin (2 * 2 ^ level) left mid right)) := by
  have denom := peakDenominator_holds hl hm hr l0 m0 r0
  have sign := signEnclosed_spec (denom (precision 0)) (fun _ => rootSum3 level (-1) right (-1) left 2 mid)
    (rootSum3_denominator hl hm hr l0 m0 r0)
  rw [← hD] at sign denom
  unfold fractionalBin
  dsimp only
  rw [ringLevel_size, sign]
  split
  · next e =>
    refine ⟨fun _ => rfl, fun _ => ?_⟩
    rw [hx, e, sub_self, mul_zero, zero_div]
    exact roundsTo_zero
  · refine ⟨fun h => if_pos (realSign_eq_zero.mpr h), fun h => ?_⟩
    rw [if_neg (realSign_eq_zero.not.mpr h)]
    have sign_ne : (realSign D : ℝ) ≠ 0 := by exact_mod_cast realSign_eq_zero.not.mpr h
    refine roundsTo_roundEnclosed _ _ _ _ _ (fun i lo hi e => ?_)
      (roundsTo_roundBy _ _ fun p j => rootSum3_quotient hl hm hr l0 m0 r0 hD hx h p j)
    split at e
    · cases e
    · next hlo =>
      cases e
      have difference := (sqrt_ringValue_holds (precision i) hr r0).sub (sqrt_ringValue_holds (precision i) hl l0)
      obtain ⟨lower, upper⟩ := (difference.scale (realSign D)).div ((denom (precision i)).scale (realSign D))
        (not_le.mp hlo)
      have twice : (√(ringRe level right) - √(ringRe level left)) * realSign D / (D * realSign D) = 2 * x := by
        rw [hx, mul_div_mul_right _ _ sign_ne]
        ring
      rw [twice] at lower upper
      refine ⟨_, _, _, rfl, rfl, (div_le_iff₀ (by positivity)).mpr ?_, (le_div_iff₀ (by positivity)).mpr ?_⟩
      · rw [pow_succ]; linarith
      · rw [pow_succ]; linarith

end

end Sys2Proof.Machine
end

section
/-! PROOFS. The detector's bins as the squared magnitudes of the forward DFT (spec/45_detector.md R261), and the results
of the reference and of a block within NUM_TOL of it (R262, R263; spec/00_scope.md R15). -/

namespace Sys2Proof.Machine

/-! The transform -/

theorem ringVal_modify (ζ : ℂ) (x : List Int) (i : Nat) (c : Int) (hi : i < x.length) :
    ringVal ζ (x.modify i (· + c)) = ringVal ζ x + c * ζ ^ i := by
  induction x generalizing i with
  | nil => simp at hi
  | cons d ds ih =>
    cases i with
    | zero => rw [List.modify_zero_cons, ringVal_cons, ringVal_cons]; push_cast; ring
    | succ i =>
      rw [List.modify_succ_cons, ringVal_cons, ih i (by simpa using hi), ringVal_cons]
      ring

@[simp] theorem ringAddTerm_length (x : List Int) (e : Nat) (c : Int) : (ringAddTerm x e c).length = x.length := by
  unfold ringAddTerm
  dsimp only
  split <;> simp

/-- Adding c·ζ^e, with ζ^h = -1 bringing the power below h. -/
theorem ringVal_addTerm {ζ : ℂ} (x : List Int) (e : Nat) (c : Int) (hζ : ζ ^ x.length = -1) :
    ringVal ζ (ringAddTerm x e c) = ringVal ζ x + c * ζ ^ e := by
  have pos : 0 < x.length := by
    rcases Nat.eq_zero_or_pos x.length with h | h
    · rw [h] at hζ
      norm_num at hζ
    · exact h
  have one : ζ ^ (2 * x.length) = 1 := by rw [mul_comm, pow_mul, hζ]; norm_num
  have lt := Nat.mod_lt e (show 0 < 2 * x.length by omega)
  rw [pow_eq_pow_mod e one]
  unfold ringAddTerm
  dsimp only
  split
  · next h => exact ringVal_modify ζ x _ c h
  · next h =>
    have wrapped : ζ ^ (e % (2 * x.length)) = -ζ ^ (e % (2 * x.length) - x.length) := by
      rw [← neg_one_mul, ← hζ, ← pow_add]
      congr 1
      omega
    have := ringVal_modify ζ x (e % (2 * x.length) - x.length) (-c) (by omega)
    simp only [← sub_eq_add_neg] at this
    rw [this, wrapped]
    push_cast
    ring

/-- One sample added to a bin: the sample's number, and the sum so far. -/
def dftStep (size k : Nat) (acc : Nat × List Int) (x : Int × Int) : Nat × List Int :=
  (acc.1 + 1, ringAddTerm (ringAddTerm acc.2 (size - k * acc.1 % size) x.1) (size - k * acc.1 % size + size / 4) x.2)

theorem dftBin_eq_foldl (size : Nat) (xs : List (Int × Int)) (k : Nat) :
    dftBin size xs k = (xs.foldl (dftStep size k) (0, List.replicate (size / 2) 0)).2 := rfl

/-- The sum over the samples from number n on, at a root of -1. -/
theorem dftFold_val {ζ : ℂ} {h : Nat} (hζ : ζ ^ h = -1) (hpos : 0 < h) (k : Nat) (xs : List (Int × Int)) (n : Nat)
    (x : List Int) (hx : x.length = h) :
    (xs.foldl (dftStep (2 * h) k) (n, x)).2.length = h ∧
      ringVal ζ (xs.foldl (dftStep (2 * h) k) (n, x)).2 = ringVal ζ x + ∑ i ∈ Finset.range xs.length,
        (((xs.getD i (0, 0)).1 : ℂ) + ζ ^ (2 * h / 4) * ((xs.getD i (0, 0)).2 : ℂ)) * ζ⁻¹ ^ (k * (n + i)) := by
  induction xs generalizing n x with
  | nil => simpa using hx
  | cons s xs ih =>
    have one : ζ ^ (2 * h) = 1 := by rw [mul_comm, pow_mul, hζ]; norm_num
    have turned : ζ ^ (2 * h - k * n % (2 * h)) = ζ⁻¹ ^ (k * n) := by
      have lt := Nat.mod_lt (k * n) (show 0 < 2 * h by omega)
      rw [inv_pow]
      refine eq_inv_of_mul_eq_one_left ?_
      rw [pow_eq_pow_mod (k * n) one, ← pow_add, Nat.sub_add_cancel lt.le, one]
    obtain ⟨length, value⟩ := ih (n + 1) (dftStep (2 * h) k (n, x) s).2 (by simp [dftStep, hx])
    refine ⟨length, ?_⟩
    rw [List.foldl_cons]
    refine value.trans ?_
    rw [List.length_cons, Finset.sum_range_succ', dftStep]
    dsimp only
    rw [ringVal_addTerm _ _ _ (by simpa [hx] using hζ), ringVal_addTerm _ _ _ (by simpa [hx] using hζ), pow_add, turned]
    simp only [List.getD_cons_succ, List.getD_cons_zero, Nat.add_zero]
    have shifted (i : Nat) : k * (n + 1 + i) = k * (n + (i + 1)) := by ring
    simp only [shifted]
    ring

/-- The coefficients of a bin give the DFT of the samples read as integers (spec/45_detector.md R261). -/
theorem dftBin_val (level : Nat) (hlevel : 1 ≤ level) (xs : List (Int × Int)) (k : Nat) :
    (dftBin (2 * 2 ^ level) xs k).length = 2 ^ level ∧
      ringVal (ringRoot level) (dftBin (2 * 2 ^ level) xs k) = ∑ n ∈ Finset.range xs.length,
        (((xs.getD n (0, 0)).1 : ℂ) + Complex.I * ((xs.getD n (0, 0)).2 : ℂ)) *
          Complex.exp (-(2 * Real.pi * Complex.I * k * n / (2 * 2 ^ level : ℕ))) := by
  obtain ⟨length, value⟩ := dftFold_val (ringRoot_pow level) (by positivity) k xs 0 (List.replicate (2 ^ level) 0)
    List.length_replicate
  have half : 2 * 2 ^ level / 2 = 2 ^ level := Nat.mul_div_cancel_left _ (by decide)
  have quarter : ringRoot level ^ (2 * 2 ^ level / 4) = Complex.I := by
    obtain ⟨l, rfl⟩ : ∃ l, level = l + 1 := ⟨level - 1, by omega⟩
    rw [show 2 * 2 ^ (l + 1) / 4 = 2 ^ l by rw [pow_succ]; omega, ringRoot, ← Complex.exp_nat_mul,
      show ((2 ^ l : ℕ) : ℂ) * (Real.pi * Complex.I / 2 ^ (l + 1)) = Real.pi / 2 * Complex.I by
        push_cast; field_simp; ring, Complex.exp_pi_div_two_mul_I]
  have turned (m : Nat) : (ringRoot level)⁻¹ ^ (k * m) =
      Complex.exp (-(2 * Real.pi * Complex.I * k * m / (2 * 2 ^ level : ℕ))) := by
    rw [ringRoot, ← Complex.exp_neg, ← Complex.exp_nat_mul]
    congr 1
    push_cast
    field_simp
  rw [dftBin_eq_foldl, half]
  refine ⟨length, ?_⟩
  rw [value, ringVal_replicate_zero, zero_add, quarter]
  exact Finset.sum_congr rfl fun n _ => by rw [zero_add, turned]

/-! The bins -/

/-- Bin k of the samples. -/
def detectorBin (xs : List Sample) (k : Nat) : Bin :=
  let m := ringMag2 (dftBin xs.length (xs.map fun x => (f32Value x.i, f32Value x.q)) k)
  ⟨k, m, ringValue (cosTable (precision 0) xs.length) m⟩

theorem detectorBins_eq_map (xs : List Sample) : detectorBins xs = (List.range xs.length).map (detectorBin xs) := rfl

@[simp] theorem detectorBins_length (xs : List Sample) : (detectorBins xs).length = xs.length := by
  rw [detectorBins_eq_map, List.length_map, List.length_range]

theorem mem_detectorBins {xs : List Sample} {b : Bin} :
    b ∈ detectorBins xs ↔ ∃ k < xs.length, detectorBin xs k = b := by
  rw [detectorBins_eq_map]
  simp

theorem detectorBins_getD (xs : List Sample) (k : Nat) (hk : k < xs.length) (b : Bin) :
    (detectorBins xs).getD k b = detectorBin xs k := by
  rw [detectorBins_eq_map]
  simp [List.getD_eq_getElem?_getD, hk]

/-- The value of bin k, in units of 2^-298. -/
noncomputable def binPower (level : Nat) (xs : List Sample) (k : Nat) : ℝ := ringRe level (detectorBin xs k).mag2

section
variable {level : Nat} {xs : List Sample} (hlevel : 1 ≤ level) (hlen : xs.length = 2 * 2 ^ level)
include hlevel hlen

theorem dft_length (k : Nat) :
    (dftBin xs.length (xs.map fun x => (f32Value x.i, f32Value x.q)) k).length = 2 ^ level := by
  rw [hlen]
  exact (dftBin_val level hlevel _ k).1

theorem realRing_bin (k : Nat) : RealRing level (detectorBin xs k).mag2 := realRing_mag2 (dft_length hlevel hlen k)

theorem bin_value_holds (k : Nat) : (detectorBin xs k).value.Holds (precision 0) (binPower level xs k) := by
  have := ringValue_holds (precision 0) level _ (realRing_bin hlevel hlen k).length
  rwa [← hlen] at this

/-- The value of a bin is |X[k]|² (spec/45_detector.md R262). -/
theorem binPower_eq {X : Nat → ℂ} (hX : IsDft xs X) (k : Nat) :
    binPower level xs k = Complex.normSq (X k) * 2 ^ 298 := by
  have scaled : ringVal (ringRoot level) (dftBin xs.length (xs.map fun x => (f32Value x.i, f32Value x.q)) k) =
      X k * ((2 ^ 149 : ℝ) : ℂ) := by
    rw [hX k, Finset.sum_mul, hlen, (dftBin_val level hlevel _ k).2, List.length_map, hlen]
    refine Finset.sum_congr rfl fun n hn => ?_
    have hn : n < xs.length := hlen ▸ Finset.mem_range.mp hn
    have entry : (xs.map fun x => (f32Value x.i, f32Value x.q)).getD n (0, 0) =
        (f32Value (xs.getD n default).i, f32Value (xs.getD n default).q) := by
      simp [List.getD_eq_getElem?_getD, hn]
    rw [entry]
    push_cast
    field_simp
  rw [binPower, detectorBin, ringRe_mag2 (dft_length hlevel hlen k), scaled, Complex.normSq_mul, Complex.normSq_ofReal,
    ← pow_add]

/-- The order of bins is that of their values: disjoint enclosures decide as the exact comparison does. -/
theorem bin_less_iff (j k : Nat) :
    Bin.less xs.length (detectorBin xs j) (detectorBin xs k) = true ↔ binPower level xs j < binPower level xs k := by
  obtain ⟨jlo, jhi⟩ := bin_value_holds hlevel hlen j
  obtain ⟨klo, khi⟩ := bin_value_holds hlevel hlen k
  have pow : (0 : ℝ) < 2 ^ precision 0 := by positivity
  unfold Bin.less
  split
  · next h =>
    have : ((detectorBin xs j).value.hi : ℝ) < (detectorBin xs k).value.lo := by exact_mod_cast h
    exact ⟨fun _ => lt_of_mul_lt_mul_right (by linarith) pow.le, fun _ => rfl⟩
  · split
    · next h =>
      have : ((detectorBin xs k).value.hi : ℝ) < (detectorBin xs j).value.lo := by exact_mod_cast h
      have : binPower level xs k < binPower level xs j := lt_of_mul_lt_mul_right (by linarith) pow.le
      exact ⟨fun h => absurd h (by decide), fun h => absurd h this.not_gt⟩
    · rw [hlen]
      exact ringLess_iff (realRing_bin hlevel hlen j) (realRing_bin hlevel hlen k)

end

/-! The bin that is picked -/

theorem foldl_choose_mem {α : Type} (better : α → α → Bool) (rest : List α) (first : α) :
    rest.foldl (fun best b => if better best b then b else best) first ∈ first :: rest := by
  induction rest generalizing first with
  | nil => simp
  | cons b rest ih =>
    rw [List.foldl_cons]
    split
    · exact List.mem_cons_of_mem _ (ih b)
    · have := ih first
      rw [List.mem_cons] at this ⊢
      exact this.imp_right (List.mem_cons_of_mem _)

theorem peakBin_mem (bins : List Bin) (h : bins ≠ []) : peakBin bins ∈ bins := by
  cases bins with
  | nil => exact absurd rfl h
  | cons first rest => exact foldl_choose_mem (Bin.less (rest.length + 1)) rest first

/-- Where no bin is greater than the first, the first is the peak. -/
theorem foldl_choose_first {α : Type} (better : α → α → Bool) (rest : List α) (first : α)
    (h : ∀ b ∈ rest, better first b = false) :
    rest.foldl (fun best b => if better best b then b else best) first = first := by
  induction rest with
  | nil => rfl
  | cons b rest ih =>
    rw [List.foldl_cons, h b (by simp), if_neg (by decide)]
    exact ih fun c hc => h c (by simp [hc])

theorem peakBin_first (first : Bin) (rest : List Bin)
    (h : ∀ b ∈ rest, Bin.less (rest.length + 1) first b = false) : peakBin (first :: rest) = first :=
  foldl_choose_first (Bin.less (rest.length + 1)) rest first h

theorem nearPeak_mem (tol : Nat) (bins : List Bin) (index : Nat) (h : bins ≠ []) : nearPeak tol bins index ∈ bins := by
  unfold nearPeak
  dsimp only
  split
  · have lt : index % bins.length < bins.length := Nat.mod_lt _ (List.length_pos_iff.mpr h)
    rw [List.getD_eq_getElem _ _ lt]
    exact List.getElem_mem lt
  · exact peakBin_mem bins h

theorem detectorBins_ne_nil {xs : List Sample} (h : 0 < xs.length) : detectorBins xs ≠ [] := by
  rw [← List.length_pos_iff, detectorBins_length]
  exact h

theorem anyNonFinite_iff (xs : List Sample) :
    anyNonFinite xs = true ↔ ∃ x ∈ xs, nonFinite x.i = true ∨ nonFinite x.q = true := by
  simp [anyNonFinite]

theorem anyNonFinite_of_allFinite {xs : List Sample} (h : AllFinite xs) : anyNonFinite xs = false := by
  rw [← Bool.not_eq_true, anyNonFinite_iff]
  rintro ⟨x, hx, hi | hq⟩
  · rw [(h x hx).1] at hi; cases hi
  · rw [(h x hx).2] at hq; cases hq

theorem detectReference_of_finite {xs : List Sample} (h : anyNonFinite xs = false) :
    detectReference xs = resultsAt (detectorBins xs) (peakBin (detectorBins xs)) := by
  rw [detectReference, h, if_neg (by decide)]

/-- What an implementation's results are for finite samples (spec/45_detector.md R263). -/
theorem numDetect_implementation {xs : List Sample} (h : anyNonFinite xs = false) (tol : Nat) :
    ∃ (b : Bin) (v : Detection), b = nearPeak tol (detectorBins xs) (Config.detect xs).maxIndex.toNat ∧
      numDetect (.implementation tol) xs =
        ⟨(resultsAt (detectorBins xs) b).maxIndex, heldTo tol (resultsAt (detectorBins xs) b).power v.power,
          heldTo tol (resultsAt (detectorBins xs) b).powerAvg v.powerAvg,
          heldTo tol (resultsAt (detectorBins xs) b).fIndex v.fIndex⟩ := by
  refine ⟨_, Config.detect xs, rfl, ?_⟩
  unfold numDetect
  dsimp only
  rw [h, if_neg (by decide)]

/-- The index that results name is that of their bin. -/
theorem resultsAt_maxIndex (xs : List Sample) (hlen : xs.length ≤ 4096) (k : Nat) (hk : k < xs.length) :
    (resultsAt (detectorBins xs) (detectorBin xs k)).maxIndex.toNat = k := by
  show (BitVec.ofNat 12 k).toNat = k
  rw [BitVec.toNat_ofNat]
  omega

/-- maxIndex names one of the bins, for every NUM (spec/10_state.md R32). -/
theorem numDetect_maxIndex_lt (kind : NumKind) (xs : List Sample) (hpos : 0 < xs.length) (hlen : xs.length ≤ 4096) :
    (numDetect kind xs).maxIndex.toNat < xs.length := by
  have of_mem (b : Bin) (hb : b ∈ detectorBins xs) : (resultsAt (detectorBins xs) b).maxIndex.toNat < xs.length := by
    obtain ⟨k, hk, rfl⟩ := mem_detectorBins.mp hb
    rwa [resultsAt_maxIndex xs hlen k hk]
  have ne := detectorBins_ne_nil hpos
  cases hn : anyNonFinite xs with
  | true =>
    cases kind with
    | reference => rw [numDetect_reference, detectReference, if_pos hn]; exact hpos
    | implementation tol =>
      unfold numDetect
      dsimp only
      rw [if_pos hn, BitVec.toNat_ofNat]
      exact (Nat.mod_le _ _).trans_lt (Nat.mod_lt _ hpos)
  | false =>
    cases kind with
    | reference => rw [numDetect_reference, detectReference_of_finite hn]; exact of_mem _ (peakBin_mem _ ne)
    | implementation tol =>
      obtain ⟨b, v, rfl, e⟩ := numDetect_implementation hn tol
      rw [e]
      exact of_mem _ (nearPeak_mem tol _ _ ne)

/-! The results for a bin -/

/-- The sum of all bins is real, and its value the sum of theirs. -/
theorem foldl_ringAdd_spec {level : Nat} (f : Nat → Bin) (hf : ∀ k, RealRing level (f k).mag2) (n : Nat) :
    RealRing level (((List.range n).map f).foldl (fun acc x => ringAdd acc x.mag2) (List.replicate (2 ^ level) 0)) ∧
      ringRe level (((List.range n).map f).foldl (fun acc x => ringAdd acc x.mag2) (List.replicate (2 ^ level) 0)) =
        ∑ k ∈ Finset.range n, ringRe level (f k).mag2 := by
  induction n with
  | zero => exact ⟨realRing_zero level, ringRe_zero level _⟩
  | succ n ih =>
    obtain ⟨real, value⟩ := ih
    rw [List.range_succ, List.map_append, List.map_singleton, List.foldl_append, List.foldl_cons, List.foldl_nil]
    exact ⟨real.add (hf n), by
      rw [ringRe_add (real.length.trans (hf n).length.symm), value, Finset.sum_range_succ]⟩

/-- The model's level as the formula of R262. -/
theorem levelOf_eq_logb (size : Nat) (hs : 0 < size) {v : ℝ} (hv : v ≠ 0) :
    levelOf size (v * 2 ^ 298) = 10 * Real.logb 10 v - 20 * Real.logb 10 size := by
  have size_pos : (size : ℝ) ≠ 0 := by exact_mod_cast hs.ne'
  rw [levelOf, mul_div_mul_right _ _ (by positivity), Real.log_div hv (by positivity), Real.log_pow,
    Real.logb, Real.logb]
  push_cast
  ring

section
variable {level : Nat} {xs : List Sample} (hlevel : 1 ≤ level) (hlen : xs.length = 2 * 2 ^ level)
include hlevel hlen

omit hlevel in
/-- A level of a bin or of the rest of the bins, rounded. -/
theorem decibels_roundsTo {v : List Int} {x : ℝ} (hv : RealRing level v) (hx : 0 ≤ x)
    (e : ringRe level v = x * 2 ^ 298) :
    (x = 0 → decibels xs.length v = f32NegInf) ∧
      (x ≠ 0 → RoundsTo (10 * Real.logb 10 x - 20 * Real.logb 10 xs.length) (decibels xs.length v)) := by
  obtain ⟨zero, rounded⟩ := decibels_spec hv (by rw [e]; positivity)
  rw [← hlen] at zero rounded
  refine ⟨fun h => zero (by rw [e, h, zero_mul]), fun h => ?_⟩
  rw [← levelOf_eq_logb xs.length (by rw [hlen]; positivity) h, ← e]
  exact rounded (by rw [e]; positivity)

/-- The three results of R262 for bin m, from the DFT. -/
theorem resultsAt_spec {X : Nat → ℂ} (hX : IsDft xs X) (m : Nat) (hm : m < xs.length) :
    let p (k : Nat) : ℝ := Complex.normSq (X k)
    let d : Detection := resultsAt (detectorBins xs) (detectorBin xs m)
    let rest : ℝ := (∑ k ∈ Finset.range xs.length, p k) - p m
    let levelDb (v : ℝ) : ℝ := 10 * Real.logb 10 v - 20 * Real.logb 10 xs.length
    let left : ℝ := Real.sqrt (p ((m + xs.length - 1) % xs.length))
    let right : ℝ := Real.sqrt (p ((m + 1) % xs.length))
    let denom : ℝ := 2 * Real.sqrt (p m) - right - left
    (p m = 0 → d.power = 0xFF800000) ∧ (p m ≠ 0 → RoundsTo (levelDb (p m)) d.power) ∧
    (rest = 0 → d.powerAvg = 0xFF800000) ∧ (rest ≠ 0 → RoundsTo (levelDb rest) d.powerAvg) ∧
    (denom = 0 → d.fIndex = 0) ∧ (denom ≠ 0 → RoundsTo ((1 / 2) * (right - left) / denom) d.fIndex) := by
  intro p d rest levelDb left right denom
  have real := realRing_bin hlevel hlen
  have value (k : Nat) : ringRe level (detectorBin xs k).mag2 = p k * 2 ^ 298 := binPower_eq hlevel hlen hX k
  have p_nonneg (k : Nat) : 0 ≤ p k := Complex.normSq_nonneg _
  obtain ⟨total_real, total_value⟩ := foldl_ringAdd_spec (detectorBin xs) real xs.length
  rw [← detectorBins_eq_map] at total_real total_value
  have half : xs.length / 2 = 2 ^ level := by rw [hlen, Nat.mul_div_cancel_left _ (by decide)]
  have rest_nonneg : 0 ≤ rest :=
    sub_nonneg.mpr (Finset.single_le_sum (fun k _ => p_nonneg k) (Finset.mem_range.mpr hm))
  have rest_value : ringRe level (ringSub ((detectorBins xs).foldl (fun acc x => ringAdd acc x.mag2)
      (List.replicate (2 ^ level) 0)) (detectorBin xs m).mag2) = rest * 2 ^ 298 := by
    rw [ringRe_sub (total_real.length.trans (real m).length.symm), total_value, value, sub_mul, Finset.sum_mul]
    exact congrArg (· - p m * 2 ^ 298) (Finset.sum_congr rfl fun k _ => value k)
  obtain ⟨power_zero, power⟩ := decibels_roundsTo hlen (real m) (p_nonneg m) (value m)
  obtain ⟨avg_zero, avg⟩ := decibels_roundsTo hlen (total_real.sub (real m)) rest_nonneg rest_value
  have root (k : Nat) : √(ringRe level (detectorBin xs k).mag2) = √(p k) * 2 ^ 149 := by
    rw [value, Real.sqrt_mul (p_nonneg k), show (2 : ℝ) ^ 298 = (2 ^ 149) ^ 2 by rw [← pow_mul],
      Real.sqrt_sq (by positivity)]
  have nonneg (k : Nat) : 0 ≤ ringRe level (detectorBin xs k).mag2 := by rw [value]; have := p_nonneg k; positivity
  obtain ⟨frac_zero, frac⟩ := fractionalBin_spec (real ((m + xs.length - 1) % xs.length)) (real m)
    (real ((m + 1) % xs.length)) (nonneg _) (nonneg _) (nonneg _) (D := denom * 2 ^ 149)
    (x := (1 / 2) * (right - left) / denom) (by rw [peakDenominator, root, root, root]; ring)
    (by rw [root, root, ← sub_mul, ← mul_assoc, mul_div_mul_right _ _ (by positivity)])
  have d_eq : d = ⟨BitVec.ofNat 12 m, decibels xs.length (detectorBin xs m).mag2,
      decibels xs.length (ringSub ((detectorBins xs).foldl (fun acc x => ringAdd acc x.mag2)
        (List.replicate (2 ^ level) 0)) (detectorBin xs m).mag2),
      fractionalBin (2 * 2 ^ level) (detectorBin xs ((m + xs.length - 1) % xs.length)).mag2 (detectorBin xs m).mag2
        (detectorBin xs ((m + 1) % xs.length)).mag2⟩ := by
    have pos : 0 < xs.length := by omega
    rw [← detectorBins_getD xs _ (Nat.mod_lt _ pos) (detectorBin xs m),
      ← detectorBins_getD xs ((m + 1) % xs.length) (Nat.mod_lt _ pos) (detectorBin xs m), ← hlen, ← half,
      ← detectorBins_length xs]
    rfl
  rw [d_eq]
  exact ⟨power_zero, power, avg_zero, avg, fun h => frac_zero (by rw [h, zero_mul]),
    fun h => frac (mul_ne_zero h (by positivity))⟩

end

/-! The obligation -/

theorem meetsWithin_of_withinTol {tol : Nat} {r v : Word} (h : withinTol tol r v = true) :
    v = r ∨ nonFinite r = false ∧ MeetsWithin tol r v := by
  simp only [withinTol, Bool.or_eq_true, beq_iff_eq, Bool.and_eq_true, Bool.not_eq_true', decide_eq_true_eq] at h
  rcases h with h | ⟨⟨hr, hv⟩, hd⟩
  · exact .inl h.symm
  · exact .inr ⟨hr, fun _ => ⟨hv, hd⟩⟩

/-- A block within NUM_TOL: its bin, and its results held to those of that bin (spec/45_detector.md R263). -/
theorem numDetect_implementation_meets {xs : List Sample} (hpos : 0 < xs.length) (hlen : xs.length ≤ 4096)
    (h : anyNonFinite xs = false) (tol : Nat) :
    ∃ b ∈ detectorBins xs,
      let v : Detection := numDetect (.implementation tol) xs
      let r : Detection := resultsAt (detectorBins xs) b
      let d : Detection := resultsAt (detectorBins xs) (peakBin (detectorBins xs))
      v.maxIndex.toNat = b.index ∧
      (r.power = d.power ∨ nonFinite d.power = false ∧ MeetsWithin tol d.power r.power) ∧
      MeetsWithin tol r.power v.power ∧ MeetsWithin tol r.powerAvg v.powerAvg ∧ MeetsWithin tol r.fIndex v.fIndex := by
  obtain ⟨b, v, hb, e⟩ := numDetect_implementation h tol
  have mem : b ∈ detectorBins xs := hb ▸ nearPeak_mem tol _ _ (detectorBins_ne_nil hpos)
  refine ⟨b, mem, ?_⟩
  dsimp only
  rw [e]
  refine ⟨?_, ?_, heldTo_meetsWithin tol _ _, heldTo_meetsWithin tol _ _, heldTo_meetsWithin tol _ _⟩
  · obtain ⟨k, hk, rfl⟩ := mem_detectorBins.mp mem
    exact resultsAt_maxIndex xs hlen k hk
  · rcases nearPeak_power tol (detectorBins xs) (Config.detect xs).maxIndex.toNat with hp | hp
    · rw [hb, hp]
      exact .inl rfl
    · rw [← hb] at hp
      exact meetsWithin_of_withinTol hp

/-- Samples of zeros have a transform of zeros, and of the equal bins the first is the peak (spec/45_detector.md
R266). -/
theorem detectReference_zeros {level : Nat} {xs : List Sample} (hlevel : 1 ≤ level) (hlen : xs.length = 2 * 2 ^ level)
    {X : Nat → ℂ} (hX : IsDft xs X) (h0 : ∀ x ∈ xs, f32Mag x.i = 0 ∧ f32Mag x.q = 0) :
    detectReference xs = ⟨0, 0xFF800000, 0xFF800000, 0⟩ := by
  have finite : AllFinite xs := fun x hx => by
    obtain ⟨hi, hq⟩ := h0 x hx
    simp [nonFinite_eq_false_iff, hi, hq]
  have X_zero (k : Nat) : X k = 0 := by
    rw [hX k]
    refine Finset.sum_eq_zero fun n hn => ?_
    obtain ⟨hi, hq⟩ := h0 (xs.getD n default) (by
      have lt := Finset.mem_range.mp hn
      rw [List.getD_eq_getElem _ _ lt]
      exact List.getElem_mem lt)
    rw [f32Value_eq_zero.mpr hi, f32Value_eq_zero.mpr hq]
    simp
  have power_zero (k : Nat) : binPower level xs k = 0 := by
    rw [binPower_eq hlevel hlen hX k, X_zero, map_zero, zero_mul]
  have peak : peakBin (detectorBins xs) = detectorBin xs 0 := by
    obtain ⟨n, hn⟩ : ∃ n, xs.length = n + 1 := ⟨xs.length - 1, by have := Nat.one_le_two_pow (n := level); omega⟩
    have bins : detectorBins xs = detectorBin xs 0 :: (List.range n).map (fun k => detectorBin xs (k + 1)) := by
      rw [detectorBins_eq_map, hn, List.range_succ_eq_map, List.map_cons, List.map_map]
      rfl
    rw [bins]
    refine peakBin_first _ _ fun b hb => ?_
    obtain ⟨k, -, rfl⟩ := List.mem_map.mp hb
    rw [List.length_map, List.length_range, ← hn, ← Bool.not_eq_true, bin_less_iff hlevel hlen, power_zero, power_zero]
    exact lt_irrefl 0
  obtain ⟨power, -, avg, -, frac, -⟩ := resultsAt_spec hlevel hlen hX 0 (by rw [hlen]; positivity)
  simp only [X_zero, map_zero, Finset.sum_const_zero, sub_zero, Real.sqrt_zero, mul_zero, forall_const]
    at power avg frac
  rw [detectReference_of_finite (anyNonFinite_of_allFinite finite), peak]
  set d := resultsAt (detectorBins xs) (detectorBin xs 0) with hd
  calc d = ⟨0, d.power, d.powerAvg, d.fIndex⟩ := rfl
    _ = _ := by rw [power, avg, frac]

/-- Settles O59: the formulas at the bin that is picked, and the corners. -/
theorem detectorResultsFollowTheDft : Obligations.DetectorResultsFollowTheDft := by
  intro e xs X he he' hlen hX
  obtain ⟨level, rfl⟩ : ∃ level, e = level + 1 := ⟨e - 1, by omega⟩
  have hlen2 : xs.length = 2 * 2 ^ level := by rw [hlen, pow_succ']
  have hlevel : 1 ≤ level := by omega
  have hpos : 0 < xs.length := by rw [hlen]; positivity
  have hmax : xs.length ≤ 4096 := hlen ▸ Nat.pow_le_pow_right (by decide) he'
  have cast : ((2 : ℝ) ^ (level + 1)) = (xs.length : ℕ) := by rw [hlen]; push_cast; rfl
  rw [cast, ← hlen]
  refine ⟨fun kind => numDetect_maxIndex_lt kind xs hpos hmax, fun h => ?_, detectReference_zeros hlevel hlen2 hX,
    fun h => ?_⟩
  · rw [numDetect_reference, detectReference, if_pos ((anyNonFinite_iff xs).mpr h)]
    rfl
  · have finite := anyNonFinite_of_allFinite h
    obtain ⟨m, hm, hpeak⟩ := mem_detectorBins.mp (peakBin_mem _ (detectorBins_ne_nil hpos))
    have results := resultsAt_spec hlevel hlen2 hX m hm
    have index := resultsAt_maxIndex xs hmax m hm
    have meets := numDetect_implementation_meets hpos hmax finite
    rw [hpeak] at results index
    rw [numDetect_reference, detectReference_of_finite finite, index]
    obtain ⟨power_zero, power, avg_zero, avg, frac_zero, frac⟩ := results
    exact ⟨power_zero, power, avg_zero, avg, frac_zero, frac, meets⟩

end Sys2Proof.Machine
end

section
/-! PROOFS. The host's register window (spec/10_state.md R20 to R40): where its addresses lead, the steps of a register
read and of a register write, and the claims about CTRL, STATUS and CPC that follow. -/

namespace Sys2Proof.Machine

/-! The register window -/

theorem locate_eq_register (p : Params) (addr offset : Nat) :
    locate p addr = some (.register offset) ↔ addr = p.regBase + offset ∧ offset < 4096 := by
  unfold locate
  split
  · simp only [Option.some.injEq, Target.register.injEq]; omega
  · split <;> simp <;> omega

/-- A step whose turn is a word write of a register. -/
theorem step_writeRegister {s : State} {offset : Nat} {v : Word} {rest : List Turn}
    (h : s.turns = .write .word (s.params.regBase + offset) v :: rest) (hlt : offset < 4096) (hal : offset % 4 = 0) :
    step s = .next (writeRegister offset v { s with turns := rest }) := by
  rw [step_of_turn s _ rest h, takeTurn, hostWrite, (locate_eq_register ..).mpr ⟨rfl, hlt⟩]
  exact if_pos ⟨rfl, hal⟩

/-- A step whose turn is a word read of a register. -/
theorem step_readRegister {s : State} {offset : Nat} {rest : List Turn}
    (h : s.turns = .read .word (s.params.regBase + offset) :: rest) (hlt : offset < 4096) (hal : offset % 4 = 0) :
    step s = .next { s with turns := rest, hostData := some (readRegister offset { s with turns := rest }) } := by
  rw [step_of_turn s _ rest h, takeTurn, hostRead, (locate_eq_register ..).mpr ⟨rfl, hlt⟩]
  exact if_pos ⟨rfl, hal⟩

theorem writeRegister_ctrl (v : Word) (s : State) : writeRegister 4 v s = writeCtrl v s := rfl
theorem writeRegister_status (v : Word) (s : State) : writeRegister 8 v s = writeStatus v s := rfl
theorem writeRegister_cpc (v : Word) (s : State) : writeRegister 0xC v s = writeCpc v s := rfl

/-- Every other register is read-only or reserved. -/
theorem writeRegister_ignored {offset : Nat} (h : offset ∉ [0x4, 0x8, 0xC]) (v : Word) (s : State) :
    writeRegister offset v s = s := by
  simp only [List.mem_cons, List.not_mem_nil, or_false, not_or] at h
  obtain ⟨h4, h8, hC⟩ := h
  unfold writeRegister
  split
  · exact absurd rfl h4
  · exact absurd rfl h8
  · exact absurd rfl hC
  · rfl

/-! CTRL (R22, R23, R25) -/

theorem writeCtrl_go {v : Word} {s : State} (hgo : v.getLsbD 0 = true) (hsrst : v.getLsbD 2 = false)
    (hm : s.mode = .idle) (he : s.err = false) :
    writeCtrl v s = { s with ie := v.getLsbD 1, done := false, mode := .run } := by
  rcases writeCtrl_cases v s with ⟨h2, -⟩ | ⟨-, -, -, -, e⟩ | ⟨-, hno, -⟩
  · rw [hsrst] at h2; cases h2
  · exact e
  · exact absurd ⟨hgo, hm, he⟩ hno

theorem writeCtrl_ie {v : Word} {s : State} (hsrst : v.getLsbD 2 = false)
    (hno : ¬(v.getLsbD 0 = true ∧ s.mode = .idle ∧ s.err = false)) :
    writeCtrl v s = { s with ie := v.getLsbD 1 } := by
  rcases writeCtrl_cases v s with ⟨h2, -⟩ | ⟨-, hgo, hm, he, -⟩ | ⟨-, -, e⟩
  · rw [hsrst] at h2; cases h2
  · exact absurd ⟨hgo, hm, he⟩ hno
  · exact e

theorem writeCtrl_srst {v : Word} {s : State} (hsrst : v.getLsbD 2 = true) : writeCtrl v s = softReset s := by
  rw [writeCtrl, if_pos hsrst]

/-- Settles O15: with SRST out of the way, GO is accepted or only IE is written. -/
theorem ctrlWriteSetsIeAndGoStartsOrIsIgnored : Obligations.CtrlWriteSetsIeAndGoStartsOrIsIgnored := by
  intro s v rest h hsrst
  rw [step_writeRegister h (by decide) (by decide), writeRegister_ctrl]
  refine ⟨fun hgo hm he => ?_, fun _ hno => ?_, fun hgo => ?_⟩
  · rw [writeCtrl_go hgo hsrst (by exact hm) (by exact he)]
  · rw [writeCtrl_ie hsrst]
    rintro ⟨-, hm, he⟩
    rcases hno with hrun | herr
    · cases hm.symm.trans hrun
    · cases he.symm.trans herr
  · rw [writeCtrl_ie hsrst]
    rintro ⟨hgo', -⟩
    cases hgo.symm.trans hgo'

/-- Settles O16: SRST and the hardware reset are the reset values on top of what stays. -/
theorem resetsGiveEveryRegisterItsResetValue : Obligations.ResetsGiveEveryRegisterItsResetValue := by
  refine ⟨fun s v rest h hsrst => ?_, fun s rest h => ?_, rfl⟩
  · rw [step_writeRegister h (by decide) (by decide), writeRegister_ctrl, writeCtrl_srst hsrst]
    rfl
  · rw [step_of_turn s _ rest h]
    rfl

/-! STATUS and CPC (R26, R28) -/

theorem writeStatus_idle {s : State} (hm : s.mode = .idle) (v : Word) :
    writeStatus v s = { s with
      done := s.done && !v.getLsbD 1
      err := s.err && !v.getLsbD 2
      errCode := if v.getLsbD 2 then .none else s.errCode } := by
  rw [writeStatus, if_pos hm]
  cases v.getLsbD 1 <;> cases v.getLsbD 2 <;> simp [clearError]

theorem writeStatus_run {s : State} (hm : s.mode = .run) (v : Word) : writeStatus v s = s := by
  rw [writeStatus, if_neg (by rw [hm]; decide)]

theorem writeCpc_idle {s : State} (hm : s.mode = .idle) (v : Word) :
    writeCpc v s = { s with cpc := v &&& 0xFFFFFFFC } := by
  rw [writeCpc, if_pos hm]

theorem writeCpc_run {s : State} (hm : s.mode = .run) (v : Word) : writeCpc v s = s := by
  rw [writeCpc, if_neg (by rw [hm]; decide)]

/-- A word under the mask of CPC (spec/10_state.md R28) is the greatest multiple of 4 below it. -/
theorem toNat_and_cpcMask (v : Word) : (v &&& 0xFFFFFFFC).toNat = v.toNat / 4 * 4 := by
  have bit : ∀ i < 32, (0xFFFFFFFC#32).getLsbD i = decide (2 ≤ i) := by decide
  have mask : v &&& 0xFFFFFFFC#32 = v >>> 2 <<< 2 := by
    refine BitVec.eq_of_getLsbD_eq fun i hi => ?_
    rw [BitVec.getLsbD_and, bit i hi, BitVec.getLsbD_shiftLeft, BitVec.getLsbD_ushiftRight]
    by_cases low : 2 ≤ i
    · simp [hi, low, Nat.add_sub_cancel' low, show ¬ i < 2 by omega]
    · simp [low, show i < 2 by omega]
  have lt := v.isLt
  refine (congrArg BitVec.toNat mask).trans ?_
  rw [BitVec.toNat_shiftLeft, BitVec.toNat_ushiftRight, Nat.shiftLeft_eq, Nat.shiftRight_eq_div_pow]
  omega

/-- Settles O18: the rule of either register, while idle and while BUSY. -/
theorem statusAndCpcWritesActOnlyWhileIdle : Obligations.StatusAndCpcWritesActOnlyWhileIdle := by
  intro s v rest
  refine ⟨fun h => ?_, fun h => ?_⟩
  · rw [step_writeRegister h (by decide) (by decide), writeRegister_status]
    exact ⟨fun hm => by rw [writeStatus_idle (by exact hm)], fun hm => by rw [writeStatus_run (by exact hm)]⟩
  · rw [step_writeRegister h (by decide) (by decide), writeRegister_cpc]
    exact ⟨fun hm => ⟨_, by rw [writeCpc_idle (by exact hm)], rfl, toNat_and_cpcMask v⟩,
      fun hm => by rw [writeCpc_run (by exact hm)]⟩

/-- A run whose first step goes on is the run from there. -/
theorem run_succ_of_next (M : Host.Core) {s t : M.State} (k : Nat) (h : M.step s = .next t) :
    M.run (k + 1) s = M.run k t := by
  rw [Host.Core.run, h]

/-- Settles O22: the write of STATUS clears ERR, and so the GO of the second write is accepted. -/
theorem hostReturnsFromAnError : Obligations.HostReturnsFromAnError := by
  intro s v rest hm he h hgo hsrst
  have cleared : step s = .next { s with
      turns := .write .word (s.params.regBase + 4) v :: rest, err := false, errCode := .none } := by
    rw [step_writeRegister h (by decide) (by decide), writeRegister_status, writeStatus_idle (by exact hm)]
    simp
  have started := step_writeRegister (s := { s with
      turns := .write .word (s.params.regBase + 4) v :: rest, err := false, errCode := .none }) rfl
    (by decide) (by decide)
  rw [writeRegister_ctrl, writeCtrl_go hgo hsrst (by exact hm) rfl] at started
  exact (run_succ_of_next Sys2Proof.core 1 cleared).trans (run_succ_of_next Sys2Proof.core 0 started)

/-- Settles O23: raising and HALT set a flag, and the write of 6 clears both. -/
theorem interruptLevelFollowsDoneAndErr : Obligations.InterruptLevelFollowsDoneAndErr := by
  intro s
  refine ⟨rfl, fun e => by simp [State.irq], fun t ht => ?_, fun rest hm h => ?_⟩
  · rw [exec, execHalt, command_next, firstFailure_nil] at ht
    rcases ht with ⟨e, h, -⟩ | ⟨-, u, hu, rfl⟩
    · cases h
    · cases hu
      simp [State.irq]
  · refine ⟨_, step_writeRegister h (by decide) (by decide), ?_⟩
    rw [writeRegister_status, writeStatus_idle (by exact hm)]
    simp [State.irq]

/-! Leaving IDLE (spec/70_reset_and_hazards.md R317, R334) -/

theorem writeStatus_mode (v : Word) (s : State) : (writeStatus v s).mode = s.mode := by
  cases hm : s.mode with
  | idle => rw [writeStatus_idle hm]; exact hm
  | run => rw [writeStatus_run hm, hm]

theorem writeCpc_mode (v : Word) (s : State) : (writeCpc v s).mode = s.mode := by
  cases hm : s.mode with
  | idle => rw [writeCpc_idle hm]; exact hm
  | run => rw [writeCpc_run hm, hm]

/-- The one register write that starts a run. -/
theorem writeRegister_starts {offset : Nat} {v : Word} {s : State} (hm : s.mode = .idle)
    (hrun : (writeRegister offset v s).mode = .run) :
    offset = 4 ∧ s.err = false ∧ v.getLsbD 0 = true ∧ v.getLsbD 2 = false := by
  unfold writeRegister at hrun
  split at hrun
  · rcases writeCtrl_cases v s with ⟨-, e⟩ | ⟨h2, h0, -, he, -⟩ | ⟨-, -, e⟩
    · rw [e] at hrun; cases hrun
    · exact ⟨rfl, he, h0, h2⟩
    · rw [e] at hrun; cases hm.symm.trans hrun
  · rw [writeStatus_mode] at hrun; cases hm.symm.trans hrun
  · rw [writeCpc_mode] at hrun; cases hm.symm.trans hrun
  · cases hm.symm.trans hrun

/-- The one turn that takes an idle block to RUN. -/
theorem takeTurn_starts {turn : Turn} {s t : State} (hm : s.mode = .idle) (h : takeTurn turn s = .next t)
    (hrun : t.mode = .run) :
    s.err = false ∧ ∃ v : Word, turn = .write .word (s.params.regBase + 4) v ∧
      v.getLsbD 0 = true ∧ v.getLsbD 2 = false ∧ t = { s with ie := v.getLsbD 1, done := false, mode := .run } := by
  cases turn with
  | sequencer =>
    rw [takeTurn, sequencerMove_idle s hm] at h
    cases h
    cases hm.symm.trans hrun
  | read size addr =>
    obtain ⟨v, rfl⟩ := hostRead_next size addr s t h
    cases hm.symm.trans hrun
  | write size addr v =>
    rcases hostWrite_next size addr v s t h with ⟨offset, hl, -, rfl, rfl⟩ | ⟨a, -, -, -, -, rfl⟩
    · obtain ⟨rfl, he, h0, h2⟩ := writeRegister_starts hm hrun
      obtain ⟨rfl, -⟩ := (locate_eq_register ..).mp hl
      exact ⟨he, v, rfl, h0, h2, writeCtrl_go h0 h2 hm he⟩
    · cases hm.symm.trans hrun
  | abortingReset =>
    rcases abortingReset_next s t h with ⟨-, rfl⟩ | ⟨hm', -⟩
    · cases hrun
    · cases hm.symm.trans hm'
  | hardwareReset => cases h; cases hrun

/-- Settles O14: a step is a turn of one of the agents. -/
theorem onlyAnAcceptedGoStartsTheSequencer : Obligations.OnlyAnAcceptedGoStartsTheSequencer := by
  intro s t hm h hrun
  cases turns : s.turns with
  | nil =>
    rw [step_of_no_turns s turns, sequencerMove_idle s hm] at h
    cases h
    cases hm.symm.trans hrun
  | cons turn rest =>
    rw [step_of_turn s turn rest turns] at h
    obtain ⟨he, v, rfl, h0, h2, e⟩ := takeTurn_starts (s := { s with turns := rest }) hm h hrun
    exact ⟨he, v, rest, rfl, h0, h2, e⟩

/-! What the host reads (R20 to R40) -/

/-- A field above a low one that leaves its bits free. -/
theorem toNat_or_shiftLeft {x y : Word} {n : Nat} (hx : x.toNat < 2 ^ n) (hy : y.toNat * 2 ^ n < 2 ^ 32) :
    (x ||| y <<< n).toNat = x.toNat + 2 ^ n * y.toNat := by
  rw [BitVec.toNat_or, BitVec.toNat_shiftLeft, Nat.shiftLeft_eq, Nat.mod_eq_of_lt hy, Nat.or_comm, mul_comm y.toNat,
    ← Nat.two_pow_add_eq_or_of_lt hx, Nat.add_comm]

theorem toNat_bitWord (b : Bool) : (bitWord b).toNat = b.toNat := by cases b <;> rfl

theorem ctrlWord_toNat (s : State) : s.ctrlWord.toNat = 2 * s.ie.toNat := by
  unfold State.ctrlWord
  cases s.ie <;> rfl

theorem statusWord_toNat (s : State) : s.statusWord.toNat =
    (if s.mode = .run then 1 else 0) + 2 * s.done.toNat + 4 * s.err.toNat + 256 * s.errCode.code := by
  have busy : (bitWord (s.mode == .run)).toNat = if s.mode = .run then 1 else 0 := by cases s.mode <;> rfl
  have busy_lt : (if s.mode = .run then 1 else 0) < 2 := by split <;> decide
  have done_lt := Bool.toNat_lt s.done
  have err_lt := Bool.toNat_lt s.err
  have code_le : s.errCode.code ≤ 8 := by cases s.errCode <;> decide
  have code : (BitVec.ofNat 32 s.errCode.code).toNat = s.errCode.code := by rw [BitVec.toNat_ofNat]; omega
  have done := toNat_or_shiftLeft (x := bitWord (s.mode == .run)) (y := bitWord s.done) (n := 1)
    (by rw [busy]; omega) (by rw [toNat_bitWord]; omega)
  rw [busy, toNat_bitWord] at done
  have err := toNat_or_shiftLeft (y := bitWord s.err) (n := 2) (done.trans_lt (by omega)) (by rw [toNat_bitWord]; omega)
  rw [done, toNat_bitWord] at err
  rw [State.statusWord, toNat_or_shiftLeft (err.trans_lt (by omega)) (by rw [code]; omega), err, code]
  norm_num

theorem cfg_word_toNat (c : Cfg) :
    c.word.toNat = c.sf.toNat + 16 * c.ppm.toNat + 256 * c.ovsm1.toNat + 2 ^ 31 * c.valid.toNat := by
  have sf_lt := c.sf.isLt
  have ppm_lt := c.ppm.isLt
  have ovsm1_lt := c.ovsm1.isLt
  have valid_lt := Bool.toNat_lt c.valid
  have sf : (c.sf.setWidth 32).toNat = c.sf.toNat := BitVec.toNat_setWidth_of_le (by decide)
  have ppm : (c.ppm.setWidth 32).toNat = c.ppm.toNat := BitVec.toNat_setWidth_of_le (by decide)
  have ovsm1 : (c.ovsm1.setWidth 32).toNat = c.ovsm1.toNat := BitVec.toNat_setWidth_of_le (by decide)
  have low := toNat_or_shiftLeft (x := c.sf.setWidth 32) (y := c.ppm.setWidth 32) (n := 4)
    (by rw [sf]; omega) (by rw [ppm]; omega)
  rw [sf, ppm] at low
  have mid := toNat_or_shiftLeft (y := c.ovsm1.setWidth 32) (n := 8) (low.trans_lt (by omega)) (by rw [ovsm1]; omega)
  rw [low, ovsm1] at mid
  rw [Cfg.word, toNat_or_shiftLeft (mid.trans_lt (by omega)) (by rw [toNat_bitWord]; omega), mid, toNat_bitWord]
  norm_num

/-- The two halves of a whitening register. -/
theorem halves_toNat (r : BitVec 64) :
    (r.setWidth 32).toNat = r.toNat % 2 ^ 32 ∧ ((r >>> 32).setWidth 32).toNat = r.toNat / 2 ^ 32 := by
  have lt := r.isLt
  rw [BitVec.toNat_setWidth, BitVec.toNat_setWidth, BitVec.toNat_ushiftRight, Nat.shiftRight_eq_div_pow]
  exact ⟨rfl, Nat.mod_eq_of_lt (by omega)⟩

theorem eq_ofNat_of_toNat {w : Word} {n : Nat} (h : w.toNat = n) : w = BitVec.ofNat 32 n := by
  rw [← h, BitVec.ofNat_toNat, BitVec.setWidth_eq]

/-- From offset 0x50 on every offset is reserved. -/
theorem readRegister_reserved {offset : Nat} (h : 0x50 ≤ offset) (s : State) : readRegister offset s = 0 := by
  unfold readRegister
  split
  any_goals omega
  rfl

/-- Settles O19: one fact about each register, and the two rules for the rest of the window. -/
theorem hostReadsTheRegisterMap : Obligations.HostReadsTheRegisterMap := by
  intro s rest
  refine ⟨?_, fun offset low hlt hal h => ?_, fun offset v hlt hal hno h => ?_⟩
  · have reads {offset n : Nat} (hlt : offset < 4096 ∧ offset % 4 = 0)
        (hr : readRegister offset { s with turns := rest } = BitVec.ofNat 32 n)
        (h : s.turns = .read .word (s.params.regBase + offset) :: rest) :
        step s = .next { s with turns := rest, hostData := some (BitVec.ofNat 32 n) } := by
      rw [step_readRegister h hlt.1 hlt.2, hr]
    have field {offset n : Nat} (hlt : offset < 4096 ∧ offset % 4 = 0)
        (hr : (readRegister offset { s with turns := rest }).toNat = n) := reads hlt (eq_ofNat_of_toNat hr)
    obtain ⟨r0_low, r0_high⟩ := halves_toNat s.wh.r0
    obtain ⟨r1_low, r1_high⟩ := halves_toNat s.wh.r1
    have phase : (s.phase.setWidth 32).toNat = s.phase.toNat := BitVec.toNat_setWidth_of_le (by decide)
    have dmax : (s.det.maxIndex.setWidth 32).toNat = s.det.maxIndex.toNat := BitVec.toNat_setWidth_of_le (by decide)
    simp only [List.forall_mem_cons]
    exact ⟨field (by decide) rfl, field (by decide) (ctrlWord_toNat _), field (by decide) (statusWord_toNat _),
      field (by decide) rfl, field (by decide) rfl, field (by decide) (cfg_word_toNat _), field (by decide) rfl,
      field (by decide) phase, field (by decide) dmax, field (by decide) rfl, field (by decide) rfl,
      field (by decide) rfl, field (by decide) rfl, field (by decide) rfl, field (by decide) r0_low,
      field (by decide) r0_high, field (by decide) r1_low, field (by decide) r1_high,
      field (by decide) (toNat_bitWord _), reads (by decide) rfl, List.forall_mem_nil _⟩
  · rw [step_readRegister h hlt hal, readRegister_reserved low]
  · rw [step_writeRegister h hlt hal, writeRegister_ignored hno]

end Sys2Proof.Machine
end

section
/-! PROOFS. The invariant of every run (spec/10_state.md R26 to R31; spec/20_memory.md R60): what each update of the
state needs to keep it, then the commands, and the turns of both agents. -/

namespace Sys2Proof.Machine

/-! The invariant -/

/-- The invariant of every run, part by part. -/
structure Invariant (s : State) : Prop where
  params : s.params.legal = true
  cfg : cfgLegal s.cfg = true
  phase : phaseLegal s = true
  flags : flagsLegal s = true
  pointers : pointersAligned s = true
  ampl : amplFinite s = true
  memory : memoryLegal s = true

theorem invariant_iff (s : State) : invariant s = true ↔ Invariant s := by
  simp only [invariant, Bool.and_eq_true]
  exact ⟨fun ⟨⟨⟨⟨⟨⟨params, cfg⟩, phase⟩, flags⟩, pointers⟩, ampl⟩, memory⟩ =>
      ⟨params, cfg, phase, flags, pointers, ampl, memory⟩,
    fun h => ⟨⟨⟨⟨⟨⟨h.params, h.cfg⟩, h.phase⟩, h.flags⟩, h.pointers⟩, h.ampl⟩, h.memory⟩⟩

theorem flagsLegal_iff (s : State) :
    flagsLegal s = true ↔ (s.done = true → s.err = false) ∧ (s.mode = .run → s.done = false ∧ s.err = false) ∧
      (s.err = true ↔ s.errCode ≠ .none) := by
  cases hm : s.mode <;> cases hd : s.done <;> cases he : s.err <;> simp [flagsLegal, hm, hd, he]

theorem pointersAligned_iff (s : State) :
    pointersAligned s = true ↔ s.cpc.toNat % 4 = 0 ∧ s.errPc.toNat % 4 = 0 := by
  simp [pointersAligned]

theorem memoryLegal_iff (s : State) :
    memoryLegal s = true ↔ s.lmem.wf = true ∧ ∀ c ∈ s.lmem, c.1 < s.params.lmemBytes := by
  simp [memoryLegal]

/-- While BUSY no flag is set. -/
theorem Invariant.running {s : State} (h : Invariant s) (hm : s.mode = .run) :
    s.done = false ∧ s.err = false ∧ s.errCode = .none := by
  obtain ⟨-, run, code⟩ := (flagsLegal_iff s).mp h.flags
  obtain ⟨hd, he⟩ := run hm
  exact ⟨hd, he, by simpa [he] using code⟩

/-! What keeps it -/

theorem Invariant.raise {s : State} (h : Invariant s) (hm : s.mode = .run) {e : ErrCode} (he : e ≠ .none) :
    Invariant (raise e s) where
  __ := h
  flags := (flagsLegal_iff _).mpr (by simp [(h.running hm).1, he])
  pointers := by
    obtain ⟨cpc, -⟩ := (pointersAligned_iff s).mp h.pointers
    exact (pointersAligned_iff _).mpr ⟨cpc, cpc⟩

theorem Invariant.advance {s : State} (h : Invariant s) (len : Nat) : Invariant (advance len s) where
  __ := h
  pointers := by
    obtain ⟨cpc, errPc⟩ := (pointersAligned_iff s).mp h.pointers
    refine (pointersAligned_iff _).mpr ⟨?_, errPc⟩
    rw [advance_cpc, BitVec.toNat_add, BitVec.toNat_ofNat]
    omega

/-- LMEM stays legal under a write of a region that lies in it. -/
theorem Invariant.storeU8s {s : State} (h : Invariant s) {a len : Nat} {bs : List Byte}
    (fits : (inBounds s a len).holds = true) (hlen : bs.length ≤ len) : Invariant (storeU8s a bs s) where
  __ := h
  memory := by
    obtain ⟨wf, below⟩ := (memoryLegal_iff s).mp h.memory
    refine (memoryLegal_iff _).mpr ⟨wf_writeBytes _ _ _ wf, fun c hc => ?_⟩
    rcases mem_writeBytes _ _ _ c hc with inside | old
    · have region : len = 0 ∨ a + len ≤ s.params.lmemBytes := of_decide_eq_true fits
      rw [storeU8s_params]
      omega
    · exact below c old

theorem Invariant.storeU16s {s : State} (h : Invariant s) {a len : Nat} {vs : List Symbol}
    (fits : (inBounds s a len).holds = true) (hlen : 2 * vs.length ≤ len) : Invariant (storeU16s a vs s) :=
  h.storeU8s fits (by rwa [length_flatMap_uniform symbolBytes 2 length_symbolBytes])

theorem Invariant.storeSamples {s : State} (h : Invariant s) {a len : Nat} {xs : List Sample}
    (fits : (inBounds s a len).holds = true) (hlen : 8 * xs.length ≤ len) : Invariant (storeSamples a xs s) :=
  h.storeU8s fits (by rwa [length_flatMap_uniform sampleBytes 8 length_sampleBytes])

theorem Invariant.reset : Invariant State.reset where
  params := rfl
  cfg := rfl
  phase := rfl
  flags := rfl
  pointers := rfl
  ampl := by decide
  memory := rfl

theorem Invariant.softReset {s : State} (h : Invariant s) : Invariant (softReset s) :=
  { Invariant.reset with params := h.params, memory := h.memory }

theorem Invariant.hardwareReset {s : State} (h : Invariant s) : Invariant (hardwareReset s) where
  __ := h.softReset
  memory := rfl

/-! P and its modulus (spec/10_state.md R31) -/

/-- U is positive and at most 2^28, so PHASE holds every phase. -/
theorem u_bounds {c : Cfg} (h : cfgLegal c = true) (hv : c.valid = true) : 0 < c.u ∧ c.u ≤ 2 ^ 28 := by
  simp only [cfgLegal, hv, if_true, Bool.and_eq_true, decide_eq_true_eq] at h
  obtain ⟨⟨⟨-, sf⟩, -⟩, -⟩ := h
  refine ⟨by unfold Cfg.u Cfg.n Cfg.ovs; positivity, ?_⟩
  calc c.u ≤ 2 ^ 12 * (2 ^ 8) ^ 2 :=
        Nat.mul_le_mul (Nat.pow_le_pow_right (by decide) sf) (Nat.pow_le_pow_left c.ovsm1.isLt 2)
    _ = 2 ^ 28 := by norm_num

theorem phaseLegal_of_valid {s : State} (hv : s.cfg.valid = true) :
    phaseLegal s = true ↔ s.phase.toNat < s.cfg.u := by
  rw [phaseLegal, if_pos hv, decide_eq_true_eq]
  rfl

theorem Invariant.setPhase {s : State} (h : Invariant s) (hv : s.cfg.valid = true) {p : Nat} (hp : p < s.cfg.u) :
    Invariant { s with phase := BitVec.ofNat 28 p } where
  __ := h
  phase := by
    have bound := (u_bounds h.cfg hv).2
    refine (phaseLegal_of_valid (by exact hv)).mpr ?_
    rw [BitVec.toNat_ofNat, Nat.mod_eq_of_lt (hp.trans_le bound)]
    exact hp

/-- A chirp ends at a phase below U. -/
theorem chirpEnd_lt (c : Cfg) (d : Direction) (fbin len p : Nat) (hp : p < c.u) : chirpEnd c d fbin len p < c.u := by
  have step_lt (i q : Nat) : chirpStep c d fbin i q < c.u := by
    unfold chirpStep
    have pos : (0 : Int) < c.u := by omega
    have := Int.emod_lt_of_pos ((q : Int) + d.sign * chirpFrequency c fbin i) pos
    have := Int.emod_nonneg ((q : Int) + d.sign * chirpFrequency c fbin i) pos.ne'
    omega
  have last_lt (i : Nat) : (chirpPhases c d fbin len i p).getLastD p < c.u := by
    induction len generalizing i p with
    | zero => exact hp
    | succ len ih =>
      rw [chirpPhases, List.getLastD_cons]
      exact ih _ (step_lt i p) (i + 1)
  exact last_lt 0

/-! The perform phases -/

theorem Invariant.mapSymbols {s u : State} (h : Invariant s) {f : Symbol → Symbol} {dst src count : Nat}
    (fits : (inBounds s dst (2 * count)).holds = true) (hu : mapSymbols f dst src count s = .ok u) : Invariant u := by
  obtain ⟨xs, hxs, rfl⟩ := (mapSymbols_ok ..).mp hu
  exact h.storeU16s fits (by rw [List.length_map, (loadU16s_ok _ _ _ _ hxs).1])

theorem Invariant.encodeArray {s u : State} (h : Invariant s) {enc : BitVec 4 → Byte} {dst src count : Nat}
    (fits : (inBounds s dst count).holds = true) (hu : encodeArray enc dst src count s = .ok u) : Invariant u := by
  obtain ⟨bs, hbs, rfl⟩ := (encodeArray_ok ..).mp hu
  exact h.storeU8s fits (by rw [List.length_map, ((readBytes_eq_ok ..).mp hbs).1])

/-- FERR and FBAD are free. -/
theorem Invariant.decodeArray {s u : State} (h : Invariant s) {dec : Byte → Nibble} {dst src count : Nat}
    (fits : (inBounds s dst count).holds = true) (hu : decodeArray dec dst src count s = .ok u) : Invariant u := by
  obtain ⟨bs, hbs, rfl⟩ := (decodeArray_ok ..).mp hu
  have stored : Invariant (Machine.storeU8s dst ((bs.map dec).map Nibble.byte) s) :=
    h.storeU8s fits (by rw [List.length_map, List.length_map, ((readBytes_eq_ok ..).mp hbs).1])
  exact { stored with }

/-- The whitener is free. -/
theorem Invariant.whitenArray {s u : State} (h : Invariant s) {w : Whitener} {rdd dst src count bitofs : Nat}
    (fits : (inBounds s dst count).holds = true) (hu : whitenArray w rdd dst src count bitofs s = .ok u) :
    Invariant u := by
  obtain ⟨bs, hbs, rfl⟩ := (whitenArray_ok ..).mp hu
  have stored := h.storeU8s (bs := List.zipWith (fun b k => b ^^^ (k &&& keyMask rdd)) bs
    ((w.skip bitofs).keys count)) fits (by simp)
  exact { stored with }

theorem Invariant.interleaveArray {s u : State} (h : Invariant s) {w p nb dst src : Nat}
    (fits : (inBounds s dst (2 * nb * w)).holds = true) (hu : interleaveArray w p nb dst src s = .ok u) :
    Invariant u := by
  obtain ⟨cw, -, rfl⟩ := (interleaveArray_ok ..).mp hu
  exact h.storeU16s fits (by rw [length_mapBlocks _ w p nb (length_interleaveBlock w p), Nat.mul_assoc])

theorem Invariant.deinterleaveArray {s u : State} (h : Invariant s) {w p nb dst src : Nat}
    (fits : (inBounds s dst (nb * p)).holds = true) (hu : deinterleaveArray w p nb dst src s = .ok u) :
    Invariant u := by
  obtain ⟨sym, -, rfl⟩ := (deinterleaveArray_ok ..).mp hu
  exact h.storeU8s fits (by rw [length_mapBlocks _ p w nb (length_deinterleaveBlock w p)])

/-- A chirp leaves a phase below U, and a configuration is there to say so. -/
theorem Invariant.chirpArray {s u : State} (h : Invariant s) {d : Direction} {fbin dst len : Nat}
    (hv : s.cfg.valid = true) (fits : (inBounds s dst (8 * len)).holds = true)
    (hu : chirpArray d fbin dst len s = .ok u) : Invariant u := by
  rw [chirpArray_ok] at hu
  cases hu
  have phase : s.phase.toNat < s.cfg.u := (phaseLegal_of_valid hv).mp h.phase
  have stored := h.storeSamples (xs := (chirpPhases s.cfg d fbin len 0 s.phase.toNat).map fun q =>
    numCis s.params.num s.ampl q s.cfg.u) fits (by simp)
  exact stored.setPhase hv (chirpEnd_lt s.cfg d fbin len _ phase)

theorem Invariant.mixArray {s u : State} (h : Invariant s) {f : Sample → Sample} {dst srca srcb count : Nat}
    (fits : (inBounds s dst (8 * count)).holds = true) (hu : mixArray f dst srca srcb count s = .ok u) :
    Invariant u := by
  obtain ⟨xs, ys, hxs, -, rfl⟩ := (mixArray_ok ..).mp hu
  have length := (loadSamples_ok _ _ _ _ hxs).1
  exact h.storeSamples fits (by rw [List.length_zipWith]; omega)

/-- The result registers are free. -/
theorem Invariant.detectAt {s u : State} (h : Invariant s) {src : Nat} (hu : detectAt src s = .ok u) :
    Invariant u := by
  obtain ⟨xs, -, rfl⟩ := (detectAt_ok ..).mp hu
  exact { h with }

theorem Invariant.detectStore {s u : State} (h : Invariant s) {dst src : Nat}
    (fits : (inBounds s dst 16).holds = true) (hu : detectStore dst src s = .ok u) : Invariant u := by
  obtain ⟨v, hv, rfl⟩ := (detectStore_ok ..).mp hu
  have params := detectAt_keeps_params src s v hv
  refine (h.detectAt hv).storeU8s (len := 16) ?_ (by rw [length_recordBytes])
  rwa [inBounds, params]

/-- A legal SETCFG (spec/40_control.md R122): the effective PPM lies between 1 and SF, and P = 0 is below U. -/
theorem Invariant.setCfg {s : State} (h : Invariant s) {sf ppm ovsm1 : Nat} (hsf : 7 ≤ sf ∧ sf ≤ 12) (hppm : ppm ≤ sf) :
    Invariant { s with
      cfg := ⟨true, BitVec.ofNat 4 sf, BitVec.ofNat 4 (effectivePpm sf ppm), BitVec.ofNat 8 ovsm1⟩, phase := 0 } := by
  obtain ⟨low, high⟩ := hsf
  have ppm_pos : 1 ≤ effectivePpm sf ppm := by unfold effectivePpm; split <;> omega
  have ppm_le : effectivePpm sf ppm ≤ sf := by unfold effectivePpm; split <;> omega
  have legal : cfgLegal ⟨true, BitVec.ofNat 4 sf, BitVec.ofNat 4 (effectivePpm sf ppm), BitVec.ofNat 8 ovsm1⟩ = true := by
    simp only [cfgLegal, if_true, Bool.and_eq_true, decide_eq_true_eq, BitVec.toNat_ofNat]
    omega
  exact { h with
    cfg := legal
    phase := (phaseLegal_of_valid rfl).mpr (u_bounds legal rfl).1 }

/-- A finite AMPL, as SETAMPL checks it and as the invariant says it. -/
theorem Invariant.setAmpl {s : State} (h : Invariant s) {w : Word} (hw : nonFinite w = false) :
    Invariant { s with ampl := w } where
  __ := h
  ampl := by
    have field : w.toNat / 2 ^ 23 % 2 ^ 8 = ((w >>> 23).setWidth 8).toNat := by
      rw [BitVec.toNat_setWidth, BitVec.toNat_ushiftRight, Nat.shiftRight_eq_div_pow]
    rw [nonFinite, beq_eq_false_iff_ne, ne_eq, ← BitVec.toNat_inj, ← field] at hw
    exact bne_iff_ne.mpr hw

theorem Invariant.halt {s : State} (h : Invariant s) (hm : s.mode = .run) :
    Invariant { s with done := true, mode := .idle } where
  __ := h
  flags := by
    obtain ⟨-, err, code⟩ := h.running hm
    exact (flagsLegal_iff _).mpr (by simp [err, code])

/-! Commands -/

/-- A command keeps the invariant where its checks raise errors and its perform phase, once they hold, keeps it. -/
theorem Invariant.command {len : Nat} {cs : List Check} {perform : State → Except Fault State} {s t : State}
    (h : Invariant s) (hm : s.mode = .run) (herr : ∀ c ∈ cs, c.err ≠ .none)
    (hp : (∀ c ∈ cs, c.holds = true) → ∀ u, perform s = .ok u → Invariant u)
    (ht : command len cs perform s = .next t) : Invariant t := by
  rcases (command_next ..).mp ht with ⟨e, fails, rfl⟩ | ⟨passes, u, hu, rfl⟩
  · obtain ⟨pre, c, post, rfl, -, -, rfl⟩ := (firstFailure_eq_some cs e).mp fails
    exact h.raise hm (herr c (by simp))
  · exact (hp ((firstFailure_eq_none cs).mp passes) u hu).advance len

theorem Invariant.exec {i : Instr} {s t : State} (h : Invariant s) (hm : s.mode = .run) (ht : exec i s = .next t) :
    Invariant t := by
  cases i with
  | nop =>
    rw [Machine.exec, execNop] at ht
    exact h.command hm (by simp) (fun _ u hu => by cases hu; exact h) ht
  | halt =>
    rw [Machine.exec, execHalt] at ht
    exact h.command hm (by simp) (fun _ u hu => by cases hu; exact h.halt hm) ht
  | setcfg sf ppm ovsm1 =>
    rw [Machine.exec, execSetcfg] at ht
    refine h.command hm (by simp) (fun hc u hu => ?_) ht
    cases hu
    simp only [List.forall_mem_cons, decide_eq_true_eq] at hc
    obtain ⟨hsf, hppm, -⟩ := hc
    exact h.setCfg hsf hppm
  | setampl w =>
    rw [Machine.exec, execSetampl] at ht
    refine h.command hm (by simp [inRange]) (fun hc u hu => ?_) ht
    cases hu
    exact h.setAmpl (by simpa [inRange] using hc)
  | setphase p =>
    rw [Machine.exec, execSetphase] at ht
    refine h.command hm (by simp [cfgValid, inRange]) (fun hc u hu => ?_) ht
    cases hu
    obtain ⟨hv, hp⟩ : s.cfg.valid = true ∧ p < s.cfg.u := by simpa [cfgValid, inRange] using hc
    exact h.setPhase hv hp
  | clrstat =>
    rw [Machine.exec, execClrstat] at ht
    exact h.command hm (by simp) (fun _ u hu => by cases hu; exact { h with }) ht
  | gray dst src count | igray dst src count =>
    exact h.command hm (by simp [symbolChecks, aligned, inBounds])
      (fun hc u hu => h.mapSymbols (hc (inBounds s dst (2 * count)) (by simp [symbolChecks])) hu) ht
  | symrx dst src count | symtx dst src count =>
    exact h.command hm (by simp [symbolChecks, cfgValid, aligned, inBounds])
      (fun hc u hu => h.mapSymbols (hc (inBounds s dst (2 * count)) (by simp [symbolChecks])) hu) ht
  | fencRaw dst src count | fencP54 dst src count | fencP64 dst src count | fencH74 dst src count
  | fencH84 dst src count =>
    exact h.command hm (by simp [byteChecks, inBounds])
      (fun hc u hu => h.encodeArray (hc (inBounds s dst count) (by simp [byteChecks])) hu) ht
  | fdecRaw dst src count | fdecP54 dst src count | fdecP64 dst src count | fdecH74 dst src count
  | fdecH84 dst src count =>
    exact h.command hm (by simp [byteChecks, inBounds])
      (fun hc u hu => h.decodeArray (hc (inBounds s dst count) (by simp [byteChecks])) hu) ht
  | whiten rdd dst src count | whitenC rdd dst src count =>
    exact h.command hm (by simp [whitenChecks, rddLegal, inRange, inBounds])
      (fun hc u hu => h.whitenArray (hc (inBounds s dst count) (by simp [whitenChecks])) hu) ht
  | ilv rdd dst src ncw =>
    exact h.command hm (by simp [cfgValid, rddLegal, inRange, aligned, inBounds])
      (fun hc u hu => h.interleaveArray (hc (inBounds s dst _) (by simp)) hu) ht
  | dilv rdd dst src nsym =>
    exact h.command hm (by simp [cfgValid, rddLegal, inRange, aligned, inBounds])
      (fun hc u hu => h.deinterleaveArray (hc (inBounds s dst _) (by simp)) hu) ht
  | chirpUp fbin dst len | chirpDn fbin dst len =>
    exact h.command hm (by simp [chirpChecks, cfgValid, inRange, aligned, inBounds])
      (fun hc u hu => h.chirpArray (hc (cfgValid s) (by simp [chirpChecks]))
        (hc (inBounds s dst (8 * len)) (by simp [chirpChecks])) hu) ht
  | mix dst srca srcb count | mixC dst srca srcb count =>
    exact h.command hm (by simp [mixChecks, aligned, inBounds])
      (fun hc u hu => h.mixArray (hc (inBounds s dst (8 * count)) (by simp [mixChecks])) hu) ht
  | detect ignored src =>
    exact h.command hm (by simp [cfgValid, aligned, inBounds]) (fun _ u hu => h.detectAt hu) ht
  | detectS dst src =>
    exact h.command hm (by simp [cfgValid, aligned, inBounds])
      (fun hc u hu => h.detectStore (hc (inBounds s dst 16) (by simp)) hu) ht

/-! Turns and steps -/

/-- A fetch raises an error by name. -/
theorem fetch_raises_ne_none {s : State} {e : ErrCode} (h : fetch s = .raises e) : e ≠ .none := by
  have reject (r : Reject) : Reject.errCode r ≠ .none := by cases r <;> decide
  unfold fetch at h
  split at h
  · cases h; decide
  · split at h
    · cases h
    · unfold fetchOperands at h
      split at h
      · cases h; exact reject _
      · split at h
        · cases h; decide
        · split at h
          · cases h
          · split at h
            · cases h; exact reject _
            · cases h

theorem Invariant.runCommand {s t : State} (h : Invariant s) (hm : s.mode = .run) (ht : runCommand s = .next t) :
    Invariant t := by
  rcases runCommand_cases s with ⟨e, he, hr⟩ | ⟨f, -, hr⟩ | ⟨i, -, hr⟩
  · rw [hr] at ht; cases ht; exact h.raise hm (fetch_raises_ne_none he)
  · rw [hr] at ht; cases ht
  · exact h.exec hm (hr ▸ ht)

theorem Invariant.sequencerMove {s t : State} (h : Invariant s) (ht : sequencerMove s = .next t) : Invariant t := by
  cases hm : s.mode with
  | idle => rw [sequencerMove_idle s hm] at ht; cases ht; exact h
  | run => exact h.runCommand hm (sequencerMove_run s hm ▸ ht)

theorem Invariant.writeCtrl {s : State} (h : Invariant s) (v : Word) : Invariant (writeCtrl v s) := by
  rcases writeCtrl_cases v s with ⟨-, e⟩ | ⟨-, -, -, err, e⟩ | ⟨-, -, e⟩
  · rw [e]; exact h.softReset
  · rw [e]
    obtain ⟨-, -, code⟩ := (flagsLegal_iff s).mp h.flags
    exact { h with flags := (flagsLegal_iff _).mpr ⟨fun _ => err, fun _ => ⟨rfl, err⟩, code⟩ }
  · rw [e]; exact { h with }

/-- Clearing a flag keeps DONE and ERR exclusive, and ERRCODE with ERR. -/
theorem Invariant.writeStatus {s : State} (h : Invariant s) (v : Word) : Invariant (writeStatus v s) := by
  cases hm : s.mode with
  | idle =>
    rw [writeStatus_idle hm]
    obtain ⟨exclusive, -, code⟩ := (flagsLegal_iff s).mp h.flags
    refine { h with flags := (flagsLegal_iff _).mpr ⟨fun hd => ?_, fun run => (nomatch hm.symm.trans run), ?_⟩ }
    · obtain ⟨done, -⟩ := (Bool.and_eq_true _ _).mp hd
      rw [exclusive done, Bool.false_and]
    · cases v.getLsbD 2 <;> simp [code]
  | run => rwa [writeStatus_run hm]

theorem Invariant.writeCpc {s : State} (h : Invariant s) (v : Word) : Invariant (writeCpc v s) := by
  cases hm : s.mode with
  | idle =>
    rw [writeCpc_idle hm]
    obtain ⟨-, errPc⟩ := (pointersAligned_iff s).mp h.pointers
    have cpc : (v &&& 0xFFFFFFFC).toNat % 4 = 0 := by rw [toNat_and_cpcMask, Nat.mul_mod_left]
    exact { h with pointers := (pointersAligned_iff _).mpr ⟨cpc, errPc⟩ }
  | run => rwa [writeCpc_run hm]

theorem Invariant.writeRegister {s : State} (h : Invariant s) (offset : Nat) (v : Word) :
    Invariant (writeRegister offset v s) := by
  unfold Machine.writeRegister
  split
  · exact h.writeCtrl v
  · exact h.writeStatus v
  · exact h.writeCpc v
  · exact h

/-- A blend keeps some of the new memory's addresses, in their order. -/
theorem blend_addresses (abort : Nat) (old new : Memory) :
    ((blend abort old new).map (·.1)).Sublist (new.map (·.1)) := by
  induction new with
  | nil => exact List.Sublist.refl _
  | cons c new ih =>
    rw [blend, List.filterMap_cons]
    split
    · exact ih.cons _
    · next d e =>
      have address : d.1 = c.1 := by
        split at e
        · cases e; rfl
        · obtain ⟨b, -, rfl⟩ := Option.map_eq_some_iff.mp e; rfl
      rw [List.map_cons, List.map_cons, address]
      exact ih.cons_cons _

theorem wf_blend (abort : Nat) (old : Memory) {new : Memory} (h : new.wf = true) : (blend abort old new).wf = true := by
  rw [wf_iff_pairwise] at *
  exact List.pairwise_map.mp ((List.pairwise_map.mpr h).sublist (blend_addresses abort old new))

theorem Invariant.abortingReset {s t : State} (h : Invariant s) (ht : abortingReset s = .next t) : Invariant t := by
  rcases abortingReset_next s t ht with ⟨-, rfl⟩ | ⟨hm, u, hu, rfl⟩
  · exact h.softReset
  · obtain ⟨wf, below⟩ := (memoryLegal_iff u).mp (h.runCommand hm hu).memory
    refine { h.softReset with memory := (memoryLegal_iff _).mpr ⟨wf_blend _ _ wf, fun c hc => ?_⟩ }
    obtain ⟨d, hd, e⟩ := List.mem_map.mp ((blend_addresses _ _ _).subset (List.mem_map_of_mem hc))
    have := below d hd
    rwa [runCommand_keeps_params s u hu, e] at this

theorem Invariant.takeTurn {turn : Turn} {s t : State} (h : Invariant s) (ht : takeTurn turn s = .next t) :
    Invariant t := by
  cases turn with
  | sequencer => exact h.sequencerMove ht
  | read size addr => obtain ⟨v, rfl⟩ := hostRead_next size addr s t ht; exact { h with }
  | write size addr v =>
    rcases hostWrite_next size addr v s t ht with ⟨offset, -, -, -, rfl⟩ | ⟨a, -, -, -, fits, rfl⟩
    · exact h.writeRegister offset v
    · exact h.storeU8s (len := size.bytes) (decide_eq_true (.inr fits)) (by rw [length_leBytes])
  | abortingReset => exact h.abortingReset ht
  | hardwareReset => cases ht; exact h.hardwareReset

/-- Settles O10: a step is a turn of one of the agents. -/
theorem stepKeepsTheInvariant : Obligations.StepKeepsTheInvariant := by
  intro s t hs ht
  rw [invariant_iff] at *
  cases turns : s.turns with
  | nil => exact hs.sequencerMove (step_of_no_turns s turns ▸ ht)
  | cons turn rest =>
    rw [step_of_turn s turn rest turns] at ht
    exact Invariant.takeTurn (s := { s with turns := rest }) { hs with } ht

/-- Settles O11: each part of the invariant is a fact about the reset values. -/
theorem resetMeetsTheInvariant : Obligations.ResetMeetsTheInvariant := (invariant_iff _).mpr Invariant.reset

end Sys2Proof.Machine
end

section
/-! PROOFS. The orbits of the whitening registers (spec/42_whitening.md R195): key bytes step along them, fresh streams
and resets return to the seeds, and nothing else touches R0 and R1. -/

namespace Sys2Proof.Machine

/-! Orbits -/

theorem onOrbits_lfsrStep {a b r : BitVec 64} (h : onOrbits a b r) : onOrbits a b (lfsrStep r) := by
  obtain ⟨n, hn⟩ := h
  refine ⟨n + 1, ?_⟩
  rw [Function.iterate_succ_apply', Function.iterate_succ_apply']
  exact hn.imp (congrArg lfsrStep) (congrArg lfsrStep)

theorem whitenerOnOrbits_next {w : Whitener} (h : whitenerOnOrbits w) : whitenerOnOrbits w.next := by
  obtain ⟨h0, h1⟩ := h
  unfold Whitener.next
  split
  · exact ⟨h0, onOrbits_lfsrStep h1⟩
  · exact ⟨onOrbits_lfsrStep h0, h1⟩

theorem whitenerOnOrbits_after {w : Whitener} (h : whitenerOnOrbits w) (n : Nat) : whitenerOnOrbits (w.after n) := by
  induction n generalizing w with
  | zero => exact h
  | succ n ih => rw [after_succ]; exact ih (whitenerOnOrbits_next h)

theorem whitenerOnOrbits_seeds (rdd : Nat) : whitenerOnOrbits (seeds rdd) := by
  unfold seeds
  split
  · exact ⟨⟨0, .inr rfl⟩, ⟨0, .inr rfl⟩⟩
  · exact ⟨⟨0, .inl rfl⟩, ⟨0, .inl rfl⟩⟩

theorem whitenerOnOrbits_reset : whitenerOnOrbits State.reset.wh := whitenerOnOrbits_seeds 0

/-! Commands -/

/-- A command keeps to the orbits where its perform phase does. -/
theorem command_keeps_orbits {len : Nat} {cs : List Check} {perform : State → Except Fault State} {s t : State}
    (hs : whitenerOnOrbits s.wh) (hp : ∀ u, perform s = .ok u → whitenerOnOrbits u.wh)
    (h : command len cs perform s = .next t) : whitenerOnOrbits t.wh := by
  rcases (command_next ..).mp h with ⟨e, -, rfl⟩ | ⟨-, u, hu, rfl⟩
  · exact hs
  · exact hp u hu

theorem whitenArray_keeps_orbits {w : Whitener} (hw : whitenerOnOrbits w) {rdd dst src count bitofs : Nat}
    {s u : State} (h : whitenArray w rdd dst src count bitofs s = .ok u) : whitenerOnOrbits u.wh := by
  obtain ⟨bs, -, rfl⟩ := (whitenArray_ok ..).mp h
  exact whitenerOnOrbits_after (whitenerOnOrbits_after hw _) count

/-- WHITEN starts at the seeds and WHITEN.C goes on from the present stream; no other command touches R0 and R1. -/
theorem exec_keeps_orbits {i : Instr} {s t : State} (hs : whitenerOnOrbits s.wh) (h : exec i s = .next t) :
    whitenerOnOrbits t.wh := by
  cases i with
  | whiten => exact command_keeps_orbits hs (fun u hu => whitenArray_keeps_orbits (whitenerOnOrbits_seeds _) hu) h
  | whitenC => exact command_keeps_orbits hs (fun u hu => whitenArray_keeps_orbits hs hu) h
  | nop | halt | setcfg | setampl | setphase | clrstat =>
    simp only [exec, execNop, execHalt, execSetcfg, execSetampl, execSetphase, execClrstat] at h
    refine command_keeps_orbits hs (fun u hu => ?_) h
    cases hu; exact hs
  | gray | igray | symrx | symtx =>
    refine command_keeps_orbits hs (fun u hu => ?_) h
    obtain ⟨xs, -, rfl⟩ := (mapSymbols_ok ..).mp hu; exact hs
  | fencRaw | fencP54 | fencP64 | fencH74 | fencH84 =>
    refine command_keeps_orbits hs (fun u hu => ?_) h
    obtain ⟨bs, -, rfl⟩ := (encodeArray_ok ..).mp hu; exact hs
  | fdecRaw | fdecP54 | fdecP64 | fdecH74 | fdecH84 =>
    refine command_keeps_orbits hs (fun u hu => ?_) h
    obtain ⟨bs, -, rfl⟩ := (decodeArray_ok ..).mp hu; exact hs
  | ilv =>
    refine command_keeps_orbits hs (fun u hu => ?_) h
    obtain ⟨cw, -, rfl⟩ := (interleaveArray_ok ..).mp hu; exact hs
  | dilv =>
    refine command_keeps_orbits hs (fun u hu => ?_) h
    obtain ⟨sym, -, rfl⟩ := (deinterleaveArray_ok ..).mp hu; exact hs
  | chirpUp | chirpDn =>
    simp only [exec, execChirpUp, execChirpDn] at h
    refine command_keeps_orbits hs (fun u hu => ?_) h
    rw [chirpArray_ok] at hu; cases hu; exact hs
  | mix | mixC =>
    refine command_keeps_orbits hs (fun u hu => ?_) h
    obtain ⟨xs, ys, -, -, rfl⟩ := (mixArray_ok ..).mp hu; exact hs
  | detect =>
    refine command_keeps_orbits hs (fun u hu => ?_) h
    obtain ⟨xs, -, rfl⟩ := (detectAt_ok ..).mp hu; exact hs
  | detectS =>
    refine command_keeps_orbits hs (fun u hu => ?_) h
    obtain ⟨v, hv, rfl⟩ := (detectStore_ok ..).mp hu
    obtain ⟨xs, -, rfl⟩ := (detectAt_ok ..).mp hv; exact hs

/-! Turns and steps -/

theorem sequencerMove_keeps_orbits {s t : State} (hs : whitenerOnOrbits s.wh) (h : sequencerMove s = .next t) :
    whitenerOnOrbits t.wh := by
  cases hm : s.mode with
  | idle => rw [sequencerMove_idle s hm] at h; cases h; exact hs
  | run =>
    rw [sequencerMove_run s hm] at h
    rcases runCommand_cases s with ⟨e, -, hr⟩ | ⟨f, -, hr⟩ | ⟨i, -, hr⟩
    · rw [hr] at h; cases h; exact hs
    · rw [hr] at h; cases h
    · exact exec_keeps_orbits hs (hr ▸ h)

/-- A register write leaves the whitener, but for SRST. -/
theorem writeRegister_wh (offset : Nat) (v : Word) (s : State) :
    (writeRegister offset v s).wh = s.wh ∨ (writeRegister offset v s).wh = State.reset.wh := by
  unfold writeRegister
  split
  · rcases writeCtrl_cases v s with ⟨-, e⟩ | ⟨-, -, -, -, e⟩ | ⟨-, -, e⟩
    · rw [e]; exact .inr rfl
    · rw [e]; exact .inl rfl
    · rw [e]; exact .inl rfl
  · cases hm : s.mode with
    | idle => rw [writeStatus_idle hm]; exact .inl rfl
    | run => rw [writeStatus_run hm]; exact .inl rfl
  · cases hm : s.mode with
    | idle => rw [writeCpc_idle hm]; exact .inl rfl
    | run => rw [writeCpc_run hm]; exact .inl rfl
  · exact .inl rfl

theorem takeTurn_keeps_orbits {turn : Turn} {s t : State} (hs : whitenerOnOrbits s.wh) (h : takeTurn turn s = .next t) :
    whitenerOnOrbits t.wh := by
  cases turn with
  | sequencer => exact sequencerMove_keeps_orbits hs h
  | read size addr => obtain ⟨v, rfl⟩ := hostRead_next size addr s t h; exact hs
  | write size addr v =>
    rcases hostWrite_next size addr v s t h with ⟨offset, -, -, -, rfl⟩ | ⟨a, -, -, -, -, rfl⟩
    · rcases writeRegister_wh offset v s with e | e
      · rwa [e]
      · rw [e]; exact whitenerOnOrbits_reset
    · exact hs
  | abortingReset =>
    rcases abortingReset_next s t h with ⟨-, rfl⟩ | ⟨-, u, -, rfl⟩
    · exact whitenerOnOrbits_reset
    · exact whitenerOnOrbits_reset
  | hardwareReset => cases h; exact whitenerOnOrbits_reset

/-- Settles O13: the reset values are the seeds of a stream, and a step is a turn of one of the agents. -/
theorem whitenerStaysOnTheSeedOrbits : Obligations.WhitenerStaysOnTheSeedOrbits := by
  refine ⟨whitenerOnOrbits_reset, fun s t hs h => ?_⟩
  cases turns : s.turns with
  | nil => exact sequencerMove_keeps_orbits hs (step_of_no_turns s turns ▸ h)
  | cons turn rest =>
    rw [step_of_turn s turn rest turns] at h
    exact takeTurn_keeps_orbits (s := { s with turns := rest }) hs h

end Sys2Proof.Machine
end

section
/-! PROOFS. The five FDEC commands (spec/41_bitcodes.md R169, R180 to R184): the output byte and the saturating counters,
then one rule for all decoders. -/

namespace Sys2Proof.Machine

/-- The fields of the output byte as a number (spec/41_bitcodes.md R169). -/
theorem nibble_byte_eq (x : Nibble) :
    x.byte = BitVec.ofNat 8 (x.d.toNat + 16 * x.error.toNat + 32 * x.bad.toNat) := by
  have fields : ∀ (d : BitVec 4) (e b : Bool),
      Nibble.byte ⟨d, e, b⟩ = BitVec.ofNat 8 (d.toNat + 16 * e.toNat + 32 * b.toNat) := by decide
  exact fields x.d x.error x.bad

theorem toNat_satAdd (counter : Word) (n : Nat) : (satAdd counter n).toNat = min (counter.toNat + n) (2 ^ 32 - 1) := by
  rw [satAdd, BitVec.toNat_ofNat, Nat.mod_eq_of_lt (by omega)]

/-- The state after `count` bytes `bs` at SRC have been decoded to DST. -/
def decodedState (dec : Byte → Nibble) (dst : Nat) (bs : List Byte) (s : State) : State :=
  advance 4 (countOutcomes (bs.map dec) (storeU8s dst ((bs.map dec).map Nibble.byte) s))

/-- A decoder whose regions fit and whose source has been written completes. -/
theorem decode_completes (dec : Byte → Nibble) {s : State} {dst src count : Nat} {bs : List Byte}
    (hdst : Fits s dst count) (hsrc : Fits s src count) (hbs : s.lmem.readBytes src count = .ok bs) :
    command 4 (byteChecks dst src count s) (decodeArray dec dst src count) s = .next (decodedState dec dst bs s) :=
  command_completes _ _ _ _ _ (by simpa [byteChecks, inBounds] using ⟨hdst, hsrc⟩)
    ((decodeArray_ok ..).mpr ⟨bs, hbs, rfl⟩)

/-- The counters after a decoder. -/
theorem decodedState_counters (dec : Byte → Nibble) (dst : Nat) (bs : List Byte) (s : State) :
    (decodedState dec dst bs s).ferr.toNat = min (s.ferr.toNat + bs.countP (fun b => (dec b).error)) (2 ^ 32 - 1) ∧
      (decodedState dec dst bs s).fbad.toNat = min (s.fbad.toNat + bs.countP (fun b => (dec b).bad)) (2 ^ 32 - 1) := by
  rw [decodedState, advance_ferr, advance_fbad, countOutcomes_ferr, countOutcomes_fbad, toNat_satAdd, toNat_satAdd,
    List.countP_map, List.countP_map]
  exact ⟨rfl, rfl⟩

/-- The bytes after a decoder: the outcomes inside [DST, DST + COUNT), the old ones outside. -/
theorem decodedState_bytes (dec : Byte → Nibble) (dst : Nat) (bs : List Byte) (s : State) :
    SameOutside dst bs.length s (decodedState dec dst bs s) ∧
      ∀ (k : Nat) (hk : k < bs.length), ByteAt (decodedState dec dst bs s) (dst + k) (dec bs[k]).byte := by
  constructor
  · intro x hx
    exact readByte_writeBytes_outside _ _ _ _ (by simpa using hx)
  · intro k hk
    have := readByte_writeBytes_inside s.lmem dst ((bs.map dec).map Nibble.byte) k (by simpa using hk)
    simp only [List.getElem_map] at this
    exact this

/-- Settles O32: each FDEC command is the one rule with its own decoder. -/
theorem fdecWritesEveryNibbleAndCounts : Obligations.FdecWritesEveryNibbleAndCounts := by
  intro s dst src count hdst hsrc written
  obtain ⟨bs, hbs⟩ := readBytes_of_written s.lmem src count written
  obtain ⟨length, bytes⟩ := (readBytes_eq_ok ..).mp hbs
  intro p hp
  have run : exec p.1 s = .next (decodedState p.2 dst bs s) := by
    simp only [List.mem_cons, List.not_mem_nil, or_false] at hp
    rcases hp with rfl | rfl | rfl | rfl | rfl
    all_goals exact decode_completes _ hdst hsrc hbs
  obtain ⟨outside, inside⟩ := decodedState_bytes p.2 dst bs s
  obtain ⟨ferr, fbad⟩ := decodedState_counters p.2 dst bs s
  refine ⟨_, bs, length, bytes, run, rfl, ferr, fbad, length ▸ outside, fun k hk => ?_⟩
  have lt : k < bs.length := length ▸ hk
  refine ⟨bs[k], by rw [ByteAt, bytes k hk, List.getElem?_eq_getElem lt], ?_⟩
  rw [← nibble_byte_eq]
  exact inside k lt

end Sys2Proof.Machine
end

section
/-! PROOFS. The reference detector finds the peak of the DFT (spec/45_detector.md R261, R262): the statement's value of a
coefficient list is the ring's, a number that is its own conjugate is real, and the choice of a peak keeps the least
index of the greatest bin. -/

namespace Sys2Proof.Machine

theorem half_two_pow_succ (level : Nat) : 2 ^ (level + 1) / 2 = 2 ^ level := by
  rw [pow_succ, Nat.mul_div_cancel _ (by decide)]

/-- The powers e^(j·2πm/N) of the statement are those of the ring's root, and its value of a list the ring's value. -/
theorem sum_exp_eq_ringVal {level : Nat} {x : List Int} (hx : x.length = 2 ^ level) :
    (∑ m ∈ Finset.range (2 ^ (level + 1) / 2),
      ((x.getD m 0 : Int) : ℂ) * Complex.exp (2 * Real.pi * Complex.I * m / (2 ^ (level + 1) : ℂ))) =
      ringVal (ringRoot level) x := by
  rw [half_two_pow_succ, ringVal_eq_sum, hx]
  refine Finset.sum_congr rfl fun m _ => ?_
  rw [ringRoot, ← Complex.exp_nat_mul]
  congr 2
  field_simp
  ring

/-- A number that is its own conjugate is real at every root. -/
theorem realRing_of_conj {level : Nat} {x : List Int} (hx : x.length = 2 ^ level) (h : ringConj x = x) :
    RealRing level x where
  length := hx
  im ζ hζ := by
    have := ringVal_conj ζ x (by rwa [hx])
    rw [h] at this
    exact Complex.conj_eq_iff_im.mp this.symm

/-- The choice from bins 0 to n is the least index of the greatest value. -/
theorem foldl_choose_least_greatest {α : Type} {better : α → α → Bool} {item : Nat → α} {power : Nat → ℝ}
    (hbetter : ∀ j k, better (item j) (item k) = true ↔ power j < power k) (n : Nat) :
    ∃ m ≤ n, ((List.range n).map fun k => item (k + 1)).foldl (fun best b => if better best b then b else best)
        (item 0) = item m ∧ (∀ k ≤ n, power k ≤ power m) ∧ ∀ k < m, power k < power m := by
  induction n with
  | zero => exact ⟨0, le_rfl, rfl, fun k hk => by rw [Nat.le_zero.mp hk], fun k hk => absurd hk (Nat.not_lt_zero k)⟩
  | succ n ih =>
    obtain ⟨m, hm, chosen, greatest, least⟩ := ih
    rw [List.range_succ, List.map_append, List.foldl_append, chosen, List.map_singleton, List.foldl_cons, List.foldl_nil]
    by_cases lt : power m < power (n + 1)
    · have below (k : Nat) (hk : k < n + 1) : power k < power (n + 1) := (greatest k (by omega)).trans_lt lt
      refine ⟨n + 1, le_rfl, if_pos ((hbetter _ _).mpr lt), fun k hk => ?_, below⟩
      rcases Nat.lt_or_eq_of_le hk with hk | rfl
      · exact (below k hk).le
      · exact le_rfl
    · refine ⟨m, by omega, if_neg (mt (hbetter _ _).mp lt), fun k hk => ?_, least⟩
      rcases Nat.lt_or_eq_of_le hk with hk | rfl
      · exact greatest k (by omega)
      · exact not_lt.mp lt

section
variable {level : Nat} {xs : List Sample} (hlevel : 1 ≤ level) (hlen : xs.length = 2 * 2 ^ level)
include hlevel hlen

/-- The peak is the least index of the greatest bin (spec/45_detector.md R262). -/
theorem peakBin_spec :
    ∃ m < xs.length, peakBin (detectorBins xs) = detectorBin xs m ∧
      (∀ k < xs.length, binPower level xs k ≤ binPower level xs m) ∧
      ∀ k < m, binPower level xs k < binPower level xs m := by
  obtain ⟨n, hn⟩ : ∃ n, xs.length = n + 1 := ⟨xs.length - 1, by have := Nat.one_le_two_pow (n := level); omega⟩
  obtain ⟨m, hm, chosen, greatest, least⟩ := foldl_choose_least_greatest (bin_less_iff hlevel hlen) n
  refine ⟨m, by omega, ?_, fun k hk => greatest k (by omega), least⟩
  have bins : detectorBins xs = detectorBin xs 0 :: (List.range n).map fun k => detectorBin xs (k + 1) := by
    rw [detectorBins_eq_map, hn, List.range_succ_eq_map, List.map_cons, List.map_map]
    rfl
  rw [bins, peakBin, List.length_map, List.length_range, ← hn]
  exact chosen

/-- maxIndex of finite samples, in terms of the transform. -/
theorem detectReference_maxIndex (hmax : xs.length ≤ 4096) (finite : AllFinite xs) {X : Nat → ℂ} (hX : IsDft xs X) :
    let m : Nat := (detectReference xs).maxIndex.toNat
    m < xs.length ∧ (∀ k < xs.length, Complex.normSq (X k) ≤ Complex.normSq (X m)) ∧
      ∀ k < m, Complex.normSq (X k) < Complex.normSq (X m) := by
  obtain ⟨m, hm, peak, greatest, least⟩ := peakBin_spec hlevel hlen
  simp only [binPower_eq hlevel hlen hX] at greatest least
  have unit : (0 : ℝ) < 2 ^ 298 := by positivity
  rw [detectReference_of_finite (anyNonFinite_of_allFinite finite), peak, resultsAt_maxIndex xs hmax m hm]
  exact ⟨hm, fun k hk => le_of_mul_le_mul_right (greatest k hk) unit,
    fun k hk => lt_of_mul_lt_mul_right (least k hk) unit.le⟩

end

/-- Settles O58: the transform and its squared magnitudes, the order, and the peak. -/
theorem referenceDetectorFindsThePeakOfTheDft : Obligations.ReferenceDetectorFindsThePeakOfTheDft := by
  refine ⟨fun e xs k he hlen hk => ?_, fun e x y he hx hy hcx hcy => ?_, fun e xs X he he' hlen finite hX => ?_⟩
  all_goals obtain ⟨level, rfl⟩ : ∃ level, e = level + 1 := ⟨e - 1, by omega⟩
  · have hlevel : 1 ≤ level := by omega
    obtain ⟨length, value⟩ := dftBin_val level hlevel xs k
    rw [← pow_succ', hlen] at value
    rw [← pow_succ'] at length
    push_cast at value
    have real := realRing_mag2 length
    refine ⟨(sum_exp_eq_ringVal length).trans value, (sum_exp_eq_ringVal real.length).trans ?_⟩
    rw [real.val, ringRe_mag2 length, value]
  · rw [half_two_pow_succ] at hx hy
    have order := ringLess_iff (realRing_of_conj hx hcx) (realRing_of_conj hy hcy)
    rw [← pow_succ', ringRe, ringRe, ← sum_exp_eq_ringVal hx, ← sum_exp_eq_ringVal hy] at order
    exact order
  · have size : xs.length = 2 * 2 ^ level := by rw [hlen, pow_succ']
    have := detectReference_maxIndex (by omega) size (hlen ▸ Nat.pow_le_pow_right (by decide) he') finite hX
    rwa [hlen] at this

end Sys2Proof.Machine
end

section
/-! PROOFS. The layer that the memory commands share: elements read from LMEM and elements stored there
(spec/20_memory.md R62, R63), the command that completes with one store (R70), and the command that raises an error
(spec/60_exceptions.md R302, R305). -/

namespace Sys2Proof.Machine

/-! Elements read from LMEM -/

theorem leNat_lt (bs : List Byte) : leNat bs < 256 ^ bs.length := by
  induction bs with
  | nil => simp [leNat]
  | cons b bs ih =>
    have := b.isLt
    rw [leNat, List.length_cons, pow_succ']
    omega

/-- A number read from `n` bytes fits them. -/
theorem read_lt {m : Memory} {a n v : Nat} (h : m.read a n = .ok v) : v < 256 ^ n := by
  rw [Memory.read] at h
  split at h
  · cases h
  · rename_i bs hbs
    cases h
    exact ((readBytes_eq_ok ..).mp hbs).1 ▸ leNat_lt bs

/-- A word read is the number of its 32 bits. -/
theorem wordAt_of_read {s : State} {a v : Nat} (h : s.lmem.read a 4 = .ok v) : WordAt s a (BitVec.ofNat 32 v) := by
  rw [WordAt, BitVec.toNat_ofNat, Nat.mod_eq_of_lt (b := 2 ^ 32) (read_lt h), h]

/-- The bytes of a written array, one by one. -/
theorem bytesAt_of_written {s : State} {a n : Nat} (h : Written s a n) :
    ∃ bs, s.lmem.readBytes a n = .ok bs ∧ bs.length = n ∧ ∀ k < n, ∃ b, bs[k]? = some b ∧ ByteAt s (a + k) b := by
  obtain ⟨bs, hbs⟩ := readBytes_of_written s.lmem a n h
  obtain ⟨length, bytes⟩ := (readBytes_eq_ok ..).mp hbs
  refine ⟨bs, hbs, length, fun k hk => ?_⟩
  have lt : k < bs.length := length ▸ hk
  exact ⟨bs[k], List.getElem?_eq_getElem lt, by rw [ByteAt, bytes k hk, List.getElem?_eq_getElem lt]⟩

/-- The symbols of a written array, one by one. -/
theorem symbolsAt_of_written {s : State} {a n : Nat} (h : Written s a (2 * n)) :
    ∃ xs, loadU16s s.lmem a n = .ok xs ∧ xs.length = n ∧
      ∀ k < n, ∃ x, xs[k]? = some x ∧ SymbolAt s (a + 2 * k) x := by
  obtain ⟨xs, hxs⟩ := loadU16s_of_written s.lmem a n h
  obtain ⟨length, elements⟩ := loadU16s_ok _ _ _ _ hxs
  refine ⟨xs, hxs, length, fun k hk => ?_⟩
  obtain ⟨v, hv, hx⟩ := elements k hk
  exact ⟨_, hx, by rw [SymbolAt, BitVec.toNat_ofNat, Nat.mod_eq_of_lt (b := 2 ^ 16) (read_lt hv), hv]⟩

/-- The samples of a written array, one by one. -/
theorem samplesAt_of_written {s : State} {a n : Nat} (h : Written s a (8 * n)) :
    ∃ xs, loadSamples s.lmem a n = .ok xs ∧ xs.length = n ∧
      ∀ k < n, ∃ x, xs[k]? = some x ∧ SampleAt s (a + 8 * k) x := by
  obtain ⟨xs, hxs⟩ := loadSamples_of_written s.lmem a n h
  obtain ⟨length, elements⟩ := loadSamples_ok _ _ _ _ hxs
  refine ⟨xs, hxs, length, fun k hk => ?_⟩
  obtain ⟨x, hload, hx⟩ := elements k hk
  obtain ⟨i, q, hi, hq, rfl⟩ := loadSample_ok _ _ _ hload
  exact ⟨_, hx, wordAt_of_read hi, wordAt_of_read hq⟩

/-! Elements stored in LMEM -/

/-- Byte `k` of a little-endian number. -/
theorem getElem?_leBytes {n k : Nat} (v : Nat) (h : k < n) :
    (leBytes n v)[k]? = some (BitVec.ofNat 8 (v / 256 ^ k)) := by
  induction n generalizing k v with
  | zero => omega
  | succ n ih =>
    rw [leBytes]
    cases k with
    | zero => simp
    | succ k => rw [List.getElem?_cons_succ, ih _ (by omega), pow_succ', Nat.div_div_eq_div_mul]

/-- A read of two adjoining regions is the reads of both. -/
theorem readBytes_append {m : Memory} {a : Nat} {xs ys : List Byte} {k l : Nat} (hk : xs.length = k)
    (hl : ys.length = l) (h : m.readBytes a (k + l) = .ok (xs ++ ys)) :
    m.readBytes a k = .ok xs ∧ m.readBytes (a + k) l = .ok ys := by
  obtain ⟨-, bytes⟩ := (readBytes_eq_ok ..).mp h
  refine ⟨(readBytes_eq_ok ..).mpr ⟨hk, fun i hi => ?_⟩, (readBytes_eq_ok ..).mpr ⟨hl, fun i hi => ?_⟩⟩
  · rw [bytes i (by omega), List.getElem?_append_left (by omega)]
  · rw [Nat.add_assoc, bytes (k + i) (by omega), List.getElem?_append_right (by omega), hk, Nat.add_sub_cancel_left]

/-- A number whose bytes stand at `a` is read there. -/
theorem read_of_leBytes {m : Memory} {a n v : Nat} (h : m.readBytes a n = .ok (leBytes n v)) (hv : v < 256 ^ n) :
    m.read a n = .ok v := by
  rw [Memory.read, h]
  simp only [leNat_leBytes, Nat.mod_eq_of_lt hv]

/-- A word whose bytes stand at `a`. -/
theorem wordAt_of_wordBytes {s : State} {a : Nat} {w : Word} (h : s.lmem.readBytes a 4 = .ok (wordBytes w)) :
    WordAt s a w :=
  read_of_leBytes h w.isLt

section
variable {s t : State} {dst : Nat}

/-- A store leaves every byte outside its region. -/
theorem sameOutside_of_store {bs : List Byte} (h : t.lmem = s.lmem.writeBytes dst bs) {len : Nat}
    (hlen : bs.length = len) : SameOutside dst len s t := by
  intro x hx
  rw [h, readByte_writeBytes_outside _ _ _ _ (hlen ▸ hx)]

/-- Byte `k` of a stored array. -/
theorem byteAt_of_store {bs : List Byte} (h : t.lmem = s.lmem.writeBytes dst bs) {k : Nat} {b : Byte}
    (hb : bs[k]? = some b) : ByteAt t (dst + k) b := by
  obtain ⟨lt, rfl⟩ := List.getElem?_eq_some_iff.mp hb
  rw [ByteAt, h, readByte_writeBytes_inside _ _ _ _ lt]

/-- Symbol `k` of a stored array. -/
theorem symbolAt_of_store {xs : List Symbol} (h : t.lmem = s.lmem.writeBytes dst (xs.flatMap symbolBytes)) {k : Nat}
    {x : Symbol} (hx : xs[k]? = some x) : SymbolAt t (dst + 2 * k) x := by
  obtain ⟨lt, rfl⟩ := List.getElem?_eq_some_iff.mp hx
  exact read_of_leBytes (h ▸ readBytes_store symbolBytes 2 length_symbolBytes s.lmem dst xs k lt) xs[k].isLt

/-- Sample `k` of a stored array. -/
theorem sampleAt_of_store {xs : List Sample} (h : t.lmem = s.lmem.writeBytes dst (xs.flatMap sampleBytes)) {k : Nat}
    {x : Sample} (hx : xs[k]? = some x) : SampleAt t (dst + 8 * k) x := by
  obtain ⟨lt, rfl⟩ := List.getElem?_eq_some_iff.mp hx
  have stored := readBytes_store sampleBytes 8 length_sampleBytes s.lmem dst xs k lt
  rw [← h] at stored
  obtain ⟨i, q⟩ := readBytes_append (k := 4) (l := 4) (length_wordBytes _) (length_wordBytes _) stored
  exact ⟨wordAt_of_wordBytes i, wordAt_of_wordBytes q⟩

end

/-! The check phase -/

@[simp] theorem cfgValid_holds (s : State) : (cfgValid s).holds = s.cfg.valid := rfl
@[simp] theorem inRange_holds (b : Bool) : (inRange b).holds = b := rfl
@[simp] theorem rddLegal_holds (rdd : Nat) : (rddLegal rdd).holds = decide (rdd ≤ 4) := rfl
@[simp] theorem aligned_holds (a n : Nat) : (aligned a n).holds = decide (a % n = 0) := rfl
@[simp] theorem inBounds_holds (s : State) (a len : Nat) : (inBounds s a len).holds = decide (Fits s a len) := rfl

@[simp] theorem cfgValid_err (s : State) : (cfgValid s).err = .noCfg := rfl
@[simp] theorem inRange_err (b : Bool) : (inRange b).err = .range := rfl
@[simp] theorem rddLegal_err (rdd : Nat) : (rddLegal rdd).err = .range := rfl
@[simp] theorem aligned_err (a n : Nat) : (aligned a n).err = .align := rfl
@[simp] theorem inBounds_err (s : State) (a len : Nat) : (inBounds s a len).err = .bounds := rfl

/-- A group of checks with one error raises it where some check of the group fails and all before the group hold. -/
theorem firstFailure_of_group {pre group : List Check} (post : List Check) {e : ErrCode}
    (passes : ∀ c ∈ pre, c.holds = true) (fails : ∃ c ∈ group, c.holds = false) (err : ∀ c ∈ group, c.err = e) :
    firstFailure (pre ++ (group ++ post)) = some e := by
  induction pre with
  | cons c pre ih =>
    rw [List.forall_mem_cons] at passes
    rw [List.cons_append, firstFailure_cons, if_pos passes.1, ih passes.2]
  | nil =>
    induction group with
    | nil => simp at fails
    | cons c group ih =>
      rw [List.forall_mem_cons] at err
      rw [List.exists_mem_cons_iff] at fails
      rw [List.nil_append, List.cons_append, firstFailure_cons]
      by_cases holds : c.holds = true
      · rw [if_pos holds]
        exact ih (fails.resolve_left (by simp [holds])) err.2
      · rw [if_neg holds, err.1]

/-- A failing check stops the command with its error. -/
theorem command_stops {len : Nat} {cs : List Check} {perform : State → Except Fault State} {s : State} {e : ErrCode}
    (h : firstFailure cs = some e) : command len cs perform s = .next (stopped e s) :=
  (command_next ..).mpr (.inl ⟨e, h, rfl⟩)

/-! The perform phase -/

/-- A command whose checks pass and whose perform phase is one store completes with that store as its only effect. -/
theorem completesWriting_store {i : Instr} {s : State} {words dst len : Nat} {cs : List Check}
    {perform : State → Except Fault State} {bs : List Byte} (hexec : exec i s = command words cs perform s)
    (passes : ∀ c ∈ cs, c.holds = true) (hperform : perform s = .ok (storeU8s dst bs s)) (hlen : bs.length = len) :
    CompletesWriting i s words dst len (advance words (storeU8s dst bs s)) :=
  ⟨hexec.trans (command_completes _ _ _ _ _ passes hperform), rfl, sameOutside_of_store rfl hlen⟩

end Sys2Proof.Machine
end

section
/-! PROOFS. How the commands stop: the errors of every command that reads or writes LMEM, group of checks by group of
checks (spec/60_exceptions.md R301, R305), and the only fault there is, the read of an unwritten byte
(spec/20_memory.md R77). -/

namespace Sys2Proof.Machine

/-! The Gray commands (spec/41_bitcodes.md R150 to R153) -/

theorem symbolChecks_align {s : State} {dst src : Nat} (count : Nat) (h : dst % 2 ≠ 0 ∨ src % 2 ≠ 0) :
    firstFailure (symbolChecks dst src count s) = some .align :=
  firstFailure_of_group (pre := []) (group := [aligned dst 2, aligned src 2]) _ (by simp) (by simpa using h) (by simp)

theorem symbolChecks_bounds {s : State} {dst src count : Nat} (hdst : dst % 2 = 0) (hsrc : src % 2 = 0)
    (h : ¬(Fits s dst (2 * count) ∧ Fits s src (2 * count))) :
    firstFailure (symbolChecks dst src count s) = some .bounds :=
  firstFailure_of_group (pre := [aligned dst 2, aligned src 2])
    (group := [inBounds s dst (2 * count), inBounds s src (2 * count)]) [] (by simp [hdst, hsrc])
    (by simpa using not_and_or.mp h) (by simp)

/-- SYMRX and SYMTX go on to the common checks once a configuration is there. -/
theorem firstFailure_cfgValid_cons {s : State} (hv : s.cfg.valid = true) (cs : List Check) :
    firstFailure (cfgValid s :: cs) = firstFailure cs := by
  rw [firstFailure_cons, cfgValid_holds, if_pos hv]

/-- Without a configuration the first check of a command fails. -/
theorem firstFailure_noCfg {s : State} (hv : s.cfg.valid = false) (cs : List Check) :
    firstFailure (cfgValid s :: cs) = some .noCfg := by
  rw [firstFailure_cons, cfgValid_holds, if_neg (by simp [hv]), cfgValid_err]

/-- What the four Gray commands do where the common check fails. -/
theorem symbolCommand_stops {s : State} {dst src count : Nat} {e : ErrCode}
    (h : firstFailure (symbolChecks dst src count s) = some e) :
    ∀ i ∈ [Instr.gray dst src count, .igray dst src count, .symrx dst src count, .symtx dst src count],
      s.cfg.valid = true ∨ i = .gray dst src count ∨ i = .igray dst src count → exec i s = .next (stopped e s) := by
  intro i hi hcfg
  simp only [List.mem_cons, List.not_mem_nil, or_false] at hi
  rcases hi with rfl | rfl | rfl | rfl
  · exact command_stops h
  · exact command_stops h
  · exact command_stops ((firstFailure_cfgValid_cons (by simpa using hcfg) _).trans h)
  · exact command_stops ((firstFailure_cfgValid_cons (by simpa using hcfg) _).trans h)

/-- Settles O28: E_NOCFG, then the alignments, then the bounds. -/
theorem symbolCommandsRaiseTheirErrors : Obligations.SymbolCommandsRaiseTheirErrors := by
  refine fun s dst src count => ⟨fun hv i hi => ?_, fun i hi hcfg => ⟨fun h => ?_, fun hdst hsrc h => ?_⟩⟩
  · simp only [List.mem_cons, List.not_mem_nil, or_false] at hi
    rcases hi with rfl | rfl
    all_goals exact command_stops (firstFailure_noCfg hv _)
  · exact symbolCommand_stops (symbolChecks_align count h) i hi hcfg
  · exact symbolCommand_stops (symbolChecks_bounds hdst hsrc h) i hi hcfg

/-! FENC, FDEC and WHITEN (spec/41_bitcodes.md R175 to R184; spec/42_whitening.md R198, R199) -/

theorem byteChecks_bounds {s : State} {dst src count : Nat} (h : ¬(Fits s dst count ∧ Fits s src count)) :
    firstFailure (byteChecks dst src count s) = some .bounds :=
  firstFailure_of_group (pre := []) (group := [inBounds s dst count, inBounds s src count]) [] (by simp)
    (by simpa using not_and_or.mp h) (by simp)

theorem whitenChecks_range {s : State} {rdd : Nat} (dst src count : Nat) (h : 4 < rdd) :
    firstFailure (whitenChecks rdd dst src count s) = some .range :=
  firstFailure_of_group (pre := []) (group := [rddLegal rdd]) _ (by simp) (by simpa using h) (by simp)

theorem whitenChecks_bounds {s : State} {rdd dst src count : Nat} (hrdd : rdd ≤ 4)
    (h : ¬(Fits s dst count ∧ Fits s src count)) :
    firstFailure (whitenChecks rdd dst src count s) = some .bounds :=
  firstFailure_of_group (pre := [rddLegal rdd]) (group := [inBounds s dst count, inBounds s src count]) []
    (by simpa using hrdd) (by simpa using not_and_or.mp h) (by simp)

/-- Settles O35: RDD first where a check asks for it, then the bounds. -/
theorem byteCommandsRaiseTheirErrors : Obligations.ByteCommandsRaiseTheirErrors := by
  refine fun s rdd dst src count bitofs =>
    ⟨fun hrdd i hi => ?_, fun h => ⟨fun i hi => ?_, fun hrdd i hi => ?_⟩⟩
  all_goals simp only [List.mem_cons, List.not_mem_nil, or_false] at hi
  · rcases hi with rfl | rfl
    all_goals exact command_stops (whitenChecks_range dst src count hrdd)
  · rcases hi with rfl | rfl | rfl | rfl | rfl | rfl | rfl | rfl | rfl | rfl
    all_goals exact command_stops (byteChecks_bounds h)
  · rcases hi with rfl | rfl
    all_goals exact command_stops (whitenChecks_bounds hrdd h)

/-! ILV and DILV (spec/43_interleaver.md R214, R215): one list of checks, with the operand to align and the two
regions as parameters -/

section
variable {s : State} {rdd : Nat} (a dst src lenDst lenSrc : Nat)

theorem interleaverChecks_range (hv : s.cfg.valid = true) (h : 4 < rdd) :
    firstFailure [cfgValid s, rddLegal rdd, aligned a 2, inBounds s dst lenDst, inBounds s src lenSrc] = some .range :=
  firstFailure_of_group (pre := [cfgValid s]) (group := [rddLegal rdd]) _ (by simpa using hv) (by simpa using h)
    (by simp)

variable {a} in
theorem interleaverChecks_align (hv : s.cfg.valid = true) (hrdd : rdd ≤ 4) (h : a % 2 ≠ 0) :
    firstFailure [cfgValid s, rddLegal rdd, aligned a 2, inBounds s dst lenDst, inBounds s src lenSrc] = some .align :=
  firstFailure_of_group (pre := [cfgValid s, rddLegal rdd]) (group := [aligned a 2]) _ (by simp [hv, hrdd])
    (by simpa using h) (by simp)

variable {a dst src lenDst lenSrc} in
theorem interleaverChecks_bounds (hv : s.cfg.valid = true) (hrdd : rdd ≤ 4) (ha : a % 2 = 0)
    (h : ¬(Fits s dst lenDst ∧ Fits s src lenSrc)) :
    firstFailure [cfgValid s, rddLegal rdd, aligned a 2, inBounds s dst lenDst, inBounds s src lenSrc] =
      some .bounds :=
  firstFailure_of_group (pre := [cfgValid s, rddLegal rdd, aligned a 2])
    (group := [inBounds s dst lenDst, inBounds s src lenSrc]) [] (by simp [hv, hrdd, ha])
    (by simpa using not_and_or.mp h) (by simp)

end

/-- Settles O45: E_NOCFG, E_RANGE, E_ALIGN and E_BOUNDS in their order, on whole blocks. -/
theorem interleaverCommandsRaiseTheirErrors : Obligations.InterleaverCommandsRaiseTheirErrors := by
  refine fun s rdd dst src n => ⟨fun hv i hi => ?_, fun hv hrdd i hi => ?_, fun hv hrdd h => ?_,
    fun hv hrdd h => ?_, fun hv hrdd ha h => ?_, fun hv hrdd ha h => ?_⟩
  · simp only [List.mem_cons, List.not_mem_nil, or_false] at hi
    rcases hi with rfl | rfl
    all_goals exact command_stops (firstFailure_noCfg hv _)
  · simp only [List.mem_cons, List.not_mem_nil, or_false] at hi
    rcases hi with rfl | rfl
    all_goals exact command_stops (interleaverChecks_range _ _ _ _ _ hv hrdd)
  · exact command_stops (interleaverChecks_align _ _ _ _ hv hrdd h)
  · exact command_stops (interleaverChecks_align _ _ _ _ hv hrdd h)
  · exact command_stops (interleaverChecks_bounds hv hrdd ha (by rwa [Nat.mul_assoc]))
  · exact command_stops (interleaverChecks_bounds hv hrdd ha (by rwa [Nat.mul_assoc]))

/-! The chirps (spec/44_chirp.md R236, R237) -/

section
variable {s : State} {fbin dst len : Nat} (hv : s.cfg.valid = true)
include hv

theorem chirpChecks_range (dst : Nat) (h : s.cfg.n ≤ fbin ∨ s.cfg.nn < len) :
    firstFailure (chirpChecks fbin dst len s) = some .range :=
  firstFailure_of_group (pre := [cfgValid s])
    (group := [inRange (decide (fbin < s.cfg.n)), inRange (decide (len ≤ s.cfg.nn))]) _ (by simpa using hv)
    (by simpa using h) (by simp)

variable (hfbin : fbin < s.cfg.n) (hlen : len ≤ s.cfg.nn)
include hfbin hlen

theorem chirpChecks_align (h : dst % 8 ≠ 0) : firstFailure (chirpChecks fbin dst len s) = some .align :=
  firstFailure_of_group
    (pre := [cfgValid s, inRange (decide (fbin < s.cfg.n)), inRange (decide (len ≤ s.cfg.nn))])
    (group := [aligned dst 8]) _ (by simp [hv, hfbin, hlen]) (by simpa using h) (by simp)

theorem chirpChecks_bounds (hdst : dst % 8 = 0) (h : ¬Fits s dst (8 * len)) :
    firstFailure (chirpChecks fbin dst len s) = some .bounds :=
  firstFailure_of_group
    (pre := [cfgValid s, inRange (decide (fbin < s.cfg.n)), inRange (decide (len ≤ s.cfg.nn)), aligned dst 8])
    (group := [inBounds s dst (8 * len)]) [] (by simp [hv, hfbin, hlen, hdst]) (by simpa using h) (by simp)

end

theorem exec_chirpUp (fbin dst len : Nat) (s : State) : exec (.chirpUp fbin dst len) s =
    command 3 (chirpChecks fbin dst len s) (chirpArray .up fbin dst len) s := rfl

theorem exec_chirpDn (fbin dst len : Nat) (s : State) : exec (.chirpDn fbin dst len) s =
    command 3 (chirpChecks fbin dst len s) (chirpArray .down fbin dst len) s := rfl

/-- A failing check of a chirp stops either direction. -/
theorem chirp_stops {s : State} {fbin dst len : Nat} {e : ErrCode}
    (h : firstFailure (chirpChecks fbin dst len s) = some e) :
    ∀ i ∈ [Instr.chirpUp fbin dst len, .chirpDn fbin dst len], exec i s = .next (stopped e s) := by
  intro i hi
  simp only [List.mem_cons, List.not_mem_nil, or_false] at hi
  rcases hi with rfl | rfl
  · rw [exec_chirpUp, command_stops h]
  · rw [exec_chirpDn, command_stops h]

/-- Settles O49: E_NOCFG, E_RANGE, E_ALIGN and E_BOUNDS in their order. -/
theorem chirpsRaiseTheirErrors : Obligations.ChirpsRaiseTheirErrors :=
  fun _ _ dst _ i hi =>
    ⟨fun hv => chirp_stops (firstFailure_noCfg hv _) i hi,
      fun hv h => chirp_stops (chirpChecks_range hv dst h) i hi,
      fun hv hfbin hlen h => chirp_stops (chirpChecks_align hv hfbin hlen h) i hi,
      fun hv hfbin hlen hdst h => chirp_stops (chirpChecks_bounds hv hfbin hlen hdst h) i hi⟩

/-! MIX and MIX.C (spec/44_chirp.md R243, R244) -/

theorem mixChecks_align {s : State} {dst srca srcb : Nat} (count : Nat)
    (h : dst % 8 ≠ 0 ∨ srca % 8 ≠ 0 ∨ srcb % 8 ≠ 0) : firstFailure (mixChecks dst srca srcb count s) = some .align :=
  firstFailure_of_group (pre := []) (group := [aligned dst 8, aligned srca 8, aligned srcb 8]) _ (by simp)
    (by simpa using h) (by simp)

theorem mixChecks_bounds {s : State} {dst srca srcb count : Nat} (hdst : dst % 8 = 0) (hsrca : srca % 8 = 0)
    (hsrcb : srcb % 8 = 0)
    (h : ¬(Fits s dst (8 * count) ∧ Fits s srca (8 * count) ∧ Fits s srcb (8 * count))) :
    firstFailure (mixChecks dst srca srcb count s) = some .bounds :=
  firstFailure_of_group (pre := [aligned dst 8, aligned srca 8, aligned srcb 8])
    (group := [inBounds s dst (8 * count), inBounds s srca (8 * count), inBounds s srcb (8 * count)]) []
    (by simp [hdst, hsrca, hsrcb])
    (by simpa only [List.exists_mem_cons_iff, List.not_mem_nil, false_and, exists_false, or_false, inBounds_holds,
      decide_eq_false_iff_not] using (not_and_or.mp h).imp_right not_and_or.mp) (by simp)

/-- Settles O54: the three alignments, then the three bounds. -/
theorem mixRaisesItsErrors : Obligations.MixRaisesItsErrors := by
  intro s dst srca srcb count i hi
  simp only [List.mem_cons, List.not_mem_nil, or_false] at hi
  rcases hi with rfl | rfl
  all_goals exact ⟨fun h => command_stops (mixChecks_align count h),
    fun hdst hsrca hsrcb h => command_stops (mixChecks_bounds hdst hsrca hsrcb h)⟩

/-! DETECT and DETECT.S (spec/45_detector.md R266, R267) -/

/-- A region that is not empty and ends past LMEM does not fit. -/
theorem not_fits_of_lt {s : State} {a len : Nat} (pos : 0 < len) (h : s.params.lmemBytes < a + len) :
    ¬Fits s a len := by
  rintro (rfl | hle) <;> omega

theorem samples_not_fit {s : State} {src : Nat} (h : s.params.lmemBytes < src + 8 * 2 ^ s.cfg.sf.toNat) :
    ¬Fits s src (8 * s.cfg.n) :=
  not_fits_of_lt (Nat.mul_pos (by decide) (Nat.two_pow_pos _)) h

/-- Settles O57: E_NOCFG, the alignments, then the bounds; DETECT has no DST to check. -/
theorem detectRaisesItsErrors : Obligations.DetectRaisesItsErrors := by
  refine fun s dst src => ⟨fun hv i hi => ?_, fun hv h => ?_, fun hv hsrc h => ?_, fun hv h => ?_,
    fun hv hdst hsrc h => ?_⟩
  · simp only [List.mem_cons, List.not_mem_nil, or_false] at hi
    rcases hi with rfl | rfl
    all_goals exact command_stops (firstFailure_noCfg hv _)
  · exact command_stops (firstFailure_of_group (pre := [cfgValid s]) (group := [aligned src 8]) _
      (by simpa using hv) (by simpa using h) (by simp))
  · exact command_stops (firstFailure_of_group (pre := [cfgValid s, aligned src 8])
      (group := [inBounds s src (8 * s.cfg.n)]) [] (by simp [hv, hsrc]) (by simpa using samples_not_fit h) (by simp))
  · exact command_stops (firstFailure_of_group (pre := [cfgValid s]) (group := [aligned dst 4, aligned src 8]) _
      (by simpa using hv) (by simpa using h) (by simp))
  · exact command_stops (firstFailure_of_group (pre := [cfgValid s, aligned dst 4, aligned src 8])
      (group := [inBounds s dst 16, inBounds s src (8 * s.cfg.n)]) [] (by simp [hv, hdst, hsrc])
      (by simpa using h.imp (not_fits_of_lt (by decide)) samples_not_fit) (by simp))

/-! Faults (spec/20_memory.md R77; spec/60_exceptions.md R303, R306) -/

/-- The fault is the read of a byte of [a, a+len) that was never written. -/
def FaultsIn (s : State) (a len : Nat) (f : Fault) : Prop :=
  ∃ i < len, f = .unwrittenByte (a + i) ∧ s.lmem.readByte (a + i) = none

theorem mapSymbols_fault {f : Symbol → Symbol} {dst src count : Nat} {s : State} {e : Fault}
    (h : mapSymbols f dst src count s = .error e) : FaultsIn s src (2 * count) e := by
  unfold mapSymbols at h
  split at h
  · rename_i hload; cases h; exact loadU16s_fault _ _ _ _ hload
  · cases h

theorem encodeArray_fault {enc : BitVec 4 → Byte} {dst src count : Nat} {s : State} {e : Fault}
    (h : encodeArray enc dst src count s = .error e) : FaultsIn s src count e := by
  unfold encodeArray at h
  split at h
  · rename_i hload; cases h; exact readBytes_fault _ _ _ _ hload
  · cases h

theorem decodeArray_fault {dec : Byte → Nibble} {dst src count : Nat} {s : State} {e : Fault}
    (h : decodeArray dec dst src count s = .error e) : FaultsIn s src count e := by
  unfold decodeArray at h
  split at h
  · rename_i hload; cases h; exact readBytes_fault _ _ _ _ hload
  · cases h

theorem whitenArray_fault {w : Whitener} {rdd dst src count bitofs : Nat} {s : State} {e : Fault}
    (h : whitenArray w rdd dst src count bitofs s = .error e) : FaultsIn s src count e := by
  unfold whitenArray at h
  split at h
  · rename_i hload; cases h; exact readBytes_fault _ _ _ _ hload
  · cases h

theorem interleaveArray_fault {w p nb dst src : Nat} {s : State} {e : Fault}
    (h : interleaveArray w p nb dst src s = .error e) : FaultsIn s src (nb * p) e := by
  unfold interleaveArray at h
  split at h
  · rename_i hload; cases h; exact readBytes_fault _ _ _ _ hload
  · cases h

theorem deinterleaveArray_fault {w p nb dst src : Nat} {s : State} {e : Fault}
    (h : deinterleaveArray w p nb dst src s = .error e) : FaultsIn s src (2 * nb * w) e := by
  unfold deinterleaveArray at h
  split at h
  · rename_i hload; cases h; exact Nat.mul_assoc 2 nb w ▸ loadU16s_fault _ _ _ _ hload
  · cases h

/-- The two operands of a mix are read one after the other. -/
theorem mixArray_fault {f : Sample → Sample} {dst srca srcb count : Nat} {s : State} {e : Fault}
    (h : mixArray f dst srca srcb count s = .error e) :
    FaultsIn s srca (8 * count) e ∨ FaultsIn s srcb (8 * count) e := by
  unfold mixArray at h
  split at h
  · rename_i hload; cases h; exact .inl (loadSamples_fault _ _ _ _ hload)
  · split at h
    · rename_i hload; cases h; exact .inr (loadSamples_fault _ _ _ _ hload)
    · cases h

theorem detectAt_fault {src : Nat} {s : State} {e : Fault} (h : detectAt src s = .error e) :
    FaultsIn s src (8 * s.cfg.n) e := by
  unfold detectAt at h
  split at h
  · rename_i hload; cases h; exact loadSamples_fault _ _ _ _ hload
  · cases h

theorem detectStore_fault {dst src : Nat} {s : State} {e : Fault} (h : detectStore dst src s = .error e) :
    FaultsIn s src (8 * s.cfg.n) e := by
  unfold detectStore at h
  split at h
  · rename_i hat; cases h; exact detectAt_fault hat
  · cases h

/-- A fault inside a region that the check phase has found in LMEM is at an address of LMEM. -/
theorem command_fault_inBounds {len : Nat} {cs : List Check} {perform : State → Except Fault State} {s : State}
    {f : Fault} (h : command len cs perform s = .fault f)
    (region : ∀ e, perform s = .error e → ∃ a n, inBounds s a n ∈ cs ∧ FaultsIn s a n e) :
    ∃ a < s.params.lmemBytes, f = .unwrittenByte a ∧ s.lmem.readByte a = none := by
  obtain ⟨passes, hperform⟩ := (command_fault ..).mp h
  obtain ⟨a, n, checked, i, hi, hf, unwritten⟩ := region f hperform
  have fits : Fits s a n := by simpa using (firstFailure_eq_none cs).mp passes _ checked
  refine ⟨a + i, ?_, hf, unwritten⟩
  rcases fits with rfl | fits <;> omega

/-- Every fault of a command is the read of an unwritten byte of LMEM. -/
theorem exec_fault {i : Instr} {s : State} {f : Fault} (h : exec i s = .fault f) :
    ∃ a < s.params.lmemBytes, f = .unwrittenByte a ∧ s.lmem.readByte a = none := by
  cases i with
  | nop | halt | setcfg | setampl | setphase | clrstat =>
    simp only [exec, execNop, execHalt, execSetcfg, execSetampl, execSetphase, execClrstat] at h
    cases ((command_fault ..).mp h).2
  | gray dst src count | igray dst src count | symrx dst src count | symtx dst src count =>
    exact command_fault_inBounds h fun e he => ⟨src, 2 * count, by simp [symbolChecks], mapSymbols_fault he⟩
  | fencRaw dst src count | fencP54 dst src count | fencP64 dst src count | fencH74 dst src count
  | fencH84 dst src count =>
    exact command_fault_inBounds h fun e he => ⟨src, count, by simp [byteChecks], encodeArray_fault he⟩
  | fdecRaw dst src count | fdecP54 dst src count | fdecP64 dst src count | fdecH74 dst src count
  | fdecH84 dst src count =>
    exact command_fault_inBounds h fun e he => ⟨src, count, by simp [byteChecks], decodeArray_fault he⟩
  | whiten rdd dst src count bitofs | whitenC rdd dst src count bitofs =>
    exact command_fault_inBounds h fun e he => ⟨src, count, by simp [whitenChecks], whitenArray_fault he⟩
  | ilv rdd dst src ncw =>
    exact command_fault_inBounds h fun e he => ⟨src, _, by simp, interleaveArray_fault he⟩
  | dilv rdd dst src nsym =>
    exact command_fault_inBounds h fun e he => ⟨src, _, by simp, deinterleaveArray_fault he⟩
  | chirpUp fbin dst len | chirpDn fbin dst len =>
    simp only [exec_chirpUp, exec_chirpDn] at h
    have hperform := ((command_fault ..).mp h).2
    rw [chirpArray_ok] at hperform
    cases hperform
  | mix dst srca srcb count | mixC dst srca srcb count =>
    refine command_fault_inBounds h fun e he => ?_
    rcases mixArray_fault he with inA | inB
    · exact ⟨srca, 8 * count, by simp [mixChecks], inA⟩
    · exact ⟨srcb, 8 * count, by simp [mixChecks], inB⟩
  | detect ignored src =>
    exact command_fault_inBounds h fun e he => ⟨src, _, by simp, detectAt_fault he⟩
  | detectS dst src =>
    exact command_fault_inBounds h fun e he => ⟨src, _, by simp, detectStore_fault he⟩

/-- Every meaning has the shape of a command's rule, which refuses nothing. -/
theorem exec_not_refused (i : Instr) (s : State) (r : Refusal) : exec i s ≠ .refused r := by
  cases i with
  | nop | halt | setcfg | setampl | setphase | clrstat =>
    simp only [exec, execNop, execHalt, execSetcfg, execSetampl, execSetphase, execClrstat]
    exact command_not_refused _ _ _ _ _
  | chirpUp | chirpDn =>
    simp only [exec_chirpUp, exec_chirpDn]
    exact command_not_refused _ _ _ _ _
  | _ => exact command_not_refused _ _ _ _ _

/-- Settles O8: with all of LMEM written, no byte is left to fault on. -/
theorem commandsFaultOnlyOnUnwrittenBytes : Obligations.CommandsFaultOnlyOnUnwrittenBytes := by
  refine fun i s => ⟨exec_not_refused i s, fun f hf => ?_, fun written => ?_⟩
  · obtain ⟨a, -, e, unwritten⟩ := exec_fault hf
    exact ⟨a, e, unwritten⟩
  · cases h : exec i s with
    | next t => exact ⟨t, rfl⟩
    | fault f =>
      obtain ⟨a, inside, -, unwritten⟩ := exec_fault h
      have := written a inside
      rw [Nat.zero_add, unwritten] at this
      cases this
    | refused r => exact absurd h (exec_not_refused i s r)

end Sys2Proof.Machine
end

section
/-! PROOFS. The host's LMEM window (spec/20_memory.md R61, R62, R66, R67): where its addresses lead, the steps of an
LMEM write and of an LMEM read, and the accesses that have no move (spec/70_reset_and_hazards.md R340, R346). -/

namespace Sys2Proof.Machine

/-! Where an address leads -/

theorem locate_register {p : Params} {addr : Nat} (h : ¬Outside p.regBase 4096 addr) :
    locate p addr = some (.register (addr - p.regBase)) :=
  (locate_eq_register ..).mpr (by omega)

theorem locate_lmem {p : Params} {addr : Nat} (hreg : Outside p.regBase 4096 addr)
    (h : ¬Outside p.lmemBase p.lmemBytes addr) : locate p addr = some (.lmem (addr - p.lmemBase)) := by
  rw [locate, if_neg (by omega), if_pos (by omega)]

theorem locate_none {p : Params} {addr : Nat} (hreg : Outside p.regBase 4096 addr)
    (h : Outside p.lmemBase p.lmemBytes addr) : locate p addr = none := by
  rw [locate, if_neg (by omega), if_neg (by omega)]

theorem locate_lmem_offset {p : Params} {a n : Nat} (pos : 0 < n) (fits : a + n ≤ p.lmemBytes)
    (hreg : Outside p.regBase 4096 (p.lmemBase + a)) : locate p (p.lmemBase + a) = some (.lmem a) := by
  rw [locate_lmem hreg (by omega), Nat.add_sub_cancel_left]

/-! Which LMEM accesses the host may make -/

theorem lmemRefusal_busy {s : State} (hm : s.mode = .run) (a n : Nat) :
    lmemRefusal s a n = some .hostLmemWhileBusy := by
  rw [lmemRefusal, if_pos hm]

theorem lmemRefusal_misaligned {s : State} (hm : s.mode = .idle) {a n : Nat} (h : a % n ≠ 0) :
    lmemRefusal s a n = some .hostAccessShape := by
  rw [lmemRefusal, if_neg (by simp [hm]), if_pos h]

theorem lmemRefusal_none {s : State} (hm : s.mode = .idle) {a n : Nat} (aligned : a % n = 0)
    (fits : a + n ≤ s.params.lmemBytes) : lmemRefusal s a n = none := by
  rw [lmemRefusal, if_neg (by simp [hm]), if_neg (by simp [aligned]), if_neg (by omega)]

theorem AccessSize.bytes_pos (size : AccessSize) : 0 < size.bytes := by cases size <;> decide

/-! The steps of an access that has a move -/

section
variable {s : State} {size : AccessSize} {a : Nat} {rest : List Turn} (hm : s.mode = .idle)
  (aligned : a % size.bytes = 0) (fits : a + size.bytes ≤ s.params.lmemBytes)
  (hreg : Outside s.params.regBase 4096 (s.params.lmemBase + a))
include hm aligned fits hreg

theorem step_writeLmem {v : Word} (h : s.turns = .write size (s.params.lmemBase + a) v :: rest) :
    step s = .next { s with turns := rest, lmem := s.lmem.write a size.bytes v.toNat } := by
  have refusal : lmemRefusal { s with turns := rest } a size.bytes = none :=
    lmemRefusal_none hm aligned fits
  rw [step_of_turn s _ rest h, takeTurn, hostWrite, locate_lmem_offset size.bytes_pos fits hreg]
  simp only [refusal]

theorem step_readLmem {v : Nat} (h : s.turns = .read size (s.params.lmemBase + a) :: rest)
    (hv : s.lmem.read a size.bytes = .ok v) :
    step s = .next { s with turns := rest, hostData := some (BitVec.ofNat 32 v) } := by
  have refusal : lmemRefusal { s with turns := rest } a size.bytes = none :=
    lmemRefusal_none hm aligned fits
  rw [step_of_turn s _ rest h, takeTurn, hostRead, locate_lmem_offset size.bytes_pos fits hreg]
  simp only [refusal, hv]

end

/-- Settles O20: the write stores the little-endian bytes, and the read finds them. -/
theorem hostReadsBackWhatItWrites : Obligations.HostReadsBackWhatItWrites := by
  intro s size a v rest hm hturns aligned fits hreg
  refine ⟨_, step_writeLmem hm aligned fits hreg hturns, rfl, sameOutside_of_store rfl (length_leBytes ..),
    fun k hk => byteAt_of_store rfl (getElem?_leBytes v.toNat hk), ?_⟩
  exact step_readLmem
    (s := { s with turns := .read size (s.params.lmemBase + a) :: rest, lmem := s.lmem.write a size.bytes v.toNat })
    hm aligned fits hreg rfl (read_write ..)

/-! Accesses that have no move -/

/-- The step of a host access that is refused as a read and as a write. -/
theorem step_refused {s : State} {size : AccessSize} {addr : Nat} {v : Word} {rest : List Turn} {r : Refusal}
    (h : s.turns = .read size addr :: rest ∨ s.turns = .write size addr v :: rest)
    (hread : hostRead size addr { s with turns := rest } = .refused r)
    (hwrite : hostWrite size addr v { s with turns := rest } = .refused r) : step s = .refused r := by
  rcases h with h | h
  · rw [step_of_turn s _ rest h]; exact hread
  · rw [step_of_turn s _ rest h]; exact hwrite

section
variable {s : State} {size : AccessSize} {addr : Nat} (v : Word)

/-- An LMEM access that `lmemRefusal` names has no move. -/
theorem hostAccess_lmem_refused {a : Nat} {r : Refusal} (hloc : locate s.params addr = some (.lmem a))
    (hr : lmemRefusal s a size.bytes = some r) :
    hostRead size addr s = .refused r ∧ hostWrite size addr v s = .refused r := by
  rw [hostRead, hostWrite, hloc]
  simp only [hr, and_self]

/-- A register access that is not an aligned word has no move. -/
theorem hostAccess_register_refused {offset : Nat} (hloc : locate s.params addr = some (.register offset))
    (h : size ≠ .word ∨ offset % 4 ≠ 0) :
    hostRead size addr s = .refused .hostAccessShape ∧ hostWrite size addr v s = .refused .hostAccessShape := by
  rw [hostRead, hostWrite, hloc]
  have shape : ¬(size = .word ∧ offset % 4 = 0) := not_and_or.mpr h
  simp only [if_neg shape, and_self]

/-- An access in neither window has no move. -/
theorem hostAccess_unmapped_refused (hloc : locate s.params addr = none) :
    hostRead size addr s = .refused .hostAddressUnmapped ∧ hostWrite size addr v s = .refused .hostAddressUnmapped := by
  rw [hostRead, hostWrite, hloc]
  exact ⟨rfl, rfl⟩

end

/-- Settles O21: the window the address lies in says which rule refuses the access. -/
theorem hostMovesOutsideTheContractAreRefused : Obligations.HostMovesOutsideTheContractAreRefused := by
  refine fun s size addr v rest hturns => ⟨fun hreg hlmem => ⟨fun hm => ?_, fun hm misaligned => ?_⟩,
    fun hreg shape => ?_, fun hreg hlmem => ?_⟩
  · obtain ⟨hread, hwrite⟩ := hostAccess_lmem_refused (s := { s with turns := rest }) (size := size) v
      (locate_lmem hreg hlmem) (lmemRefusal_busy hm _ _)
    exact step_refused hturns hread hwrite
  · obtain ⟨hread, hwrite⟩ := hostAccess_lmem_refused (s := { s with turns := rest }) v (locate_lmem hreg hlmem)
      (lmemRefusal_misaligned hm misaligned)
    exact step_refused hturns hread hwrite
  · obtain ⟨hread, hwrite⟩ := hostAccess_register_refused (s := { s with turns := rest }) v (locate_register hreg) shape
    exact step_refused hturns hread hwrite
  · obtain ⟨hread, hwrite⟩ := hostAccess_unmapped_refused (s := { s with turns := rest }) (size := size) v
      (locate_none hreg hlmem)
    exact step_refused hturns hread hwrite

end Sys2Proof.Machine
end

section
/-! PROOFS. The commands that map an array element by element: the four Gray commands, FENC and the whitener
(spec/41_bitcodes.md R140 to R179; spec/42_whitening.md R193 to R199). -/

namespace Sys2Proof.Machine

/-! The Gray commands -/

/-- A command whose rule is `mapSymbols f` maps every symbol. -/
theorem mapSymbols_completes {i : Instr} {s : State} {dst src count : Nat} {cs : List Check} {f : Symbol → Symbol}
    (hexec : exec i s = command 4 cs (mapSymbols f dst src count) s) (passes : ∀ c ∈ cs, c.holds = true)
    (written : Written s src (2 * count)) :
    ∃ t, CompletesWriting i s 4 dst (2 * count) t ∧
      ∀ k < count, ∃ x, SymbolAt s (src + 2 * k) x ∧ SymbolAt t (dst + 2 * k) (f x) := by
  obtain ⟨xs, load, length, symbols⟩ := symbolsAt_of_written written
  have stored : ((xs.map f).flatMap symbolBytes).length = 2 * count := by
    rw [length_flatMap_uniform symbolBytes 2 length_symbolBytes, List.length_map, length]
  refine ⟨_, completesWriting_store hexec passes ((mapSymbols_ok ..).mpr ⟨xs, load, rfl⟩) stored, fun k hk => ?_⟩
  obtain ⟨x, hx, at_src⟩ := symbols k hk
  exact ⟨x, at_src, symbolAt_of_store (xs := xs.map f) rfl (by rw [List.getElem?_map, hx]; rfl)⟩

/-- A left shift is the product by a power of two, in 16 bits. -/
theorem shiftLeft_eq_ofNat_mul (x : Symbol) (n : Nat) : x <<< n = BitVec.ofNat 16 (x.toNat * 2 ^ n) := by
  apply BitVec.eq_of_toNat_eq
  rw [BitVec.toNat_shiftLeft, BitVec.toNat_ofNat, Nat.shiftLeft_eq]

/-- SYMTX as R143 writes it. -/
theorem symtx_eq (sf ppm : Nat) (x : Symbol) : symtx sf ppm x =
    BitVec.ofNat 16 ((igray16 (BitVec.ofNat 16 (x.toNat % 2 ^ ppm))).toNat * 2 ^ (sf - ppm)) :=
  shiftLeft_eq_ofNat_mul _ _

/-- Settles O27: the four commands are `mapSymbols` with their own function. -/
theorem symbolCommandsMapEverySymbol : Obligations.SymbolCommandsMapEverySymbol := by
  intro s dst src count hdst hsrc fitsDst fitsSrc written sh maps
  have passes : ∀ c ∈ symbolChecks dst src count s, c.holds = true := by
    simp [symbolChecks, hdst, hsrc, fitsDst, fitsSrc]
  refine ⟨mapSymbols_completes rfl passes written, mapSymbols_completes rfl passes written, fun hv => ?_⟩
  have passesCfg : ∀ c ∈ cfgValid s :: symbolChecks dst src count s, c.holds = true :=
    List.forall_mem_cons.mpr ⟨hv, passes⟩
  obtain ⟨t, completes, mapped⟩ :=
    mapSymbols_completes (i := .symtx dst src count) rfl passesCfg written
  simp only [symtx_eq] at mapped
  exact ⟨mapSymbols_completes rfl passesCfg written, t, completes, mapped⟩

/-! FENC -/

/-- A command whose rule is `encodeArray enc` encodes every low nibble. -/
theorem encodeArray_completes {i : Instr} {s : State} {dst src count : Nat} {enc : BitVec 4 → Byte}
    (hexec : exec i s = command 4 (byteChecks dst src count s) (encodeArray enc dst src count) s)
    (fitsDst : Fits s dst count) (fitsSrc : Fits s src count) (written : Written s src count) :
    ∃ t, CompletesWriting i s 4 dst count t ∧
      ∀ k < count, ∃ b, ByteAt s (src + k) b ∧ ByteAt t (dst + k) (enc (b.setWidth 4)) := by
  obtain ⟨bs, load, length, bytes⟩ := bytesAt_of_written written
  refine ⟨_, completesWriting_store hexec (by simp [byteChecks, fitsDst, fitsSrc])
    ((encodeArray_ok ..).mpr ⟨bs, load, rfl⟩) (by rw [List.length_map, length]), fun k hk => ?_⟩
  obtain ⟨b, hb, at_src⟩ := bytes k hk
  exact ⟨b, at_src, byteAt_of_store rfl (by rw [List.getElem?_map, hb]; rfl)⟩

/-- The low nibble of a byte as a number. -/
theorem setWidth_four (b : Byte) : b.setWidth 4 = BitVec.ofNat 4 (b.toNat % 16) := by
  apply BitVec.eq_of_toNat_eq
  rw [BitVec.toNat_setWidth, BitVec.toNat_ofNat]
  omega

/-- Settles O31: each FENC command is the one rule with its own encoder. -/
theorem fencWritesEveryCodeword : Obligations.FencWritesEveryCodeword := by
  intro s dst src count fitsDst fitsSrc written p hp
  have run : exec p.1 s = command 4 (byteChecks dst src count s) (encodeArray p.2 dst src count) s := by
    simp only [List.mem_cons, List.not_mem_nil, or_false] at hp
    rcases hp with rfl | rfl | rfl | rfl | rfl
    all_goals rfl
  obtain ⟨t, completes, encoded⟩ := encodeArray_completes run fitsDst fitsSrc written
  simp only [setWidth_four] at encoded
  exact ⟨t, completes, encoded⟩

/-! The whitener -/

/-- The mask of RDD keeps the low 4 + RDD bits of a key (spec/42_whitening.md R193). -/
theorem and_keyMask (k : Byte) {rdd : Nat} (hrdd : rdd ≤ 4) :
    k &&& keyMask rdd = BitVec.ofNat 8 (k.toNat % 2 ^ (4 + rdd)) := by
  have pos : 0 < 2 ^ (4 + rdd) := Nat.two_pow_pos _
  have le : 2 ^ (4 + rdd) ≤ 2 ^ 8 := Nat.pow_le_pow_right (by decide) (by omega)
  apply BitVec.eq_of_toNat_eq
  rw [BitVec.toNat_and, keyMask, BitVec.toNat_ofNat, BitVec.toNat_ofNat,
    Nat.mod_eq_of_lt (show 2 ^ (4 + rdd) - 1 < 2 ^ 8 by omega), Nat.and_two_pow_sub_one_eq_mod]
  exact (Nat.mod_eq_of_lt ((Nat.mod_lt _ pos).trans_le le)).symm

/-- Key `k` after BITOFS keys have been skipped. -/
theorem getElem?_keys_skip (w : Whitener) (bitofs : Nat) {k count : Nat} (hk : k < count) :
    ((w.skip bitofs).keys count)[k]? = some (w.after (bitofs + k)).key := by
  rw [getElem?_keys _ _ _ hk, skip_eq_after, after_add]

/-- Settles O37: both commands are the one rule, from their own start of the stream. -/
theorem whitenXorsTheKeyStream : Obligations.WhitenXorsTheKeyStream := by
  intro s rdd dst src count bitofs hrdd fitsDst fitsSrc written p hp
  obtain ⟨bs, load, length, bytes⟩ := bytesAt_of_written written
  have run : exec p.1 s =
      command 5 (whitenChecks rdd dst src count s) (whitenArray p.2 rdd dst src count bitofs) s := by
    simp only [List.mem_cons, List.not_mem_nil, or_false] at hp
    rcases hp with rfl | rfl
    all_goals rfl
  have passes : ∀ c ∈ whitenChecks rdd dst src count s, c.holds = true := by
    simp [whitenChecks, hrdd, fitsDst, fitsSrc]
  have completes := run.trans (command_completes _ _ _ _ _ passes ((whitenArray_ok ..).mpr ⟨bs, load, rfl⟩))
  refine ⟨_, completes, ?_, sameOutside_of_store rfl (by simp [length]), fun k hk => ?_⟩
  · rw [after_add, ← skip_eq_after bitofs]
    rfl
  · obtain ⟨b, hb, at_src⟩ := bytes k hk
    refine ⟨b, at_src, byteAt_of_store rfl ?_⟩
    rw [List.getElem?_zipWith, hb, getElem?_keys_skip p.2 bitofs hk, ← and_keyMask _ hrdd]

end Sys2Proof.Machine
end

section
/-! PROOFS. ILV and DILV place every bit (spec/43_interleaver.md R210 to R215): the bits of a sum of powers of two, the
elements of an array of blocks, and the two commands. -/

namespace Sys2Proof.Machine

/-! Bits and blocks -/

theorem bitSum_succ (n : Nat) (f : Nat → Bool) : bitSum (n + 1) f = bitSum n f + (f n).toNat * 2 ^ n := by
  rw [bitSum, List.range_succ, List.foldl_append]
  rfl

theorem bitSum_lt (n : Nat) (f : Nat → Bool) : bitSum n f < 2 ^ n := by
  induction n with
  | zero => exact Nat.one_pos
  | succ n ih =>
    have : (f n).toNat * 2 ^ n ≤ 1 * 2 ^ n := Nat.mul_le_mul_right _ (Bool.toNat_le _)
    rw [bitSum_succ, pow_succ]
    omega

theorem testBit_bitSum (n : Nat) (f : Nat → Bool) (m : Nat) : (bitSum n f).testBit m = (decide (m < n) && f m) := by
  induction n with
  | zero => simp [bitSum]
  | succ n ih =>
    rw [bitSum_succ, Nat.add_comm, Nat.mul_comm, Nat.testBit_two_pow_mul_add _ (bitSum_lt n f)]
    split
    · rename_i below
      rw [ih, decide_eq_true below, decide_eq_true (by omega)]
    · rename_i above
      obtain rfl | past := Nat.eq_or_lt_of_not_lt above
      · cases f m <;> simp
      · have small : (f n).toNat < 2 ^ (m - n) := (Bool.toNat_le _).trans_lt (Nat.one_lt_two_pow (by omega))
        rw [Nat.testBit_lt_two_pow small, decide_eq_false (by omega), Bool.false_and]

/-- Bit `m` of a symbol of P codewords (R211). -/
theorem getLsbD_interleaveSymbol {p : Nat} (hp : p ≤ 16) (k : Nat) (cw : List Byte) (m : Nat) :
    (interleaveSymbol p k cw).getLsbD m = (decide (m < p) && (cw.getD ((m + k) % p) 0).getLsbD k) := by
  rw [interleaveSymbol, BitVec.getLsbD_ofNat, testBit_bitSum]
  by_cases h : m < p
  · simp [h, show m < 16 by omega]
  · simp [h]

/-- Bit `k` of a codeword of W symbols (R212). -/
theorem getLsbD_deinterleaveCodeword {w : Nat} (hw : w ≤ 8) (p j : Nat) (sym : List Symbol) (k : Nat) :
    (deinterleaveCodeword w p j sym).getLsbD k =
      (decide (k < w) && (sym.getD k 0).getLsbD (((j : Int) - k) % p).toNat) := by
  rw [deinterleaveCodeword, BitVec.getLsbD_ofNat, testBit_bitSum]
  by_cases h : k < w
  · simp [h, show k < 8 by omega]
  · simp [h]

/-- Block `b` of an array. -/
def blockAt {α : Type} (size b : Nat) (xs : List α) : List α := (xs.drop (b * size)).take size

theorem getElem?_blockAt {α : Type} {size j : Nat} (b : Nat) (xs : List α) (h : j < size) :
    (blockAt size b xs)[j]? = xs[b * size + j]? := by
  rw [blockAt, List.getElem?_take_of_lt h, List.getElem?_drop]

/-- Element `i` of the image of block `b`. -/
theorem getElem?_mapBlocks {α β : Type} {f : List α → List β} {k : Nat} (hf : ∀ xs, (f xs).length = k) (size : Nat)
    {nb b i : Nat} (hb : b < nb) (hi : i < k) (xs : List α) :
    (mapBlocks f size nb xs)[b * k + i]? = (f (blockAt size b xs))[i]? := by
  induction nb generalizing b xs with
  | zero => omega
  | succ nb ih =>
    rw [mapBlocks]
    cases b with
    | zero => rw [List.getElem?_append_left (by rw [hf]; omega), blockAt, Nat.zero_mul, Nat.zero_add, Nat.zero_mul,
      List.drop_zero]
    | succ b =>
      rw [Nat.succ_mul, List.getElem?_append_right (by rw [hf]; omega), hf,
        show b * k + k + i - k = b * k + i by omega, ih (by omega), blockAt, blockAt, List.drop_drop, Nat.succ_mul,
        Nat.add_comm size]

/-- Symbol `k` of block `b` of an interleaved array. -/
theorem getElem?_interleave {w p nb b k : Nat} (hb : b < nb) (hk : k < w) (cw : List Byte) :
    (mapBlocks (interleaveBlock w p) p nb cw)[b * w + k]? = some (interleaveSymbol p k (blockAt p b cw)) := by
  rw [getElem?_mapBlocks (length_interleaveBlock w p) p hb hk, interleaveBlock, List.getElem?_map,
    List.getElem?_range hk]
  rfl

/-- Codeword `j` of block `b` of a deinterleaved array. -/
theorem getElem?_deinterleave {w p nb b j : Nat} (hb : b < nb) (hj : j < p) (sym : List Symbol) :
    (mapBlocks (deinterleaveBlock w p) w nb sym)[b * p + j]? = some (deinterleaveCodeword w p j (blockAt w b sym)) := by
  rw [getElem?_mapBlocks (length_deinterleaveBlock w p) w hb hj, deinterleaveBlock, List.getElem?_map,
    List.getElem?_range hj]
  rfl

/-- An element of a block lies among the whole blocks. -/
theorem block_index_lt {size nb b j : Nat} (hb : b < nb) (hj : j < size) : b * size + j < nb * size :=
  calc b * size + j < (b + 1) * size := by rw [Nat.succ_mul]; omega
    _ ≤ nb * size := Nat.mul_le_mul_right size hb

/-! The commands -/

theorem interleaverChecks_pass {s : State} {rdd a dst src lenDst lenSrc : Nat} (hv : s.cfg.valid = true)
    (hrdd : rdd ≤ 4) (ha : a % 2 = 0) (fitsDst : Fits s dst lenDst) (fitsSrc : Fits s src lenSrc) :
    ∀ c ∈ [cfgValid s, rddLegal rdd, aligned a 2, inBounds s dst lenDst, inBounds s src lenSrc], c.holds = true := by
  simp [hv, hrdd, ha, fitsDst, fitsSrc]

/-- Settles O41: symbol k of a block is `interleaveSymbol` of that block's codewords. -/
theorem ilvPlacesEveryBit : Obligations.IlvPlacesEveryBit := by
  intro s rdd dst src ncw hv hrdd hdst p w nb fitsDst fitsSrc written
  have hp : p ≤ 16 := s.cfg.ppm.isLt.le
  obtain ⟨cw, load, -, bytes⟩ := bytesAt_of_written written
  have passes := interleaverChecks_pass hv hrdd hdst fitsDst fitsSrc
  rw [← Nat.mul_assoc] at passes
  have stored : ((mapBlocks (interleaveBlock w p) p nb cw).flatMap symbolBytes).length = 2 * (nb * w) := by
    rw [length_flatMap_uniform symbolBytes 2 length_symbolBytes, length_mapBlocks _ w p nb (length_interleaveBlock w p)]
  refine ⟨_, completesWriting_store rfl passes ((interleaveArray_ok ..).mpr ⟨cw, load, rfl⟩) stored,
    fun b hb k hk => ⟨_, symbolAt_of_store rfl (getElem?_interleave hb hk cw), fun m hm => ?_, fun m hm => ?_⟩⟩
  · have inBlock : (m + k) % p < p := Nat.mod_lt _ (by omega)
    obtain ⟨c, hc, at_src⟩ := bytes _ (block_index_lt hb inBlock)
    refine ⟨c, at_src, ?_⟩
    rw [getLsbD_interleaveSymbol hp, decide_eq_true hm, List.getD_eq_getElem?_getD, getElem?_blockAt b cw inBlock, hc]
    rfl
  · rw [getLsbD_interleaveSymbol hp, decide_eq_false (by omega), Bool.false_and]

/-- Settles O42: codeword j of a block is `deinterleaveCodeword` of that block's symbols. -/
theorem dilvPlacesEveryBit : Obligations.DilvPlacesEveryBit := by
  intro s rdd dst src nsym hv hrdd hsrc p w nb fitsDst fitsSrc written
  have hw : w ≤ 8 := Nat.add_le_add_left hrdd 4
  obtain ⟨sym, load, -, symbols⟩ := symbolsAt_of_written written
  have passes := interleaverChecks_pass hv hrdd hsrc fitsDst fitsSrc
  rw [← Nat.mul_assoc] at passes
  have stored : (mapBlocks (deinterleaveBlock w p) w nb sym).length = nb * p :=
    length_mapBlocks _ p w nb (length_deinterleaveBlock w p) sym
  refine ⟨_, completesWriting_store rfl passes ((deinterleaveArray_ok ..).mpr ⟨sym, load, rfl⟩) stored,
    fun b hb j hj => ⟨_, byteAt_of_store rfl (getElem?_deinterleave hb hj sym), fun k hk => ?_, fun k hk => ?_⟩⟩
  · obtain ⟨x, hx, at_src⟩ := symbols _ (block_index_lt hb hk)
    refine ⟨x, at_src, ?_⟩
    rw [getLsbD_deinterleaveCodeword hw, decide_eq_true hk, List.getD_eq_getElem?_getD, getElem?_blockAt b sym hk, hx]
    rfl
  · rw [getLsbD_deinterleaveCodeword hw, decide_eq_false (by omega), Bool.false_and]

end Sys2Proof.Machine
end

section
/-! PROOFS. The chirps follow the phase recurrence (spec/44_chirp.md R232, R234, R236, R237): the phase list of the model
is the recurrence, and a phase fits the 28 bits of PHASE. -/

namespace Sys2Proof.Machine

/-- The phase before sample `k` of a chirp that starts at the phase `p` (R232). -/
def chirpPhase (c : Cfg) (d : Direction) (fbin p : Nat) : Nat → Nat
  | 0 => p
  | k + 1 => chirpStep c d fbin k (chirpPhase c d fbin p k)

section
variable (c : Cfg) (d : Direction) (fbin p : Nat)

/-- The phases from sample `i` on are those of the recurrence. -/
theorem getElem?_chirpPhases_from {len k : Nat} (i : Nat) (hk : k < len) :
    (chirpPhases c d fbin len i (chirpPhase c d fbin p i))[k]? = some (chirpPhase c d fbin p (i + k + 1)) := by
  induction len generalizing i k with
  | zero => omega
  | succ len ih =>
    rw [chirpPhases]
    cases k with
    | zero => rfl
    | succ k =>
      rw [List.getElem?_cons_succ, show i + (k + 1) + 1 = i + 1 + k + 1 by omega]
      exact ih (i + 1) (by omega)

/-- Sample `k` has the phase after `k + 1` steps. -/
theorem getElem?_chirpPhases {len k : Nat} (hk : k < len) :
    (chirpPhases c d fbin len 0 p)[k]? = some (chirpPhase c d fbin p (k + 1)) := by
  have := getElem?_chirpPhases_from c d fbin p 0 hk
  rwa [Nat.zero_add] at this

/-- A chirp leaves the phase of its last sample, or the one it began with (R234). -/
theorem chirpEnd_eq (len : Nat) : chirpEnd c d fbin len p = chirpPhase c d fbin p len := by
  cases len with
  | zero => rfl
  | succ len =>
    rw [chirpEnd, List.getLastD_eq_getLast?, List.getLast?_eq_getElem?, length_chirpPhases,
      Nat.add_sub_cancel, getElem?_chirpPhases c d fbin p len.lt_succ_self]
    rfl

theorem u_pos : 0 < c.u := Nat.mul_pos (Nat.two_pow_pos _) (Nat.pow_pos (Nat.succ_pos _))

/-- One step in integers (R232). -/
theorem chirpPhase_succ (k : Nat) : (chirpPhase c d fbin p (k + 1) : Int) =
    ((chirpPhase c d fbin p k : Int) + d.sign * chirpFrequency c fbin k) % (c.u : Int) :=
  Int.toNat_of_nonneg (Int.emod_nonneg _ (Int.natCast_ne_zero.mpr (u_pos c).ne'))

variable {c} in
/-- A phase fits PHASE: U is at most 2^28 up to SF 12. -/
theorem chirpPhase_lt (hsf : c.sf.toNat ≤ 12) {p : Nat} (hp : p < 2 ^ 28) (k : Nat) :
    chirpPhase c d fbin p k < 2 ^ 28 := by
  cases k with
  | zero => exact hp
  | succ k =>
    have ovs : c.ovs ≤ 2 ^ 8 := c.ovsm1.isLt
    have bound : c.u ≤ 2 ^ 28 :=
      calc c.u ≤ 2 ^ 12 * (2 ^ 8) ^ 2 :=
            Nat.mul_le_mul (Nat.pow_le_pow_right (by decide) hsf) (Nat.pow_le_pow_left ovs 2)
        _ = 2 ^ 28 := by decide
    have lt := Int.emod_lt_of_pos ((chirpPhase c d fbin p k : Int) + d.sign * chirpFrequency c fbin k)
      (Int.natCast_pos.mpr (u_pos c))
    rw [← chirpPhase_succ] at lt
    omega

end

/-- A chirp whose checks pass, in one direction. -/
theorem chirpArray_completes {i : Instr} {s : State} {d : Direction} {fbin dst len : Nat}
    (hexec : exec i s = command 3 (chirpChecks fbin dst len s) (chirpArray d fbin dst len) s)
    (passes : ∀ c ∈ chirpChecks fbin dst len s, c.holds = true) (hsf : s.cfg.sf.toNat ≤ 12) :
    ∃ t, exec i s = .next t ∧ t = { s with lmem := t.lmem, phase := t.phase, cpc := s.cpc + 12 } ∧
      t.phase.toNat = chirpPhase s.cfg d fbin s.phase.toNat len ∧ SameOutside dst (8 * len) s t ∧
      ∀ k < len, SampleAt t (dst + 8 * k)
        (numCis s.params.num s.ampl (chirpPhase s.cfg d fbin s.phase.toNat (k + 1)) s.cfg.u) := by
  have completes := hexec.trans (command_completes _ _ _ _ _ passes (chirpArray_ok ..))
  refine ⟨_, completes, rfl, ?_, sameOutside_of_store rfl ?_, fun k hk => sampleAt_of_store rfl ?_⟩
  · rw [advance_phase, chirpEnd_eq, BitVec.toNat_ofNat,
      Nat.mod_eq_of_lt (chirpPhase_lt d fbin hsf s.phase.isLt len)]
  · rw [length_flatMap_uniform sampleBytes 8 length_sampleBytes, List.length_map, length_chirpPhases]
  · rw [List.getElem?_map, getElem?_chirpPhases _ _ _ _ hk]
    rfl

/-- Settles O46: both directions, with the phases of the recurrence. -/
theorem chirpsFollowThePhaseRecurrence : Obligations.ChirpsFollowThePhaseRecurrence := by
  intro s fbin dst len hv hsf ovs nn u hfbin hlen hdst fits p hp
  have passes : ∀ c ∈ chirpChecks fbin dst len s, c.holds = true := by
    have inN : fbin < s.cfg.n := hfbin
    have inNN : len ≤ s.cfg.nn := hlen
    simp [chirpChecks, hv, inN, inNN, hdst, fits]
  obtain ⟨d, sign, run⟩ : ∃ d : Direction, d.sign = p.2 ∧
      exec p.1 s = command 3 (chirpChecks fbin dst len s) (chirpArray d fbin dst len) s := by
    simp only [List.mem_cons, List.not_mem_nil, or_false] at hp
    rcases hp with rfl | rfl
    · exact ⟨.up, rfl, exec_chirpUp ..⟩
    · exact ⟨.down, rfl, exec_chirpDn ..⟩
  obtain ⟨t, completes, frame, phase, outside, samples⟩ := chirpArray_completes run passes hsf
  exact ⟨t, chirpPhase s.cfg d fbin s.phase.toNat, rfl, fun k _ => sign ▸ chirpPhase_succ .., completes, frame, phase,
    outside, samples⟩

end Sys2Proof.Machine
end

section
/-! PROOFS. The commands over samples: MIX and MIX.C with canonical NaNs (spec/44_chirp.md R241 to R244), DETECT and
DETECT.S with the record (spec/45_detector.md R264 to R267; spec/20_memory.md R63). -/

namespace Sys2Proof.Machine

/-! MIX and MIX.C -/

/-- The only NaN that `f32Canon` leaves is the canonical one (R242). -/
theorem f32Canon_of_nan {w : Word} (h : f32IsNaN (f32Canon w) = true) : f32Canon w = f32NaN := by
  unfold f32Canon at h ⊢
  split
  · rfl
  · rename_i hw
    rw [if_neg hw] at h
    exact absurd h hw

/-- A NaN of a result held to a canonical reference is canonical, where the implementation's own is. -/
theorem heldTo_nan {tol : Nat} {r v : Word} (h : f32IsNaN (heldTo tol (f32Canon r) (f32Canon v)) = true) :
    heldTo tol (f32Canon r) (f32Canon v) = f32NaN := by
  rcases heldTo_cases tol (f32Canon r) (f32Canon v) with held | ⟨held, -⟩
  all_goals
    rw [held] at h ⊢
    exact f32Canon_of_nan h

/-- A NaN of a product is the canonical one, whatever the numerics (spec/60_exceptions.md R318). -/
theorem numCmul_nan (kind : NumKind) (x y : Sample) :
    (f32IsNaN (numCmul kind x y).i = true → (numCmul kind x y).i = f32NaN) ∧
      (f32IsNaN (numCmul kind x y).q = true → (numCmul kind x y).q = f32NaN) := by
  cases kind with
  | reference => exact ⟨f32Canon_of_nan, f32Canon_of_nan⟩
  | implementation tol => exact ⟨heldTo_nan, heldTo_nan⟩

/-- A command whose rule is `mixArray f` multiplies every pair, the second operand through `f`. -/
theorem mixArray_completes {i : Instr} {s : State} {dst srca srcb count : Nat} {f : Sample → Sample}
    (hexec : exec i s = command 5 (mixChecks dst srca srcb count s) (mixArray f dst srca srcb count) s)
    (passes : ∀ c ∈ mixChecks dst srca srcb count s, c.holds = true) (writtenA : Written s srca (8 * count))
    (writtenB : Written s srcb (8 * count)) :
    ∃ t, CompletesWriting i s 5 dst (8 * count) t ∧
      ∀ k < count, ∃ x y, SampleAt s (srca + 8 * k) x ∧ SampleAt s (srcb + 8 * k) y ∧
        SampleAt t (dst + 8 * k) (numCmul s.params.num x (f y)) := by
  obtain ⟨xs, loadA, lengthA, samplesA⟩ := samplesAt_of_written writtenA
  obtain ⟨ys, loadB, lengthB, samplesB⟩ := samplesAt_of_written writtenB
  have stored : ((List.zipWith (fun x y => numCmul s.params.num x (f y)) xs ys).flatMap sampleBytes).length =
      8 * count := by
    rw [length_flatMap_uniform sampleBytes 8 length_sampleBytes, List.length_zipWith, lengthA, lengthB, Nat.min_self]
  refine ⟨_, completesWriting_store hexec passes ((mixArray_ok ..).mpr ⟨xs, ys, loadA, loadB, rfl⟩) stored,
    fun k hk => ?_⟩
  obtain ⟨x, hx, at_srca⟩ := samplesA k hk
  obtain ⟨y, hy, at_srcb⟩ := samplesB k hk
  exact ⟨x, y, at_srca, at_srcb, sampleAt_of_store rfl (by rw [List.getElem?_zipWith, hx, hy])⟩

/-- Settles O53: MIX passes the second operand through, MIX.C conjugates it. -/
theorem mixMultipliesEverySamplePair : Obligations.MixMultipliesEverySamplePair := by
  refine ⟨fun s dst srca srcb count hdst hsrca hsrcb fitsDst fitsA fitsB writtenA writtenB p hp => ?_,
    fun kind x y w hw hnan => ?_⟩
  · have passes : ∀ c ∈ mixChecks dst srca srcb count s, c.holds = true := by
      simp [mixChecks, hdst, hsrca, hsrcb, fitsDst, fitsA, fitsB]
    have run : exec p.1 s = command 5 (mixChecks dst srca srcb count s) (mixArray p.2 dst srca srcb count) s := by
      simp only [List.mem_cons, List.not_mem_nil, or_false] at hp
      rcases hp with rfl | rfl
      all_goals rfl
    exact mixArray_completes run passes writtenA writtenB
  · obtain ⟨i, q⟩ := numCmul_nan kind x y
    rcases hw with rfl | rfl
    · exact i hnan
    · exact q hnan

/-! DETECT and DETECT.S -/

/-- The four words of a stored record (spec/20_memory.md R63). -/
theorem wordsAt_of_record {t : State} {dst : Nat} {d : Detection}
    (h : t.lmem.readBytes dst 16 = .ok (recordBytes d)) :
    WordAt t dst (BitVec.ofNat 32 d.maxIndex.toNat) ∧ WordAt t (dst + 4) d.power ∧ WordAt t (dst + 8) d.powerAvg ∧
      WordAt t (dst + 12) d.fIndex := by
  have lt : d.maxIndex.toNat < 2 ^ 32 := d.maxIndex.isLt.trans (by decide)
  have index : leBytes 4 d.maxIndex.toNat = wordBytes (BitVec.ofNat 32 d.maxIndex.toNat) := by
    rw [wordBytes, BitVec.toNat_ofNat, Nat.mod_eq_of_lt lt]
  rw [recordBytes, index] at h
  obtain ⟨h, fIndex⟩ := readBytes_append (k := 12) (l := 4) (by simp) (length_wordBytes _) h
  obtain ⟨h, powerAvg⟩ := readBytes_append (k := 8) (l := 4) (by simp) (length_wordBytes _) h
  obtain ⟨maxIndex, power⟩ := readBytes_append (k := 4) (l := 4) (length_wordBytes _) (length_wordBytes _) h
  exact ⟨wordAt_of_wordBytes maxIndex, wordAt_of_wordBytes power, wordAt_of_wordBytes powerAvg,
    wordAt_of_wordBytes fIndex⟩

/-- Settles O56: both commands detect on the samples read, and DETECT.S stores the record of the results. -/
theorem detectWritesTheResultsAndTheRecord : Obligations.DetectWritesTheResultsAndTheRecord := by
  intro s dst src hv hsrc fits written
  obtain ⟨xs, load, length, samples⟩ := samplesAt_of_written written
  have fitsN : Fits s src (8 * s.cfg.n) := fits
  have detects := (detectAt_ok src s _).mpr ⟨xs, load, rfl⟩
  refine ⟨xs, length, samples, command_completes _ _ _ _ _ (by simp [hv, hsrc, fitsN]) detects,
    fun hdst fitsDst => ?_⟩
  have passes : ∀ c ∈ [cfgValid s, aligned dst 4, aligned src 8, inBounds s dst 16, inBounds s src (8 * s.cfg.n)],
      c.holds = true := by
    simp [hv, hdst, hsrc, fitsDst, fitsN]
  have stores := (detectStore_ok dst src s _).mpr ⟨_, detects, rfl⟩
  have stored := readBytes_writeBytes s.lmem dst (recordBytes (numDetect s.params.num xs))
  rw [length_recordBytes] at stored
  exact ⟨_, command_completes _ _ _ _ _ passes stores, rfl, sameOutside_of_store rfl (length_recordBytes _),
    wordsAt_of_record stored⟩

end Sys2Proof.Machine
end

section
/-! PROOFS. Words in bytes, and the relation between a command and its words (spec/30_encoding.md R90 to R99): what
the decoder answers is said once by that relation. -/

namespace Sys2Proof.Machine

/-! Words in bytes (spec/20_memory.md R62; spec/30_encoding.md R90) -/

/-- The bytes of the number that bytes make are those bytes. -/
theorem leBytes_leNat (bs : List Byte) : leBytes bs.length (leNat bs) = bs := by
  induction bs with
  | nil => rfl
  | cons b bs ih =>
    have low : BitVec.ofNat 8 (leNat (b :: bs)) = b := by
      rw [leNat]
      exact BitVec.eq_of_toNat_eq (by rw [BitVec.toNat_ofNat]; omega)
    have high : leNat (b :: bs) / 256 = leNat bs := by rw [leNat]; omega
    rw [List.length_cons, leBytes, low, high, ih]

theorem length_wordsBytes (ws : List Nat) : (ws.flatMap (leBytes 4)).length = 4 * ws.length :=
  length_flatMap_uniform _ 4 (length_leBytes 4) ws

theorem wordAt_zero_append (w : Nat) (bs : List Byte) : wordAt (leBytes 4 w ++ bs) 0 = w % 2 ^ 32 := by
  rw [wordAt, Nat.mul_zero, List.drop_zero, List.take_left' (length_leBytes 4 w), leNat_leBytes]
  rfl

theorem wordAt_succ_append (w : Nat) (bs : List Byte) (k : Nat) :
    wordAt (leBytes 4 w ++ bs) (k + 1) = wordAt bs k := by
  rw [wordAt, Nat.mul_succ, Nat.add_comm, ← List.drop_drop, List.drop_left' (length_leBytes 4 w), wordAt]

/-- The words of bytes, the header first. -/
theorem words_succ (bs : List Byte) (n : Nat) :
    (List.range (n + 1)).map (wordAt bs) = wordAt bs 0 :: (List.range n).map fun k => wordAt bs (k + 1) := by
  rw [List.range_succ_eq_map, List.map_cons, List.map_map]
  rfl

/-- The words that the bytes of words hold. -/
theorem wordAt_wordsBytes {ws : List Nat} (fit : ∀ w ∈ ws, w < 2 ^ 32) (rest : List Byte) :
    (List.range ws.length).map (wordAt (ws.flatMap (leBytes 4) ++ rest)) = ws := by
  induction ws with
  | nil => rfl
  | cons w ws ih =>
    obtain ⟨hw, hws⟩ := List.forall_mem_cons.mp fit
    rw [List.flatMap_cons, List.append_assoc, List.length_cons, words_succ, wordAt_zero_append, Nat.mod_eq_of_lt hw]
    simp only [wordAt_succ_append]
    exact congrArg (w :: ·) (ih hws)

theorem wordAt_lt (bs : List Byte) (k : Nat) : wordAt bs k < 2 ^ 32 :=
  calc wordAt bs k < 256 ^ ((bs.drop (4 * k)).take 4).length := leNat_lt _
    _ ≤ 256 ^ 4 := Nat.pow_le_pow_right (by decide) (List.length_take_le 4 _)
    _ = 2 ^ 32 := by decide

theorem leBytes_wordAt {bs : List Byte} {k : Nat} (h : 4 * (k + 1) ≤ bs.length) :
    leBytes 4 (wordAt bs k) = (bs.drop (4 * k)).take 4 := by
  have length : ((bs.drop (4 * k)).take 4).length = 4 := by
    rw [List.length_take, List.length_drop]
    omega
  have bytes := leBytes_leNat ((bs.drop (4 * k)).take 4)
  rwa [length] at bytes

/-- Bytes begin with the bytes of the words they hold. -/
theorem wordsBytes_wordAt {bs : List Byte} {n : Nat} (h : 4 * n ≤ bs.length) :
    ((List.range n).map (wordAt bs)).flatMap (leBytes 4) = bs.take (4 * n) := by
  induction n with
  | zero => rfl
  | succ n ih =>
    rw [List.range_succ, List.map_append, List.flatMap_append, ih (by omega), Nat.mul_succ, List.take_add]
    simp only [List.map_cons, List.map_nil, List.flatMap_cons, List.flatMap_nil, List.append_nil, leBytes_wordAt h]

/-! The header (R92, R93, R96, R97) -/

/-- R96 lists the opcodes that have a length. -/
theorem opcodeLength_isSome (opc : Nat) : (opcodeLength opc).isSome = true ↔ opc ∈ definedOpcodes := by
  unfold opcodeLength
  split
  case h_16 => simp_all [definedOpcodes]
  all_goals decide

theorem opcodeLength_pos {opc n : Nat} (h : opcodeLength opc = some n) : 1 ≤ n := by
  unfold opcodeLength at h
  split at h <;> cases h <;> decide

theorem headerLength_eq_ok (h n : Nat) :
    headerLength h = .ok n ↔ opcodeLength (opcode h) = some n ∧ reservedClear h = true := by
  unfold headerLength
  cases opcodeLength (opcode h) with
  | none => simp
  | some m => by_cases clear : reservedClear h = true <;> simp [clear]

theorem headerLength_undefined {h : Nat} (undefined : opcodeLength (opcode h) = none) :
    headerLength h = .error .undefinedOpcode := by
  rw [headerLength, undefined]

theorem headerLength_reserved {h n : Nat} (length : opcodeLength (opcode h) = some n)
    (reserved : reservedClear h = false) : headerLength h = .error .reservedBit := by
  rw [headerLength, length]
  simp [reserved]

/-! Which words stand for which command -/

/-- The header `h` and the operand words `ops` stand for the command `i`. -/
structure StandsFor (h : Nat) (ops : List Nat) (i : Instr) : Prop where
  fit : ∀ w ∈ h :: ops, w < 2 ^ 32
  length : headerLength h = .ok (ops.length + 1)
  meaning : decodeWords h ops = .ok i

/-- Bytes decode to a command exactly where they begin with words that stand for it. -/
theorem decode_eq_ok (bs : List Byte) (i : Instr) :
    decode bs = .ok i ↔ ∃ h ops, StandsFor h ops i ∧ (h :: ops).flatMap (leBytes 4) <+: bs := by
  constructor
  · intro hd
    unfold decode at hd
    split at hd
    case isTrue => cases hd
    split at hd
    case h_1 => cases hd
    rename_i n length
    split at hd
    case isTrue => cases hd
    obtain ⟨m, rfl⟩ := Nat.exists_eq_add_of_le' (opcodeLength_pos ((headerLength_eq_ok _ n).mp length).1)
    rw [Nat.add_sub_cancel] at hd
    refine ⟨_, _, ⟨?_, by simpa using length, hd⟩, ?_⟩
    · rw [← words_succ]
      exact List.forall_mem_map.mpr fun k _ => wordAt_lt bs k
    · rw [← words_succ, wordsBytes_wordAt (by omega)]
      exact ⟨_, List.take_append_drop _ bs⟩
  · rintro ⟨h, ops, ⟨fit, length, meaning⟩, rest, rfl⟩
    have words := wordAt_wordsBytes fit rest
    rw [List.length_cons, words_succ] at words
    obtain ⟨header, operands⟩ := List.cons_eq_cons.mp words
    have bytes : ((h :: ops).flatMap (leBytes 4) ++ rest).length = 4 * (ops.length + 1) + rest.length := by
      rw [List.length_append, length_wordsBytes, List.length_cons]
    unfold decode
    rw [if_neg (by omega), header, length]
    dsimp only
    rw [if_neg (by omega), Nat.add_sub_cancel, operands, meaning]

end Sys2Proof.Machine
end

section
/-! PROOFS. Encoding and decoding agree (spec/30_encoding.md R91 to R99): a well-formed command's words are the only
ones that stand for it. -/

namespace Sys2Proof.Machine

/-! The fields of a header word (R93, R94) -/

theorem fits_iff (width v : Nat) : fits width v = true ↔ v < 2 ^ width := decide_eq_true_iff

theorem fitWords_iff (vs : List Nat) : fitWords vs = true ↔ ∀ v ∈ vs, v < 2 ^ 32 := by
  simp only [fitWords, List.all_eq_true, fits_iff]

theorem fits_bits (v lo width : Nat) : fits width (bits v lo width) = true :=
  (fits_iff _ _).mpr (Nat.mod_lt _ (Nat.two_pow_pos width))

/-- A flag of one bit (R93). -/
theorem bits_one (v lo : Nat) : bits v lo 1 = 0 ∨ bits v lo 1 = 1 := by
  unfold bits
  omega

theorem reservedClear_iff {h opc : Nat} (hopc : opcode h = opc) :
    reservedClear h = true ↔ ∀ f ∈ reservedFields opc, bits h f.1 f.2 = 0 := by
  simp only [reservedClear, hopc, List.all_eq_true, beq_iff_eq]

theorem header_nil (opc : Nat) : header opc [] = opc := by rw [header, List.foldr_nil]

theorem header_cons (opc lo v : Nat) (fields : List (Nat × Nat)) :
    header opc ((lo, v) :: fields) = v * 2 ^ lo + header opc fields := by
  rw [header, List.foldr_cons, header]

/-- The immediate fields of a header word with a defined opcode, as (lowest bit, width) pairs (R93). -/
def headerFields : Nat → List (Nat × Nat)
  | 0x02 => [(8, 4), (12, 4), (16, 8)]
  | 0x10 => [(8, 1), (12, 12)]
  | 0x11 => [(8, 1)]
  | 0x20 => [(8, 1)]
  | 0x30 => [(8, 1), (9, 1)]
  | 0x40 => [(8, 3)]
  | 0x41 => [(8, 3)]
  | 0x50 => [(8, 3)]
  | 0x51 => [(8, 3)]
  | 0x60 => [(8, 3), (11, 1)]
  | _ => []

/-- A header with nothing above its opcode is the opcode. -/
theorem opcode_eq_self {h : Nat} (lt : h < 2 ^ 32) (clear : bits h 8 24 = 0) : opcode h = h := by
  unfold bits at clear
  unfold opcode bits
  omega

/-- A header whose reserved bits are 0 holds its opcode and its fields, and nothing else. -/
theorem header_headerFields {h opc : Nat} (lt : h < 2 ^ 32) (hopc : opcode h = opc) (clear : reservedClear h = true) :
    header opc ((headerFields opc).map fun f => (f.1, bits h f.1 f.2)) = h := by
  rw [reservedClear_iff hopc] at clear
  unfold reservedFields at clear
  split at clear
  case h_11 =>
    simp only [headerFields, List.map_nil, header_nil]
    exact hopc.symm.trans (opcode_eq_self lt (clear (8, 24) (List.mem_singleton_self _)))
  all_goals
    simp only [List.forall_mem_cons, List.not_mem_nil, false_imp_iff, implies_true, and_true, bits] at clear
    simp only [headerFields, List.map_cons, List.map_nil, header_cons, header_nil, bits]
    unfold opcode bits at hopc
    omega

/-- Fields from bit 8 up leave the opcode of a header as it is. -/
theorem opcode_header {opc : Nat} (hopc : opc < 2 ^ 8) {fields : List (Nat × Nat)}
    (above : ∀ f ∈ fields, 8 ≤ f.1) : opcode (header opc fields) = opc := by
  induction fields with
  | nil => rw [header_nil, opcode, bits, Nat.pow_zero, Nat.div_one, Nat.mod_eq_of_lt hopc]
  | cons f fields ih =>
    obtain ⟨lo, v⟩ := f
    obtain ⟨hlo, tailAbove⟩ := List.forall_mem_cons.mp above
    obtain ⟨k, rfl⟩ := Nat.exists_eq_add_of_le hlo
    have aligned : v * 2 ^ (8 + k) = 2 ^ 8 * (2 ^ k * v) := by ring
    have tail := ih tailAbove
    simp only [opcode, bits, Nat.pow_zero, Nat.div_one] at tail ⊢
    rw [header_cons, aligned, Nat.mul_add_mod, tail]

section
variable {sf ppm ovsm1 rdd flag fbin : Nat}

theorem setcfg_header (hsf : sf < 2 ^ 4) (hppm : ppm < 2 ^ 4) (hovsm1 : ovsm1 < 2 ^ 8) :
    let h := header 0x02 [(8, sf), (12, ppm), (16, ovsm1)]
    h < 2 ^ 32 ∧ opcode h = 0x02 ∧ reservedClear h = true ∧ bits h 8 4 = sf ∧ bits h 12 4 = ppm ∧
      bits h 16 8 = ovsm1 := by
  intro h
  have hopc : opcode h = 0x02 := opcode_header (by decide) (by simp)
  refine ⟨?_, hopc, (reservedClear_iff hopc).mpr ?_, ?_, ?_, ?_⟩
  all_goals
    simp only [reservedFields, List.forall_mem_singleton, h, header_cons, header_nil, bits]
    omega

theorem chirp_header (hflag : flag < 2 ^ 1) (hfbin : fbin < 2 ^ 12) :
    let h := header 0x10 [(8, flag), (12, fbin)]
    h < 2 ^ 32 ∧ opcode h = 0x10 ∧ reservedClear h = true ∧ bits h 8 1 = flag ∧ bits h 12 12 = fbin := by
  intro h
  have hopc : opcode h = 0x10 := opcode_header (by decide) (by simp)
  refine ⟨?_, hopc, (reservedClear_iff hopc).mpr ?_, ?_, ?_⟩
  all_goals
    simp only [reservedFields, List.forall_mem_cons, List.not_mem_nil, false_imp_iff, implies_true, and_true, h,
      header_cons, header_nil, bits]
    omega

theorem whiten_header (hrdd : rdd < 2 ^ 3) (hflag : flag < 2 ^ 1) :
    let h := header 0x60 [(8, rdd), (11, flag)]
    h < 2 ^ 32 ∧ opcode h = 0x60 ∧ reservedClear h = true ∧ bits h 8 3 = rdd ∧ bits h 11 1 = flag := by
  intro h
  have hopc : opcode h = 0x60 := opcode_header (by decide) (by simp)
  refine ⟨?_, hopc, (reservedClear_iff hopc).mpr ?_, ?_, ?_⟩
  all_goals
    simp only [reservedFields, List.forall_mem_singleton, h, header_cons, header_nil, bits]
    omega

theorem interleaver_header {opc : Nat} (hopc : opc = 0x50 ∨ opc = 0x51) (hrdd : rdd < 2 ^ 3) :
    let h := header opc [(8, rdd)]
    h < 2 ^ 32 ∧ opcode h = opc ∧ reservedClear h = true ∧ bits h 8 3 = rdd := by
  intro h
  have eq : opcode h = opc := opcode_header (by omega) (by simp)
  refine ⟨?_, eq, (reservedClear_iff eq).mpr ?_, ?_⟩
  all_goals
    rcases hopc with rfl | rfl
    all_goals
      simp only [reservedFields, List.forall_mem_singleton, h, header_cons, header_nil, bits]
      omega

end

/-! The words of a command stand for it -/

/-- The fit of a header and of its operand words (R91, R94). -/
theorem words_fit {h : Nat} {ops : List Nat} (hh : h < 2 ^ 32) (hops : fitWords ops = true) :
    ∀ w ∈ h :: ops, w < 2 ^ 32 :=
  List.forall_mem_cons.mpr ⟨hh, (fitWords_iff ops).mp hops⟩

/-- Words stand for a command by what the fields of its header are. -/
theorem StandsFor.of_header {h opc : Nat} {ops : List Nat} {i : Instr} {fields : Prop}
    (hheader : h < 2 ^ 32 ∧ opcode h = opc ∧ reservedClear h = true ∧ fields) (hops : fitWords ops = true)
    (length : opcodeLength opc = some (ops.length + 1))
    (meaning : opcode h = opc → fields → decodeWords h ops = .ok i) : StandsFor h ops i := by
  obtain ⟨lt, hopc, clear, hfields⟩ := hheader
  exact ⟨words_fit lt hops, (headerLength_eq_ok ..).mpr ⟨hopc ▸ length, clear⟩, meaning hopc hfields⟩

/-- What `encode` gives for a well-formed command stands for it. -/
theorem standsFor_encode {i : Instr} (wf : i.wellFormed = true) {h : Nat} {ops : List Nat} (e : encode i = h :: ops) :
    StandsFor h ops i := by
  cases i with
  | nop | halt | clrstat => cases e; exact ⟨words_fit (by decide) rfl, rfl, rfl⟩
  | setampl ampl =>
    cases e
    refine ⟨words_fit (by decide) ((fitWords_iff _).mpr (by simpa using ampl.isLt)), rfl, ?_⟩
    exact congrArg (Except.ok ∘ Instr.setampl) (BitVec.ofNat_toNat 32 ampl)
  | setphase p =>
    cases e
    exact ⟨words_fit (by decide) (by simpa [fitWords, Instr.wellFormed] using wf), rfl, rfl⟩
  | gray | igray | symrx | symtx | fencRaw | fencP54 | fencP64 | fencH74 | fencH84 | fdecRaw | fdecP54 | fdecP64
  | fdecH74 | fdecH84 | mix | mixC | detect | detectS =>
    cases e
    exact ⟨words_fit (by decide) wf, rfl, rfl⟩
  | setcfg =>
    cases e
    simp only [Instr.wellFormed, Bool.and_eq_true, fits_iff] at wf
    obtain ⟨⟨hsf, hppm⟩, hovsm1⟩ := wf
    exact StandsFor.of_header (setcfg_header hsf hppm hovsm1) rfl rfl (by simp +contextual [decodeWords])
  | chirpUp | chirpDn =>
    cases e
    simp only [Instr.wellFormed, Bool.and_eq_true, fits_iff] at wf
    obtain ⟨hfbin, hops⟩ := wf
    exact StandsFor.of_header (chirp_header (by decide) hfbin) hops rfl (by simp +contextual [decodeWords])
  | whiten | whitenC =>
    cases e
    simp only [Instr.wellFormed, Bool.and_eq_true, fits_iff] at wf
    obtain ⟨hrdd, hops⟩ := wf
    exact StandsFor.of_header (whiten_header hrdd (by decide)) hops rfl (by simp +contextual [decodeWords])
  | ilv | dilv =>
    cases e
    simp only [Instr.wellFormed, Bool.and_eq_true, fits_iff] at wf
    obtain ⟨hrdd, hops⟩ := wf
    exact StandsFor.of_header (interleaver_header (by decide) hrdd) hops rfl (by simp +contextual [decodeWords])

/-! The words that stand for a command are its own -/

theorem encode_of_fencVariant {rdd dst src count : Nat} {i : Instr} (h : fencVariant rdd dst src count = .ok i) :
    encode i = [header 0x40 [(8, rdd)], dst, src, count] ∧ i.wellFormed = fitWords [dst, src, count] := by
  unfold fencVariant at h
  split at h <;> cases h <;> exact ⟨rfl, rfl⟩

theorem encode_of_fdecVariant {rdd dst src count : Nat} {i : Instr} (h : fdecVariant rdd dst src count = .ok i) :
    encode i = [header 0x41 [(8, rdd)], dst, src, count] ∧ i.wellFormed = fitWords [dst, src, count] := by
  unfold fdecVariant at h
  split at h <;> cases h <;> exact ⟨rfl, rfl⟩

/-- Words that stand for a command are those that `encode` gives for it, and its fields fit them. -/
theorem StandsFor.encode_eq {h : Nat} {ops : List Nat} {i : Instr} (stands : StandsFor h ops i) :
    i.wellFormed = true ∧ encode i = h :: ops := by
  obtain ⟨fit, length, meaning⟩ := stands
  obtain ⟨length, clear⟩ := (headerLength_eq_ok ..).mp length
  obtain ⟨lt, hops⟩ := List.forall_mem_cons.mp fit
  have hops := (fitWords_iff ops).mpr hops
  have hheader := header_headerFields lt rfl clear
  rw [← hheader]
  generalize hopc : opcode h = opc at length hheader
  unfold decodeWords at meaning
  rw [hopc] at meaning
  split at meaning
  case h_16 => cases meaning
  all_goals
    simp only [opcodeLength, Option.some.injEq, Nat.reduceEqDiff] at length
    simp only [headerFields, List.map_cons, List.map_nil]
  case h_1 | h_2 | h_6 => -- NOP, HALT, CLRSTAT
    obtain rfl := List.eq_nil_of_length_eq_zero length
    cases meaning
    exact ⟨rfl, rfl⟩
  case h_3 => -- SETCFG
    obtain rfl := List.eq_nil_of_length_eq_zero length
    cases meaning
    exact ⟨by simp only [Instr.wellFormed, fits_bits, Bool.and_self], rfl⟩
  case h_4 => -- SETAMPL
    obtain ⟨w1, rfl⟩ := List.length_eq_one_iff.mp length
    cases meaning
    have word : (BitVec.ofNat 32 w1).toNat = w1 := Nat.mod_eq_of_lt (by simpa [fitWords, fits_iff] using hops)
    exact ⟨rfl, congrArg (header 0x03 [] :: [·]) word⟩
  case h_5 => -- SETPHASE
    obtain ⟨w1, rfl⟩ := List.length_eq_one_iff.mp length
    cases meaning
    exact ⟨by simpa [fitWords, Instr.wellFormed] using hops, rfl⟩
  case h_7 => -- CHIRP
    obtain ⟨w1, w2, rfl⟩ := List.length_eq_two.mp length
    rcases bits_one h 8 with flag | flag
    all_goals
      rw [flag] at meaning ⊢
      cases meaning
      exact ⟨by rw [Instr.wellFormed, fits_bits]; exact hops, rfl⟩
  case h_8 => -- MIX
    obtain ⟨w1, w2, w3, w4, rfl⟩ := List.length_eq_four.mp length
    rcases bits_one h 8 with flag | flag
    all_goals
      rw [flag] at meaning ⊢
      cases meaning
      exact ⟨hops, rfl⟩
  case h_9 => -- DETECT
    obtain ⟨w1, w2, rfl⟩ := List.length_eq_two.mp length
    rcases bits_one h 8 with flag | flag
    all_goals
      rw [flag] at meaning ⊢
      cases meaning
      exact ⟨hops, rfl⟩
  case h_10 => -- GRAY, IGRAY, SYMRX, SYMTX
    obtain ⟨w1, w2, w3, rfl⟩ := List.length_eq_three.mp length
    rcases bits_one h 8 with flag | flag <;> rcases bits_one h 9 with flag' | flag'
    all_goals
      rw [flag, flag'] at meaning ⊢
      cases meaning
      exact ⟨hops, rfl⟩
  case h_11 => -- FENC
    obtain ⟨w1, w2, w3, rfl⟩ := List.length_eq_three.mp length
    obtain ⟨words, wf⟩ := encode_of_fencVariant meaning
    exact ⟨wf.trans hops, words⟩
  case h_12 => -- FDEC
    obtain ⟨w1, w2, w3, rfl⟩ := List.length_eq_three.mp length
    obtain ⟨words, wf⟩ := encode_of_fdecVariant meaning
    exact ⟨wf.trans hops, words⟩
  case h_13 | h_14 => -- ILV, DILV
    obtain ⟨w1, w2, w3, rfl⟩ := List.length_eq_three.mp length
    cases meaning
    exact ⟨by rw [Instr.wellFormed, fits_bits]; exact hops, rfl⟩
  case h_15 => -- WHITEN
    obtain ⟨w1, w2, w3, w4, rfl⟩ := List.length_eq_four.mp length
    rcases bits_one h 11 with flag | flag
    all_goals
      rw [flag] at meaning ⊢
      cases meaning
      exact ⟨by rw [Instr.wellFormed, fits_bits]; exact hops, rfl⟩

/-- A command's words, and no others, stand for it, where it is well-formed. -/
theorem standsFor_iff (h : Nat) (ops : List Nat) (i : Instr) :
    StandsFor h ops i ↔ i.wellFormed = true ∧ encode i = h :: ops :=
  ⟨StandsFor.encode_eq, fun ⟨wf, words⟩ => standsFor_encode wf words⟩

theorem exists_encode_eq_cons (i : Instr) : ∃ h ops, encode i = h :: ops := by
  cases i <;> exact ⟨_, _, rfl⟩

/-! The obligations -/

/-- Settles O1: the words of the command stand for it, and its bytes are those of its words. -/
theorem decodeOfEncodeGivesTheCommand : Obligations.DecodeOfEncodeGivesTheCommand := by
  intro i rest wf
  obtain ⟨h, ops, words⟩ := exists_encode_eq_cons i
  refine (decode_eq_ok ..).mpr ⟨h, ops, (standsFor_iff ..).mpr ⟨wf, words⟩, ?_⟩
  rw [encodeBytes, words]
  exact ⟨rest, rfl⟩

/-- Settles O2: the words that the bytes begin with stand for the command, so they are its own. -/
theorem decodedBytesAreTheCommandsEncoding : Obligations.DecodedBytesAreTheCommandsEncoding := by
  intro bs i hd
  obtain ⟨h, ops, stands, rest, rfl⟩ := (decode_eq_ok ..).mp hd
  obtain ⟨wf, words⟩ := (standsFor_iff ..).mp stands
  rw [← words, encodeBytes]
  exact ⟨wf, List.take_left' (length_wordsBytes _)⟩

/-- Settles O3: the words are evaluated, and their decoding follows from O1. -/
theorem specExamplesEncodeAndDecode : Obligations.SpecExamplesEncodeAndDecode := by
  intro p hp
  have words : encode p.1 = p.2 ∧ p.1.wellFormed = true := by
    revert p
    decide
  have decoded := decodeOfEncodeGivesTheCommand p.1 [] words.2
  rw [List.append_nil, encodeBytes, words.1] at decoded
  exact ⟨words.1, decoded⟩

end Sys2Proof.Machine
end

section
/-! PROOFS. The sequencer's fetch (spec/30_encoding.md R97; spec/60_exceptions.md R300): it runs the command that the
bytes at CPC decode to, and stops at the decode errors in their order. -/

namespace Sys2Proof.Machine

/-! A step of the running sequencer -/

theorem step_running {s : State} (hm : s.mode = .run) (ht : s.turns = []) : step s = runCommand s := by
  rw [step_of_no_turns s ht, sequencerMove_run s hm]

theorem runCommand_of_command {s : State} {i : Instr} (h : fetch s = .command i) : runCommand s = exec i s := by
  rw [runCommand, h]

theorem runCommand_of_raises {s : State} {e : ErrCode} (h : fetch s = .raises e) :
    runCommand s = .next (stopped e s) := by
  rw [runCommand, h]
  rfl

/-! Fetching a command -/

/-- The fetch reads the words whose bytes stand at its address. -/
theorem fetchWords_wordsBytes {m : Memory} {a : Nat} {ws : List Nat} (fit : ∀ w ∈ ws, w < 2 ^ 32)
    (bytes : m.readBytes a (4 * ws.length) = .ok (ws.flatMap (leBytes 4))) :
    fetchWords m a ws.length = .ok ws := by
  induction ws generalizing a with
  | nil => rfl
  | cons w ws ih =>
    obtain ⟨hw, hws⟩ := List.forall_mem_cons.mp fit
    rw [List.flatMap_cons, List.length_cons, Nat.mul_succ, Nat.add_comm] at bytes
    obtain ⟨first, others⟩ := readBytes_append (length_leBytes 4 w) (length_wordsBytes ws) bytes
    rw [List.length_cons, fetchWords, read_of_leBytes first hw]
    simp only [ih hws others]

/-- Words that stand for a command are fetched as that command. -/
theorem fetch_of_standsFor {s : State} {h : Nat} {ops : List Nat} {i : Instr} (stands : StandsFor h ops i)
    (inside : s.cpc.toNat + 4 * (h :: ops).length ≤ s.params.lmemBytes)
    (bytes : s.lmem.readBytes s.cpc.toNat (4 * (h :: ops).length) = .ok ((h :: ops).flatMap (leBytes 4))) :
    fetch s = .command i := by
  obtain ⟨fit, length, meaning⟩ := stands
  obtain ⟨hh, hops⟩ := List.forall_mem_cons.mp fit
  rw [List.length_cons] at inside
  rw [List.flatMap_cons, List.length_cons, Nat.mul_succ, Nat.add_comm] at bytes
  obtain ⟨headerBytes, operandBytes⟩ := readBytes_append (length_leBytes 4 h) (length_wordsBytes ops) bytes
  rw [fetch, if_neg (by omega), read_of_leBytes headerBytes hh]
  simp only [fetchOperands, length, Nat.add_sub_cancel, fetchWords_wordsBytes hops operandBytes, meaning]
  rw [if_neg (by omega)]

/-- Bytes at CPC that decode to a command are fetched as that command. -/
theorem fetch_of_decode {s : State} {n : Nat} {bs : List Byte} {i : Instr}
    (inside : s.cpc.toNat + n ≤ s.params.lmemBytes) (bytes : s.lmem.readBytes s.cpc.toNat n = .ok bs)
    (hd : decode bs = .ok i) : fetch s = .command i := by
  obtain ⟨h, ops, stands, rest, rfl⟩ := (decode_eq_ok ..).mp hd
  have count := ((readBytes_eq_ok ..).mp bytes).1
  rw [List.length_append, length_wordsBytes] at count
  subst count
  exact fetch_of_standsFor stands (by omega) (readBytes_append (length_wordsBytes _) rfl bytes).1

/-- Settles O6: the fetch gives the decoded command, with the turn taken off the list or without. -/
theorem stepRunsTheDecodedCommand : Obligations.StepRunsTheDecodedCommand := by
  intro s n bs i hm inside bytes hd
  refine ⟨fun ht => ?_, fun rest ht => ?_⟩
  · rw [step_running hm ht, runCommand_of_command (fetch_of_decode inside bytes hd)]
  · rw [step_of_turn s _ rest ht, takeTurn, sequencerMove_run _ (by exact hm)]
    exact runCommand_of_command (fetch_of_decode (s := { s with turns := rest }) inside bytes hd)

/-! Reserved bits as a mask (R93) -/

/-- The bits of the field of `width` bits from bit `lo` up. -/
def fieldMask (lo width : Nat) : Word := BitVec.ofNat 32 ((2 ^ width - 1) * 2 ^ lo)

theorem getLsbD_fieldMask (lo width k : Nat) :
    (fieldMask lo width).getLsbD k = (decide (k < 32) && (decide (lo ≤ k) && decide (k - lo < width))) := by
  rw [fieldMask, BitVec.getLsbD_ofNat, Nat.testBit_mul_two_pow, Nat.testBit_two_pow_sub_one]

theorem testBit_bits (h : Word) (lo width k : Nat) :
    (bits h.toNat lo width).testBit k = (decide (k < width) && h.getLsbD (lo + k)) := by
  rw [bits, Nat.testBit_mod_two_pow, Nat.testBit_div_two_pow, Nat.add_comm k, BitVec.testBit_toNat]

/-- A field is 0 where the header has no bit of its mask. -/
theorem and_fieldMask_eq_zero (h : Word) (lo width : Nat) :
    h &&& fieldMask lo width = 0 ↔ bits h.toNat lo width = 0 := by
  constructor
  · intro hz
    refine Nat.eq_of_testBit_eq fun k => ?_
    have bit := congrArg (BitVec.getLsbD · (lo + k)) hz
    simp only [BitVec.getLsbD_and, getLsbD_fieldMask] at bit
    rw [testBit_bits, Nat.zero_testBit]
    by_cases hk : lo + k < 32
    · simpa [hk, Bool.and_comm] using bit
    · rw [BitVec.getLsbD_of_ge h _ (Nat.not_lt.mp hk), Bool.and_false]
  · intro hz
    refine BitVec.eq_of_getLsbD_eq fun k hk => ?_
    rw [BitVec.getLsbD_and, getLsbD_fieldMask, BitVec.ofNat_eq_ofNat, BitVec.getLsbD_zero]
    by_cases hlo : lo ≤ k
    · have bit := congrArg (Nat.testBit · (k - lo)) hz
      simpa [testBit_bits, Nat.add_sub_cancel' hlo, hk, hlo, Bool.and_comm] using bit
    · simp [hlo]

/-- The mask of R93 is that of the listed fields. -/
theorem reservedMask_eq (opc : Nat) :
    reservedMask opc = ((reservedFields opc).map fun f => fieldMask f.1 f.2).foldr (· ||| ·) 0 := by
  unfold reservedMask
  split
  case h_11 => simp only [reservedFields, List.map_cons, List.map_nil, List.foldr_cons, List.foldr_nil]; rfl
  all_goals rfl

theorem and_reservedMask_eq_zero (h : Word) :
    h &&& reservedMask (opcode h.toNat) = 0 ↔ reservedClear h.toNat = true := by
  rw [reservedMask_eq, reservedClear_iff rfl]
  induction reservedFields (opcode h.toNat) with
  | nil => simp
  | cons f fs ih =>
    rw [List.forall_mem_cons, ← ih, ← and_fieldMask_eq_zero, List.map_cons, List.foldr_cons,
      BitVec.and_or_distrib_left]
    exact BitVec.or_eq_zero_iff

/-! The errors of a fetch -/

theorem opcode_eq_mod (h : Nat) : opcode h = h % 256 := by rw [opcode, bits, Nat.pow_zero, Nat.div_one]; rfl

section
variable {s : State}

/-- Step 1 of R97: no header word before the end of LMEM. -/
theorem fetch_header_outside (outside : s.params.lmemBytes < s.cpc.toNat + 4) : fetch s = .raises .fetch := by
  rw [fetch, if_pos outside]

theorem fetch_of_header {h : Nat} (hh : s.lmem.read s.cpc.toNat 4 = .ok h)
    (inside : s.cpc.toNat + 4 ≤ s.params.lmemBytes) : fetch s = fetchOperands s h := by
  rw [fetch, if_neg (by omega), hh]

/-- Steps 2 and 3 of R97: the header is rejected. -/
theorem fetchOperands_rejected {h : Nat} {r : Reject} (hr : headerLength h = .error r) :
    fetchOperands s h = .raises (Reject.errCode r) := by
  rw [fetchOperands, hr]

/-- Step 4 of R97: operand words beyond the end of LMEM. -/
theorem fetchOperands_outside {h n : Nat} (length : headerLength h = .ok n)
    (outside : s.params.lmemBytes < s.cpc.toNat + 4 * n) : fetchOperands s h = .raises .fetch := by
  rw [fetchOperands, length]
  exact if_pos outside

end

/-- Settles O4: each step of R97 in turn. -/
theorem decodeErrorsStopTheRunInOrder : Obligations.DecodeErrorsStopTheRunInOrder := by
  intro s hm ht
  rw [step_running hm ht]
  refine ⟨fun outside => runCommand_of_raises (fetch_header_outside outside), fun h hh inside => ?_⟩
  have fetched := fetch_of_header hh inside
  simp only [ne_eq, ← opcode_eq_mod, and_reservedMask_eq_zero]
  refine ⟨fun undefined => ?_, fun defined reserved => ?_, fun n length clear outside => ?_⟩
  · have none : opcodeLength (opcode h.toNat) = none := by
      rwa [← opcodeLength_isSome, Option.not_isSome_iff_eq_none] at undefined
    exact runCommand_of_raises (fetched.trans (fetchOperands_rejected (headerLength_undefined none)))
  · obtain ⟨n, length⟩ := Option.isSome_iff_exists.mp ((opcodeLength_isSome _).mpr defined)
    exact runCommand_of_raises
      (fetched.trans (fetchOperands_rejected (headerLength_reserved length (by simpa using reserved))))
  · exact runCommand_of_raises
      (fetched.trans (fetchOperands_outside ((headerLength_eq_ok ..).mpr ⟨length, clear⟩) outside))

end Sys2Proof.Machine
end

section
/-! PROOFS. SETCFG, SETAMPL and SETPHASE (spec/40_control.md R122 to R125). -/

namespace Sys2Proof.Machine

theorem exec_setcfg (sf ppm ovsm1 : Nat) (s : State) : exec (.setcfg sf ppm ovsm1) s = execSetcfg sf ppm ovsm1 s := rfl

theorem exec_setampl (w : Word) (s : State) : exec (.setampl w) s = execSetampl w s := rfl

theorem exec_setphase (p : Nat) (s : State) : exec (.setphase p) s = execSetphase p s := rfl

/-- Settles O25: both checks hold, or one of them raises E_CFG; the fields fit the register's. -/
theorem setcfgConfiguresOrRaisesCfg : Obligations.SetcfgConfiguresOrRaisesCfg := by
  intro s sf ppm ovsm1 wf
  simp only [Instr.wellFormed, Bool.and_eq_true, fits_iff] at wf
  obtain ⟨⟨hsf, hppm⟩, hovsm1⟩ := wf
  rw [exec_setcfg, execSetcfg]
  refine ⟨fun low high le => ?_, fun illegal => ?_⟩
  · have heffective : effectivePpm sf ppm < 2 ^ 4 := by unfold effectivePpm; split <;> assumption
    exact ⟨_, command_completes _ _ _ _ _ (by simp [low, high, le]) rfl, rfl, rfl, Nat.mod_eq_of_lt hsf,
      Nat.mod_eq_of_lt heffective, Nat.mod_eq_of_lt hovsm1⟩
  · refine command_stops (firstFailure_of_group (pre := [])
      (group := [⟨decide (7 ≤ sf ∧ sf ≤ 12), .cfg⟩, ⟨decide (ppm ≤ sf), .cfg⟩]) [] (by simp) ?_ (by simp))
    simp only [List.exists_mem_cons_iff, List.not_mem_nil, false_and, exists_false, or_false, decide_eq_false_iff_not]
    omega

/-- The exponent field of an infinity or a NaN (spec/00_scope.md R14). -/
theorem nonFinite_iff_exponent (w : Word) : nonFinite w = true ↔ w.toNat / 2 ^ 23 % 256 = 255 := by
  rw [nonFinite_iff, f32Mag]
  omega

theorem setampl_completes {w : Word} (finite : nonFinite w = false) (s : State) :
    exec (.setampl w) s = .next { s with ampl := w, cpc := s.cpc + 8 }  := by
  rw [exec_setampl, execSetampl]
  exact command_completes _ _ _ _ { s with ampl := w } (by simp [finite]) rfl

theorem setampl_stops {w : Word} (infinite : nonFinite w = true) (s : State) :
    exec (.setampl w) s = .next (stopped .range s)  := by
  rw [exec_setampl, execSetampl]
  exact command_stops (by simp [firstFailure_cons, infinite])

section
variable {s : State} {p : Nat}

theorem setphase_unconfigured (hv : s.cfg.valid = false) : exec (.setphase p) s = .next (stopped .noCfg s)  := by
  rw [exec_setphase, execSetphase]
  exact command_stops (firstFailure_noCfg hv _)

theorem setphase_stops (hv : s.cfg.valid = true) (le : s.cfg.u ≤ p) :
    exec (.setphase p) s = .next (stopped .range s)  := by
  rw [exec_setphase, execSetphase]
  exact command_stops ((firstFailure_cfgValid_cons hv _).trans (by simp [firstFailure_cons, le]))

theorem setphase_completes (hv : s.cfg.valid = true) (lt : p < s.cfg.u) :
    exec (.setphase p) s = .next { s with phase := BitVec.ofNat 28 p, cpc := s.cpc + 8 }  := by
  rw [exec_setphase, execSetphase]
  exact command_completes _ _ _ _ { s with phase := BitVec.ofNat 28 p } (by simp [hv, lt]) rfl

end

/-- Up to SF 12 the phase modulus is at most 2^28 (spec/10_state.md R31), so P fits its register. -/
theorem Cfg.u_le {c : Cfg} (hsf : c.sf.toNat ≤ 12) : c.u ≤ 2 ^ 28 :=
  calc c.u ≤ 2 ^ 12 * (2 ^ 8) ^ 2 :=
        Nat.mul_le_mul (Nat.pow_le_pow_right (by decide) hsf) (Nat.pow_le_pow_left c.ovsm1.isLt 2)
    _ = 2 ^ 28 := by decide

/-- Settles O26: the two checks of SETPHASE in their order, and the one of SETAMPL. -/
theorem setamplAndSetphaseSetOrRaise : Obligations.SetamplAndSetphaseSetOrRaise := by
  intro s w p
  rw [ne_eq, ← nonFinite_iff_exponent, Bool.not_eq_true]
  refine ⟨(setampl_completes · s), (setampl_stops · s), setphase_unconfigured, setphase_stops, fun hv hsf lt => ?_⟩
  exact ⟨_, setphase_completes hv lt, rfl, Nat.mod_eq_of_lt (lt.trans_le (Cfg.u_le hsf))⟩

end Sys2Proof.Machine
end

section
/-! PROOFS. What a command can do to the sequencer (spec/60_exceptions.md R300, R302, R303): it stops at an error, or
it completes, and then it writes result registers and LMEM only and moves CPC past itself. -/

namespace Sys2Proof.Machine

/-! NOP, HALT and CLRSTAT (spec/40_control.md R120, R121, R126) -/

theorem exec_nop (s : State) : exec .nop s = execNop s := rfl

theorem exec_halt (s : State) : exec .halt s = execHalt s := rfl

theorem exec_clrstat (s : State) : exec .clrstat s = execClrstat s := rfl

theorem halt_completes (s : State) :
    exec .halt s = .next { s with cpc := s.cpc + 4, done := true, mode := .idle } := by
  rw [exec_halt, execHalt]
  exact command_completes 1 [] _ s { s with done := true, mode := .idle } (by simp) rfl

/-- Settles O24: a command without checks completes. -/
theorem nopHaltAndClrstatComplete : Obligations.NopHaltAndClrstatComplete := by
  intro s
  rw [exec_nop, execNop, exec_clrstat, execClrstat]
  exact ⟨command_completes 1 [] .ok s s (by simp) rfl, halt_completes s,
    command_completes 1 [] _ s { s with ferr := 0, fbad := 0 } (by simp) rfl⟩

/-! The perform phases -/

/-- The state `s` with the registers and the LMEM that commands write as `u` has them; what says where a run stands
(mode, flags, CPC, ERRPC), IE, the parameters and the model's own fields are those of `s`. -/
def withResults (s u : State) : State :=
  { s with
    cfg := u.cfg, ampl := u.ampl, phase := u.phase, det := u.det, ferr := u.ferr, fbad := u.fbad, wh := u.wh
    lmem := u.lmem }

section
variable {s u : State} {dst src count : Nat}

theorem mapSymbols_results {f : Symbol → Symbol} (h : mapSymbols f dst src count s = .ok u) : u = withResults s u := by
  obtain ⟨xs, -, rfl⟩ := (mapSymbols_ok ..).mp h
  rfl

theorem encodeArray_results {enc : BitVec 4 → Byte} (h : encodeArray enc dst src count s = .ok u) :
    u = withResults s u := by
  obtain ⟨bs, -, rfl⟩ := (encodeArray_ok ..).mp h
  rfl

theorem decodeArray_results {dec : Byte → Nibble} (h : decodeArray dec dst src count s = .ok u) :
    u = withResults s u := by
  obtain ⟨bs, -, rfl⟩ := (decodeArray_ok ..).mp h
  rfl

theorem whitenArray_results {w : Whitener} {rdd bitofs : Nat} (h : whitenArray w rdd dst src count bitofs s = .ok u) :
    u = withResults s u := by
  obtain ⟨bs, -, rfl⟩ := (whitenArray_ok ..).mp h
  rfl

theorem interleaveArray_results {w p nb : Nat} (h : interleaveArray w p nb dst src s = .ok u) :
    u = withResults s u := by
  obtain ⟨cw, -, rfl⟩ := (interleaveArray_ok ..).mp h
  rfl

theorem deinterleaveArray_results {w p nb : Nat} (h : deinterleaveArray w p nb dst src s = .ok u) :
    u = withResults s u := by
  obtain ⟨sym, -, rfl⟩ := (deinterleaveArray_ok ..).mp h
  rfl

theorem chirpArray_results {d : Direction} {fbin len : Nat} (h : chirpArray d fbin dst len s = .ok u) :
    u = withResults s u := by
  rw [chirpArray_ok] at h
  cases h
  rfl

theorem mixArray_results {f : Sample → Sample} {srca srcb : Nat} (h : mixArray f dst srca srcb count s = .ok u) :
    u = withResults s u := by
  obtain ⟨xs, ys, -, -, rfl⟩ := (mixArray_ok ..).mp h
  rfl

theorem detectAt_results (h : detectAt src s = .ok u) : u = withResults s u := by
  obtain ⟨xs, -, rfl⟩ := (detectAt_ok ..).mp h
  rfl

theorem detectStore_results (h : detectStore dst src s = .ok u) : u = withResults s u := by
  obtain ⟨v, hv, rfl⟩ := (detectStore_ok ..).mp h
  obtain ⟨xs, -, rfl⟩ := (detectAt_ok ..).mp hv
  rfl

end

/-! Commands -/

/-- How the command `i` takes `s` to `t`, where it goes on: it stops at a named error (R302), it is HALT (R121), or it
completes with the results of some state `u` (R300, R303). -/
inductive CommandOutcome (i : Instr) (s t : State) : Prop
  | stops (e : ErrCode) (named : e ≠ .none) (ht : t = stopped e s)
  | halts (hi : i = .halt) (ht : t = advance 1 { s with done := true, mode := .idle })
  | completes (hi : i ≠ .halt) (u : State) (ht : t = advance (encode i).length (withResults s u))

/-- The rule of a command other than HALT, from its checks, which raise errors by name, and its perform phase, which
writes results only. -/
theorem CommandOutcome.of_rule {i : Instr} (hi : i ≠ .halt) {len : Nat} {cs : List Check}
    {perform : State → Except Fault State} {s t : State} (hlen : (encode i).length = len)
    (named : ∀ c ∈ cs, c.err ≠ .none) (results : ∀ u, perform s = .ok u → u = withResults s u)
    (h : command len cs perform s = .next t) : CommandOutcome i s t := by
  rcases (command_next ..).mp h with ⟨e, fails, rfl⟩ | ⟨-, u, hu, rfl⟩
  · obtain ⟨pre, c, post, rfl, -, -, rfl⟩ := (firstFailure_eq_some cs e).mp fails
    exact .stops c.err (named c (by simp)) rfl
  · exact .completes hi u (hlen ▸ congrArg (advance len) (results u hu))

/-- Each command has that rule with a perform phase of its own, HALT apart. -/
theorem exec_outcome {i : Instr} {s t : State} (h : exec i s = .next t) : CommandOutcome i s t := by
  cases i with
  | halt =>
    rw [halt_completes] at h
    cases h
    exact .halts rfl rfl
  | nop | setcfg | setampl | setphase | clrstat =>
    simp only [exec, execNop, execSetcfg, execSetampl, execSetphase, execClrstat] at h
    refine .of_rule (by simp) rfl (by simp) (fun u hu => ?_) h
    cases hu
    rfl
  | gray | igray | symrx | symtx =>
    exact .of_rule (by simp) rfl (by simp [symbolChecks]) (fun _ => mapSymbols_results) h
  | fencRaw | fencP54 | fencP64 | fencH74 | fencH84 =>
    exact .of_rule (by simp) rfl (by simp [byteChecks]) (fun _ => encodeArray_results) h
  | fdecRaw | fdecP54 | fdecP64 | fdecH74 | fdecH84 =>
    exact .of_rule (by simp) rfl (by simp [byteChecks]) (fun _ => decodeArray_results) h
  | whiten | whitenC =>
    exact .of_rule (by simp) rfl (by simp [whitenChecks]) (fun _ => whitenArray_results) h
  | ilv => exact .of_rule (by simp) rfl (by simp) (fun _ => interleaveArray_results) h
  | dilv => exact .of_rule (by simp) rfl (by simp) (fun _ => deinterleaveArray_results) h
  | chirpUp | chirpDn =>
    simp only [exec_chirpUp, exec_chirpDn] at h
    exact .of_rule (by simp) rfl (by simp [chirpChecks]) (fun _ => chirpArray_results) h
  | mix | mixC => exact .of_rule (by simp) rfl (by simp [mixChecks]) (fun _ => mixArray_results) h
  | detect => exact .of_rule (by simp) rfl (by simp) (fun _ => detectAt_results) h
  | detectS => exact .of_rule (by simp) rfl (by simp) (fun _ => detectStore_results) h

/-- Settles O7: field by field, what the three outcomes of a command say. -/
theorem commandsCompleteHaltOrStopPrecisely : Obligations.CommandsCompleteHaltOrStopPrecisely := by
  intro i s t h
  cases exec_outcome h with
  | stops e named ht => exact .inl ⟨e, named, ht⟩
  | halts hi ht =>
    subst hi ht
    exact .inr ⟨rfl, rfl, rfl, rfl, rfl, rfl, rfl, rfl, rfl, rfl⟩
  | completes hi u ht =>
    subst ht
    rw [if_neg hi]
    exact .inr ⟨rfl, rfl, rfl, rfl, rfl, rfl, rfl, rfl, rfl, rfl⟩

end Sys2Proof.Machine
end

section
/-! PROOFS. Every run terminates (spec/70_reset_and_hazards.md R343): a command that completes raises CPC by its length
and leaves it inside LMEM, so the room between CPC and the end of LMEM bounds the run. -/

namespace Sys2Proof.Machine

/-! The fetched command's length -/

/-- Fetched operand words are as many as asked for, of 32 bits each. -/
theorem fetchWords_ok {m : Memory} {a n : Nat} {ws : List Nat} (h : fetchWords m a n = .ok ws) :
    ws.length = n ∧ ∀ w ∈ ws, w < 2 ^ 32 := by
  induction n generalizing a ws with
  | zero => cases h; exact ⟨rfl, List.forall_mem_nil _⟩
  | succ n ih =>
    rw [fetchWords] at h
    split at h
    · cases h
    · rename_i w hw
      split at h
      · cases h
      · rename_i others hothers
        cases h
        obtain ⟨length, fit⟩ := ih hothers
        exact ⟨congrArg (· + 1) length, List.forall_mem_cons.mpr ⟨read_lt hw, fit⟩⟩

/-- A command has at most five words (spec/30_encoding.md R92). -/
theorem opcodeLength_le {opc n : Nat} (h : opcodeLength opc = some n) : n ≤ 5 := by
  unfold opcodeLength at h
  split at h <;> cases h <;> decide

/-- A fetched command has one to five words, and they lie inside LMEM. -/
theorem length_of_fetch {s : State} {i : Instr} (h : fetch s = .command i) :
    1 ≤ (encode i).length ∧ (encode i).length ≤ 5 ∧ s.cpc.toNat + 4 * (encode i).length ≤ s.params.lmemBytes := by
  obtain ⟨w, n, ws, -, hw, length, inside, hws, meaning⟩ := fetch_command s i h
  obtain ⟨hlen, -⟩ := (headerLength_eq_ok w n).mp length
  have pos := opcodeLength_pos hlen
  obtain ⟨count, fit⟩ := fetchWords_ok hws
  have words : ws.length + 1 = n := by omega
  have stands : StandsFor w ws i := ⟨List.forall_mem_cons.mpr ⟨read_lt hw, fit⟩, words ▸ length, meaning⟩
  rw [stands.encode_eq.2, List.length_cons, words]
  exact ⟨pos, opcodeLength_le hlen, inside⟩

/-! One step of a run -/

/-- The sequencer has stopped, or CPC has passed a command of one to five words and is inside LMEM or at its end. -/
def StoppedOrAdvanced (s t : State) : Prop :=
  t.mode = .idle ∨
    ∃ n, 1 ≤ n ∧ n ≤ 5 ∧ t.cpc.toNat = s.cpc.toNat + 4 * n ∧ t.cpc.toNat ≤ s.params.lmemBytes

theorem runCommand_stops_or_advances {s t : State} (small : s.params.lmemBytes ≤ 2 ^ 31)
    (h : runCommand s = .next t) : StoppedOrAdvanced s t := by
  rcases runCommand_cases s with ⟨e, -, hr⟩ | ⟨f, -, hr⟩ | ⟨i, fetched, hr⟩
  · rw [hr] at h; cases h; exact .inl rfl
  · rw [hr] at h; cases h
  · cases exec_outcome (hr.symm.trans h) with
    | stops e named ht => subst ht; exact .inl rfl
    | halts hi ht => subst ht; exact .inl rfl
    | completes hi u ht =>
      subst ht
      obtain ⟨low, high, inside⟩ := length_of_fetch fetched
      have moved : (s.cpc + BitVec.ofNat 32 (4 * (encode i).length)).toNat = s.cpc.toNat + 4 * (encode i).length := by
        rw [BitVec.toNat_add, BitVec.toNat_ofNat]
        omega
      exact .inr ⟨_, low, high, moved, moved.trans_le inside⟩

theorem runCommand_keeps_turns {s t : State} (h : runCommand s = .next t) : t.turns = s.turns := by
  rcases runCommand_cases s with ⟨e, -, hr⟩ | ⟨f, -, hr⟩ | ⟨i, -, hr⟩
  · rw [hr] at h; cases h; rfl
  · rw [hr] at h; cases h
  · cases exec_outcome (hr.symm.trans h) with
    | stops e named ht => subst ht; rfl
    | halts hi ht => subst ht; rfl
    | completes hi u ht => subst ht; rfl

theorem runCommand_not_refused (s : State) (r : Refusal) : runCommand s ≠ .refused r := by
  rcases runCommand_cases s with ⟨e, -, hr⟩ | ⟨f, -, hr⟩ | ⟨i, -, hr⟩
  · rw [hr]; nofun
  · rw [hr]; nofun
  · rw [hr]; exact exec_not_refused i s r

/-! Runs -/

/-- The run of `k` steps from `s` reads an unwritten byte or ends with the sequencer stopped. -/
def EndsWithin (k : Nat) (s : State) : Prop :=
  (∃ f, Sys2Proof.core.run k s = .fault f) ∨ ∃ t : State, Sys2Proof.core.run k s = .next t ∧ t.mode = .idle

theorem run_succ_of_fault (M : Host.Core) {s : M.State} {f : M.Fault} (k : Nat) (h : M.step s = .fault f) :
    M.run (k + 1) s = .fault f := by
  rw [Host.Core.run, h]

theorem EndsWithin.of_next {s t : State} {k : Nat} (h : step s = .next t) (ends : EndsWithin k t) :
    EndsWithin (k + 1) s := by
  rwa [EndsWithin, run_succ_of_next Sys2Proof.core k h]

/-- A stopped sequencer stays where it is. -/
theorem endsWithin_of_idle {s : State} (ht : s.turns = []) (hm : s.mode = .idle) (k : Nat) : EndsWithin k s := by
  induction k with
  | zero => exact .inr ⟨s, rfl, hm⟩
  | succ k ih => exact .of_next (by rw [step_of_no_turns s ht, sequencerMove_idle s hm]) ih

/-- `k` steps are enough where the room between CPC and the end of LMEM is less than `k` words: each step that does not
end the run takes up a word of it at least. -/
theorem endsWithin_of_room {s : State} {k : Nat} (ht : s.turns = []) (small : s.params.lmemBytes ≤ 2 ^ 31)
    (pos : 0 < k) (room : s.params.lmemBytes < s.cpc.toNat + 4 * k) : EndsWithin k s := by
  induction k generalizing s with
  | zero => cases pos
  | succ k ih =>
    cases hm : s.mode with
    | idle => exact endsWithin_of_idle ht hm _
    | run =>
      have running := step_running hm ht
      cases h : runCommand s with
      | fault f => exact .inl ⟨f, run_succ_of_fault Sys2Proof.core k (running.trans h)⟩
      | refused r => exact absurd h (runCommand_not_refused s r)
      | next t =>
        refine .of_next (running.trans h) ?_
        have turns : t.turns = [] := (runCommand_keeps_turns h).trans ht
        have params := runCommand_keeps_params s t h
        rcases runCommand_stops_or_advances small h with stopped | ⟨n, low, -, moved, inside⟩
        · exact endsWithin_of_idle turns stopped k
        · exact ih turns (params ▸ small) (by omega) (by rw [params]; omega)

/-- Settles O9: a step advances CPC inside LMEM, and LMEM_BYTES/4 + 1 words are more than LMEM has room for. -/
theorem everyRunTerminates : Obligations.EveryRunTerminates := by
  intro s ht small
  refine ⟨fun t hm h => ?_, endsWithin_of_room ht small (Nat.succ_pos _) (by omega)⟩
  rcases runCommand_stops_or_advances small (step_running hm ht ▸ h) with stopped | ⟨n, low, high, moved, -⟩
  · exact .inl stopped
  · exact .inr ⟨n, low, high, moved⟩

end Sys2Proof.Machine
end

section
/-! PROOFS. FENC and FDEC with RDD 5 to 7 (spec/41_bitcodes.md R186): the header passes the steps of R97 that look at it
alone, and no variant has its RDD. -/

namespace Sys2Proof.Machine

theorem no_fec_variant {rdd : Nat} (h : 5 ≤ rdd) (dst src count : Nat) :
    fencVariant rdd dst src count = .error .noVariant ∧ fdecVariant rdd dst src count = .error .noVariant := by
  obtain ⟨k, rfl⟩ := Nat.exists_eq_add_of_le' h
  exact ⟨rfl, rfl⟩

/-- Written operand words are fetched. -/
theorem fetchWords_of_written {m : Memory} {a n : Nat} (h : ∀ i < 4 * n, (m.readByte (a + i)).isSome = true) :
    ∃ ws, fetchWords m a n = .ok ws := by
  induction n generalizing a with
  | zero => exact ⟨[], rfl⟩
  | succ n ih =>
    obtain ⟨w, hw⟩ := read_of_written m a 4 fun i hi => h i (by omega)
    obtain ⟨ws, hws⟩ := ih (a := a + 4) fun i hi => by
      rw [Nat.add_assoc]
      exact h (4 + i) (by omega)
    exact ⟨w :: ws, by rw [fetchWords, hw]; simp only [hws]⟩

/-- Step 5 of R97: a header and operand words that match no row. -/
theorem fetchOperands_undecoded {s : State} {h n : Nat} {ws : List Nat} {r : Reject} (length : headerLength h = .ok n)
    (inside : s.cpc.toNat + 4 * n ≤ s.params.lmemBytes)
    (operands : fetchWords s.lmem (s.cpc.toNat + 4) (n - 1) = .ok ws) (rejected : decodeWords h ws = .error r) :
    fetchOperands s h = .raises (Reject.errCode r) := by
  rw [fetchOperands, length]
  simp only [operands, rejected]
  exact if_neg (by omega)

section
variable {opc rdd : Nat}

/-- A FENC or FDEC header holds its opcode and its RDD, and no reserved bit. -/
theorem fec_header_fields (hopc : opc = 0x40 ∨ opc = 0x41) (hrdd : rdd ≤ 7) :
    opcode (opc + 256 * rdd) = opc ∧ bits (opc + 256 * rdd) 8 3 = rdd ∧ bits (opc + 256 * rdd) 11 21 = 0 := by
  unfold opcode bits
  omega

theorem headerLength_fec (hopc : opc = 0x40 ∨ opc = 0x41) (hrdd : rdd ≤ 7) :
    headerLength (opc + 256 * rdd) = .ok 4 := by
  obtain ⟨code, -, reserved⟩ := fec_header_fields hopc hrdd
  rw [headerLength_eq_ok, reservedClear_iff code, code]
  rcases hopc with rfl | rfl
  all_goals exact ⟨rfl, List.forall_mem_singleton.mpr reserved⟩

theorem decodeWords_fec_illegal (hopc : opc = 0x40 ∨ opc = 0x41) (low : 5 ≤ rdd) (high : rdd ≤ 7) (ops : List Nat) :
    decodeWords (opc + 256 * rdd) ops = .error .noVariant := by
  obtain ⟨code, field, -⟩ := fec_header_fields hopc high
  rw [decodeWords, code, field]
  obtain ⟨noFenc, noFdec⟩ := no_fec_variant low (ops.getD 0 0) (ops.getD 1 0) (ops.getD 2 0)
  rcases hopc with rfl | rfl
  · exact noFenc
  · exact noFdec

end

/-- Settles O5: the header and its operands are fetched and match no row. -/
theorem fencFdecWithIllegalRddRaiseRange : Obligations.FencFdecWithIllegalRddRaiseRange := by
  intro s opc rdd hopc low high
  have undecoded := decodeWords_fec_illegal hopc low high
  refine ⟨undecoded, fun hm ht inside written hh => ?_⟩
  obtain ⟨ws, operands⟩ : ∃ ws, fetchWords s.lmem (s.cpc.toNat + 4) 3 = .ok ws :=
    fetchWords_of_written fun i hi => by
      rw [Nat.add_assoc]
      exact written (4 + i) (by omega)
  have fetched : fetch s = .raises .range :=
    (fetch_of_header hh (by omega)).trans
      (fetchOperands_undecoded (headerLength_fec hopc high) inside operands (undecoded ws))
  rw [step_running hm ht, runCommand_of_raises fetched]

end Sys2Proof.Machine
end

section
/-! PROOFS. The laws of the Gray pair and of the symbol mappings (spec/41_bitcodes.md R142, R145). Both Gray functions are
compositions of the maps n ↦ n ⊕ (n >> j). Such maps commute, and one applied twice is the one with j doubled, so
`gray16` undoes the four of `igray16` in turn. -/

namespace Sys2Proof.Machine

/-- A value XORed with itself moved down by `j` bits. -/
def foldDown (j : Nat) (n : Symbol) : Symbol := n ^^^ (n >>> j)

theorem gray16_eq_foldDown (n : Symbol) : gray16 n = foldDown 1 n := rfl

theorem igray16_eq_foldDown (n : Symbol) : igray16 n = foldDown 1 (foldDown 2 (foldDown 4 (foldDown 8 n))) := rfl

theorem foldDown_comm (i j : Nat) (n : Symbol) : foldDown i (foldDown j n) = foldDown j (foldDown i n) := by
  simp only [foldDown, BitVec.ushiftRight_xor_distrib, ← BitVec.shiftRight_add, Nat.add_comm j i, BitVec.xor_assoc]
  rw [← BitVec.xor_assoc (n >>> j), BitVec.xor_comm (n >>> j), BitVec.xor_assoc]

/-- The two copies moved by `j` cancel. -/
theorem foldDown_foldDown (j : Nat) (n : Symbol) : foldDown j (foldDown j n) = foldDown (j + j) n := by
  simp only [foldDown, BitVec.ushiftRight_xor_distrib, ← BitVec.shiftRight_add]
  rw [BitVec.xor_assoc, ← BitVec.xor_assoc (n >>> j), BitVec.xor_self, BitVec.zero_xor]

theorem foldDown_sixteen (n : Symbol) : foldDown 16 n = n := by
  rw [foldDown, BitVec.ushiftRight_eq_zero (Nat.le_refl 16), BitVec.xor_zero]

theorem foldDown_lt (j : Nat) {n : Symbol} {k : Nat} (h : n.toNat < 2 ^ k) : (foldDown j n).toNat < 2 ^ k := by
  rw [foldDown, BitVec.toNat_xor, BitVec.toNat_ushiftRight]
  exact Nat.xor_lt_two_pow h ((Nat.shiftRight_le ..).trans_lt h)

theorem gray16_igray16 (n : Symbol) : gray16 (igray16 n) = n := by
  rw [gray16_eq_foldDown, igray16_eq_foldDown]
  calc foldDown 1 (foldDown 1 (foldDown 2 (foldDown 4 (foldDown 8 n))))
    _ = foldDown 2 (foldDown 2 (foldDown 4 (foldDown 8 n))) := foldDown_foldDown ..
    _ = foldDown 4 (foldDown 4 (foldDown 8 n)) := foldDown_foldDown ..
    _ = foldDown 8 (foldDown 8 n) := foldDown_foldDown ..
    _ = foldDown 16 n := foldDown_foldDown ..
    _ = n := foldDown_sixteen n

theorem igray16_gray16 (n : Symbol) : igray16 (gray16 n) = n := by
  have commute : igray16 (gray16 n) = gray16 (igray16 n) := by
    simp only [gray16_eq_foldDown, igray16_eq_foldDown, foldDown_comm 1]
  rw [commute, gray16_igray16]

theorem gray16_lt {n : Symbol} {k : Nat} (h : n.toNat < 2 ^ k) : (gray16 n).toNat < 2 ^ k := foldDown_lt 1 h

theorem igray16_lt {n : Symbol} {k : Nat} (h : n.toNat < 2 ^ k) : (igray16 n).toNat < 2 ^ k :=
  foldDown_lt 1 (foldDown_lt 2 (foldDown_lt 4 (foldDown_lt 8 h)))

/-- Settles O29: the laws of `foldDown`. -/
theorem grayFunctionsAreInverse : Obligations.GrayFunctionsAreInverse :=
  ⟨fun n => ⟨igray16_gray16 n, gray16_igray16 n⟩, fun _ _ h => ⟨gray16_lt h, igray16_lt h⟩, rfl, rfl⟩

/-- A transmitted symbol fits SF bits, so the shift by SF - PPM drops none (R143). -/
theorem symtx_toNat {sf ppm : Nat} {x : Symbol} (hsf : sf ≤ 12) (hppm : ppm ≤ sf) (hx : x.toNat < 2 ^ ppm) :
    (symtx sf ppm x).toNat = (igray16 x).toNat * 2 ^ (sf - ppm) := by
  have fits : (igray16 x).toNat * 2 ^ (sf - ppm) < 2 ^ 16 := calc
    _ < 2 ^ ppm * 2 ^ (sf - ppm) := Nat.mul_lt_mul_of_pos_right (igray16_lt hx) (Nat.two_pow_pos _)
    _ = 2 ^ sf := by rw [← Nat.pow_add, Nat.add_sub_cancel' hppm]
    _ ≤ 2 ^ 16 := Nat.pow_le_pow_right (by decide) (by omega)
  rw [symtx_eq, Nat.mod_eq_of_lt hx, BitVec.ofNat_toNat, BitVec.setWidth_eq, BitVec.toNat_ofNat,
    Nat.mod_eq_of_lt fits]

/-- Rounding a multiple of 2^sh is exact: the half that is added goes with the bits shifted out (R144). -/
theorem round_mul_two_pow (v sh : Nat) : (v * 2 ^ sh + 2 ^ sh / 2) / 2 ^ sh = v := by
  have pos := Nat.two_pow_pos sh
  rw [Nat.mul_comm, Nat.mul_add_div pos, Nat.div_eq_of_lt (Nat.div_lt_self pos (by decide)), Nat.add_zero]

/-- Settles O30: SYMTX leaves `igray16 x` above the bits that the rounding drops, and `gray16` takes it back. -/
theorem symrxUndoesSymtx : Obligations.SymrxUndoesSymtx := by
  intro sf ppm x _ hsf _ hppm hx
  rw [symrx, symtx_toNat hsf hppm hx, round_mul_two_pow, lowBits, Nat.mod_eq_of_lt (igray16_lt hx),
    BitVec.ofNat_toNat, BitVec.setWidth_eq, gray16_igray16]

end Sys2Proof.Machine
end

section
/-! PROOFS. The codes (spec/41_bitcodes.md R160 to R174, R185). Parities and syndromes are linear and vanish on codewords,
so a codeword with some bits flipped decodes as the flips alone do, with the codeword's nibble added: the laws of R185
are facts about the decoding of flips. -/

namespace Sys2Proof.Machine

/-! Encoders -/

/-- Settles O33: each table is computed. -/
theorem encoderTablesAreTheSpecs : Obligations.EncoderTablesAreTheSpecs := by
  refine ⟨?raw, ?p54, ?p64, ?h74, ?h84⟩
  all_goals decide

/-- Data and check bits as a number (R163). -/
theorem encP64_eq_ofNat (d g4 g5 : BitVec 4) : encP64 g4 g5 d =
    BitVec.ofNat 8 (d.toNat + 16 * (parity4 (d &&& g4)).toNat + 32 * (parity4 (d &&& g5)).toNat) := by
  have sum : ∀ (d : BitVec 4) (p q : Bool),
      encRaw d ||| bitAt 4 p ||| bitAt 5 q = BitVec.ofNat 8 (d.toNat + 16 * p.toNat + 32 * q.toNat) := by decide
  exact sum d _ _

/-- Data and check bits of an encoded nibble. -/
theorem encP64_bits (g4 g5 d : BitVec 4) : (encP64 g4 g5 d).setWidth 4 = d ∧
    (encP64 g4 g5 d).getLsbD 4 = parity4 (d &&& g4) ∧ (encP64 g4 g5 d).getLsbD 5 = parity4 (d &&& g5) := by
  have fields : ∀ (d : BitVec 4) (p q : Bool), (encRaw d ||| bitAt 4 p ||| bitAt 5 q).setWidth 4 = d ∧
      (encRaw d ||| bitAt 4 p ||| bitAt 5 q).getLsbD 4 = p ∧
      (encRaw d ||| bitAt 4 p ||| bitAt 5 q).getLsbD 5 = q := by decide
  exact fields d _ _

theorem encP54_bits : ∀ d : BitVec 4, (encP54 d).setWidth 4 = d ∧ (encP54 d).getLsbD 4 = parity4 d := by decide

theorem setWidth_encRaw : ∀ d : BitVec 4, (encRaw d).setWidth 4 = d := by decide

/-- A codeword has syndrome 0. -/
theorem encH74_bits : ∀ d : BitVec 4, (encH74 d).setWidth 4 = d ∧ syndrome74 (encH74 d) = 0 := by decide

theorem encH84_bits : ∀ d : BitVec 4, (encH84 d).setWidth 4 = d ∧ syndrome84 (encH84 d) = 0 := by decide

/-! Parities and syndromes -/

theorem parity4_and (v g : BitVec 4) : parity4 (v &&& g) = ((v.getLsbD 0 && g.getLsbD 0) ^^
    (v.getLsbD 1 && g.getLsbD 1) ^^ (v.getLsbD 2 && g.getLsbD 2) ^^ (v.getLsbD 3 && g.getLsbD 3)) := by
  simp only [parity4, BitVec.getLsbD_and]

/-- The sum of four bits is linear. -/
theorem xor_four_xor (a b c d a' b' c' d' : Bool) :
    ((a ^^ a') ^^ (b ^^ b') ^^ (c ^^ c') ^^ (d ^^ d')) = ((a ^^ b ^^ c ^^ d) ^^ (a' ^^ b' ^^ c' ^^ d')) := by
  simp only [Bool.xor_assoc, Bool.xor_left_comm]

theorem parity4_xor (v w : BitVec 4) : parity4 (v ^^^ w) = (parity4 v ^^ parity4 w) := by
  simp only [parity4, BitVec.getLsbD_xor, xor_four_xor]

theorem parity4_xor_and (v w g : BitVec 4) : parity4 ((v ^^^ w) &&& g) = (parity4 (v &&& g) ^^ parity4 (w &&& g)) := by
  simp only [parity4_and, BitVec.getLsbD_xor, Bool.and_xor_distrib_right, xor_four_xor]

theorem syndrome74_xor (c e : Byte) : syndrome74 (c ^^^ e) = syndrome74 c ^^^ syndrome74 e := by
  have sum : ∀ p0 p1 p2 q0 q1 q2 : Bool, (p0 ^^ q0).toNat + 2 * (p1 ^^ q1).toNat + 4 * (p2 ^^ q2).toNat =
      (p0.toNat + 2 * p1.toNat + 4 * p2.toNat) ^^^ (q0.toNat + 2 * q1.toNat + 4 * q2.toNat) := by decide
  simp only [syndrome74, BitVec.getLsbD_xor, xor_four_xor, sum]

theorem syndrome74_lt (c : Byte) : syndrome74 c < 8 := by
  have sum : ∀ p q r : Bool, p.toNat + 2 * q.toNat + 4 * r.toNat < 8 := by decide
  exact sum ..

theorem syndrome84_xor (c e : Byte) : syndrome84 (c ^^^ e) = syndrome84 c ^^^ syndrome84 e := by
  have sum : ∀ s < 8, ∀ t < 8, ∀ p q : Bool,
      (s ^^^ t) + 8 * (p ^^ q).toNat = (s + 8 * p.toNat) ^^^ (t + 8 * q.toNat) := by decide
  simp only [syndrome84, syndrome74_xor, BitVec.getLsbD_xor, xor_four_xor]
  exact sum _ (syndrome74_lt c) _ (syndrome74_lt e) _ _

theorem syndrome84_lt (c : Byte) : syndrome84 c < 16 := by
  have sum : ∀ s < 8, ∀ p : Bool, s + 8 * p.toNat < 16 := by decide
  exact sum _ (syndrome74_lt c) _

/-! Decoders by their syndromes -/

/-- The data bit that dec_h74 flips (R173). -/
def correction74 (s : Nat) : BitVec 4 :=
  if s = 5 then 1 else if s = 7 then 2 else if s = 3 then 4 else if s = 6 then 8 else 0

/-- The data bit that dec_h84 flips (R174). -/
def correction84 (s : Nat) : BitVec 4 :=
  if s = 0xD then 1 else if s = 0x7 then 2 else if s = 0xB then 4 else if s = 0xE then 8 else 0

theorem decH74_eq (hb : Bool) (c : Byte) : decH74 hb c =
    ⟨c.setWidth 4 ^^^ correction74 (syndrome74 c), decide (syndrome74 c ≠ 0),
      hb && decide (syndrome74 c ∈ [1, 2, 4])⟩ := by
  have bound := syndrome74_lt c
  unfold decH74
  generalize syndrome74 c = s at bound
  interval_cases s
  all_goals simp [correction74]

theorem decH84_eq (c : Byte) : decH84 c =
    ⟨c.setWidth 4 ^^^ correction84 (syndrome84 c), decide (syndrome84 c ≠ 0),
      decide (syndrome84 c ∈ [3, 5, 6, 9, 0xA, 0xC, 0xF])⟩ := by
  have bound := syndrome84_lt c
  unfold decH84
  generalize syndrome84 c = s at bound
  interval_cases s
  all_goals simp [correction84]

theorem decP54_eq (c : Byte) : decP54 c = ⟨c.setWidth 4,
    c.getLsbD 4 ^^ (c.getLsbD 0 ^^ c.getLsbD 1 ^^ c.getLsbD 2 ^^ c.getLsbD 3), false⟩ := by
  simp [decP54, parity4]

/-! A decoder looks only at the bits below its W (R167) -/

theorem setWidth_and_of_low {m : Byte} (hm : m.setWidth 4 = BitVec.allOnes 4) (c : Byte) :
    (c &&& m).setWidth 4 = c.setWidth 4 := by
  rw [BitVec.setWidth_and, hm, BitVec.and_allOnes]

theorem getLsbD_and_of_set {m : Byte} {k : Nat} (hm : m.getLsbD k = true) (c : Byte) :
    (c &&& m).getLsbD k = c.getLsbD k := by
  rw [BitVec.getLsbD_and, hm, Bool.and_true]

theorem decRaw_mask (c : Byte) : decRaw (c &&& 0x0F) = decRaw c := by
  rw [decRaw, setWidth_and_of_low rfl, decRaw]

theorem decP54_mask (c : Byte) : decP54 (c &&& 0x1F) = decP54 c := by
  rw [decP54, setWidth_and_of_low rfl, getLsbD_and_of_set rfl, decP54]

theorem decP64_mask (g4 g5 : BitVec 4) (c : Byte) : decP64 g4 g5 (c &&& 0x3F) = decP64 g4 g5 c := by
  rw [decP64, setWidth_and_of_low rfl, getLsbD_and_of_set rfl, getLsbD_and_of_set rfl, decP64]

theorem decH74_mask (hb : Bool) (c : Byte) : decH74 hb (c &&& 0x7F) = decH74 hb c := by
  have checks : syndrome74 (c &&& 0x7F) = syndrome74 c := by simp [syndrome74]
  rw [decH74_eq, checks, setWidth_and_of_low rfl, decH74_eq]

/-! Codewords with flipped bits -/

/-- The answer `x` with the nibble `d` added. -/
def Nibble.plus (d : BitVec 4) (x : Nibble) : Nibble := ⟨d ^^^ x.d, x.error, x.bad⟩

theorem Nibble.plus_zero (d : BitVec 4) (error bad : Bool) : Nibble.plus d ⟨0, error, bad⟩ = ⟨d, error, bad⟩ := by
  simp [Nibble.plus]

section
variable (d : BitVec 4) (e : Byte)

theorem decRaw_flips : decRaw (encRaw d ^^^ e) = (decRaw e).plus d := by
  rw [decRaw, BitVec.setWidth_xor, setWidth_encRaw, Nibble.plus, decRaw]

/-- A check bit's own parity cancels. -/
theorem xor_bne_xor (p a b : Bool) : ((p ^^ a) != (p ^^ b)) = (a != b) := by
  cases p with
  | false => rw [Bool.false_xor, Bool.false_xor]
  | true => rw [Bool.true_xor, Bool.true_xor, Bool.not_bne_not]

theorem decP54_flips : decP54 (encP54 d ^^^ e) = (decP54 e).plus d := by
  obtain ⟨data, check⟩ := encP54_bits d
  simp only [decP54, Nibble.plus, BitVec.setWidth_xor, data, BitVec.getLsbD_xor, check, parity4_xor, xor_bne_xor]

theorem decP64_flips (g4 g5 : BitVec 4) : decP64 g4 g5 (encP64 g4 g5 d ^^^ e) = (decP64 g4 g5 e).plus d := by
  obtain ⟨data, check4, check5⟩ := encP64_bits g4 g5 d
  simp only [decP64, Nibble.plus, BitVec.setWidth_xor, data, BitVec.getLsbD_xor, check4, check5, parity4_xor_and,
    xor_bne_xor]

theorem decH74_flips (hb : Bool) : decH74 hb (encH74 d ^^^ e) = (decH74 hb e).plus d := by
  obtain ⟨data, check⟩ := encH74_bits d
  rw [decH74_eq, syndrome74_xor, check, Nat.zero_xor, BitVec.setWidth_xor, data, BitVec.xor_assoc, decH74_eq,
    Nibble.plus]

theorem decH84_flips : decH84 (encH84 d ^^^ e) = (decH84 e).plus d := by
  obtain ⟨data, check⟩ := encH84_bits d
  rw [decH84_eq, syndrome84_xor, check, Nat.zero_xor, BitVec.setWidth_xor, data, BitVec.xor_assoc, decH84_eq,
    Nibble.plus]

end

/-! The flips alone -/

theorem decP54_flip : ∀ k < 5, (decP54 (1#8 <<< k)).error = true := by decide

theorem decH74_flip : ∀ (hb : Bool), ∀ k < 7, ∃ bad, decH74 hb (1#8 <<< k) = ⟨0, true, bad⟩ := by decide

theorem decH84_flip : ∀ k < 8, decH84 (1#8 <<< k) = ⟨0, true, false⟩ := by decide

theorem decH84_two_flips : ∀ k < 8, ∀ l < 8, k ≠ l → (decH84 (1#8 <<< k ^^^ 1#8 <<< l)).bad = true := by decide

/-- A flipped data bit fails the checks of the groups that hold it. -/
theorem decP64_data_flip (g4 g5 : BitVec 4) {k : Nat} (hk : k < 4) :
    (decP64 g4 g5 (1#8 <<< k)).error = (g4 ||| g5).getLsbD k := by
  have checks : ∀ k < 4, (1#8 <<< k).getLsbD 4 = false ∧ (1#8 <<< k).getLsbD 5 = false := by decide
  have parity : ∀ k < 4, ∀ g : BitVec 4, parity4 ((1#8 <<< k).setWidth 4 &&& g) = g.getLsbD k := by decide
  obtain ⟨check4, check5⟩ := checks k hk
  rw [decP64, check4, check5, parity k hk, parity k hk, Bool.false_bne, Bool.false_bne, BitVec.getLsbD_or]

/-- A flipped check bit fails its own check. -/
theorem decP64_check_flip (g4 g5 : BitVec 4) {k : Nat} (hk : k = 4 ∨ k = 5) :
    (decP64 g4 g5 (1#8 <<< k)).error = true := by
  rcases hk with rfl | rfl
  all_goals simp [decP64, parity4]

theorem decP64_flip {g4 g5 : BitVec 4} (cover : g4 ||| g5 = 0b1111) {k : Nat} (hk : k < 6) :
    (decP64 g4 g5 (1#8 <<< k)).error = true := by
  by_cases data : k < 4
  · have covered : ∀ k < 4, (0b1111#4).getLsbD k = true := by decide
    rw [decP64_data_flip g4 g5 data, cover]
    exact covered k data
  · exact decP64_check_flip g4 g5 (by omega)

/-! The obligation -/

/-- No flips: a codeword decodes to its nibble. -/
theorem decodes_of_flips {dec : Byte → Nibble} {enc : BitVec 4 → Byte}
    (flips : ∀ d e, dec (enc d ^^^ e) = (dec e).plus d) (zero : dec 0 = ⟨0, false, false⟩) (d : BitVec 4) :
    dec (enc d) = ⟨d, false, false⟩ := by
  have clean := flips d 0
  rwa [zero, Nibble.plus_zero, BitVec.ofNat_eq_ofNat, BitVec.xor_zero] at clean

/-- Settles O34: the equations of the decoders, then what they answer for flips. -/
theorem codesDecodeBySyndromeAndCorrectFlips : Obligations.CodesDecodeBySyndromeAndCorrectFlips := by
  refine ⟨fun d g4 g5 => ?p64, fun c g4 g5 hb => ?decoders, fun d g4 g5 hb => ?clean, fun d k hk => ?h84,
    fun d k hk l hl ne => ?twoFlips, fun d k hk => ?p54Flip, fun d g4 g5 cover k hk => ?p64Flip,
    fun d hb k hk => ?h74Flip⟩
  case p64 => rw [encP64_eq_ofNat, parity4_and, parity4_and]
  case decoders =>
    intro b d s74 s84
    have nibble : c.setWidth 4 = d := setWidth_four c
    refine ⟨(decRaw_mask c).symm, (decP54_mask c).symm, (decP64_mask g4 g5 c).symm, (decH74_mask hb c).symm, ?_, ?_, ?_,
      ?_, ?_⟩
    · rw [decRaw, nibble]
    · rw [decP54_eq, nibble]
    · rw [decP64, nibble, parity4_and, parity4_and]
    · rw [decH74_eq, nibble]
      rfl
    · rw [decH84_eq, nibble]
      rfl
  case clean =>
    exact ⟨decodes_of_flips decRaw_flips rfl d, decodes_of_flips decP54_flips rfl d,
      decodes_of_flips (fun d e => decP64_flips d e g4 g5) (by simp [decP64, parity4]) d,
      decodes_of_flips (fun d e => decH74_flips d e hb) rfl d, decodes_of_flips decH84_flips rfl d⟩
  case h84 => rw [decH84_flips, decH84_flip k hk, Nibble.plus_zero]
  case twoFlips =>
    rw [BitVec.xor_assoc, decH84_flips]
    exact decH84_two_flips k hk l hl ne
  case p54Flip =>
    rw [decP54_flips]
    exact decP54_flip k hk
  case p64Flip =>
    rw [decP64_flips]
    exact decP64_flip cover hk
  case h74Flip =>
    obtain ⟨bad, answer⟩ := decH74_flip hb k hk
    rw [decH74_flips, answer, Nibble.plus_zero]
    exact ⟨rfl, rfl⟩

end Sys2Proof.Machine
end

section
/-! PROOFS. The whitener's key stream and WHITEN as an involution (spec/42_whitening.md R190 to R202): the register step
bit by bit, the keys in closed form, the seeds' period, and what one whitening run leaves in LMEM. -/

namespace Sys2Proof.Machine

/-! The registers and the keys -/

/-- Bit `k` of a stepped register: the next higher byte's bit, or a bit of the byte shifted in (R190). -/
theorem getLsbD_lfsrStep (r : BitVec 64) {k : Nat} (hk : k < 64) : (lfsrStep r).getLsbD k =
    if k < 56 then r.getLsbD (k + 8)
    else r.getLsbD (k - 24) ^^ r.getLsbD (k - 32) ^^ r.getLsbD (k - 40) ^^ r.getLsbD (k - 56) := by
  simp only [lfsrStep, BitVec.getLsbD_or, BitVec.getLsbD_ushiftRight, BitVec.getLsbD_xor, BitVec.getLsbD_shiftLeft,
    BitVec.getLsbD_setWidth, hk, decide_true, Bool.true_and]
  by_cases low : k < 56
  · simp [low, Nat.add_comm 8 k]
  · have past : r.getLsbD (8 + k) = false := BitVec.getLsbD_of_ge r _ (by omega)
    simp only [low, past, decide_false, Bool.not_false, Bool.true_and, Bool.false_or, if_false,
      show k - 56 < 64 by omega, show k - 56 < 8 by omega, decide_true,
      show 32 + (k - 56) = k - 24 by omega, show 24 + (k - 56) = k - 32 by omega, show 16 + (k - 56) = k - 40 by omega]

theorem after_succ' (n : Nat) (w : Whitener) : w.after (n + 1) = (w.after n).next := after_add n 1 w

/-- The state after `n` keys of a stream that starts with R0: each register has stepped once for every key it has
supplied (R192). -/
theorem after_of_startsWithR0 {w : Whitener} (start : w.widx = false) (n : Nat) :
    w.after n = ⟨lfsrStep^[(n + 1) / 2] w.r0, lfsrStep^[n / 2] w.r1, decide (n % 2 = 1)⟩ := by
  obtain ⟨m, rfl | rfl⟩ := Nat.even_or_odd' n
  · rw [after_two_mul, start, show (2 * m + 1) / 2 = m by omega, show 2 * m / 2 = m by omega,
      show 2 * m % 2 = 0 by omega]
    rfl
  · rw [after_succ', after_two_mul, start, show (2 * m + 1 + 1) / 2 = m + 1 by omega, show (2 * m + 1) / 2 = m by omega,
      show (2 * m + 1) % 2 = 1 by omega, Function.iterate_succ_apply']
    rfl

/-- A key is the low byte of the register that WIDX names. -/
theorem key_eq_ofNat (w : Whitener) :
    w.key = BitVec.ofNat 8 ((if w.widx then w.r1.toNat else w.r0.toNat) % 256) := by
  have low (r : BitVec 64) : r.setWidth 8 = BitVec.ofNat 8 (r.toNat % 256) := by
    apply BitVec.eq_of_toNat_eq
    rw [BitVec.toNat_setWidth, BitVec.toNat_ofNat, Nat.mod_mod]
  rw [Whitener.key]
  split
  · exact low w.r1
  · exact low w.r0

theorem seeds_eq (rdd : Nat) : seeds rdd =
    ⟨if rdd = 1 then 0x05121100F8ECFEEF else 0x6572D100E85C2EFF,
      if rdd = 1 then 0xF8ECFEEFEFEFEFEF else 0xE85C2EFFFFFFFFFF, false⟩ := by
  rw [seeds]
  split
  · rfl
  · rfl

/-- Settles O36: the step bit by bit, the seeds, and the closed form of the stream. -/
theorem keyBytesAlternateBetweenTheRegisters : Obligations.KeyBytesAlternateBetweenTheRegisters := by
  refine ⟨fun r k hk => getLsbD_lfsrStep r hk, fun rdd _ => ?seeds, fun w n start => ?stream⟩
  case seeds =>
    rw [seeds_eq]
    exact ⟨rfl, rfl, rfl⟩
  have closed := after_of_startsWithR0 start n
  refine ⟨closed, ?_⟩
  rw [key_eq_ofNat, closed]
  obtain even | odd := Nat.mod_two_eq_zero_or_one n
  · simp [even, show (n + 1) / 2 = n / 2 by omega]
  · simp [odd]

/-! The period of the seeds -/

/-- A proper divisor of 255 divides one of its three greatest. -/
theorem dvd_of_proper_dvd_255 : ∀ d < 255, d ∣ 255 → d ∣ 85 ∨ d ∣ 51 ∨ d ∣ 15 := by decide +kernel

/-- A register that neither 85, 51 nor 15 steps bring back has least period 255: its least period divides 255. -/
theorem lfsrStep_iterate_ne {r : BitVec 64} (h : lfsrSteps 85 r ≠ r ∧ lfsrSteps 51 r ≠ r ∧ lfsrSteps 15 r ≠ r) {n : Nat}
    (pos : 0 < n) (lt : n < 255) : lfsrStep^[n] r ≠ r := by
  simp only [lfsrSteps_eq] at h
  obtain ⟨not85, not51, not15⟩ := h
  intro (returns : Function.IsPeriodicPt lfsrStep n r)
  have period : Function.IsPeriodicPt lfsrStep 255 r := lfsrStep_period r
  have least : Function.IsPeriodicPt lfsrStep _ r := Function.isPeriodicPt_minimalPeriod lfsrStep r
  rcases dvd_of_proper_dvd_255 _ ((Nat.le_of_dvd pos returns.minimalPeriod_dvd).trans_lt lt) period.minimalPeriod_dvd
    with dvd | dvd | dvd
  · exact not85 (least.trans_dvd dvd)
  · exact not51 (least.trans_dvd dvd)
  · exact not15 (least.trans_dvd dvd)

/-- Settles O38: 255 steps bring every register back, and 85, 51 and 15 bring none of the seeds back. -/
theorem seedsHavePeriod255AndTheSpecsKeyStreams : Obligations.SeedsHavePeriod255AndTheSpecsKeyStreams := by
  refine ⟨fun r hr => ⟨lfsrStep_period r, fun n pos lt => ?_⟩, by decide +kernel, by decide +kernel⟩
  simp only [List.mem_cons, List.not_mem_nil, or_false] at hr
  rcases hr with rfl | rfl | rfl | rfl
  all_goals exact lfsrStep_iterate_ne (by decide +kernel) pos lt

/-! What a whitening run leaves -/

/-- From the stream `w`, whitening takes `s` to `t`: each byte at SRC, where it has been written, stands at DST XORed
with its masked key, the stream stands BITOFS + COUNT keys further, and no other byte changes (R193 to R197). -/
structure Whitens (w : Whitener) (rdd dst src count bitofs : Nat) (s t : State) : Prop where
  stream : t.wh = w.after (bitofs + count)
  params : t.params = s.params
  outside : SameOutside dst count s t
  bytes : ∀ k < count, t.lmem.readByte (dst + k) =
    (s.lmem.readByte (src + k)).map (· ^^^ ((w.after (bitofs + k)).key &&& keyMask rdd))

theorem whitens_of_whitenArray {w : Whitener} {rdd dst src count bitofs : Nat} {s u : State}
    (h : whitenArray w rdd dst src count bitofs s = .ok u) : Whitens w rdd dst src count bitofs s u := by
  have params := whitenArray_keeps_params _ _ _ _ _ _ _ _ h
  obtain ⟨bs, load, rfl⟩ := (whitenArray_ok ..).mp h
  obtain ⟨length, loaded⟩ := (readBytes_eq_ok ..).mp load
  refine ⟨?_, params, sameOutside_of_store rfl (by simp [length]), fun k hk => ?_⟩
  · rw [after_add, ← skip_eq_after bitofs]
  · have hb : bs[k]? = some bs[k] := List.getElem?_eq_getElem (length ▸ hk)
    rw [loaded k hk, hb]
    exact byteAt_of_store rfl (by rw [List.getElem?_zipWith, hb, getElem?_keys_skip w bitofs hk])

/-- Where RDD is legal and the regions fit LMEM, no check of WHITEN or WHITEN.C fails, and the rule is performed. -/
theorem whitens_of_command {w : Whitener} {rdd dst src count bitofs : Nat} {s t : State} (hrdd : rdd ≤ 4)
    (fitsDst : Fits s dst count) (fitsSrc : Fits s src count)
    (h : command 5 (whitenChecks rdd dst src count s) (whitenArray w rdd dst src count bitofs) s = .next t) :
    Whitens w rdd dst src count bitofs s t := by
  have passes : firstFailure (whitenChecks rdd dst src count s) = none :=
    (firstFailure_eq_none _).mpr (by simp [whitenChecks, hrdd, fitsDst, fitsSrc])
  rcases (command_next ..).mp h with ⟨e, fails, -⟩ | ⟨-, u, hu, rfl⟩
  · rw [passes] at fails
    cases fails
  · obtain ⟨stream, params, outside, bytes⟩ := whitens_of_whitenArray hu
    exact ⟨stream, params, outside, bytes⟩

theorem Whitens.fits {w : Whitener} {rdd dst src count bitofs : Nat} {s t : State}
    (h : Whitens w rdd dst src count bitofs s t) {a len : Nat} (fits : Fits s a len) : Fits t a len := by
  rwa [Fits, h.params]

/-! Whitening twice -/

/-- XOR with the same key cancels (R200). -/
theorem Whitens.twice {w : Whitener} {rdd mid src dst count bitofs : Nat} {s t t' u : State}
    (first : Whitens w rdd mid src count bitofs s t) (second : Whitens w rdd dst mid count bitofs t' u)
    (same : t'.lmem = t.lmem) {k : Nat} (hk : k < count) : u.lmem.readByte (dst + k) = s.lmem.readByte (src + k) := by
  rw [second.bytes k hk, same, first.bytes k hk, Option.map_map]
  have cancels (key : Byte) : (· ^^^ key) ∘ (· ^^^ key) = (id : Byte → Byte) :=
    funext fun b => by rw [Function.comp, BitVec.xor_assoc, BitVec.xor_self, BitVec.xor_zero, id]
  rw [cancels, Option.map_id, id]

/-- Settles O39: both runs of a pair start from one stream, the seeds of RDD or the present one. -/
theorem whiteningTwiceGivesTheInputBack : Obligations.WhiteningTwiceGivesTheInputBack := by
  intro s t u rdd mid src dst count bitofs hrdd fitsMid fitsSrc fitsDst
  refine ⟨fun run again k hk => ?_, fun run again k hk => ?_⟩
  · have first := whitens_of_command hrdd fitsMid fitsSrc run
    have second := whitens_of_command hrdd (first.fits fitsDst) (first.fits fitsMid) again
    exact first.twice second rfl hk
  · have first := whitens_of_command hrdd fitsMid fitsSrc run
    have second := whitens_of_command (s := { t with wh := s.wh }) hrdd (first.fits fitsDst) (first.fits fitsMid)
      again
    exact first.twice second rfl hk

/-! Whitening in two pieces -/

/-- A run over the first `m` elements in place, then one over the other `n` from the stream it leaves, is one run. -/
theorem Whitens.append {w : Whitener} {rdd a m n bitofs : Nat} {s t u : State}
    (first : Whitens w rdd a a m bitofs s t) (second : Whitens t.wh rdd (a + m) (a + m) n 0 t u) :
    Whitens w rdd a a (m + n) bitofs s u := by
  have later (k : Nat) : t.wh.after (0 + k) = w.after (bitofs + (m + k)) := by
    rw [first.stream, ← after_add]
    congr 1
    omega
  refine ⟨second.stream.trans (later n), second.params.trans first.params, fun x hx => ?_, fun k hk => ?_⟩
  · rw [second.outside x (by omega), first.outside x (by omega)]
  · obtain below | ⟨j, rfl⟩ := (Nat.lt_or_ge k m).imp_right Nat.exists_eq_add_of_le
    · rw [second.outside _ (by omega), first.bytes k below]
    · rw [← Nat.add_assoc, second.bytes j (by omega), first.outside _ (by omega), later]

/-- Two whitening runs of the same array from one stream leave one stream and one memory. -/
theorem Whitens.unique {w : Whitener} {rdd dst src count bitofs : Nat} {s t u : State}
    (ht : Whitens w rdd dst src count bitofs s t) (hu : Whitens w rdd dst src count bitofs s u) :
    t.wh = u.wh ∧ ∀ x, t.lmem.readByte x = u.lmem.readByte x := by
  refine ⟨ht.stream.trans hu.stream.symm, fun x => ?_⟩
  by_cases outside : Outside dst count x
  · rw [ht.outside x outside, hu.outside x outside]
  · obtain ⟨k, rfl⟩ := Nat.exists_eq_add_of_le (show dst ≤ x by omega)
    rw [ht.bytes k (by omega), hu.bytes k (by omega)]

/-- Settles O40: both ways are one run over the whole array from the seeds of RDD. -/
theorem whiteningInTwoPiecesIsWhiteningTheWhole : Obligations.WhiteningInTwoPiecesIsWhiteningTheWhole := by
  intro s t u w rdd a m n bitofs hrdd fits run rest whole
  have fitsFirst : Fits s a m := by omega
  have fitsRest : Fits s (a + m) n := by omega
  have first := whitens_of_command hrdd fitsFirst fitsFirst run
  have second := whitens_of_command hrdd (first.fits fitsRest) (first.fits fitsRest) rest
  exact (first.append second).unique (whitens_of_command hrdd fits fits whole)

end Sys2Proof.Machine
end

section
/-! PROOFS. The interleaver and the deinterleaver are inverse (spec/43_interleaver.md R213 to R215): the rotation of an
index by its column and back, the two block functions over each other, and the two commands over LMEM. -/

namespace Sys2Proof.Machine

/-! The two rotations cancel -/

section
variable {p : Nat}

/-- Taking the column off a codeword index and adding it again (R212 after R211). -/
theorem rotate_after_unrotate {j : Nat} (hj : j < p) (k : Nat) : ((((j : Int) - k) % p).toNat + k) % p = j := by
  have nonneg : 0 ≤ ((j : Int) - k) % p := Int.emod_nonneg _ (by omega)
  zify
  rw [Int.toNat_of_nonneg nonneg, Int.emod_add_emod, sub_add_cancel]
  exact Int.emod_eq_of_lt (by omega) (by omega)

/-- Adding the column to a bit index and taking it off again (R211 after R212). -/
theorem unrotate_after_rotate {m : Nat} (hm : m < p) (k : Nat) : ((((m + k) % p : Nat) : Int) - k) % p = m := by
  rw [Int.natCast_mod, Int.emod_sub_emod, Nat.cast_add, add_sub_cancel_right]
  exact Int.emod_eq_of_lt (by omega) (by omega)

theorem unrotate_lt {j : Nat} (hj : j < p) (k : Nat) : (((j : Int) - k) % p).toNat < p := by
  have lt : ((j : Int) - k) % p < p := Int.emod_lt_of_pos _ (by omega)
  omega

end

/-! The two block functions -/

/-- The mask 2^n - 1 keeps the bits below n. -/
theorem getLsbD_and_lowMask {width : Nat} (x : BitVec width) (n i : Nat) :
    (x &&& BitVec.ofNat width (2 ^ n - 1)).getLsbD i = (decide (i < n) && x.getLsbD i) := by
  rw [BitVec.getLsbD_and, BitVec.getLsbD_ofNat, Nat.testBit_two_pow_sub_one]
  by_cases h : i < width
  · rw [decide_eq_true h, Bool.true_and, Bool.and_comm]
  · rw [BitVec.getLsbD_of_ge x i (by omega), Bool.false_and, Bool.and_false]

theorem getD_interleaveBlock {w k : Nat} (hk : k < w) (p : Nat) (cw : List Byte) :
    (interleaveBlock w p cw).getD k 0 = interleaveSymbol p k cw := by
  simp [interleaveBlock, hk]

theorem getD_deinterleaveBlock {p j : Nat} (hj : j < p) (w : Nat) (sym : List Symbol) :
    (deinterleaveBlock w p sym).getD j 0 = deinterleaveCodeword w p j sym := by
  simp [deinterleaveBlock, hj]

/-- Codeword `j` of a block, after interleaving and deinterleaving (R213). -/
theorem deinterleaveCodeword_interleaveBlock {w p j : Nat} (hw : w ≤ 8) (hp : p ≤ 16) (hj : j < p) (cw : List Byte) :
    deinterleaveCodeword w p j (interleaveBlock w p cw) = cw.getD j 0 &&& BitVec.ofNat 8 (2 ^ w - 1) := by
  refine BitVec.eq_of_getLsbD_eq fun k _ => ?_
  rw [getLsbD_deinterleaveCodeword hw, getLsbD_and_lowMask]
  by_cases hk : k < w
  · rw [getD_interleaveBlock hk, getLsbD_interleaveSymbol hp, decide_eq_true (unrotate_lt hj k), Bool.true_and,
      rotate_after_unrotate hj]
  · rw [decide_eq_false hk, Bool.false_and, Bool.false_and]

/-- Symbol `k` of a block, after deinterleaving and interleaving (R213). -/
theorem interleaveSymbol_deinterleaveBlock {w p k : Nat} (hw : w ≤ 8) (hp : p ≤ 16) (hk : k < w) (sym : List Symbol) :
    interleaveSymbol p k (deinterleaveBlock w p sym) = sym.getD k 0 &&& BitVec.ofNat 16 (2 ^ p - 1) := by
  refine BitVec.eq_of_getLsbD_eq fun m _ => ?_
  rw [getLsbD_interleaveSymbol hp, getLsbD_and_lowMask]
  by_cases hm : m < p
  · rw [getD_deinterleaveBlock (Nat.mod_lt _ (by omega)), getLsbD_deinterleaveCodeword hw, decide_eq_true hk,
      Bool.true_and, unrotate_after_rotate hm, Int.toNat_natCast]
  · rw [decide_eq_false hm, Bool.false_and, Bool.false_and]

/-- A list whose elements are those of `xs` under `f`, index by index. -/
theorem map_range_eq_map {α β : Type} {xs : List α} {n : Nat} (hlen : xs.length = n) (d : α) {f : α → β} {g : Nat → β}
    (h : ∀ i < n, g i = f (xs.getD i d)) : (List.range n).map g = xs.map f := by
  subst hlen
  refine List.ext_getElem (by simp) fun i hi _ => ?_
  have lt : i < xs.length := by simpa using hi
  rw [List.getElem_map, List.getElem_map, List.getElem_range, h i lt, List.getD_eq_getElem _ _ lt]

/-- Settles O43: element by element, the two rotations cancel. -/
theorem blockInterleavingRoundTrips : Obligations.BlockInterleavingRoundTrips := by
  intro p rdd _ hp hrdd
  have hw : 4 + rdd ≤ 8 := by omega
  have hp16 : p ≤ 16 := by omega
  exact ⟨
    fun cw length => map_range_eq_map length 0 fun j hj => deinterleaveCodeword_interleaveBlock hw hp16 hj cw,
    fun sym length => map_range_eq_map length 0 fun k hk => interleaveSymbol_deinterleaveBlock hw hp16 hk sym⟩

/-! The two commands -/

theorem length_blockAt_le {α : Type} (size b : Nat) (xs : List α) : (blockAt size b xs).length ≤ size :=
  List.length_take_le ..

/-- Block `b` of an array of images is the image of block `b`. -/
theorem blockAt_mapBlocks {α β : Type} {f : List α → List β} {k : Nat} (hf : ∀ xs, (f xs).length = k) (size : Nat)
    {nb b : Nat} (hb : b < nb) (xs : List α) : blockAt k b (mapBlocks f size nb xs) = f (blockAt size b xs) := by
  refine List.ext_getElem? fun i => ?_
  by_cases hi : i < k
  · rw [getElem?_blockAt b _ hi, getElem?_mapBlocks hf size hb hi]
  · have past : k ≤ i := Nat.le_of_not_lt hi
    rw [List.getElem?_eq_none ((length_blockAt_le ..).trans past), List.getElem?_eq_none ((hf _).trans_le past)]

/-- An element of the whole blocks is one of some block. -/
theorem exists_block_index {size nb k : Nat} (hk : k < nb * size) : ∃ b < nb, ∃ j < size, k = b * size + j := by
  have pos : 0 < size := Nat.pos_of_mul_pos_left (Nat.zero_lt_of_lt hk)
  exact ⟨k / size, (Nat.div_lt_iff_lt_mul pos).mpr hk, k % size, Nat.mod_lt k pos, (Nat.div_add_mod' k size).symm⟩

/-- Codeword `k` of an array of whole blocks, after interleaving and deinterleaving. -/
theorem getElem?_deinterleave_interleave {w p nb k : Nat} (hw : w ≤ 8) (hp : p ≤ 16) (hk : k < nb * p)
    {cw : List Byte} {c : Byte} (hc : cw[k]? = some c) :
    (mapBlocks (deinterleaveBlock w p) w nb (mapBlocks (interleaveBlock w p) p nb cw))[k]? =
      some (c &&& BitVec.ofNat 8 (2 ^ w - 1)) := by
  obtain ⟨b, hb, j, hj, rfl⟩ := exists_block_index hk
  rw [getElem?_deinterleave hb hj, blockAt_mapBlocks (length_interleaveBlock w p) p hb,
    deinterleaveCodeword_interleaveBlock hw hp hj, List.getD_eq_getElem?_getD, getElem?_blockAt b cw hj, hc]
  rfl

/-- The symbols just stored are the symbols loaded. -/
theorem loadU16s_of_store {s t : State} {a n : Nat} {xs ys : List Symbol}
    (store : t.lmem = s.lmem.writeBytes a (xs.flatMap symbolBytes)) (hlen : xs.length = n)
    (load : loadU16s t.lmem a n = .ok ys) : ys = xs := by
  obtain ⟨length, symbols⟩ := loadU16s_ok _ _ _ _ load
  refine List.ext_getElem (length.trans hlen.symm) fun i hi hx => Option.some.inj ?_
  obtain ⟨v, read, at_i⟩ := symbols i (length ▸ hi)
  have stored : t.lmem.read (a + 2 * i) 2 = .ok xs[i].toNat := symbolAt_of_store store (List.getElem?_eq_getElem hx)
  obtain rfl : xs[i].toNat = v := Except.ok.inj (stored.symm.trans read)
  rw [← List.getElem?_eq_getElem hi, at_i, BitVec.ofNat_toNat, BitVec.setWidth_eq]

/-- A command whose checks pass and that answers a next state has performed. -/
theorem performed_of_command_next {len : Nat} {cs : List Check} {perform : State → Except Fault State} {s t : State}
    (passes : ∀ c ∈ cs, c.holds = true) (h : command len cs perform s = .next t) :
    ∃ u, perform s = .ok u ∧ t = advance len u := by
  rcases (command_next ..).mp h with ⟨e, fails, -⟩ | ⟨-, performed⟩
  · rw [(firstFailure_eq_none cs).mpr passes] at fails
    cases fails
  · exact performed

section
variable {s t : State} {rdd dst src n nb : Nat} (hv : s.cfg.valid = true) (hrdd : rdd ≤ 4)
include hv hrdd

/-- What ILV of `nb` whole blocks leaves, where it goes on and no check fails (R214). -/
theorem ilv_performs (hnb : n / s.cfg.ppm.toNat = nb) (hdst : dst % 2 = 0) (fitsDst : Fits s dst (2 * (nb * (4 + rdd))))
    (fitsSrc : Fits s src (nb * s.cfg.ppm.toNat)) (h : exec (.ilv rdd dst src n) s = .next t) :
    ∃ cw, s.lmem.readBytes src (nb * s.cfg.ppm.toNat) = .ok cw ∧ t = advance 4
      (storeU16s dst (mapBlocks (interleaveBlock (4 + rdd) s.cfg.ppm.toNat) s.cfg.ppm.toNat nb cw) s) := by
  subst hnb
  have passes := interleaverChecks_pass hv hrdd hdst fitsDst fitsSrc
  rw [← Nat.mul_assoc] at passes
  obtain ⟨u, hu, rfl⟩ := performed_of_command_next passes h
  obtain ⟨cw, load, rfl⟩ := (interleaveArray_ok ..).mp hu
  exact ⟨cw, load, rfl⟩

/-- What DILV of `nb` whole blocks leaves, where it goes on and no check fails (R215). -/
theorem dilv_performs (hnb : n / (4 + rdd) = nb) (hsrc : src % 2 = 0) (fitsDst : Fits s dst (nb * s.cfg.ppm.toNat))
    (fitsSrc : Fits s src (2 * (nb * (4 + rdd)))) (h : exec (.dilv rdd dst src n) s = .next t) :
    ∃ sym, loadU16s s.lmem src (nb * (4 + rdd)) = .ok sym ∧ t = advance 4
      (storeU8s dst (mapBlocks (deinterleaveBlock (4 + rdd) s.cfg.ppm.toNat) (4 + rdd) nb sym) s) := by
  subst hnb
  have passes := interleaverChecks_pass hv hrdd hsrc fitsDst fitsSrc
  rw [← Nat.mul_assoc] at passes
  obtain ⟨u, hu, rfl⟩ := performed_of_command_next passes h
  obtain ⟨sym, load, rfl⟩ := (deinterleaveArray_ok ..).mp hu
  exact ⟨sym, load, rfl⟩

end

/-- Settles O44: DILV loads the symbols that ILV stored, and the block functions over each other keep the low bits. -/
theorem dilvUndoesIlv : Obligations.DilvUndoesIlv := by
  intro s t u rdd mid src dst nb hv hppm hrdd hmid fitsMid fitsSrc fitsDst ilv dilv k hk
  obtain ⟨cw, load, rfl⟩ := ilv_performs hv hrdd (Nat.mul_div_cancel nb hppm) hmid fitsMid fitsSrc ilv
  obtain ⟨sym, reload, rfl⟩ := dilv_performs (s := advance 4 (storeU16s mid _ s)) hv hrdd
    (Nat.mul_div_cancel nb (by omega)) hmid fitsDst fitsMid dilv
  obtain rfl := loadU16s_of_store rfl (length_mapBlocks _ _ _ _ (length_interleaveBlock _ _) cw) reload
  obtain ⟨length, bytes⟩ := (readBytes_eq_ok ..).mp load
  have hc : cw[k]? = some cw[k] := List.getElem?_eq_getElem (length ▸ hk)
  have kept := getElem?_deinterleave_interleave (w := 4 + rdd) (by omega) s.cfg.ppm.isLt.le hk hc
  exact ⟨cw[k], (bytes k hk).trans hc, byteAt_of_store rfl (kept.trans (congrArg some (and_keyMask cw[k] hrdd)))⟩

end Sys2Proof.Machine
end

section
/-! PROOFS. The laws of a full chirp and of the replica (spec/44_chirp.md R235, R238): a phase is the first phase plus
the frequencies so far, modulo U; over a full chirp the band positions are a rotation of 0..NN-1, and with OVS = 1 a
symbol adds FBIN to every frequency. -/

namespace Sys2Proof.Machine

/-- The sum of the frequencies of the samples before sample `k` (R232). -/
def frequencySum (c : Cfg) (fbin k : Nat) : Int := ((List.range k).map (chirpFrequency c fbin)).sum

section
variable (c : Cfg) (d : Direction) (fbin p : Nat)

theorem frequencySum_succ (k : Nat) :
    frequencySum c fbin (k + 1) = frequencySum c fbin k + chirpFrequency c fbin k := by
  simp [frequencySum, List.range_succ]

/-- Unrolled, the recurrence of R232 adds up the frequencies. -/
theorem chirpPhase_modEq (k : Nat) :
    (chirpPhase c d fbin p k : Int) ≡ p + d.sign * frequencySum c fbin k [ZMOD c.u] := by
  induction k with
  | zero => simp [chirpPhase, frequencySum]
  | succ k ih =>
    calc (chirpPhase c d fbin p (k + 1) : Int)
        ≡ chirpPhase c d fbin p k + d.sign * chirpFrequency c fbin k [ZMOD c.u] := by
          rw [chirpPhase_succ]
          exact Int.mod_modEq ..
      _ ≡ p + d.sign * frequencySum c fbin k + d.sign * chirpFrequency c fbin k [ZMOD c.u] := ih.add_right _
      _ = p + d.sign * frequencySum c fbin (k + 1) := by rw [frequencySum_succ]; ring

end

/-! The full chirp (R235) -/

/-- Adding a constant modulo `n` rotates 0..n-1. -/
theorem map_add_mod_range (a n : Nat) : ((List.range n).map fun k => (a + k) % n) = (List.range n).rotate a :=
  List.ext_getElem (by simp) fun k _ _ => by simp [List.getElem_rotate, Nat.add_comm]

/-- The band positions of a full chirp are a permutation of the band. -/
theorem bandPositions_perm (a n : Nat) : ((List.range n).map fun k => (a + k) % n).Perm (List.range n) :=
  map_add_mod_range a n ▸ List.rotate_perm ..

/-- Twice the sum of the first `m` positions, each less `h`. -/
theorem two_mul_sum_range_sub (h m : Nat) :
    2 * ((List.range m).map fun k : Nat => (k : Int) - h).sum = m * (m - 1) - 2 * m * h := by
  induction m with
  | zero => simp
  | succ m ih =>
    rw [List.range_succ, List.map_append, List.sum_append, mul_add, ih]
    push_cast [List.map_singleton, List.sum_singleton]
    ring

/-- NN is even where N is. -/
theorem two_dvd_nn {c : Cfg} (hsf : 1 ≤ c.sf.toNat) : 2 ∣ c.nn :=
  (dvd_pow_self 2 (Nat.ne_of_gt hsf)).mul_right _

/-- The frequencies of a full chirp add up to -NN/2: in band order they run from -NN/2 to NN/2 - 1. -/
theorem frequencySum_nn {c : Cfg} (hsf : 1 ≤ c.sf.toNat) (fbin : Nat) :
    frequencySum c fbin c.nn = -((c.nn / 2 : Nat) : Int) := by
  have inBandOrder : frequencySum c fbin c.nn =
      ((List.range c.nn).map fun k : Nat => (k : Int) - (c.nn / 2 : Nat)).sum := by
    have perm := (bandPositions_perm (fbin * c.ovs) c.nn).map fun k : Nat => (k : Int) - (c.nn / 2 : Nat)
    rw [List.map_map] at perm
    exact perm.sum_eq
  have doubled := two_mul_sum_range_sub (c.nn / 2) c.nn
  rw [← inBandOrder] at doubled
  obtain ⟨h, even⟩ := two_dvd_nn hsf
  rw [even, Nat.mul_div_cancel_left h (by decide)] at doubled ⊢
  push_cast at doubled
  linarith

/-- A full chirp ends -NN/2 steps of its direction away from where it began. -/
theorem chirpPhase_nn {c : Cfg} (d : Direction) (fbin : Nat) {p : Nat} (hsf : 1 ≤ c.sf.toNat) (hp : p < c.u) :
    (chirpPhase c d fbin p c.nn : Int) = (p - d.sign * (c.nn / 2 : Nat)) % c.u := by
  have below : chirpPhase c d fbin p c.nn < c.u := chirpEnd_eq c d fbin p c.nn ▸ chirpEnd_lt c d fbin c.nn p hp
  have shifted := chirpPhase_modEq c d fbin p c.nn
  rw [frequencySum_nn hsf, mul_neg, ← sub_eq_add_neg] at shifted
  rwa [Int.ModEq, Int.emod_eq_of_lt (by positivity) (by exact_mod_cast below)] at shifted

/-- A full chirp that fits LMEM completes, and PHASE holds its last phase. -/
theorem fullChirp_completes {i : Instr} {s : State} {d : Direction} {fbin dst : Nat}
    (hexec : exec i s = command 3 (chirpChecks fbin dst s.cfg.nn s) (chirpArray d fbin dst s.cfg.nn) s)
    (hv : s.cfg.valid = true) (hsf : 1 ≤ s.cfg.sf.toNat ∧ s.cfg.sf.toNat ≤ 12) (hfbin : fbin < s.cfg.n)
    (hp : s.phase.toNat < s.cfg.u) (hdst : dst % 8 = 0) (fits : Fits s dst (8 * s.cfg.nn)) :
    ∃ t, exec i s = .next t ∧
      (t.phase.toNat : Int) = (s.phase.toNat - d.sign * (s.cfg.nn / 2 : Nat)) % s.cfg.u := by
  have passes : ∀ c ∈ chirpChecks fbin dst s.cfg.nn s, c.holds = true := by simp [chirpChecks, hv, hfbin, hdst, fits]
  obtain ⟨t, completes, -, phase, -⟩ := chirpArray_completes hexec passes hsf.2
  exact ⟨t, completes, phase ▸ chirpPhase_nn d fbin hsf.1 hp⟩

/-- With OVS = 1, U is N and NN is N. -/
theorem u_nn_of_ovs_one {c : Cfg} (h : c.ovs = 1) : c.u = c.n ∧ c.nn = c.n := by simp [Cfg.u, Cfg.nn, h]

/-- Half a band down is half a band up, modulo an even band. -/
theorem sub_half_emod {n : Nat} (even : 2 ∣ n) (p : Nat) :
    ((p : Int) - (n / 2 : Nat)) % n = ((p + n / 2) % n : Nat) := by
  obtain ⟨h, rfl⟩ := even
  rw [Nat.mul_div_cancel_left h (by decide), Int.natCast_mod]
  have apart : ((2 * h : Nat) : Int) ∣ (p + h : Nat) - (p - h) := ⟨1, by push_cast; ring⟩
  exact Int.modEq_iff_dvd.mpr apart

/-- Settles O47: the frequencies of a full chirp, in band order, add up to -NN/2. -/
theorem fullChirpShiftsThePhaseByHalfABand : Obligations.FullChirpShiftsThePhaseByHalfABand := by
  intro s fbin dst hv hsf hsf' ovs n nn u hfbin hp hdst fits
  have sf : 1 ≤ s.cfg.sf.toNat ∧ s.cfg.sf.toNat ≤ 12 := by omega
  refine ⟨bandPositions_perm .., frequencySum_nn sf.1 fbin, ?_, ?_⟩
  · obtain ⟨t, completes, phase⟩ :=
      fullChirp_completes (exec_chirpUp fbin dst s.cfg.nn s) hv sf hfbin hp hdst (Or.inr fits)
    rw [Direction.sign, one_mul] at phase
    refine ⟨t, completes, phase, fun one => ?_⟩
    obtain ⟨hu, hnn⟩ := u_nn_of_ovs_one (c := s.cfg) one
    rw [hu, hnn, sub_half_emod (hnn ▸ two_dvd_nn sf.1)] at phase
    exact Int.natCast_inj.mp phase
  · obtain ⟨t, completes, phase⟩ :=
      fullChirp_completes (exec_chirpDn fbin dst s.cfg.nn s) hv sf hfbin hp hdst (Or.inr fits)
    rw [Direction.sign, neg_one_mul, sub_neg_eq_add] at phase
    exact ⟨t, completes, by exact_mod_cast phase⟩

/-! The replica (R238) -/

/-- With OVS = 1, FBIN shifts every frequency by itself, modulo U. -/
theorem chirpFrequency_modEq {c : Cfg} (h : c.ovs = 1) (fbin k : Nat) :
    chirpFrequency c fbin k ≡ fbin + chirpFrequency c 0 k [ZMOD c.u] := by
  obtain ⟨hu, hnn⟩ := u_nn_of_ovs_one h
  have position : (((fbin + k) % c.n : Nat) : Int) ≡ fbin + ((k % c.n : Nat) : Int) [ZMOD c.n] := by
    push_cast
    exact (Int.mod_modEq ..).trans ((Int.mod_modEq ..).symm.add_left _)
  rw [chirpFrequency, chirpFrequency, hu, hnn, h, mul_one, zero_mul, zero_add, ← add_sub_assoc]
  exact position.sub_right _

/-- With OVS = 1, FBIN turns the phase by itself at every sample. -/
theorem frequencySum_modEq {c : Cfg} (h : c.ovs = 1) (fbin k : Nat) :
    frequencySum c fbin k ≡ fbin * k + frequencySum c 0 k [ZMOD c.u] := by
  induction k with
  | zero => simp [frequencySum]
  | succ k ih =>
    rw [frequencySum_succ, frequencySum_succ]
    calc _ ≡ fbin * k + frequencySum c 0 k + (fbin + chirpFrequency c 0 k) [ZMOD c.u] :=
          ih.add (chirpFrequency_modEq h fbin k)
      _ = _ := by push_cast; ring

section
variable {c : Cfg} (h : c.ovs = 1) (f pa pb k : Nat)
include h

/-- An upchirp at FBIN `f` against the replica's frequencies. -/
theorem chirpPhase_up_modEq :
    (chirpPhase c .up f pa k : Int) ≡ pa + f * k + frequencySum c 0 k [ZMOD c.u] := by
  have phase := chirpPhase_modEq c .up f pa k
  rw [Direction.sign, one_mul] at phase
  exact (phase.trans ((frequencySum_modEq h f k).add_left _)).trans (by rw [add_assoc])

/-- An upchirp times the downchirp replica: the frequencies of the replica cancel. -/
theorem chirpPhase_up_add_down :
    (chirpPhase c .up f pa k + chirpPhase c .down 0 pb k : Int) ≡ pa + pb + f * k [ZMOD c.u] := by
  calc _ ≡ pa + f * k + frequencySum c 0 k + (pb + Direction.down.sign * frequencySum c 0 k) [ZMOD c.u] :=
        (chirpPhase_up_modEq h f pa k).add (chirpPhase_modEq c .down 0 pb k)
    _ = _ := by rw [Direction.sign]; ring

/-- An upchirp times the conjugate of the upchirp replica: the frequencies of the replica cancel. -/
theorem chirpPhase_up_sub_up :
    (chirpPhase c .up f pa k - chirpPhase c .up 0 pb k : Int) ≡ pa - pb + f * k [ZMOD c.u] := by
  calc _ ≡ pa + f * k + frequencySum c 0 k - (pb + (0 : Nat) * k + frequencySum c 0 k) [ZMOD c.u] :=
        (chirpPhase_up_modEq h f pa k).sub (chirpPhase_up_modEq h 0 pb k)
    _ = _ := by push_cast; ring

end

/-- Settles O48: the three phases are those of the recurrence, and the replica's frequencies cancel. -/
theorem dechirpedPhaseIsAToneAtTheSymbolsBin : Obligations.DechirpedPhaseIsAToneAtTheSymbolsBin := by
  intro c f pa pb k hovs _ _ _ hk
  have one : c.ovs = 1 := by simp [Cfg.ovs, hovs]
  have hu : c.u = 2 ^ c.sf.toNat := (u_nn_of_ovs_one one).1
  have product := chirpPhase_up_add_down one f pa pb (k + 1)
  have difference := chirpPhase_up_sub_up one f pa pb (k + 1)
  rw [hu] at product difference
  refine ⟨_, _, _, getElem?_chirpPhases _ _ _ _ hk, getElem?_chirpPhases _ _ _ _ hk,
    getElem?_chirpPhases _ _ _ _ hk, ?_, ?_⟩
  · exact_mod_cast product
  · exact_mod_cast difference

end Sys2Proof.Machine
end

section
/-! PROOFS. An SRST while a command runs (R331, R332): LMEM after it, byte by byte, and the statement of old or new
bytes. -/

namespace Sys2Proof.Machine

/-- A byte of a blend: the free value of its address chooses, and a byte the new memory lacks stays without a value. -/
theorem readByte_blend (abort : Nat) (old new : Memory) (a : Nat) :
    (blend abort old new).readByte a =
      (new.readByte a).bind fun b => if Config.abortWrites abort a then some b else old.readByte a := by
  induction new with
  | nil => rfl
  | cons c new ih =>
    rw [blend, List.filterMap_cons, ← blend]
    by_cases here : c.1 = a
    · subst here
      cases takesNew : Config.abortWrites abort c.1 with
      | true => simp [readByte_cons]
      | false =>
        cases oldByte : old.readByte c.1 with
        | some b => simp [readByte_cons]
        | none => simp [readByte_cons, oldByte, ih, takesNew]
    · cases Config.abortWrites abort c.1 with
      | true => simp [readByte_cons, here, ih]
      | false => cases old.readByte c.1 <;> simp [readByte_cons, here, ih]

/-- R332: each byte of a blend is the old one or the new one. -/
theorem readByte_blend_old_or_new (abort : Nat) (old new : Memory) (a : Nat) :
    (blend abort old new).readByte a = old.readByte a ∨ (blend abort old new).readByte a = new.readByte a := by
  rw [readByte_blend]
  cases new.readByte a with
  | none => exact .inr rfl
  | some b =>
    rw [Option.bind_some]
    split
    · exact .inr rfl
    · exact .inl rfl

/-- An SRST while idle is a soft reset. -/
theorem abortingReset_idle {s : State} (hm : s.mode = .idle) : abortingReset s = .next (softReset s) := by
  rw [abortingReset, hm]

/-- An SRST during a command resets every register and blends the command's LMEM with the old one. -/
theorem abortingReset_run {s u : State} (hm : s.mode = .run) (hu : runCommand s = .next u) :
    abortingReset s =
      .next { softReset s with lmem := blend s.aborts s.lmem u.lmem, aborts := s.aborts + 1 } := by
  rw [abortingReset, hm, hu]

/-- Settles O17: the registers are those of a soft reset, and LMEM is a blend of the old and the new one. -/
theorem abortedCommandLeavesOldOrNewBytes : Obligations.AbortedCommandLeavesOldOrNewBytes := by
  intro s rest turns
  rw [step_of_turn s _ rest turns]
  refine ⟨fun idle => ?_, fun u run _ hu => ?_⟩
  · exact abortingReset_idle (s := { s with turns := rest }) idle
  · exact ⟨_, abortingReset_run (s := { s with turns := rest }) run hu, rfl,
      readByte_blend_old_or_new s.aborts s.lmem u.lmem⟩

end Sys2Proof.Machine
end
